-- ==== Sys2Proof/Word.lean ====
section
/-! DEFINITION. The byte, text as a list of bytes, and the two small name sets that commands carry as operands. -/

namespace Sys2Proof

/-- The smallest unit of the journal memory, of a parcel and of a settings image (R1, R39, R190). -/
abbrev Byte := BitVec 8

/-- A run of character codes or bytes. -/
abbrev Text := List Byte

/-- The two parse contexts of the Directive Unit (section 10): LINE reads station text, LOCAL reads service lines. -/
inductive Ctx where
  | line
  | service
deriving DecidableEq, Repr

/-- The two sensors of R160. -/
inductive Sensor where
  | paper
  | lid
deriving DecidableEq, Repr

/-- The codes of an ASCII text, as the notices and the local answers print them. -/
def ascii (s : String) : Text := s.toList.map fun c => BitVec.ofNat 8 c.toNat

end Sys2Proof
end

