-- ==== Sys2Proof/Syntax.lean ====
section
/-! DEFINITION. The commands of the block: one constructor for every row of spec/opcode_table.json, in its order.
The rows from QS on are directives: `ctx` is the parse context that begins it, `tag` its two-digit tag, and `args` its arguments
as the characters between the commas (section 10.2). Log entry 6 says how a command stands to the events inside the part. -/

namespace Sys2Proof

inductive Instr where
  /-- POWER_ON: R186. The battery, the thermistor and the two sensor reports as start-up finds them. -/
  | powerOn (millivolts : Nat) (celsius : Int) (paperAbsent lidOpen : Bool)
  /-- BATTERY_REMOVED: R1. Bit i of `landed`: byte i of a write burst in progress holds its new value. -/
  | batteryRemoved (landed : BitVec 8)
  /-- CARRIER_PRESENT: R21, R27, R28, R31. The carrier indication turns present: the high-band energy rises above the threshold. -/
  | carrierPresent
  /-- CARRIER_ABSENT: R21, R27, R28, R30. The carrier indication turns absent: the high-band energy falls to the threshold or
  below. -/
  | carrierAbsent
  /-- DETECT_GAP_EXPIRY: R27. A gap in DETECT passes 100 ms. -/
  | detectGapExpiry
  /-- CONFIRMATION_COMPLETE: R27. The confirmation reaches 1.0 s. -/
  | confirmationComplete
  /-- LISTEN_TIMER_EXPIRY: R26. -/
  | listenTimerExpiry
  /-- SETTLE_TIMER_EXPIRY: R28. -/
  | settleTimerExpiry
  /-- CARRIER_LOSS: R28, R30. An absent indication has lasted over 100 ms. -/
  | carrierLoss
  /-- CARRIER_REGAINED: R31. The indication has stood present for 100 ms in FADE. -/
  | carrierRegained
  /-- FADE_TIMER_EXPIRY: R31. -/
  | fadeTimerExpiry
  /-- CLEARING_TIMER_EXPIRY: R34. -/
  | clearingTimerExpiry
  /-- CHARACTER_RECEIVED: R22. The eight data bits and whether the stop bit was space. -/
  | characterReceived (code : Byte) (framingError : Bool)
  /-- CHARACTER_SENT: R23. The stop bit of the held character has ended. -/
  | characterSent
  /-- CLOSE_TIMER_EXPIRY: R41. -/
  | closeTimerExpiry
  /-- RECEIVE_TEXT: R44. A TEXT parcel from the station is judged with these fields. -/
  | receiveText (seq : Byte) (body : Text)
  /-- RECEIVE_ACK: R49. -/
  | receiveAck (seq : Byte)
  /-- RECEIVE_NAK: R50. -/
  | receiveNak (seq : Byte)
  /-- RECEIVE_HOLD: R57. The duration its serial/tag field carries. -/
  | receiveHold (seconds : BitVec 16)
  /-- RECEIVE_RESUME: R57. -/
  | receiveResume
  /-- RECEIVE_ACCEPT: R114. -/
  | receiveAccept (serial : BitVec 16)
  /-- RECEIVE_REJECT: R114. -/
  | receiveReject (serial : BitVec 16) (code : Byte) (reason : Text)
  /-- RECEIVE_CLEAR: R32. -/
  | receiveClear
  /-- ACK_TIMER_EXPIRY: R51. -/
  | ackTimerExpiry
  /-- NAK_SPACING_EXPIRY: R43. -/
  | nakSpacingExpiry
  /-- REMINDER_SPACING_EXPIRY: R44. -/
  | reminderSpacingExpiry
  /-- STATION_HOLD_EXPIRY: R57. -/
  | stationHoldExpiry
  /-- BURST_COMPLETE: R10. The burst in progress on the journal memory bus completes. -/
  | burstComplete
  /-- SCAN_START: R63. -/
  | scanStart
  /-- MEASUREMENT_END: R62. The eight counts of the group, in pad order. -/
  | measurementEnd (counts : List (BitVec 12))
  /-- GANGED_MEASUREMENT: R73. The count of the combined pad. -/
  | gangedMeasurement (count : BitVec 12)
  /-- WAKE_WAIT_EXPIRY: R74. -/
  | wakeWaitExpiry
  /-- KEY_CHAR: R86. The composer takes the CHAR at the front of the typeahead queue. -/
  | keyChar
  /-- ENTER: R89. The composer takes the ENTER at the front of the typeahead queue. -/
  | enter
  /-- TAB: R88. -/
  | tab
  /-- RUB: R90. -/
  | rub
  /-- CANCEL: R91. -/
  | cancel
  /-- NEW_ORDER: R85. -/
  | newOrder
  /-- NOTE: R85. -/
  | note
  /-- SEND: R84. -/
  | send
  /-- DISCARD: R84, R109. -/
  | discard
  /-- FEED: R84. -/
  | feed
  /-- SERVICE: R84. -/
  | service
  /-- FLUSH_TAKE: R105. -/
  | flushTake
  /-- FLUSH_WAIT_TIMER_EXPIRY: R94. -/
  | flushWaitTimerExpiry
  /-- ENTRY_CLOSE: R95, R108. -/
  | entryClose
  /-- ACCEPT_TIMER_EXPIRY: R113. The accept timer of the entry in this table slot. -/
  | acceptTimerExpiry (slot : Nat)
  /-- LINE_INPUT_BYTE: R168. The LINE context takes the front byte of the line input queue. -/
  | lineInputByte
  /-- LINE_IDLE_TIMER_EXPIRY: R131. -/
  | lineIdleTimerExpiry
  /-- WARM_PHASE_END: R149. Strobe group 1–8. -/
  | warmPhaseEnd (group : Nat)
  /-- STROBE_END: R149. Strobe group 1–8. -/
  | strobeEnd (group : Nat)
  /-- FEED_STEP_END: R166. The thermistor as a row start in this step samples it (R158). -/
  | feedStepEnd (celsius : Int)
  /-- TEMPERATURE_SAMPLE: R158. -/
  | temperatureSample (celsius : Int)
  /-- SENSOR_CHANGE: R160. The new report; `bad`: paper absent, or lid open. -/
  | sensorChange (sensor : Sensor) (bad : Bool)
  /-- SENSOR_REPORT_TAKEN: R160. -/
  | sensorReportTaken (sensor : Sensor)
  /-- PAUSE_TIMER_EXPIRY: R167. -/
  | pauseTimerExpiry
  /-- BATTERY_SAMPLE: R180. -/
  | batterySample (millivolts : Nat)
  /-- DOZE_IDLE_TIMER_EXPIRY: R182. -/
  | dozeIdleTimerExpiry
  /-- SETTINGS_WRITE_COMPLETE: R185. -/
  | settingsWriteComplete
  /-- DISPLAY_FRAME_END: R100. -/
  | displayFrameEnd
  /-- ALERT_END: R101. -/
  | alertEnd
  /-- QS: R177. -/
  | qs (ctx : Ctx) (tag : Nat) (args : List Text)
  /-- QE: R125. -/
  | qe (ctx : Ctx) (tag : Nat) (args : List Text)
  /-- QM: R17. -/
  | qm (ctx : Ctx) (tag : Nat) (args : List Text)
  /-- QT: R178. -/
  | qt (ctx : Ctx) (tag : Nat) (args : List Text)
  /-- FD: R139. -/
  | fd (ctx : Ctx) (tag : Nat) (args : List Text)
  /-- PD: R156. -/
  | pd (ctx : Ctx) (tag : Nat) (args : List Text)
  /-- LC: R153. -/
  | lc (ctx : Ctx) (tag : Nat) (args : List Text)
  /-- LG: R154. -/
  | lg (ctx : Ctx) (tag : Nat) (args : List Text)
  /-- LH: R155. -/
  | lh (ctx : Ctx) (tag : Nat) (args : List Text)
  /-- LF: R97. -/
  | lf (ctx : Ctx) (tag : Nat) (args : List Text)
  /-- EF: R98. -/
  | ef (ctx : Ctx) (tag : Nat) (args : List Text)
  /-- KL: R81. -/
  | kl (ctx : Ctx) (tag : Nat) (args : List Text)
  /-- KU: R81. -/
  | ku (ctx : Ctx) (tag : Nat) (args : List Text)
  /-- XS: R123. -/
  | xs (ctx : Ctx) (tag : Nat) (args : List Text)
  /-- XH: R123. -/
  | xh (ctx : Ctx) (tag : Nat) (args : List Text)
  /-- XD: R124. -/
  | xd (ctx : Ctx) (tag : Nat) (args : List Text)
  /-- LK: R82. -/
  | lk (ctx : Ctx) (tag : Nat) (args : List Text)
  /-- LS: R75. -/
  | ls (ctx : Ctx) (tag : Nat) (args : List Text)
  /-- SR: R13–R16. -/
  | sr (ctx : Ctx) (tag : Nat) (args : List Text)
  /-- SV: R179. -/
  | sv (ctx : Ctx) (tag : Nat) (args : List Text)
  /-- WM: R18, R19. -/
  | wm (ctx : Ctx) (tag : Nat) (args : List Text)
  /-- WS: R185. -/
  | ws (ctx : Ctx) (tag : Nat) (args : List Text)
  /-- RT: R187. -/
  | rt (ctx : Ctx) (tag : Nat) (args : List Text)
  /-- PS: R175. -/
  | ps (ctx : Ctx) (tag : Nat) (args : List Text)
deriving DecidableEq, Repr

end Sys2Proof
end

