-- ==== Sys2Proof/WellFormed.lean ====
section
/-! DEFINITION. Well-formed commands: operands within what the rules let the outside produce. -/

namespace Sys2Proof

/-- The checks a command can fail; each names what is out of its range. -/
inductive WfError where
  /-- A sequence number is 0–7 (R38). -/
  | sequence
  /-- A parcel body is 0–48 bytes, a reject reason text 0–24 (Table 12.1, R38). -/
  | body
  /-- A reject reason code is 1–99 (R38). -/
  | reasonCode
  /-- A measurement gives eight counts (R62). -/
  | counts
  /-- A table slot is 1–32 (R102). -/
  | slot
  /-- A strobe group is 1–8 (Table 8.1). -/
  | group
  /-- A temperature is a whole number that QS can report, −128 to 127 (Table 12.4). -/
  | temperature
  /-- A tag is two digits (section 10.2). -/
  | tag
deriving DecidableEq, Repr

/-- A check that passes, or the error. -/
def ensure (ok : Bool) (e : WfError) : Except WfError Unit := if ok then .ok () else .error e

/-- A temperature in range. -/
def celsiusOk (c : Int) : Bool := decide (-128 ≤ c ∧ c ≤ 127)

/-- Checks a command's operands. -/
def Instr.check : Instr → Except WfError Unit
  | .powerOn _ c _ _ => ensure (celsiusOk c) .temperature
  | .receiveText q b => do
    ensure (q.toNat ≤ 7) .sequence
    ensure (b.length ≤ 48) .body
  | .receiveAck q => ensure (q.toNat ≤ 7) .sequence
  | .receiveNak q => ensure (q.toNat ≤ 7) .sequence
  | .receiveReject _ code r => do
    ensure (1 ≤ code.toNat && code.toNat ≤ 99) .reasonCode
    ensure (r.length ≤ 24) .body
  | .measurementEnd counts => ensure (counts.length == 8) .counts
  | .acceptTimerExpiry n => ensure (1 ≤ n && n ≤ 32) .slot
  | .warmPhaseEnd g => ensure (1 ≤ g && g ≤ 8) .group
  | .strobeEnd g => ensure (1 ≤ g && g ≤ 8) .group
  | .feedStepEnd c => ensure (celsiusOk c) .temperature
  | .temperatureSample c => ensure (celsiusOk c) .temperature
  | .qs _ t _ | .qe _ t _ | .qm _ t _ | .qt _ t _ | .fd _ t _ | .pd _ t _ | .lc _ t _ | .lg _ t _ | .lh _ t _ | .lf _ t _
  | .ef _ t _ | .kl _ t _ | .ku _ t _ | .xs _ t _ | .xh _ t _ | .xd _ t _ | .lk _ t _ | .ls _ t _ | .sr _ t _ | .sv _ t _
  | .wm _ t _ | .ws _ t _ | .rt _ t _ | .ps _ t _ => ensure (t ≤ 99) .tag
  | _ => .ok ()

/-- Is a command well-formed? -/
def Instr.wf (i : Instr) : Bool :=
  match i.check with
  | .ok _ => true
  | .error _ => false

end Sys2Proof
end

