-- ==== Sys2Proof/Config.lean ====
section
/-! DEFINITION. What one part fixes and the manual does not state: opaque constants, so that no proof can see a value. -/

namespace Sys2Proof.Config

/-- The glyph ROM (R142): row `r` (0–11) of glyph index `g` (0–127).
The manual gives the shapes of no glyph but glyph 32, which has no dot; see log entry 3. -/
opaque glyphRom (g r : Nat) : Byte

/-- Which bytes of a write burst in progress hold their new values when the power latch is released (R10, R181).
The manual says this only for the removal of the battery (R1); `n` is the model's counter of fresh values, see log entry 4. -/
opaque latchTear (n : Nat) : BitVec 8

/-- How far the high-band energy passes the carrier threshold where the carrier indication turns (R21), in tenths of a decibel.
The manual says only on which side of the threshold it lies; `n` is the model's counter of fresh values, see log entry 42. -/
opaque carrierEnergy (n : Nat) : Nat

end Sys2Proof.Config
end

