-- ==== Sys2Proof/Machine/Types.lean ====
section
/-! DEFINITION. The types of the state's parts, block by block: names for modes and kinds, and a record for each table row
the manual lays out. Each record's docstring names the rule that gives its fields. -/

namespace Sys2Proof.Machine

/-! ## Journal memory and its controller -/

/-- The journal memory (R1): (address, byte) pairs in canonical form, addresses rising, no entry equal to what an unlisted
address reads as (log entry 7). -/
abbrev Memory := List Host.Cell

/-- A region of journal memory (R3). -/
structure Region where
  base : Nat
  size : Nat
deriving DecidableEq, Repr

/-- The four movable regions (R3). DIRECTORY is bytes 0–511 always (R2). -/
structure RegionMap where
  glyph : Region
  form : Region
  inbound : Region
  spool : Region
deriving DecidableEq, Repr

/-- A ring's tail, head and full flag (section 1.2, R6). -/
structure RingState where
  tail : Nat
  head : Nat
  full : Bool
deriving DecidableEq, Repr

/-- The two rings. -/
inductive RingName where
  | inbound
  | spool
deriving DecidableEq, Repr

/-- Where a burst goes: a ring and offset, or a memory address (R9, R10). -/
inductive Place where
  | ring (r : RingName) (offset : Nat)
  | addr (a : Nat)
deriving DecidableEq, Repr

/-- The four requesters of Table 1.3, in the arbiter's fixed order (R11). -/
inductive Requester where
  | hdu
  | pe
  | spu
  | du
deriving DecidableEq, Repr

/-- A send slot's name (R48). -/
inductive SlotId where
  | a
  | b
deriving DecidableEq, Repr

/-- What a requester does with its burst when it completes; every use of Table 1.3 is one of these. -/
inductive Purpose where
  /-- HDU: text bytes of the row being built (R145). -/
  | rowText
  /-- HDU: one overlay row byte for this column, 0–39 (R145). -/
  | glyphRow (column : Nat)
  /-- HDU: overlay glyphs of an LG (R154). -/
  | loadGlyphs
  /-- PE: body bytes of a LOADING slot (R48). -/
  | slotBody (slot : SlotId)
  /-- SPU: the burst of the work in progress (R118). -/
  | spoolWork
  /-- DU: a directive's burst (R17, R19, R97, R98, R15). -/
  | directive (c : Ctx)
  /-- DU: taken inbound bytes (R133). -/
  | inboundText
deriving DecidableEq, Repr

/-- A burst of 1–8 bytes (R9, R10). `data` is what a write carries. -/
structure Burst where
  write : Bool
  place : Place
  count : Nat
  data : Text
  purpose : Purpose
deriving DecidableEq, Repr

/-- The burst in progress; `wanted` is false when the requester discards a read's data (R10). -/
structure CurrentBurst where
  who : Requester
  burst : Burst
  wanted : Bool
deriving DecidableEq, Repr

/-- A requester's waiting burst and pass-over count (R10, R11). -/
structure BusReq where
  waiting : Option Burst
  passed : Nat
deriving DecidableEq, Repr

/-- The arbiter's state (Table 1.5). -/
structure Jmc where
  current : Option CurrentBurst
  hdu : BusReq
  pe : BusReq
  spu : BusReq
  du : BusReq
deriving DecidableEq, Repr

/-! ## Coupler line -/

/-- The seven line states (Table 2.2). -/
inductive LineState where
  | off
  | listen
  | detect
  | settle
  | ready
  | fade
  | clearing
deriving DecidableEq, Repr

/-- The clearing causes (section 2.2). -/
inductive ClearCause where
  | user
  | cleared
  | linkFailure
  | restart
  | power
deriving DecidableEq, Repr

/-- The last end cause (section 2.2): none, a clearing cause, or CARRIER LOST. -/
inductive EndCause where
  | none
  | clear (c : ClearCause)
  | carrierLost
deriving DecidableEq, Repr

/-- The receiver's states (R22), in the order a character goes through them. Between two commands it stands in `hunting` or in
`awaitMark` (log entry 31). -/
inductive Receiver where
  /-- It waits for a change from mark to space. -/
  | hunting
  /-- The change has come: the middle of the start bit confirms it, or shows a false start. -/
  | start
  /-- The start bit is confirmed: the data bits read so far, mark as true. -/
  | data (bits : List Bool)
  /-- Eight data bits read: the stop bit follows. -/
  | stop (code : Byte)
  /-- After a framing error: it waits for a bit time of mark. -/
  | awaitMark
deriving DecidableEq, Repr

/-- What the receiver hears (R20, R22). -/
inductive Sound where
  /-- The line's change from mark to space. -/
  | fall
  /-- At the middle of a bit: how strong the high-band mark tone and the high-band space tone are. -/
  | level (mark space : Nat)
deriving DecidableEq, Repr

/-- The Coupler Line Unit (R20–R37). A timer is none or the value it was started from; the flags say what is being timed. -/
structure Clu where
  line : LineState
  carrier : Bool
  receiver : Receiver
  txChar : Option Byte
  listenTimer : Option Nat
  confirming : Bool
  gap : Bool
  settleTimer : Bool
  lossGap : Bool
  fadeTimer : Option Nat
  regain : Bool
  clearingTimer : Bool
  clearingCause : Option ClearCause
  lastEnd : EndCause
  framingErrors : Byte
  fades : Byte
deriving DecidableEq, Repr

/-! ## Parcels -/

/-- The parcel kinds of Table 3.1. -/
inductive ParcelKind where
  | text
  | report
  | ack
  | nak
  | hold
  | resume
  | accept
  | reject
  | clear
deriving DecidableEq, Repr

/-- A parcel's fields (Table 12.1). -/
structure Parcel where
  kind : ParcelKind
  seq : Byte
  serial : BitVec 16
  index : Byte
  last : Bool
  body : Text
deriving DecidableEq, Repr

/-- The receive assembler's states (section 3.2). -/
inductive AsmState where
  | hunting
  | header
  | body
  | check
  | closeWait
deriving DecidableEq, Repr

/-- The receive assembler (R40, R41): header, body and check bytes so far with escapes undone, the framing mark,
whether an escape is held back, whether one was bad, and the close timer. -/
structure Assembler where
  state : AsmState
  bytes : Text
  framing : Bool
  escape : Bool
  badEscape : Bool
  closeTimer : Bool
deriving DecidableEq, Repr

/-- The judgment of a received parcel (R41). -/
inductive Judgment where
  | short
  | long
  | framing
  | badCheck
  | good
deriving DecidableEq, Repr

/-- The parcel a send slot holds (R47, R48): a REPORT or a TEXT parcel, its serial or tag, its index, LAST, its length, and
the body bytes held so far. -/
structure SlotParcel where
  report : Bool
  serial : Nat
  index : Nat
  last : Bool
  length : Nat
  body : Text
deriving DecidableEq, Repr

/-- A send slot (R48). `ending` is a slot whose parcel was acknowledged while in transmission: it becomes FREE when its
transmission ends (R49, log entry 13). -/
inductive SendSlot where
  | free
  | loading (p : SlotParcel) (offset : Nat)
  | filled (p : SlotParcel)
  | outstanding (p : SlotParcel) (seq : BitVec 3) (attempts : Nat) (resendDue inTx : Bool)
  | ending
deriving DecidableEq, Repr

/-- A queued report (R46): its tag, body, and the index of its next parcel to be placed. -/
structure Report where
  tag : Nat
  body : Text
  filled : Nat
deriving DecidableEq, Repr

/-- The SENDING entry as the Parcel Engine's source (R47, R53): its serial, span, and the index of its next parcel. -/
structure Source where
  serial : Nat
  start : Nat
  length : Nat
  filled : Nat
deriving DecidableEq, Repr

/-- The terminal's control parcels (R55). -/
inductive Control where
  | ack (seq : BitVec 3)
  | nak (seq : BitVec 3)
  | reminder
  | hold
  | resume
  | clear
deriving DecidableEq, Repr

/-- What is in transmission (R54). -/
inductive TxItem where
  | control (c : Control)
  | slot (s : SlotId)
deriving DecidableEq, Repr

/-- A parcel in transmission and its characters not yet handed to the CLU (R39). -/
structure Transmission where
  item : TxItem
  rest : Text
deriving DecidableEq, Repr

/-- The Parcel Engine (R38–R61). `held` is the flow state HELD (R56). -/
structure Pe where
  asm : Assembler
  expected : BitVec 3
  nextSeq : BitVec 3
  nakRecord : Option (BitVec 3)
  nakTimer : Option Nat
  reminderTimer : Option Nat
  slotA : SendSlot
  slotB : SendSlot
  older : SlotId
  ackTimer : Option Nat
  tx : Option Transmission
  control : List Control
  reports : List Report
  source : Option Source
  held : Bool
  stationHold : Bool
  holdTimer : Option Nat
  good : Byte
  bad : Byte
  duplicates : Byte
  refused : Byte
  resends : Byte
  stray : Byte
deriving DecidableEq, Repr

/-! ## Print tables -/

/-- A code table entry (R143). -/
inductive CodeKind where
  | glyph (index : Nat)
  | lineEnd
  | tab
  | ignored
  | substitute
deriving DecidableEq, Repr

/-- A taken print-table load (R152–R156), with what it will put in force. -/
inductive Load where
  /-- LC with no argument: every entry to its default. -/
  | codesDefault
  /-- LC: entries from this code on. -/
  | codes (first : Nat) (entries : List CodeKind)
  /-- LG: glyphs from this index on, 12 bytes each. -/
  | glyphs (first : Nat) (rows : Text)
  /-- LH: one row of the heat table. -/
  | heat (row high mid low : Nat)
  /-- PD: density code and, if given, warm ratio. -/
  | density (code : Nat) (warm : Option Nat)
deriving DecidableEq, Repr

/-! ## Directives -/

/-- The outcomes of Table 10.1. -/
inductive Outcome where
  | done
  | unknown
  | malformed
  | range
  | prot
  | inUse
  | busy
  | tooLong
  | notReady
deriving DecidableEq, Repr

/-- The directives of Table 10.2. -/
inductive Dir where
  | qs | qe | qm | qt | fd | pd | lc | lg | lh | lf | ef | kl | ku | xs | xh | xd | lk | ls | sr | sv | wm | ws | rt | ps
deriving DecidableEq, Repr

/-- The protection classes (R174, R175). PS has none. -/
inductive ProtClass where
  | query
  | print
  | forms
  | spool
  | keys
  | system
deriving DecidableEq, Repr

/-- A form slot's status (section 5.4). -/
inductive FormStatus where
  | empty
  | building
  | loaded
deriving DecidableEq, Repr

/-- What a local directive was whose answer lines are still being placed, and which LOCAL is still executing so long (R173): an LF or
EF for a slot (R97, R98), an SR (R170 check 4), or another one or a refused one, which no check asks about (log entry 57). -/
inductive Answered where
  | other
  | form (slot : Nat)
  | regions
deriving DecidableEq, Repr

/-- A directive that is executing (R171, R173), with what remains of it. -/
inductive Job where
  /-- FD: its FEED claim waits (R139). -/
  | feedClaim
  /-- LC, LG, LH, PD: the load waits or is being applied (R152). -/
  | load
  /-- QM: start, length, bytes read so far (R17). -/
  | reading (start length : Nat) (got : Text)
  /-- WM: bursts still to complete (R19). -/
  | writing (todo : List (Nat × Text))
  /-- LF, EF: bursts still to complete, the slot 1–4, and the status it takes at the end if any (R97, R98). -/
  | form (todo : List (Nat × Text)) (slot : Nat) (becomes : Option FormStatus)
  /-- SR: empty-slot marks still to write; the header rewrite it also waits for is the Spool Unit's `srGate` (R15). -/
  | regions (todo : List (Nat × Text))
  /-- WS: the settings memory is being written (R185). -/
  | settings
  /-- A local directive whose answer lines are being placed (R173). -/
  | answering (a : Answered)
  /-- A directive whose claim the Spool Unit does not take while it secures the journal (R122). -/
  | unanswered
  /-- A local RT on its way (R187). -/
  | restart
deriving DecidableEq, Repr

/-- A line of a local answer: fixed text, or for QE an entry's item or reason, built when the line is offered (R125). -/
inductive AnswerLine where
  | text (t : Text)
  | entryItem (slot : Nat)
  | entryReason (slot : Nat)
deriving DecidableEq, Repr

/-- The LINE context's states (R168). -/
inductive LineCtxState where
  | idle
  | collecting
  | executing
deriving DecidableEq, Repr

/-- The LINE context (R168–R172). `orphan`: the session has ended, so the report will be discarded (R172). -/
structure LineContext where
  state : LineCtxState
  collection : Text
  overlong : Bool
  tag : Nat
  job : Option Job
  orphan : Bool
deriving DecidableEq, Repr

/-- The LOCAL context (R173): IDLE when `job` is none. `head` is the first four characters of the service line. -/
structure ServiceContext where
  job : Option Job
  head : Text
  offered : Option Text
  answer : List AnswerLine
deriving DecidableEq, Repr

/-- A source of the Directive Unit's bursts (R10). -/
inductive DuWork where
  | directive (c : Ctx)
  | inbound
deriving DecidableEq, Repr

/-- The Directive Unit (R168–R174). -/
structure Du where
  line : LineContext
  keyed : ServiceContext
  input : Text
  blocked : Bool
  unwritten : Text
  unwrittenAt : Nat
  inboundOut : Bool
  due : List DuWork
deriving DecidableEq, Repr

/-! ## Key sensing -/

/-- Pad states (section 4.2). -/
inductive PadState where
  | up
  | pressing
  | down
  | releasing
  | fault
deriving DecidableEq, Repr

/-- A pad record (section 4.2). The offset is a setting and stands in `work.offsets`. -/
structure Pad where
  baseline : Nat
  last : Nat
  state : PadState
  debounce : Nat
  drift : Nat
  faultRun : Nat
  heldTime : Nat
  stuck : Byte
deriving DecidableEq, Repr

/-- What a calibration has gathered for one pad (R72). -/
structure PadCal where
  readings : Nat
  good : Nat
  sum : Nat
  faults : Nat
  last : Nat
deriving DecidableEq, Repr

/-- The classes of reading (Table 4.2). -/
inductive ReadingClass where
  | faulty
  | touch
  | clear
  | neither
deriving DecidableEq, Repr

/-- A reading: the count, and whether it is doubtful (R71). -/
structure Reading where
  count : Nat
  doubtful : Bool
deriving DecidableEq, Repr

/-- A scan in progress (R63): the readings of the groups measured, and whether the measurement running is disturbed (R71). -/
structure Scan where
  readings : List Reading
  disturbed : Bool
deriving DecidableEq, Repr

/-- The combined pad (R73). `good` and `sum` gather the first 8 good counts until the baseline is taken. -/
structure Combined where
  baseline : Option Nat
  good : Nat
  sum : Nat
  offset : Nat
  drift : Nat
  last : Nat
deriving DecidableEq, Repr

/-- The Key Sense Unit (R62–R76). `before`: the pad records as a calibration found them, which it leaves if it is abandoned (R74). -/
structure Ksu where
  pads : List Pad
  before : List Pad
  ganged : Bool
  calibrating : Bool
  cal : List PadCal
  scan : Option Scan
  combined : Combined
  wakeWait : Bool
  padFaults : Byte
deriving DecidableEq, Repr

/-! ## Keys, forms and composition -/

/-- The key actions of Table 5.1. -/
inductive KeyAct where
  | enter | tab | rub | cancel | newOrder | note | send | discard | feed | line | service
deriving DecidableEq, Repr

inductive Modifier where
  | shift
  | func
deriving DecidableEq, Repr

/-- A keymap entry (R77). -/
inductive KeyEntry where
  | char (code : Byte) (rep : Bool)
  | action (a : KeyAct) (rep : Bool)
  | modifier (m : Modifier)
  | none
deriving DecidableEq, Repr

/-- A typeahead event (R80). -/
inductive KeyEvent where
  | char (code : Byte)
  | action (a : KeyAct)
deriving DecidableEq, Repr

/-- A pad's role (R78); a DELIVERED pad keeps a copy of its entry. -/
inductive Role where
  | free
  | modifier (m : Modifier)
  | delivered (e : KeyEntry)
  | blocked
  | ignored
deriving DecidableEq, Repr

/-- Composer states (Table 5.3). -/
inductive ComposerState where
  | idle
  | formSelect
  | free
  | form
  | service
deriving DecidableEq, Repr

/-- The field cursor: a field 1–16, or END (section 5.2). -/
inductive Cursor where
  | field (n : Nat)
  | finish
deriving DecidableEq, Repr

/-- Field kinds (Table 5.5). -/
inductive FieldKind where
  | digits
  | amount
  | letters
  | any
deriving DecidableEq, Repr

/-- A field of a form (section 5.4). -/
structure FormField where
  label : Text
  width : Nat
  kind : FieldKind
  required : Bool
deriving DecidableEq, Repr

/-- The open form image (section 5.2). -/
structure FormImage where
  name : Text
  fields : List FormField
deriving DecidableEq, Repr

/-- Whether a flush is outstanding (R94). -/
inductive FlushState where
  | none
  | waiting
  | running
deriving DecidableEq, Repr

/-- The three stages of a pending echo (R95). -/
inductive EchoStage where
  | owed
  | flushing
  | claimed
deriving DecidableEq, Repr

/-- What a pending echo will print (R95, R135). Offsets are within the entry. -/
inductive EchoKind where
  | line (offset length : Nat)
  | field (formSlot field offset length : Nat)
  | feed
deriving DecidableEq, Repr

/-- The composer's pending echo (R95), and the entry's table slot. -/
structure Echo where
  kind : EchoKind
  slot : Nat
  stage : EchoStage
deriving DecidableEq, Repr

/-- A claim the composer has handed to the Spool Unit and that is not yet answered (R83). -/
inductive KeyClaim where
  /-- The image of this form slot is being read for an ORDER opening (R85). -/
  | image (slot : Nat)
  /-- A creation, retract, cancel or discard that the Spool Unit does not take while it secures the journal (R122). -/
  | untaken
deriving DecidableEq, Repr

/-- A form slot as the KCU keeps it (section 5.4). `image` holds bytes 0–237 of a BUILDING slot as LF has written them. -/
structure FormSlot where
  status : FormStatus
  count : Nat
  defined : List Nat
  listed : Nat
  image : Text
deriving DecidableEq, Repr

/-- The Key Code Unit (R77–R101). -/
structure Kcu where
  keymap : List KeyEntry
  roles : List Role
  typeahead : List KeyEvent
  lock : Bool
  state : ComposerState
  line : Text
  cursor : Cursor
  value : Text
  hasValue : List Nat
  image : FormImage
  formSlot : Nat
  count : Nat
  staging : Text
  flushOwed : Bool
  flush : FlushState
  flushCursor : Option Cursor
  flushTimer : Bool
  echo : Option Echo
  closing : Bool
  claim : Option KeyClaim
  serviceLine : Text
  forms : List FormSlot
  frame : Text
  sending : Bool
  frameDue : Bool
  alert : Bool
  refusals : Byte
  overflows : Byte
deriving DecidableEq, Repr

/-! ## The spool -/

/-- Entry states (Table 6.2). -/
inductive EntryState where
  | free
  | opened
  | closed
  | sending
  | awaiting
  | sent
  | rejected
  | damaged
  | void
deriving DecidableEq, Repr

inductive EntryClass where
  | order
  | note
deriving DecidableEq, Repr

/-- How far the header write stands that a record must wait for (R119). -/
inductive Gate where
  /-- No header write is waited for. -/
  | clear
  /-- The record waits for a header write that has not begun. -/
  | wait
  /-- The header write it waits for is being written. -/
  | running
deriving DecidableEq, Repr

/-- An entry record (Table 6.1). `recLength` and `recCursor` are what the directory record carries (R105); `recorded` says that
the creation record has completed, and `gate` that a header write must complete first (R119). -/
structure Entry where
  state : EntryState
  cls : Option EntryClass
  formSlot : Nat
  cursor : Option Cursor
  serial : Option Nat
  start : Nat
  length : Nat
  attempts : Nat
  reason : Nat
  reasonText : Text
  interrupted : Bool
  sentOnce : Bool
  echoes : Nat
  acceptTimer : Option Nat
  recLength : Nat
  recCursor : Option Cursor
  recorded : Bool
  gate : Gate
deriving DecidableEq, Repr

/-- A piece of the Spool Unit's work on the memory (R118). Slots are 1–32, form slots 1–4. -/
inductive SpuItem where
  | header
  | record (slot : Nat)
  /-- A flush taken, with the length and the field cursor the entry's record carries once it has been written (R105). -/
  | flush (offset : Nat) (bytes : Text) (length : Nat) (cursor : Option Cursor)
  | image (formSlot : Nat)
deriving DecidableEq, Repr

/-- The piece of work in progress: its bursts not yet completed (the first is placed), the bytes read so far, and whether a
record write still counts as the entry's creation record (R119). -/
structure SpuCur where
  item : SpuItem
  bursts : List Burst
  got : Text
  live : Bool
deriving DecidableEq, Repr

/-- The Spool Unit (R102–R125). -/
structure Spu where
  table : List Entry
  order : List Nat
  serialNext : Nat
  ring : RingState
  active : Bool
  firstChoice : Option Nat
  episode : Bool
  due : List SpuItem
  cur : Option SpuCur
  srGate : Gate
  securing : Bool
  stray : Byte
deriving DecidableEq, Repr

/-! ## The print queue -/

/-- A descriptor of the line list (Table 7.1). A cell is a ring offset, or none for BLANK. -/
inductive Descriptor where
  | inbound (part : Bool) (start length : Nat) (cells : List (Option Nat))
  | echoText (slot start length : Nat)
  | echoField (slot formSlot field start length : Nat)
  | notice (slot : Nat)
  | feed (rows : Nat)
deriving DecidableEq, Repr

/-- The inbound line assembler (section 7.2). `complete` is COMPLETE, `part` the completion kind PARTIAL. -/
structure LineAsm where
  complete : Bool
  part : Bool
  start : Nat
  length : Nat
  column : Nat
  cells : List (Option Nat)
  justWrapped : Bool
  idleTimer : Option Nat
deriving DecidableEq, Repr

/-- A notice slot's status (section 7.4). -/
inductive NoticeStatus where
  | free
  | waiting
  | listed
deriving DecidableEq, Repr

structure NoticeSlot where
  status : NoticeStatus
  text : Text
deriving DecidableEq, Repr

/-- The Print Queue Unit (R126–R140). Notice slots are 1–8. -/
structure Pqu where
  list : List Descriptor
  ring : RingState
  asm : LineAsm
  notices : List NoticeSlot
  noticeOrder : List Nat
  composerClaim : Option Descriptor
  fdClaims : List (Ctx × Nat)
  dropped : Byte
deriving DecidableEq, Repr

/-! ## Head drive -/

inductive TempBand where
  | cold
  | normal
  | warm
  | hot
deriving DecidableEq, Repr

inductive BatteryBand where
  | high
  | mid
  | low
  | critical
  | exhausted
deriving DecidableEq, Repr

inductive HeadState where
  | idle
  | printing
  | paused
deriving DecidableEq, Repr

/-- The pause causes (section 9.2). -/
inductive Cause where
  | paper
  | lid
  | hot
  | power
deriving DecidableEq, Repr

/-- The resume point (section 9.3): a row with its groups done, or the FEED rows still to feed. -/
inductive Resume where
  | text (row : Nat) (doneGroups : List Nat)
  | feed (left : Nat)
deriving DecidableEq, Repr

/-- Where the row in the strobing place stands (R146). -/
inductive RowPhase where
  | waiting
  | strobing
  | feeding
deriving DecidableEq, Repr

/-- The row in the strobing place: its number (for a FEED descriptor, the rows fed before it), its band (R148), the groups not
yet started and those begun (R151, R161). -/
structure ActiveRow where
  row : Nat
  band : TempBand
  phase : RowPhase
  todo : List Nat
  begun : List Nat
deriving DecidableEq, Repr

/-- A group strobe running (R149): B and W in units of 8 µs, the dots of the group's share and the new ones among them (5 cells
each), whether it is in its warm phase, and whether it has a cold one. -/
structure Strobe where
  group : Nat
  base : Nat
  warm : Nat
  share : Text
  new : Text
  inWarm : Bool
  hasCold : Bool
deriving DecidableEq, Repr

/-- A row being built (R145): text bursts still to complete, text arrived, overlay columns still to read with their addresses,
and the 40 row bytes so far. `texted`: the text has all arrived. -/
structure Build where
  row : Nat
  runs : List (Place × Nat)
  text : Text
  texted : Bool
  glyphs : List (Nat × Nat)
  cells : Text
deriving DecidableEq, Repr

/-- An LG being applied (R154): the context, the first index, the number of glyphs, the bursts not yet completed. -/
structure GlyphLoad where
  ctx : Ctx
  first : Nat
  count : Nat
  todo : List (Nat × Text)
deriving DecidableEq, Repr

/-- The Head Drive Unit (R141–R167). Dot patterns are 40 bytes, one a cell, bit 7 leftmost (R141, section 12.4). -/
structure Hdu where
  codes : List CodeKind
  loaded : BitVec 64
  head : HeadState
  paper : Bool
  lid : Bool
  hot : Bool
  power : Bool
  resume : Option Resume
  active : Option ActiveRow
  stepping : Bool
  next : Nat
  nextDone : List Nat
  rowBuf : Option Text
  nextBuf : Option Text
  build : Option Build
  prev : Text
  energised : List Strobe
  limit : Nat
  reading : Int
  band : TempBand
  pauseTimer : Bool
  suspended : Bool
  loads : List (Ctx × Load)
  loading : Option GlyphLoad
  paperTiming : Bool
  lidTiming : Bool
deriving DecidableEq, Repr

/-! ## Power and settings -/

/-- The power states (section 11); `off` is a part without power, the model's own name (log entry 2). -/
inductive Power where
  | off
  | run
  | doze
  | shutdown
deriving DecidableEq, Repr

/-- How far a restart (R187) or a shutdown (R181) has come. -/
inductive Stage where
  | none
  /-- RT: the DONE report is to be delivered. -/
  | report
  /-- RT: the line is to reach OFF. -/
  | line
  /-- RT: the journal is being secured. -/
  | secure
  /-- RT: secured, the burst in progress is to complete. -/
  | burst
  /-- Shutdown: the journal is being secured and a WS awaited. -/
  | shutdown
deriving DecidableEq, Repr

/-- The settings of Table 11.2, as working values and as the settings image. Density is kept as its code 0–8 (R156), times of
half a second in half seconds (Table 10.5), the protection set as bits 0–5 (Table 12.8). -/
structure Settings where
  introducer : Byte
  terminator : Byte
  listen : Nat
  fadeTime : Nat
  carrier : Nat
  ack : Nat
  attemptLimit : Nat
  holdMark : Nat
  resumeMark : Nat
  accept : Nat
  autoSend : Bool
  acceptNotices : Bool
  lineIdle : Nat
  dozeIdle : Nat
  pressDebounce : Nat
  releaseDebounce : Nat
  stuck : Nat
  offsets : List Nat
  memSize : Nat
  map : RegionMap
  heat : List Nat
  warm : Nat
  density : Nat
  protect : BitVec 6
deriving DecidableEq, Repr

/-- The Power Monitor (R180–R187). -/
structure Pm where
  power : Power
  band : BatteryBand
  candidate : Option BatteryBand
  dozeTimer : Option Nat
  dozeHeld : Bool
  image : Settings
  restarting : Bool
  writing : Option Text
  stage : Stage
deriving DecidableEq, Repr

/-- The lines of the part as the last command that carried them left them (log entry 5). `energy` is what the microphone hears in
the high band, in tenths of a decibel above the detector's floor (R21, log entry 42). -/
structure Pins where
  battery : Nat
  thermistor : Int
  energy : Nat
  paperAbsent : Bool
  lidOpen : Bool
deriving DecidableEq, Repr

end Sys2Proof.Machine
end

