-- ==== Sys2Proof/Machine/Defaults.lean ====
section
/-! DEFINITION. The default tables and values the manual prints: Tables 1.1, 5.2, 8.2, 8.3 and 11.2. -/

namespace Sys2Proof.Machine

/-- Table 1.1. For any other size the map of 8192 (R4). -/
def defaultMap (memSize : Nat) : RegionMap :=
  let glyph : Region := ⟨1024, 1024⟩
  let form : Region := ⟨2048, 1024⟩
  if memSize = 16384 then ⟨glyph, form, ⟨4096, 4096⟩, ⟨8192, 8192⟩⟩
  else if memSize = 32768 then ⟨glyph, form, ⟨8192, 8192⟩, ⟨16384, 16384⟩⟩
  else ⟨glyph, form, ⟨3072, 1024⟩, ⟨4096, 4096⟩⟩

/-- Table 8.2: the default kind of a code. -/
def defaultCode (c : Nat) : CodeKind :=
  if 0x20 ≤ c ∧ c ≤ 0x7E then .glyph c
  else if 0x80 ≤ c ∧ c ≤ 0xBF then .glyph c
  else if c = 0x09 then .tab
  else if c = 0x0A then .lineEnd
  else if c = 0x0D then .ignored
  else .substitute

/-- The default code table (R143), codes 00h–FFh in order. -/
def defaultCodes : List CodeKind := (List.range 256).map defaultCode

/-- Table 8.3: COLD, NORMAL, WARM rows, each HIGH, MID, LOW. -/
def defaultHeat : List Nat := [60, 68, 78, 50, 57, 65, 42, 48, 55]

/-- The settings' defaults (Table 11.2). -/
def defaultSettings : Settings where
  introducer := 0x1C
  terminator := 0x1E
  listen := 30
  fadeTime := 4
  carrier := 4
  ack := 3
  attemptLimit := 6
  holdMark := 256
  resumeMark := 768
  accept := 20
  autoSend := false
  acceptNotices := true
  lineIdle := 3
  dozeIdle := 120
  pressDebounce := 3
  releaseDebounce := 3
  stuck := 20
  offsets := List.replicate 48 40
  memSize := 8192
  map := defaultMap 8192
  heat := defaultHeat
  warm := 11
  density := 4
  protect := 0b001111

/-- Table 5.2, BASE layer, pad 1–48. -/
def defaultBase (pad : Nat) : KeyEntry :=
  if pad ≤ 9 then .char (BitVec.ofNat 8 (0x30 + pad)) true
  else if pad = 10 then .char 0x30 true
  else if pad ≤ 36 then .char (BitVec.ofNat 8 (0x61 + (pad - 11))) true
  else if pad = 37 then .char 0x20 true
  else if pad = 38 then .char 0x2E false
  else if pad = 39 then .char 0x2D false
  else if pad = 40 then .action .rub true
  else if pad = 41 then .action .tab false
  else if pad = 42 then .action .enter false
  else if pad = 43 then .action .newOrder false
  else if pad = 44 then .modifier .shift
  else if pad = 45 then .modifier .func
  else if pad = 46 then .action .line false
  else if pad = 47 then .char 0x23 false
  else .char 0x3A false

/-- Table 5.2, SHIFT layer. -/
def defaultShift (pad : Nat) : KeyEntry :=
  if 11 ≤ pad ∧ pad ≤ 36 then .char (BitVec.ofNat 8 (0x41 + (pad - 11))) true
  else if pad = 38 then .char 0x2C false
  else if pad = 39 then .char 0x2F false
  else if pad = 43 then .action .note false
  else if pad = 47 then .char 0x2A false
  else if pad = 48 then .char 0x3B false
  else defaultBase pad

/-- Table 5.2, FUNC layer. -/
def defaultFunc (pad : Nat) : KeyEntry :=
  if pad = 40 then .action .cancel false
  else if pad = 41 then .action .discard false
  else if pad = 42 then .action .send false
  else if pad = 43 then .action .feed true
  else if pad = 44 then .modifier .shift
  else if pad = 45 then .modifier .func
  else if pad = 46 then .action .line false
  else if pad = 47 then .action .service false
  else .none

/-- The default keymap (R77): index layer × 48 + pad − 1 (Table 10.4). -/
def defaultKeymap : List KeyEntry :=
  (List.range 48).map (fun p => defaultBase (p + 1)) ++ (List.range 48).map (fun p => defaultShift (p + 1))
    ++ (List.range 48).map (fun p => defaultFunc (p + 1))

/-- A FREE slot's record (R102). -/
def freeEntry : Entry where
  state := .free
  cls := none
  formSlot := 0
  cursor := none
  serial := none
  start := 0
  length := 0
  attempts := 0
  reason := 0
  reasonText := []
  interrupted := false
  sentOnce := false
  echoes := 0
  acceptTimer := none
  recLength := 0
  recCursor := none
  recorded := false
  gate := .clear

/-- An empty ring at offset 0 (R6). -/
def emptyRing : RingState := ⟨0, 0, false⟩

/-- An assembler line ASSEMBLING and empty at this offset (R133). -/
def emptyLine (start : Nat) : LineAsm := ⟨false, false, start, 0, 0, [], false, none⟩

/-- The receive assembler HUNTING (R40, R61). -/
def huntingAsm : Assembler := ⟨.hunting, [], false, false, false, false⟩

/-- A pad record before any reading (R72, log entry 9). -/
def freshPad : Pad := ⟨0, 0, .up, 0, 0, 0, 0, 0⟩

/-- A pad's calibration before any reading (R72). -/
def freshCal : PadCal := ⟨0, 0, 0, 0, 0⟩

/-- The combined pad outside DOZE before any doze: no baseline (Table 4.4); the other fields are 0, which is the model's choice (log
entry 44). -/
def freshCombined : Combined := ⟨none, 0, 0, 0, 0, 0⟩

/-- An EMPTY form slot. -/
def emptyForm : FormSlot := ⟨.empty, 0, [], 0, []⟩

/-- A FREE notice slot. -/
def freeNotice : NoticeSlot := ⟨.free, []⟩

/-- The all-off dot pattern (R147): 40 cells of 8 dots. -/
def noDots : Text := List.replicate 40 0

end Sys2Proof.Machine
end

