-- ==== Sys2Proof/Machine/Formats.lean ====
section
/-! DEFINITION. The byte layouts of 12_formats.md: the check (R188), parcels and escaping (R39, Table 12.1), the directory
header and records, form slots and the settings memory (R190, Tables 12.5–12.8). -/

namespace Sys2Proof.Machine

/-! ## Numbers and the check -/

/-- The low byte of a number. -/
def byteOf (n : Nat) : Byte := BitVec.ofNat 8 n

/-- A two-byte number, most significant byte first (R188). -/
def be16 (n : Nat) : Text := [byteOf (n / 256), byteOf n]

/-- Byte `i` of an image as a number; 0 beyond its end. -/
def byteAt (l : Text) (i : Nat) : Nat := (l.getD i 0).toNat

/-- The two-byte number at `i`. -/
def wordAt (l : Text) (i : Nat) : Nat := byteAt l i * 256 + byteAt l (i + 1)

/-- A text padded with 00h to `n` bytes, or cut to it. -/
def padTo (n : Nat) (l : Text) : Text := (l ++ List.replicate n 0).take n

/-- One data bit into the check register (R188). -/
def checkBit (r : BitVec 16) (bit : Bool) : BitVec 16 :=
  if r.msb != bit then (r <<< 1) ^^^ 0x1021#16 else r <<< 1

/-- One byte into the check register, most significant bit first (R188). -/
def checkByte (r : BitVec 16) (b : Byte) : BitVec 16 :=
  [7, 6, 5, 4, 3, 2, 1, 0].foldl (fun r i => checkBit r (b.getLsbD i)) r

/-- The check over bytes in ascending order (R188). -/
def check (l : Text) : BitVec 16 := l.foldl checkByte 0xFFFF#16

/-- The check as it is stored or sent, high byte first. -/
def checkBytes (l : Text) : Text := be16 (check l).toNat

/-- Bytes at consecutive addresses cut into writes of at most 8 bytes, in ascending order. -/
def chunks : Nat → Nat → Text → List (Nat × Text)
  | 0, _, _ => []
  | _, _, [] => []
  | fuel + 1, a, l => (a, l.take 8) :: chunks fuel (a + 8) (l.drop 8)

/-- The bursts of up to 8 bytes that write `l` at address `a` (R9). -/
def writesAt (a : Nat) (l : Text) : List (Nat × Text) := chunks l.length a l

/-! ## Parcels -/

def ParcelKind.code : ParcelKind → Byte
  | .text => 1 | .report => 2 | .ack => 3 | .nak => 4 | .hold => 5 | .resume => 6 | .accept => 7 | .reject => 8 | .clear => 9

/-- The kind a received kind byte names, if any (Table 12.1). -/
def ParcelKind.ofCode (b : Byte) : Option ParcelKind :=
  match b.toNat with
  | 1 => some .text | 2 => some .report | 3 => some .ack | 4 => some .nak | 5 => some .hold | 6 => some .resume
  | 7 => some .accept | 8 => some .reject | 9 => some .clear | _ => none

/-- The seven header bytes and the body (Table 12.1). -/
def Parcel.image (p : Parcel) : Text :=
  [p.kind.code, p.seq] ++ be16 p.serial.toNat ++ [p.index, if p.last then 1 else 0, byteOf p.body.length] ++ p.body

/-- Escaping of one byte (R39). -/
def escapeByte (b : Byte) : Text := if b = 0xF5 ∨ b = 0xF6 then [0xF6, b - 0x80] else [b]

/-- The characters of a parcel on the line: the mark, then header, body and check escaped (R39). -/
def Parcel.chars (p : Parcel) : Text :=
  (0xF5 : Byte) :: ((p.image ++ checkBytes p.image).map escapeByte).flatten

/-- Does a received parcel lie in range (R38)? -/
def Parcel.inRange (p : Parcel) : Bool :=
  p.seq.toNat ≤ 7 &&
    match p.kind with
    | .text => p.body.length ≤ 48
    | .report => false
    | .reject => 1 ≤ p.index.toNat && p.index.toNat ≤ 99 && p.body.length ≤ 24
    | .ack | .nak | .hold | .resume | .accept | .clear => p.body.isEmpty

/-- The parcel whose header, body and check bytes are `l`; none if its kind is unknown (R188). -/
def parcelOf (l : Text) : Option Parcel :=
  (ParcelKind.ofCode (l.getD 0 0)).map fun k =>
    { kind := k, seq := l.getD 1 0, serial := BitVec.ofNat 16 (wordAt l 2), index := l.getD 4 0,
      last := (l.getD 5 0).getLsbD 0, body := (l.drop 7).take (byteAt l 6) }

/-- Does the check of header, body and check bytes `l` match? -/
def parcelCheckOk (l : Text) : Bool :=
  checkBytes (l.take (7 + byteAt l 6)) == (l.drop (7 + byteAt l 6)).take 2

/-! ## Region map and settings memory -/

/-- The map stamp (R190): the memory size's code, then bases and sizes in units of 256 bytes. -/
def stampBytes (memSize : Nat) (m : RegionMap) : Text :=
  [if memSize = 8192 then 0 else if memSize = 16384 then 1 else 2] ++
    [m.glyph.base, m.glyph.size, m.form.base, m.form.size, m.inbound.base, m.inbound.size, m.spool.base, m.spool.size].map
      (fun n => byteOf (n / 256))

/-- The map a stamp at offset `i` names. -/
def stampMap (l : Text) (i : Nat) : RegionMap :=
  let at' := fun k => byteAt l (i + k) * 256
  ⟨⟨at' 1, at' 2⟩, ⟨at' 3, at' 4⟩, ⟨at' 5, at' 6⟩, ⟨at' 7, at' 8⟩⟩

/-- The memory size a stamp byte names; 0, which is no memory size, for any other byte (R4). -/
def stampSize (b : Nat) : Nat := if b = 0 then 8192 else if b = 1 then 16384 else if b = 2 then 32768 else 0

/-- Bytes 0–125 of the settings memory (Table 12.8). -/
def Settings.body (s : Settings) : Text :=
  [0xA5, 0x3C, s.introducer, s.terminator, byteOf s.listen, byteOf s.fadeTime, byteOf s.carrier, byteOf s.ack,
      byteOf s.attemptLimit] ++
    be16 s.holdMark ++ be16 s.resumeMark ++
    [byteOf s.accept, byteOf ((if s.autoSend then 1 else 0) + (if s.acceptNotices then 2 else 0)), byteOf s.lineIdle] ++
    be16 s.dozeIdle ++ [byteOf s.pressDebounce, byteOf s.releaseDebounce, byteOf s.stuck] ++
    s.offsets.map byteOf ++ stampBytes s.memSize s.map ++ s.heat.map byteOf ++
    [byteOf s.warm, byteOf s.density, byteOf s.protect.toNat] ++ List.replicate 36 0

/-- The 128 bytes of the settings memory, the check last (R185, R190). -/
def Settings.bytes (s : Settings) : Text := s.body ++ checkBytes s.body

/-- A value in its range, or its default and the mark that it was outside (R184). -/
def judged (v lo hi dflt : Nat) : Nat × Bool := if lo ≤ v ∧ v ≤ hi then (v, false) else (dflt, true)

/-- The settings the 128 bytes hold and whether any value took its default; the memory size and map are left as they stand in
the bytes, to be judged by R4, and the marks to be judged against the map (R184). -/
def settingsOf (l : Text) : Settings × Bool :=
  let d := defaultSettings
  let intro := judged (byteAt l 2) 0 31 0x1C
  let term := judged (byteAt l 3) 0 31 0x1E
  let same := intro.1 = term.1
  let listen := judged (byteAt l 4) 5 60 d.listen
  let fade := judged (byteAt l 5) 1 10 d.fadeTime
  let carrier := judged (byteAt l 6) 1 8 d.carrier
  let ack := judged (byteAt l 7) 1 10 d.ack
  let limit := judged (byteAt l 8) 2 15 d.attemptLimit
  let accept := judged (byteAt l 13) 5 60 d.accept
  let idle := judged (byteAt l 15) 0 10 d.lineIdle
  let dozeRaw := wordAt l 16
  let doze := if dozeRaw = 0 then (0, false) else judged dozeRaw 30 600 d.dozeIdle
  let press := judged (byteAt l 18) 1 8 d.pressDebounce
  let release := judged (byteAt l 19) 1 8 d.releaseDebounce
  let stuck := judged (byteAt l 20) 5 60 d.stuck
  let offsets := (List.range 48).map fun i => judged (byteAt l (21 + i)) 8 255 40
  let heat := (List.range 9).map fun i => judged (byteAt l (78 + i)) 16 255 (defaultHeat.getD i 16)
  let warm := judged (byteAt l 87) 0 16 d.warm
  let density := judged (byteAt l 88) 0 8 d.density
  ({ introducer := if same then d.introducer else byteOf intro.1
     terminator := if same then d.terminator else byteOf term.1
     listen := listen.1, fadeTime := fade.1, carrier := carrier.1, ack := ack.1, attemptLimit := limit.1
     holdMark := wordAt l 9, resumeMark := wordAt l 11, accept := accept.1
     autoSend := (l.getD 14 0).getLsbD 0, acceptNotices := (l.getD 14 0).getLsbD 1
     lineIdle := idle.1, dozeIdle := doze.1, pressDebounce := press.1, releaseDebounce := release.1, stuck := stuck.1
     offsets := offsets.map Prod.fst
     memSize := stampSize (byteAt l 69), map := stampMap l 69
     heat := heat.map Prod.fst, warm := warm.1, density := density.1
     protect := BitVec.ofNat 6 (byteAt l 89) },
   intro.2 || term.2 || decide same || listen.2 || fade.2 || carrier.2 || ack.2 || limit.2 || accept.2 || idle.2 || doze.2 ||
     press.2 || release.2 || stuck.2 || offsets.any Prod.snd || heat.any Prod.snd || warm.2 || density.2)

/-- Do the identity mark and the check of the settings memory pass (R184)? -/
def settingsOk (l : Text) : Bool :=
  l.getD 0 0 == 0xA5 && l.getD 1 0 == 0x3C && checkBytes (l.take 126) == (l.drop 126).take 2

/-! ## Journal directory -/

def EntryState.code : EntryState → Nat
  | .free => 0 | .opened => 1 | .closed => 2 | .sending => 3 | .awaiting => 4 | .sent => 5 | .rejected => 6 | .damaged => 7 | .void => 8

def EntryState.ofCode : Nat → Option EntryState
  | 0 => some .free | 1 => some .opened | 2 => some .closed | 3 => some .sending | 4 => some .awaiting | 5 => some .sent
  | 6 => some .rejected | 7 => some .damaged | 8 => some .void | _ => none

/-- The field cursor's byte (Table 12.6). -/
def cursorCode : Option Cursor → Nat
  | none => 0
  | some (.field n) => n
  | some .finish => 17

/-- The field cursor a record's byte names (Table 12.6); 18–255, which names none, is read as END (log entry 10). -/
def cursorOf (n : Nat) : Option Cursor :=
  if n = 0 then none else if n ≤ 16 then some (.field n) else some .finish

/-- The class and form byte (Table 12.6). -/
def Entry.classCode (e : Entry) : Nat :=
  match e.cls with
  | none => 0
  | some .order => e.formSlot
  | some .note => 5

/-- Bytes 0–11 of an entry's directory record (Table 12.6): the length and cursor of the last completed flush (R105). -/
def Entry.recBody (e : Entry) : Text :=
  [byteOf e.state.code, byteOf e.classCode, byteOf (cursorCode e.recCursor)] ++ be16 (e.serial.getD 0) ++ be16 e.start ++
    be16 e.recLength ++
    [byteOf e.attempts, byteOf ((if e.interrupted then 1 else 0) + (if e.sentOnce then 2 else 0)), byteOf e.reason]

/-- The 14 bytes of an entry's record, the check last. -/
def Entry.record (e : Entry) : Text := e.recBody ++ checkBytes e.recBody

/-- The address of slot `s`'s record (Table 12.5), slots 1–32. -/
def recordAddr (s : Nat) : Nat := 64 + 14 * (s - 1)

/-- The loaded set in 8 bytes: bit b of byte k is the flag of glyph 128 + 8k + b (R189). -/
def loadedBytes (f : BitVec 64) : Text := (List.range 8).map fun k => (f >>> (8 * k)).setWidth 8

/-- The loaded set 8 bytes hold. -/
def loadedOf (l : Text) : BitVec 64 :=
  (List.range 8).foldl (fun acc k => acc ||| (((l.getD k 0).setWidth 64) <<< (8 * k))) 0

/-- Bytes 0–58 of the directory header (Table 12.5). -/
def headerBody (serialNext : Nat) (slots : List Nat) (ring : RingState) (memSize : Nat) (m : RegionMap)
    (loaded : BitVec 64) : Text :=
  [0x5A, 0xA5] ++ be16 serialNext ++ [byteOf slots.length] ++ padTo 32 (slots.map byteOf) ++ be16 ring.tail ++
    be16 ring.head ++ [if ring.full then 1 else 0] ++ stampBytes memSize m ++ loadedBytes loaded

/-- The 64 bytes of the header; the last burst carries the check (R118). -/
def headerBytes (serialNext : Nat) (slots : List Nat) (ring : RingState) (memSize : Nat) (m : RegionMap)
    (loaded : BitVec 64) : Text :=
  let body := headerBody serialNext slots ring memSize m loaded
  body ++ checkBytes body ++ [0, 0, 0]

/-! ## Form slots -/

/-- A name or label ends at its first 00h, or after 12 characters (Table 12.7). -/
def nameOf (l : Text) : Text := (l.take 12).takeWhile (· != 0)

def FieldKind.ofCode : Nat → FieldKind
  | 0 => .digits | 1 => .amount | 2 => .letters | _ => .any

/-- Bytes 0–13 of a form slot: status, field count, name (Table 12.7). -/
def formHeader (status : Byte) (count : Nat) (name : Text) : Text := [status, byteOf count] ++ padTo 12 name

/-- The 14 bytes of a field: label, width, kind code (Table 12.7). -/
def formFieldBytes (label : Text) (width kind : Nat) : Text := padTo 12 label ++ [byteOf width, byteOf kind]

/-- Field `f` of a form slot's image, if its width and kind pass the test of R85. -/
def fieldOf (l : Text) (f : Nat) : Option FormField :=
  let at' := 14 + 14 * (f - 1)
  let width := byteAt l (at' + 12)
  let kind := byteAt l (at' + 13)
  if 1 ≤ width ∧ width ≤ 24 ∧ kind ≤ 7 then
    some ⟨nameOf (l.drop at'), width, FieldKind.ofCode (kind % 4), decide (4 ≤ kind)⟩
  else none

/-- The fields 1 to `n` of an image, if each passes. -/
def fieldsOf (l : Text) : Nat → Option (List FormField)
  | 0 => some []
  | n + 1 => do
    let fs ← fieldsOf l n
    let f ← fieldOf l (n + 1)
    return fs ++ [f]

/-- The form image a slot's 256 bytes hold, if it passes the test of R85. -/
def imageOf (l : Text) : Option FormImage :=
  let count := byteAt l 1
  if 1 ≤ count ∧ count ≤ 16 then (fieldsOf l count).map fun fs => ⟨nameOf (l.drop 2), fs⟩ else none

/-- Is a form slot's status LOADED and its check right (R96)? The check is over bytes 0–237 with byte 0 at 02h. -/
def formLoadedOk (l : Text) : Bool := l.getD 0 0 == 2 && checkBytes (l.take 238) == (l.drop 238).take 2

end Sys2Proof.Machine
end

