-- ==== Sys2Proof/Machine/State.lean ====
section
/-! DEFINITION. The state of the part: one record for each block of Table 0.1, the memories outside it, its lines, and the queue
of commands waiting. The outcomes' reasons, and the state after reset. -/

namespace Sys2Proof.Machine

/-- Why a step stops with a fault. -/
inductive Fault where
  /-- Raised by BURST_COMPLETE when the burst reaches an address at or above the memory size (R1). Safe: R9 says every
  requester keeps its bursts inside the memory, so it is the model's stop in states that break the rules. -/
  | noSuchAddress (a : Nat)
deriving DecidableEq, Repr

/-- Why a step refuses a command. -/
inductive Refusal where
  /-- Raised by an arm of exec that has no meaning yet; safe. -/
  | notModelled (mnemonic : String)
deriving DecidableEq, Repr

/-- The whole state. Working values (each block's working settings) stand in `work`, the memory size and region map among them;
`settings` is the settings memory, with `settingsTorn` when a write of it was cut off (R185); `regionsCut` says that power was lost
before an SR completed (R16, log entry 32); `fresh` counts the free values used (log entry 4). -/
structure State where
  pending : List Instr
  mem : Memory
  settings : Text
  settingsTorn : Bool
  regionsCut : Bool
  work : Settings
  jmc : Jmc
  clu : Clu
  pe : Pe
  du : Du
  ksu : Ksu
  kcu : Kcu
  spu : Spu
  pqu : Pqu
  hdu : Hdu
  pm : Pm
  pins : Pins
  fresh : Nat
deriving DecidableEq, Repr

/-- What every command answers. -/
abbrev Out := Host.Outcome State Fault Refusal

/-- The JMC after start-up (Table 1.5). -/
def Jmc.reset : Jmc := ⟨none, ⟨none, 0⟩, ⟨none, 0⟩, ⟨none, 0⟩, ⟨none, 0⟩⟩

/-- The CLU after start-up (R36). -/
def Clu.reset : Clu where
  line := .off
  carrier := false
  receiver := .hunting
  txChar := none
  listenTimer := none
  confirming := false
  gap := false
  settleTimer := false
  lossGap := false
  fadeTimer := none
  regain := false
  clearingTimer := false
  clearingCause := none
  lastEnd := .none
  framingErrors := 0
  fades := 0

/-- The PE after start-up (R61). -/
def Pe.reset : Pe where
  asm := huntingAsm
  expected := 0
  nextSeq := 0
  nakRecord := none
  nakTimer := none
  reminderTimer := none
  slotA := .free
  slotB := .free
  older := .a
  ackTimer := none
  tx := none
  control := []
  reports := []
  source := none
  held := false
  stationHold := false
  holdTimer := none
  good := 0
  bad := 0
  duplicates := 0
  refused := 0
  resends := 0
  stray := 0

/-- The DU after start-up (R172, R173). -/
def Du.reset : Du where
  line := ⟨.idle, [], false, 0, none, false⟩
  keyed := ⟨none, [], none, []⟩
  input := []
  blocked := false
  unwritten := []
  unwrittenAt := 0
  inboundOut := false
  due := []

/-- The KSU after start-up: NORMAL scan, calibrating (Table 4.4). -/
def Ksu.reset : Ksu where
  pads := List.replicate 48 freshPad
  before := List.replicate 48 freshPad
  ganged := false
  calibrating := true
  cal := List.replicate 48 freshCal
  scan := none
  combined := freshCombined
  wakeWait := false
  padFaults := 0

/-- The KCU after start-up with no OPEN entry (R99, Table 5.7): the frame for IDLE is being sent (R100). -/
def Kcu.reset : Kcu where
  keymap := defaultKeymap
  roles := List.replicate 48 .free
  typeahead := []
  lock := false
  state := .idle
  line := []
  cursor := .field 1
  value := []
  hasValue := []
  image := ⟨[], []⟩
  formSlot := 0
  count := 0
  staging := []
  flushOwed := false
  flush := .none
  flushCursor := none
  flushTimer := false
  echo := none
  closing := false
  claim := none
  serviceLine := []
  forms := List.replicate 4 emptyForm
  frame := [0x02, 0x49] ++ List.replicate 23 0x20
  sending := true
  frameDue := false
  alert := false
  refusals := 0
  overflows := 0

/-- The SPU after a start-up that restored no entry (R120, Table 6.6). -/
def Spu.reset : Spu where
  table := List.replicate 32 freeEntry
  order := []
  serialNext := 1
  ring := emptyRing
  active := false
  firstChoice := none
  episode := false
  due := []
  cur := none
  srGate := .clear
  securing := false
  stray := 0

/-- The PQU after start-up (Table 7.6). -/
def Pqu.reset : Pqu where
  list := []
  ring := emptyRing
  asm := emptyLine 0
  notices := List.replicate 8 freeNotice
  noticeOrder := []
  composerClaim := none
  fdClaims := []
  dropped := 0

/-- The HDU after start-up with the battery HIGH, the transmitter off, 25 °C, paper present and the lid closed (R157, Table 9.4). -/
def Hdu.reset : Hdu where
  codes := defaultCodes
  loaded := 0
  head := .idle
  paper := false
  lid := false
  hot := false
  power := false
  resume := none
  active := none
  stepping := false
  next := 0
  nextDone := []
  rowBuf := none
  nextBuf := none
  build := none
  prev := noDots
  energised := []
  limit := 4
  reading := 25
  band := .normal
  pauseTimer := false
  suspended := false
  loads := []
  loading := none
  paperTiming := false
  lidTiming := false

/-- The PM after start-up (R186). -/
def Pm.reset : Pm where
  power := .run
  band := .high
  candidate := none
  dozeTimer := some 120
  dozeHeld := true
  image := defaultSettings
  restarting := false
  writing := none
  stage := .none

/-- The lines as log entry 5 chooses them. -/
def Pins.reset : Pins := ⟨5000, 25, 0, false, false⟩

/-- The state right after reset: after start-up, every field as the "After start-up" columns give it, memory with nothing
listed (log entry 2). -/
def State.reset : State where
  pending := []
  mem := []
  settings := defaultSettings.bytes
  settingsTorn := false
  regionsCut := false
  work := defaultSettings
  jmc := Jmc.reset
  clu := Clu.reset
  pe := Pe.reset
  du := Du.reset
  ksu := Ksu.reset
  kcu := Kcu.reset
  spu := Spu.reset
  pqu := Pqu.reset
  hdu := Hdu.reset
  pm := Pm.reset
  pins := Pins.reset
  fresh := 0

/-! Block setters. Every meaning writes the state through these, so one lemma per setter and field serves every proof. -/

def State.setPending (s : State) (v : List Instr) : State := { s with pending := v }
def State.setMem (s : State) (v : Memory) : State := { s with mem := v }
def State.setSettings (s : State) (v : Text) : State := { s with settings := v }
def State.setSettingsTorn (s : State) (v : Bool) : State := { s with settingsTorn := v }
def State.setRegionsCut (s : State) (v : Bool) : State := { s with regionsCut := v }
def State.setWork (s : State) (v : Settings) : State := { s with work := v }
def State.setJmc (s : State) (v : Jmc) : State := { s with jmc := v }
def State.setClu (s : State) (v : Clu) : State := { s with clu := v }
def State.setPe (s : State) (v : Pe) : State := { s with pe := v }
def State.setDu (s : State) (v : Du) : State := { s with du := v }
def State.setKsu (s : State) (v : Ksu) : State := { s with ksu := v }
def State.setKcu (s : State) (v : Kcu) : State := { s with kcu := v }
def State.setSpu (s : State) (v : Spu) : State := { s with spu := v }
def State.setPqu (s : State) (v : Pqu) : State := { s with pqu := v }
def State.setHdu (s : State) (v : Hdu) : State := { s with hdu := v }
def State.setPm (s : State) (v : Pm) : State := { s with pm := v }
def State.setPins (s : State) (v : Pins) : State := { s with pins := v }
def State.setFresh (s : State) (v : Nat) : State := { s with fresh := v }

end Sys2Proof.Machine
end

