-- ==== Sys2Proof/Machine/Ops.lean ====
section
/-! DEFINITION. The named operations: journal memory, rings, the region map's rules, the bus arbiter, saturating counters, the
notice buffer, the sounder, and an entry's record. -/

namespace Sys2Proof.Machine

/-! ## Journal memory -/

/-- What an unlisted byte reads as (log entry 7). -/
def Memory.blank : Byte := 0

/-- Reads one byte. -/
def Memory.read : Memory → Nat → Byte
  | [], _ => Memory.blank
  | (a, b) :: m, x => if x = a then b else Memory.read m x

/-- Writes one byte and keeps the canonical form: the value an unlisted byte reads as removes the entry. -/
def Memory.write : Memory → Nat → Byte → Memory
  | [], x, v => if v = Memory.blank then [] else [(x, v)]
  | (a, b) :: m, x, v =>
    if x < a then (if v = Memory.blank then (a, b) :: m else (x, v) :: (a, b) :: m)
    else if x = a then (if v = Memory.blank then m else (a, v) :: m)
    else (a, b) :: Memory.write m x v

/-- The bytes at a list of addresses, in its order. -/
def Memory.readAll (m : Memory) (as : List Nat) : Text := as.map fun a => Memory.read m a

/-- Writes bytes at a list of addresses, in its order. -/
def Memory.writeAll (m : Memory) : List (Nat × Byte) → Memory
  | [] => m
  | (a, b) :: l => Memory.writeAll (Memory.write m a b) l

/-- Are all addresses of the list above `lo`? -/
def Memory.above (lo : Nat) : Memory → Bool
  | [] => true
  | (a, _) :: m => decide (lo < a) && Memory.above lo m

/-- The canonical form: addresses strictly rising, no entry equal to the blank byte. -/
def Memory.wf : Memory → Bool
  | [] => true
  | (a, b) :: m => decide (b ≠ Memory.blank) && Memory.above a m && Memory.wf m

/-- The addresses from `a` on. -/
def addrsFrom (a n : Nat) : List Nat := (List.range n).map fun i => a + i

/-! ## Rings (R6–R9) -/

/-- The fill (R6). -/
def RingState.fill (r : RingState) (size : Nat) : Nat :=
  if r.head = r.tail then (if r.full then size else 0) else (r.head + size - r.tail) % size

/-- The free space (R6). -/
def RingState.free (r : RingState) (size : Nat) : Nat := size - r.fill size

/-- Appends `n` bytes (R7): the caller has seen that they fit. -/
def RingState.append (r : RingState) (size n : Nat) : RingState :=
  if n = 0 then r
  else
    let head := (r.head + n) % size
    { r with head := head, full := head == r.tail }

/-- Releases the oldest `n` bytes (R8). -/
def RingState.release (r : RingState) (size n : Nat) : RingState :=
  if n = 0 then r else { r with tail := (r.tail + n) % size, full := false }

/-- Takes back the youngest `n` bytes (R8). -/
def RingState.retract (r : RingState) (size n : Nat) : RingState :=
  if n = 0 then r else { r with head := (r.head + size - n) % size, full := false }

/-- The region of a ring. -/
def RegionMap.ring (m : RegionMap) : RingName → Region
  | .inbound => m.inbound
  | .spool => m.spool

/-- The addresses of a burst, in its order; a ring burst continues at the region's base (R9). -/
def placeAddrs (m : RegionMap) (p : Place) (n : Nat) : List Nat :=
  match p with
  | .addr a => addrsFrom a n
  | .ring r o => (List.range n).map fun i => (m.ring r).base + (o + i) % (m.ring r).size

/-! ## Region map (R3) -/

/-- The sizes a region may have (R3): powers of two from 256 to 16384. -/
def regionSizes : List Nat := [256, 512, 1024, 2048, 4096, 8192, 16384]

/-- Do two byte ranges share a byte? -/
def overlaps (base size base' size' : Nat) : Bool := decide (base < base' + size' ∧ base' < base + size)

/-- One region's own conditions of R3. -/
def Region.ok (r : Region) (memSize : Nat) : Bool :=
  regionSizes.contains r.size && r.base % r.size == 0 && decide (r.base + r.size ≤ memSize) && !overlaps r.base r.size 0 512

/-- Is a region map valid with a memory size (R3)? -/
def RegionMap.valid (m : RegionMap) (memSize : Nat) : Bool :=
  m.glyph.ok memSize && m.form.ok memSize && m.inbound.ok memSize && m.spool.ok memSize &&
    !overlaps m.glyph.base m.glyph.size m.form.base m.form.size &&
    !overlaps m.glyph.base m.glyph.size m.inbound.base m.inbound.size &&
    !overlaps m.glyph.base m.glyph.size m.spool.base m.spool.size &&
    !overlaps m.form.base m.form.size m.inbound.base m.inbound.size &&
    !overlaps m.form.base m.form.size m.spool.base m.spool.size &&
    !overlaps m.inbound.base m.inbound.size m.spool.base m.spool.size &&
    decide (1024 ≤ m.glyph.size ∧ 1024 ≤ m.form.size)

/-- The three memory sizes (R1). -/
def memSizes : List Nat := [8192, 16384, 32768]

/-- The address of form slot `k`, 1–4 (R5). -/
def formAddr (m : RegionMap) (k : Nat) : Nat := m.form.base + (k - 1) * 256

/-- The address of row `r` of overlay glyph `g`, 128–191 (R5, R145). -/
def glyphAddr (m : RegionMap) (g r : Nat) : Nat := m.glyph.base + (g - 128) * 12 + r

/-! ## The arbiter (R10, R11) -/

def Jmc.req (j : Jmc) : Requester → BusReq
  | .hdu => j.hdu | .pe => j.pe | .spu => j.spu | .du => j.du

def Jmc.setReq (j : Jmc) (who : Requester) (r : BusReq) : Jmc :=
  match who with
  | .hdu => { j with hdu := r } | .pe => { j with pe := r } | .spu => { j with spu := r } | .du => { j with du := r }

/-- The fixed order. -/
def Requester.all : List Requester := [.hdu, .pe, .spu, .du]

/-- Whom the grant goes to: the first waiting requester at a count of 4, else the first waiting one (R11). -/
def Jmc.choice (j : Jmc) : Option Requester :=
  match Requester.all.find? (fun w => (j.req w).waiting.isSome && (j.req w).passed == 4) with
  | some w => some w
  | none => Requester.all.find? fun w => (j.req w).waiting.isSome

/-- A requester passed over: its count increases by 1, up to 4, if it waits; a requester that does not wait has 0. -/
def BusReq.passOver (r : BusReq) : BusReq := { r with passed := if r.waiting.isSome then min 4 (r.passed + 1) else 0 }

/-- The bus, idle, is granted by R11. -/
def Jmc.grant (j : Jmc) : Jmc :=
  match j.choice with
  | none => j
  | some w =>
    match (j.req w).waiting with
    | none => j
    | some b =>
      let j := { j with hdu := j.hdu.passOver, pe := j.pe.passOver, spu := j.spu.passOver, du := j.du.passOver }
      { j.setReq w ⟨none, 0⟩ with current := some ⟨w, b, true⟩ }

/-- Has the requester a burst outstanding (R10)? -/
def Jmc.busy (j : Jmc) (who : Requester) : Bool :=
  (j.req who).waiting.isSome || j.current.any fun c => c.who == who

/-- A request reaches the JMC (R10): granted at once when the bus is idle, otherwise it waits with a count of 0. -/
def Jmc.request (j : Jmc) (who : Requester) (b : Burst) : Jmc :=
  match j.current with
  | none => { j with current := some ⟨who, b, true⟩ }
  | some _ => j.setReq who ⟨some b, 0⟩

/-- A requester withdraws its waiting request, and no longer wants the data of its burst in progress (R10). -/
def Jmc.abandon (j : Jmc) (who : Requester) : Jmc :=
  let j := j.setReq who ⟨none, 0⟩
  { j with current := j.current.map fun c => if c.who = who then { c with wanted := false } else c }

/-- The burst in progress has completed: the bus is granted to a waiting request, or is idle (R10). -/
def Jmc.completed (j : Jmc) : Jmc := ({ j with current := none } : Jmc).grant

/-! ## Counters, entries, slots -/

/-- A status counter increases by 1 and stays at 255 (R176). -/
def bump (c : Byte) : Byte := if c = 255 then c else c + 1

/-- The entry of table slot `s`, 1–32. -/
def Spu.entry (p : Spu) (s : Nat) : Entry := p.table.getD (s - 1) freeEntry

/-- Replaces the entry of table slot `s`. -/
def Spu.setEntry (p : Spu) (s : Nat) (e : Entry) : Spu := { p with table := p.table.set (s - 1) e }

/-- The slot of the entry that is not FREE and has this serial, oldest first. -/
def Spu.slotOf (p : Spu) (serial : Nat) : Option Nat :=
  p.order.find? fun s => (p.entry s).state != .free && (p.entry s).serial == some serial

/-- The slot of the oldest entry in this state. -/
def Spu.firstIn (p : Spu) (st : EntryState) : Option Nat := p.order.find? fun s => (p.entry s).state == st

/-- How many table slots are in this state. -/
def Spu.countIn (p : Spu) (st : EntryState) : Nat := p.table.countP fun e => e.state == st

/-- An item of the Spool Unit's work becomes due; one already due keeps its place (R118). -/
def Spu.dueItem (p : Spu) (i : SpuItem) : Spu := if p.due.contains i then p else { p with due := p.due ++ [i] }

/-- Is it the write of a flush? -/
def SpuItem.isFlush : SpuItem → Bool
  | .flush .. => true
  | _ => false

/-- Form slot `k`, 1–4. -/
def Kcu.formSlotAt (k : Kcu) (n : Nat) : FormSlot := k.forms.getD (n - 1) emptyForm

def Kcu.setForm (k : Kcu) (n : Nat) (f : FormSlot) : Kcu := { k with forms := k.forms.set (n - 1) f }

/-- Pad `p`, 1–48. -/
def Ksu.pad (k : Ksu) (p : Nat) : Pad := k.pads.getD (p - 1) freshPad

/-- Notice slot `n`, 1–8. -/
def Pqu.noticeAt (p : Pqu) (n : Nat) : NoticeSlot := p.notices.getD (n - 1) freeNotice

def Pqu.setNotice (p : Pqu) (n : Nat) (v : NoticeSlot) : Pqu := { p with notices := p.notices.set (n - 1) v }

/-- The lowest-numbered FREE notice slot (R136). -/
def Pqu.freeSlot (p : Pqu) : Option Nat := (List.range' 1 8).find? fun n => (p.noticeAt n).status == .free

/-- Places a text in the lowest FREE notice slot, cut to 40 characters; none if no slot is FREE (R136, R137). -/
def Pqu.place (p : Pqu) (t : Text) : Option Pqu :=
  p.freeSlot.map fun n => { p.setNotice n ⟨.waiting, t.take 40⟩ with noticeOrder := p.noticeOrder ++ [n] }

/-- A notice is raised: placed, or dropped and counted (R136). -/
def Pqu.raise (p : Pqu) (t : Text) : Pqu :=
  match p.place t with
  | some p' => p'
  | none => { p with dropped := bump p.dropped }

/-! ## Conditions other blocks read -/

/-- Is the transmitter on (R23)? -/
def LineState.txOn : LineState → Bool
  | .settle | .ready | .fade | .clearing => true
  | .off | .listen | .detect => false

/-- Is a session running: from session start to session end (R29, R33)? -/
def LineState.inSession : LineState → Bool
  | .ready | .fade => true
  | _ => false

/-- Is the part awake: RUN or SHUTDOWN (section 11)? -/
def Power.awake : Power → Bool
  | .run | .shutdown => true
  | .off | .doze => false

/-- Is an SR between its taking and its completion, in either context (R16)? -/
def Du.srRunning (d : Du) : Bool :=
  match d.line.job, d.keyed.job with
  | some (.regions _), _ => true
  | _, some (.regions _) => true
  | _, _ => false

/-! ## State-level operations -/

/-- A notice is raised into the notice buffer; `settle` lists it (R136). -/
def raise (t : Text) (s : State) : State := s.setPqu (s.pqu.raise t)

/-- An alert is requested (R101); the sounder is silent in DOZE. -/
def alert (s : State) : State :=
  if s.pm.power = .doze then s else s.setKcu { s.kcu with alert := true }

/-- A requester asks for the bus (R10). -/
def busRequest (who : Requester) (b : Burst) (s : State) : State := s.setJmc (s.jmc.request who b)

/-- A requester withdraws its request (R10). -/
def busAbandon (who : Requester) (s : State) : State := s.setJmc (s.jmc.abandon who)

/-- Every request that waits is withdrawn (R187). -/
def withdrawAll (s : State) : State :=
  s.setJmc { s.jmc with hdu := ⟨none, 0⟩, pe := ⟨none, 0⟩, spu := ⟨none, 0⟩, du := ⟨none, 0⟩ }

/-- Changes one entry of the table. -/
def updateEntry (slot : Nat) (f : Entry → Entry) (s : State) : State :=
  s.setSpu (s.spu.setEntry slot (f (s.spu.entry slot)))

/-- A record or the header becomes due (R118). -/
def spuDue (i : SpuItem) (s : State) : State := s.setSpu (s.spu.dueItem i)

/-- Changes one entry and makes its record due (R118). -/
def changeEntry (slot : Nat) (f : Entry → Entry) (s : State) : State := spuDue (.record slot) (updateEntry slot f s)

/-- SPOOL FULL is raised, once in an episode (R107). -/
def raiseSpoolFull (s : State) : State :=
  if s.spu.episode then s
  else alert (raise (ascii "SPOOL FULL") (s.setSpu { s.spu with episode := true }))

end Sys2Proof.Machine
end

