-- ==== Sys2Proof/Machine/Flags.lean ====
section
/-! DEFINITION. Bands, roundings, and the codes and names under which states are reported (Tables 9.1, 11.1, 8.4, 12.3, R189). -/

namespace Sys2Proof.Machine

/-- Table 9.1. -/
def tempBand (celsius : Int) : TempBand :=
  if celsius < 10 then .cold else if celsius < 45 then .normal else if celsius < 60 then .warm else .hot

/-- The carrier indication (R21): is the high-band energy, in tenths of a decibel above the detector's floor, above threshold `n`,
which lies `n` steps of 3 dB above it? -/
def carrierHeard (threshold energy : Nat) : Bool := decide (30 * threshold < energy)

/-- Table 11.1, in millivolts. -/
def batteryBand (millivolts : Nat) : BatteryBand :=
  if 5000 ≤ millivolts then .high else if 4700 ≤ millivolts then .mid else if 4400 ≤ millivolts then .low
  else if 4200 ≤ millivolts then .critical else .exhausted

/-- Is the band CRITICAL or EXHAUSTED, so that the POWER cause is set (R161)? -/
def BatteryBand.weak : BatteryBand → Bool
  | .critical | .exhausted => true
  | .high | .mid | .low => false

/-- Table 8.4. -/
def groupLimit (b : BatteryBand) (txOn : Bool) : Nat :=
  match b with
  | .high => if txOn then 3 else 4
  | .mid => if txOn then 2 else 3
  | .low => if txOn then 1 else 2
  | .critical | .exhausted => 0

/-- `n` sixteenths rounded to the nearest whole number, an exact half to the even neighbour (R148). -/
def roundSixteenths (n : Nat) : Nat :=
  let q := n / 16
  let r := n % 16
  if r < 8 then q else if r = 8 then q + q % 2 else q + 1

/-- The heat table's column for a battery band; CRITICAL and EXHAUSTED have none, and no strobe begins there (R148). -/
def BatteryBand.column : BatteryBand → Nat
  | .high => 0 | .mid => 1 | .low | .critical | .exhausted => 2

/-- The heat table's row for a temperature band; HOT has none, and no strobe of a row sampled HOT begins (R148). -/
def TempBand.row : TempBand → Nat
  | .cold => 0 | .normal => 1 | .warm | .hot => 2

/-- The effective base B (R148): the entry times (16 + density)/16, the density being its code less 4. -/
def effectiveBase (w : Settings) (t : TempBand) (b : BatteryBand) : Nat :=
  roundSixteenths (w.heat.getD (3 * t.row + b.column) 0 * (12 + w.density))

/-- The warm duration W (R148). -/
def warmDuration (w : Settings) (base : Nat) : Nat := roundSixteenths (base * w.warm)

/-! ## Codes (Table 12.3) -/

def LineState.code : LineState → Nat
  | .off => 0 | .listen => 1 | .detect => 2 | .settle => 3 | .ready => 4 | .fade => 5 | .clearing => 6

def EndCause.code : EndCause → Nat
  | .none => 0 | .clear .user => 1 | .clear .cleared => 2 | .clear .linkFailure => 3 | .clear .restart => 4
  | .clear .power => 5 | .carrierLost => 6

def HeadState.code : HeadState → Nat
  | .idle => 0 | .printing => 1 | .paused => 2

def TempBand.code : TempBand → Nat
  | .cold => 0 | .normal => 1 | .warm => 2 | .hot => 3

def BatteryBand.code : BatteryBand → Nat
  | .high => 0 | .mid => 1 | .low => 2 | .critical => 3 | .exhausted => 4

def ComposerState.code : ComposerState → Nat
  | .idle => 0 | .formSelect => 1 | .free => 2 | .form => 3 | .service => 4

def Descriptor.streamCode : Descriptor → Nat
  | .inbound .. => 0 | .echoText .. => 1 | .echoField .. => 1 | .notice _ => 2 | .feed _ => 3

def PadState.code : PadState → Nat
  | .up => 0 | .pressing => 1 | .down => 2 | .releasing => 3 | .fault => 4

def FormStatus.code : FormStatus → Nat
  | .empty => 0 | .building => 1 | .loaded => 2

def Outcome.code : Outcome → Byte
  | .done => 0 | .unknown => 1 | .malformed => 2 | .range => 3 | .prot => 4 | .inUse => 5 | .busy => 6 | .tooLong => 7
  | .notReady => 8

def boolCode (b : Bool) : Nat := if b then 1 else 0

/-- The cause set's byte: bit 0 PAPER, bit 1 LID, bit 2 HOT, bit 3 POWER. -/
def Hdu.causeCode (h : Hdu) : Nat := boolCode h.paper + 2 * boolCode h.lid + 4 * boolCode h.hot + 8 * boolCode h.power

/-- Is any pause cause set? -/
def Hdu.anyCause (h : Hdu) : Bool := h.paper || h.lid || h.hot || h.power

/-- Does a resume point lie at row 0 (R167)? A FEED descriptor's resume point is no row (log entry 16). -/
def Hdu.resumeAtZero (h : Hdu) : Bool :=
  match h.resume with
  | some (.text 0 _) => true
  | _ => false

/-- Keymap and code table entries as two bytes (Table 12.2). -/
def KeyAct.number : KeyAct → Nat
  | .enter => 1 | .tab => 2 | .rub => 3 | .cancel => 4 | .newOrder => 5 | .note => 6 | .send => 7 | .discard => 8 | .feed => 9
  | .line => 10 | .service => 11

def KeyAct.ofNumber : Nat → Option KeyAct
  | 1 => some .enter | 2 => some .tab | 3 => some .rub | 4 => some .cancel | 5 => some .newOrder | 6 => some .note
  | 7 => some .send | 8 => some .discard | 9 => some .feed | 10 => some .line | 11 => some .service | _ => none

def KeyEntry.bytes : KeyEntry → Text
  | .none => [0, 0]
  | .char c rep => [if rep then 0x81 else 0x01, c]
  | .action a rep => [if rep then 0x82 else 0x02, byteOf a.number]
  | .modifier .shift => [0x03, 1]
  | .modifier .func => [0x03, 2]

/-- Is it a character code a key may carry: 20h–7Eh or 80h–BFh (R77)? -/
def charCodeOk (c : Byte) : Bool :=
  (0x20 ≤ c.toNat && c.toNat ≤ 0x7E) || (0x80 ≤ c.toNat && c.toNat ≤ 0xBF)

/-- The keymap entry two bytes name; none for an unknown kind or a value out of range (R82, Table 12.2). The repeat flag is
stored clear on a MODIFIER or NONE entry. -/
def KeyEntry.ofBytes (k v : Byte) : Option KeyEntry :=
  let rep := k.getLsbD 7
  match (k &&& 0x7F).toNat with
  | 0 => some .none
  | 1 => if charCodeOk v then some (.char v rep) else Option.none
  | 2 => (KeyAct.ofNumber v.toNat).map fun a => .action a rep
  | 3 => if v = 1 then some (.modifier .shift) else if v = 2 then some (.modifier .func) else Option.none
  | _ => Option.none

def CodeKind.bytes : CodeKind → Text
  | .glyph i => [0, byteOf i] | .lineEnd => [1, 0] | .tab => [2, 0] | .ignored => [3, 0] | .substitute => [4, 0]

/-- The code table entry two bytes name (R153, Table 12.2). -/
def CodeKind.ofBytes (k v : Byte) : Option CodeKind :=
  match k.toNat with
  | 0 => if v.toNat ≤ 191 then some (.glyph v.toNat) else none
  | 1 => some .lineEnd | 2 => some .tab | 3 => some .ignored | 4 => some .substitute
  | _ => none

/-- The kind of a code in a code table. -/
def kindOf (codes : List CodeKind) (c : Byte) : CodeKind := codes.getD c.toNat .substitute

/-! ## Names, as the local answers and notices print them -/

def Outcome.name : Outcome → Text
  | .done => ascii "DONE" | .unknown => ascii "UNKNOWN" | .malformed => ascii "MALFORMED" | .range => ascii "RANGE"
  | .prot => ascii "PROTECTED" | .inUse => ascii "IN USE" | .busy => ascii "BUSY" | .tooLong => ascii "TOO LONG"
  | .notReady => ascii "NOT READY"

def LineState.name : LineState → Text
  | .off => ascii "OFF" | .listen => ascii "LISTEN" | .detect => ascii "DETECT" | .settle => ascii "SETTLE"
  | .ready => ascii "READY" | .fade => ascii "FADE" | .clearing => ascii "CLEARING"

def EndCause.name : EndCause → Text
  | .none => ascii "NONE" | .clear .user => ascii "USER" | .clear .cleared => ascii "CLEARED"
  | .clear .linkFailure => ascii "LINK FAILURE" | .clear .restart => ascii "RESTART" | .clear .power => ascii "POWER"
  | .carrierLost => ascii "CARRIER LOST"

def HeadState.name : HeadState → Text
  | .idle => ascii "IDLE" | .printing => ascii "PRINTING" | .paused => ascii "PAUSED"

def BatteryBand.name : BatteryBand → Text
  | .high => ascii "HIGH" | .mid => ascii "MID" | .low => ascii "LOW" | .critical => ascii "CRITICAL"
  | .exhausted => ascii "EXHAUSTED"

def PadState.name : PadState → Text
  | .up => ascii "UP" | .pressing => ascii "PRESSING" | .down => ascii "DOWN" | .releasing => ascii "RELEASING"
  | .fault => ascii "FAULT"

def FormStatus.name : FormStatus → Text
  | .empty => ascii "EMPTY" | .building => ascii "BUILDING" | .loaded => ascii "LOADED"

def EntryState.name : EntryState → Text
  | .free => ascii "FREE" | .opened => ascii "OPEN" | .closed => ascii "CLOSED" | .sending => ascii "SENDING"
  | .awaiting => ascii "AWAITING" | .sent => ascii "SENT" | .rejected => ascii "REJECTED" | .damaged => ascii "DAMAGED"
  | .void => ascii "VOID"

/-- The words of a line, separated by single spaces (R136); empty words are left out. -/
def spaced (ws : List Text) : Text := ((ws.filter (· != [])).intersperse [0x20]).flatten

end Sys2Proof.Machine
end

