-- ==== Sys2Proof/Machine/Operands.lean ====
section
/-! DEFINITION. The text forms: numbers as printed, decimal and hexadecimal arguments as read, and the grammar of a directive
(section 10.2, section 12.2). -/

namespace Sys2Proof.Machine

/-! ## Numbers as text -/

/-- Decimal digits of `n`, at most `fuel` of them, without leading zeros. -/
def digits : Nat → Nat → Text
  | 0, _ => []
  | fuel + 1, n => if n < 10 then [byteOf (0x30 + n)] else digits fuel (n / 10) ++ [byteOf (0x30 + n % 10)]

/-- A number in decimal (R136). -/
def decText (n : Nat) : Text := digits 20 n

/-- A whole number with its sign. -/
def intText (i : Int) : Text := if i < 0 then 0x2D :: decText i.natAbs else decText i.natAbs

/-- Two decimal digits. -/
def twoDigits (n : Nat) : Text := [byteOf (0x30 + n / 10 % 10), byteOf (0x30 + n % 10)]

/-- Three decimal digits. -/
def threeDigits (n : Nat) : Text := byteOf (0x30 + n / 100 % 10) :: twoDigits n

/-- One hexadecimal digit. -/
def hexDigit (n : Nat) : Byte := if n % 16 < 10 then byteOf (0x30 + n % 16) else byteOf (0x41 + (n % 16 - 10))

/-- A byte as two hexadecimal digits. -/
def hexByte (b : Byte) : Text := [hexDigit (b.toNat / 16), hexDigit b.toNat]

/-- A 16-bit number as four hexadecimal digits. -/
def hexWord (n : Nat) : Text := [hexDigit (n / 4096), hexDigit (n / 256), hexDigit (n / 16), hexDigit n]

/-! ## Arguments as read -/

def isDigit (b : Byte) : Bool := 0x30 ≤ b.toNat && b.toNat ≤ 0x39

/-- Lower-case letters are read as the matching capitals (R170). -/
def upper (b : Byte) : Byte := if 0x61 ≤ b.toNat ∧ b.toNat ≤ 0x7A then b - 0x20 else b

def isLetter (b : Byte) : Bool := 0x41 ≤ b.toNat && b.toNat ≤ 0x5A

/-- The value of a character 0–9 or A–F. -/
def hexValue (b : Byte) : Option Nat :=
  if isDigit b then some (b.toNat - 0x30)
  else if 0x41 ≤ b.toNat ∧ b.toNat ≤ 0x46 then some (b.toNat - 0x41 + 10) else none

/-- A decimal argument of 1 to 5 digits (section 10.2). -/
def decimal (a : Text) : Option Nat :=
  if 1 ≤ a.length ∧ a.length ≤ 5 ∧ a.all isDigit then some (a.foldl (fun n b => n * 10 + (b.toNat - 0x30)) 0) else none

/-- A hex string: pairs of the characters 0–9 and A–F, high half first (section 12.2). None for an odd length or another
character; the empty string is none. -/
def hexBytes : Text → Option Text
  | [] => none
  | [_] => none
  | [h, l] => do return [byteOf ((← hexValue h) * 16 + (← hexValue l))]
  | h :: l :: rest => do
    let b := byteOf ((← hexValue h) * 16 + (← hexValue l))
    return b :: (← hexBytes rest)

/-- Every argument as a decimal number, if each is one. -/
def decimals : List Text → Option (List Nat)
  | [] => some []
  | a :: as => do return (← decimal a) :: (← decimals as)

/-! ## The directive grammar (R170) -/

/-- The mnemonic's two letters. -/
def Dir.letters : Dir → Text
  | .qs => ascii "QS" | .qe => ascii "QE" | .qm => ascii "QM" | .qt => ascii "QT" | .fd => ascii "FD" | .pd => ascii "PD"
  | .lc => ascii "LC" | .lg => ascii "LG" | .lh => ascii "LH" | .lf => ascii "LF" | .ef => ascii "EF" | .kl => ascii "KL"
  | .ku => ascii "KU" | .xs => ascii "XS" | .xh => ascii "XH" | .xd => ascii "XD" | .lk => ascii "LK" | .ls => ascii "LS"
  | .sr => ascii "SR" | .sv => ascii "SV" | .wm => ascii "WM" | .ws => ascii "WS" | .rt => ascii "RT" | .ps => ascii "PS"

def Dir.all : List Dir :=
  [.qs, .qe, .qm, .qt, .fd, .pd, .lc, .lg, .lh, .lf, .ef, .kl, .ku, .xs, .xh, .xd, .lk, .ls, .sr, .sv, .wm, .ws, .rt, .ps]

/-- The directive two letters name (Table 10.2). -/
def Dir.ofLetters (t : Text) : Option Dir := Dir.all.find? fun d => d.letters == t

/-- The class of a directive (Table 10.2). -/
def Dir.cls : Dir → Option ProtClass
  | .qs | .qe | .qm | .qt => some .query
  | .fd | .pd | .lc | .lg | .lh => some .print
  | .lf | .ef | .kl | .ku => some .forms
  | .xs | .xh | .xd => some .spool
  | .lk | .ls => some .keys
  | .sr | .sv | .wm | .ws | .rt => some .system
  | .ps => none

/-- The class's bit in the protection set (Table 12.8). -/
def ProtClass.bit : ProtClass → Nat
  | .query => 0 | .print => 1 | .forms => 2 | .spool => 3 | .keys => 4 | .system => 5

/-- May the LINE context take this directive (R170 check 3, R174)? -/
def Dir.lineAllowed (d : Dir) (protect : BitVec 6) : Bool :=
  match d.cls with
  | some c => protect.getLsbD c.bit
  | none => false

/-- The position of a directive's hex string among its arguments, if it takes one; its other arguments are decimal. -/
def Dir.hexAt : Dir → Option Nat
  | .lk | .lf => some 2
  | .lc | .lg | .wm => some 1
  | _ => none

/-- The arguments after the fourth character: each preceded by a comma. None if the text does not begin with one. -/
def splitArgs : Text → Option (List Text)
  | [] => some []
  | b :: rest =>
    if b = 0x2C then
      some (rest.foldr (fun c acc =>
        if c = 0x2C then [] :: acc
        else match acc with
          | a :: as => (c :: a) :: as
          | [] => [[c]]) [[]])
    else none

/-- An argument that is not empty and holds only the characters 0–9 and A–F (R170 check 1). -/
def argOk (a : Text) : Bool := a != [] && a.all fun b => (hexValue b).isSome

/-- R170 check 1 on a known directive's arguments: also no decimal argument of more than 5 digits. Any argument that is not in the
directive's hex place counts as decimal here, of more than 5 characters whatever they are, which is the model's choice (log entry 41). -/
def argsOk (d : Dir) (args : List Text) : Bool :=
  args.all argOk &&
    (args.zipIdx.all fun (a, i) => d.hexAt == some i || decide (a.length ≤ 5))

/-- The tag: the third and fourth characters when they are digits, and 0 otherwise (R170). -/
def tagOf (t : Text) : Nat :=
  match t with
  | _ :: _ :: x :: y :: _ => if isDigit x && isDigit y then (x.toNat - 0x30) * 10 + (y.toNat - 0x30) else 0
  | _ => 0

/-- What reading a directive's text gives (R170): a refusal by check 1 or 2, or a known directive and its arguments. -/
inductive Parsed where
  | refused (o : Outcome)
  | directive (d : Dir) (args : List Text)
deriving DecidableEq, Repr

/-- R170 checks 1 and 2. Lower-case letters are read as capitals in every argument, also in one that stands in a decimal place, which is
the model's choice; so is that a mnemonic which is not in Table 10.2 is UNKNOWN however long an argument is, since no rule says which
of its arguments are decimal (log entry 41). -/
def parseDirective (text : Text) : Parsed :=
  match text with
  | a :: b :: x :: y :: rest =>
    match splitArgs rest with
    | none => .refused .malformed
    | some args =>
      let args := args.map fun t => t.map upper
      if !(isLetter (upper a) && isLetter (upper b) && isDigit x && isDigit y && args.all argOk) then .refused .malformed
      else match Dir.ofLetters [upper a, upper b] with
        | none => .refused .unknown
        | some d => if argsOk d args then .directive d args else .refused .malformed
  | _ => .refused .malformed

/-- The settings of Table 10.5: number, least and greatest value. -/
def settingRange : Nat → Option (Nat × Nat)
  | 1 => some (0, 31) | 2 => some (0, 31) | 3 => some (5, 60) | 4 => some (1, 10) | 5 => some (1, 10) | 6 => some (5, 60)
  | 7 => some (2, 15) | 8 => some (64, 65535) | 9 => some (0, 65535) | 10 => some (0, 10) | 11 => some (0, 600)
  | 12 => some (0, 1) | 13 => some (0, 1) | 14 => some (1, 8) | 15 => some (1, 8) | 16 => some (5, 60) | 17 => some (1, 8)
  | _ => none

/-- The working value of setting `n` in its unit of Table 10.5 (QT table 6). -/
def Settings.value (w : Settings) : Nat → Nat
  | 1 => w.introducer.toNat | 2 => w.terminator.toNat | 3 => w.listen | 4 => w.fadeTime | 5 => w.ack | 6 => w.accept
  | 7 => w.attemptLimit | 8 => w.holdMark | 9 => w.resumeMark | 10 => w.lineIdle | 11 => w.dozeIdle
  | 12 => boolCode w.autoSend | 13 => boolCode w.acceptNotices | 14 => w.pressDebounce | 15 => w.releaseDebounce
  | 16 => w.stuck | 17 => w.carrier | _ => 0

/-- The settings with setting `n` at `v` (R179). -/
def Settings.withValue (w : Settings) (n v : Nat) : Settings :=
  match n with
  | 1 => { w with introducer := byteOf v } | 2 => { w with terminator := byteOf v } | 3 => { w with listen := v }
  | 4 => { w with fadeTime := v } | 5 => { w with ack := v } | 6 => { w with accept := v } | 7 => { w with attemptLimit := v }
  | 8 => { w with holdMark := v } | 9 => { w with resumeMark := v } | 10 => { w with lineIdle := v }
  | 11 => { w with dozeIdle := v } | 12 => { w with autoSend := v == 1 } | 13 => { w with acceptNotices := v == 1 }
  | 14 => { w with pressDebounce := v } | 15 => { w with releaseDebounce := v } | 16 => { w with stuck := v }
  | 17 => { w with carrier := v } | _ => w

end Sys2Proof.Machine
end

