-- ==== Sys2Proof/Machine/Spool.lean ====
section
/-! DEFINITION. The Spool Unit: creation, flush, retract, close and cancel of entries, last-ACKs, the send run, reclaim, and the
directory's order of writes (06_the_spool.md). -/

namespace Sys2Proof.Machine

/-! ## Entries (6.2) -/

/-- The lowest-numbered FREE table slot. -/
def Spu.freeSlot (p : Spu) : Option Nat := (List.range' 1 32).find? fun n => (p.entry n).state == .free

/-- The slot of the OPEN entry: the youngest, if it is OPEN (R103). -/
def Spu.openSlot (p : Spu) : Option Nat := p.firstIn .opened

/-- The SPOOL region's size. -/
def State.spoolSize (s : State) : Nat := s.work.map.spool.size

/-- A creation claim (R104): the new entry's table slot and the state, or none when the claim is refused. In a reused slot the
creation record waits, as the FREE record did, for the header write that omits the reclaimed entry, which is the model's choice
(log entry 38). The record becomes due before the header, which is the model's choice (log entry 50). -/
def createEntry (cls : EntryClass) (formSlot : Nat) (s : State) : Option (Nat × State) :=
  match s.spu.freeSlot with
  | none => none
  | some n =>
    if s.spu.ring.free s.spoolSize = 0 then none
    else
      let cursor := match cls with
        | .order => some (.field 1)
        | .note => none
      let e : Entry := { freeEntry with
        state := .opened, cls := some cls, formSlot := formSlot, cursor := cursor, recCursor := cursor,
        start := s.spu.ring.head, gate := (s.spu.entry n).gate }
      let p := s.spu
      -- a record write of this slot's former entry is not the creation record (R119)
      let cur := p.cur.map fun c => if c.item = .record n then { c with live := false } else c
      let p := ({ p with cur := cur, order := p.order ++ [n], episode := false } : Spu).setEntry n e
      some (n, s.setSpu ((p.dueItem (.record n)).dueItem .header))

/-- A flush is taken (R105): the bytes that bring the length to at most 4095 join the ring, and one write burst becomes SPU work.
Answers the state and the bytes taken. -/
def takeFlush (bytes : Text) (cursor : Option Cursor) (s : State) : State × Nat :=
  match s.spu.openSlot with
  | none => (s, 0)
  | some n =>
    let e := s.spu.entry n
    let taken := bytes.take (4095 - e.length)
    let p := { s.spu with
      episode := false
      ring := s.spu.ring.append s.spoolSize taken.length
      due := if taken = [] then s.spu.due
        else s.spu.due ++ [SpuItem.flush s.spu.ring.head taken (e.length + taken.length) cursor] }
    (s.setSpu (p.setEntry n { e with length := e.length + taken.length, cursor := cursor }), taken.length)

/-- A flush has completed (R105): the record carries the length and cursor that came with it, and becomes due. -/
def flushWritten (length : Nat) (cursor : Option Cursor) (s : State) : State :=
  match s.spu.openSlot with
  | none => s
  | some n => changeEntry n (fun e => { e with recLength := length, recCursor := cursor }) s

/-- A retract claim is taken (R106). -/
def retractByte (s : State) : State :=
  match s.spu.openSlot with
  | none => s
  | some n =>
    let s := s.setSpu { s.spu with ring := s.spu.ring.retract s.spoolSize 1 }
    changeEntry n (fun e => { e with length := e.length - 1, recLength := e.length - 1 }) s

/-- The serial after `n`: from 65535 it continues at 1 (R108). -/
def nextSerial (n : Nat) : Nat := if n ≥ 65535 then 1 else n + 1

/-- The first value from `n` on that no entry holds; 33 tries suffice for 32 entries (R108). -/
def Spu.serialFrom (p : Spu) : Nat → Nat → Nat
  | 0, n => n
  | fuel + 1, n => if (p.slotOf n).isSome then p.serialFrom fuel (nextSerial n) else n

/-- A close claim is taken (R108): serial, CLOSED, and the header and record due, the record behind a header write (R119). -/
def closeEntry (s : State) : State :=
  match s.spu.openSlot with
  | none => s
  | some n =>
    let serial := s.spu.serialFrom 33 s.spu.serialNext
    let s := spuDue .header (s.setSpu { s.spu with serialNext := nextSerial serial })
    changeEntry n (fun e => { e with
      state := .closed, serial := some serial, cursor := none, recCursor := none, gate := .wait }) s

/-- An entry becomes VOID (R109, R124); the field cursor, the accept timer and the reject reason belong to states it has left
(Table 6.1). -/
def voidEntry (slot : Nat) (s : State) : State :=
  changeEntry slot (fun e => { e with
    state := .void, cursor := none, recCursor := none, acceptTimer := none, reason := 0, reasonText := [] }) s

/-- A cancel claim is taken (R109). -/
def cancelEntry (s : State) : State :=
  match s.spu.openSlot with
  | none => s
  | some n => voidEntry n s

/-- The oldest entry that is REJECTED or DAMAGED (R109). -/
def Spu.discardable (p : Spu) : Option Nat :=
  p.order.find? fun n => (p.entry n).state == .rejected || (p.entry n).state == .damaged

/-! ## Verdicts and runs (6.3) -/

/-- A last-ACK (R112); not taken while the journal is being secured (R122). -/
def lastAck (serial : Nat) (s : State) : State :=
  if s.spu.securing then s
  else match s.spu.slotOf serial with
    | none => s
    | some n =>
      let e := s.spu.entry n
      if e.state = .sending then
        changeEntry n (fun e => { e with state := .awaiting, sentOnce := true, acceptTimer := some s.work.accept }) s
      else if e.sentOnce then s
      else changeEntry n (fun e => { e with sentOnce := true }) s

/-- A send run is started (R110); `settle` makes the stop test and the selection. -/
def startRun (first : Option Nat) (s : State) : State :=
  s.setSpu { s.spu with active := true, firstChoice := first.orElse fun _ => s.spu.firstChoice }

/-- The reclaim check (R117), on the oldest entry and then on the next. -/
def reclaim : Nat → State → State
  | 0, s => s
  | fuel + 1, s =>
    match s.spu.order with
    | [] => s
    | n :: rest =>
      let e := s.spu.entry n
      if (e.state = .sent ∨ e.state = .void) ∧ e.echoes = 0 then
        let p := { s.spu with order := rest, ring := s.spu.ring.release s.spoolSize e.length }
        let p := p.setEntry n { freeEntry with gate := .wait }
        reclaim fuel (s.setSpu ((p.dueItem .header).dueItem (.record n)))
      else s

/-- The stop test (R110). -/
def stopTest (s : State) : State :=
  if s.spu.active && s.spu.countIn .closed == 0 && s.spu.countIn .sending == 0 then s.setSpu { s.spu with active := false } else s

/-- The first choice, while its entry is CLOSED; it is cleared when that entry leaves CLOSED (R111). -/
def Spu.choice (p : Spu) : Option Nat :=
  match p.firstChoice with
  | none => none
  | some serial =>
    match p.slotOf serial with
    | some n => if (p.entry n).state = .closed then some n else none
    | none => none

/-- Selection (R111): the chosen entry becomes SENDING and the Parcel Engine's source. -/
def select (s : State) : State :=
  let s := if s.spu.choice.isNone then s.setSpu { s.spu with firstChoice := none } else s
  if s.spu.active && s.clu.line.inSession && s.spu.countIn .sending == 0 && decide (s.spu.countIn .awaiting < 4) then
    match s.spu.choice.orElse fun _ => s.spu.firstIn .closed with
    | none => s
    | some n =>
      let e := s.spu.entry n
      let s := changeEntry n (fun e => { e with
        state := .sending, attempts := min 15 (e.attempts + 1), interrupted := false }) s
      let s := s.setSpu { s.spu with firstChoice := none }
      s.setPe { s.pe with source := some ⟨e.serial.getD 0, e.start, e.length, 0⟩ }
  else s

/-- What follows every change of an entry: the reclaim check, the stop test and selection (R110, R111, R117). -/
def spoolFollow (s : State) : State := select (stopTest (reclaim 32 s))

/-! ## Directory writes (6.5) -/

/-- Must the item wait for a header write (R119)? -/
def Spu.blocked (p : Spu) : SpuItem → Bool
  | .record n => (p.entry n).gate != .clear
  | _ => false

/-- The header's slot list: the entry list less entries whose creation record has not completed (R119). -/
def Spu.headerSlots (p : Spu) : List Nat := p.order.filter fun n => (p.entry n).recorded

/-- Write bursts of the Spool Unit at an address. -/
def spuWrites (a : Nat) (l : Text) : List Burst :=
  (writesAt a l).map fun (a, d) => ⟨true, .addr a, d.length, d, .spoolWork⟩

/-- The bursts of a piece of work, its contents taken from the image at this moment (R118). -/
def itemBursts (s : State) : SpuItem → List Burst
  | .header => spuWrites 0
      (headerBytes s.spu.serialNext s.spu.headerSlots s.spu.ring s.work.memSize s.work.map s.hdu.loaded)
  | .record n => spuWrites (recordAddr n) (s.spu.entry n).record
  | .flush off bytes _ _ => [⟨true, .ring .spool off, bytes.length, bytes, .spoolWork⟩]
  | .image k => (List.range 32).map fun i => ⟨false, .addr (formAddr s.work.map k + 8 * i), 8, [], .spoolWork⟩

def Gate.begun : Gate → Gate
  | .wait => .running
  | g => g

def Gate.ended : Gate → Gate
  | .running => .clear
  | g => g

/-- A header write begins: every record and SR waiting for one waits for this one (R119, R15). -/
def Spu.headerBegun (p : Spu) : Spu :=
  { p with table := p.table.map fun e => { e with gate := e.gate.begun }, srGate := p.srGate.begun }

/-- A header write has completed. -/
def Spu.headerEnded (p : Spu) : Spu :=
  { p with table := p.table.map fun e => { e with gate := e.gate.ended }, srGate := p.srGate.ended }

/-- The Spool Unit's next burst: of the work in progress, or of the first due item that need not wait for a header write (R118,
R119). The items due after a record that waits go ahead of it, which is the model's choice (log entry 54). -/
def spuKick (s : State) : State :=
  if s.jmc.busy .spu then s
  else match s.spu.cur with
    | some c =>
      match c.bursts with
      | b :: _ => busRequest .spu b s
      | [] => s
    | none =>
      match s.spu.due.find? fun i => !s.spu.blocked i with
      | none => s
      | some item =>
        match itemBursts s item with
        | [] => s
        | b :: bs =>
          let live := match item with
            | .record n => (s.spu.entry n).state != .free
            | _ => false
          let p := { s.spu with due := s.spu.due.erase item, cur := some ⟨item, b :: bs, [], live⟩ }
          let p := if item = .header then p.headerBegun else p
          busRequest .spu b (s.setSpu p)

/-- A record write has completed: the creation record lets the header list the slot, and the header that lists it is due (R119). -/
def recordWritten (n : Nat) (live : Bool) (s : State) : State :=
  let e := s.spu.entry n
  if live && e.state != .free && !e.recorded then
    spuDue .header (updateEntry n (fun e => { e with recorded := true }) s)
  else s

/-- Is there nothing due and nothing in progress, so that the journal, being secured, is secured (R122)? A form-image read (R85)
that is due or in progress counts too, which is the model's choice (log entry 23). -/
def Spu.idle (p : Spu) : Bool := p.due.isEmpty && p.cur.isNone

/-- Is a flush due or being written? -/
def Spu.flushing (p : Spu) : Bool := p.due.any SpuItem.isFlush || p.cur.any fun c => c.item.isFlush

/-- The OPEN entry. -/
def Spu.openEntry (p : Spu) : Option Entry := p.openSlot.map p.entry

end Sys2Proof.Machine
end

