-- ==== Sys2Proof/Machine/Parcel.lean ====
section
/-! DEFINITION. The Parcel Engine's shared work: the control queue, the flow test, the outbound window, acknowledgment, and the
order at the transmitter (03_parcel_protocol.md). -/

namespace Sys2Proof.Machine

/-! ## The control queue (R55) and what is queued -/

/-- Do two control parcels replace one another: ACK by ACK, NAK by NAK? -/
def Control.replaces : Control → Control → Bool
  | .ack _, .ack _ => true
  | .nak _, .nak _ => true
  | _, _ => false

/-- May a HOLD or RESUME of flow control take this parcel's place in a full queue? -/
def Control.minor : Control → Bool
  | .ack _ | .nak _ | .reminder => true
  | .hold | .resume | .clear => false

/-- Queues a control parcel (R55). -/
def Pe.queue (p : Pe) (c : Control) : Pe :=
  match p.control.findIdx? fun q => c.replaces q with
  | some i => { p with control := p.control.set i c }
  | none =>
    if p.control.length < 4 then { p with control := p.control ++ [c] }
    else if c = .hold ∨ c = .resume then
      match p.control.findIdx? Control.minor with
      | some i => { p with control := p.control.set i c }
      | none => p
    else p

/-- NAK(expected) is queued unless the NAK spacing forbids it (R43). The model's choices: the record and its timer are set even where a
full control queue drops the NAK (log entry 34), and a NAK for the sequence recorded is forbidden while the timer runs even if the
expected sequence has come back to it by eight advances (log entry 35). -/
def Pe.queueNak (p : Pe) (ackTimeout : Nat) : Pe :=
  if p.nakRecord = some p.expected ∧ p.nakTimer.isSome then p
  else { p.queue (.nak p.expected) with nakRecord := some p.expected, nakTimer := some ackTimeout }

/-- A reminder HOLD is queued when HELD, unless one was queued within the ACK timeout (R44). -/
def Pe.remind (p : Pe) (ackTimeout : Nat) : Pe :=
  if p.held ∧ p.reminderTimer.isNone then { p.queue .reminder with reminderTimer := some ackTimeout } else p

/-- The flow test (R56), made only within a session. -/
def flowTest (s : State) : State :=
  if s.clu.line.inSession then
    let free := s.pqu.ring.free s.work.map.inbound.size
    if free < s.work.holdMark ∧ !s.pe.held ∧ !s.pe.control.contains .hold then s.setPe (s.pe.queue .hold)
    else if s.work.resumeMark < free ∧ s.pe.held ∧ !s.pe.control.contains .resume then s.setPe (s.pe.queue .resume)
    else s
  else s

/-! ## The window (R46–R53) -/

def Pe.slot (p : Pe) : SlotId → SendSlot
  | .a => p.slotA
  | .b => p.slotB

def Pe.setSlot (p : Pe) (i : SlotId) (v : SendSlot) : Pe :=
  match i with
  | .a => { p with slotA := v }
  | .b => { p with slotB := v }

def SlotId.other : SlotId → SlotId
  | .a => .b
  | .b => .a

/-- The slots, the one filled first in front (R49). -/
def Pe.byAge (p : Pe) : List SlotId := [p.older, p.older.other]

def SendSlot.isOutstanding : SendSlot → Bool
  | .outstanding .. => true
  | _ => false

def SendSlot.isLoading : SendSlot → Bool
  | .loading .. => true
  | _ => false

def SendSlot.isFilled : SendSlot → Bool
  | .filled _ => true
  | _ => false

def SendSlot.resendDue : SendSlot → Bool
  | .outstanding _ _ _ due _ => due
  | _ => false

def SendSlot.inTx : SendSlot → Bool
  | .outstanding _ _ _ _ tx => tx
  | _ => false

/-- The sequence number of an OUTSTANDING slot. -/
def SendSlot.seq : SendSlot → Option (BitVec 3)
  | .outstanding _ q _ _ _ => some q
  | _ => none

/-- How many parcels an entry or a report of `n` bytes is cut into (R47). -/
def parcelCount (n : Nat) : Nat := max 1 ((n + 47) / 48)

/-- The parcel index `i` of an entry or report of `n` bytes under a serial or tag, its body not yet held (R47). -/
def cutParcel (report : Bool) (serial n i : Nat) : SlotParcel :=
  ⟨report, serial, i, i + 1 == parcelCount n, min 48 (n - 48 * i), []⟩

/-- The oldest report with a parcel not yet placed (R48). -/
def Pe.reportIndex (p : Pe) : Option Nat := p.reports.findIdx? fun r => decide (r.filled < parcelCount r.body.length)

/-- Fills a FREE slot from its source, if there is one (R48). An entry parcel with an empty body needs no burst and makes the slot
FILLED at once, which is the model's choice (log entry 36). -/
def fillSlot (i : SlotId) (s : State) : Option State :=
  let p := s.pe
  let older := if (p.slot i.other).isFilled || (p.slot i.other).isOutstanding then i.other else i
  let first (q : Pe) : Pe := { q with older := older }
  match p.reportIndex with
  | some k =>
    (p.reports[k]?).map fun r =>
      let c := cutParcel true r.tag r.body.length r.filled
      let c := { c with body := (r.body.drop (48 * r.filled)).take 48 }
      s.setPe (first { p.setSlot i (.filled c) with reports := p.reports.set k { r with filled := r.filled + 1 } })
  | none =>
    match p.source with
    | none => none
    | some src =>
      if src.filled < parcelCount src.length then
        let c := cutParcel false src.serial src.length src.filled
        let slot := if c.length = 0 then .filled c else .loading c ((src.start + 48 * src.filled) % s.spoolSize)
        some (s.setPe (first { p.setSlot i slot with source := some { src with filled := src.filled + 1 } }))
      else none

/-- The conditions of R48, for one of the two slots; `settle` asks it with the transmitter idle. -/
def fillNext (s : State) : Option State :=
  if s.clu.line = .ready ∧ !s.pe.stationHold ∧ s.clu.txChar.isNone ∧ s.pe.tx.isNone then
    if s.pe.slotA = .free ∧ !s.pe.slotB.isLoading then fillSlot .a s
    else if s.pe.slotB = .free ∧ !s.pe.slotA.isLoading then fillSlot .b s
    else none
  else none

/-- The Parcel Engine's next burst for a LOADING slot: up to 8 bytes (R48). -/
def loadBurst (p : SlotParcel) (offset spoolSize : Nat) (i : SlotId) : Burst :=
  ⟨false, .ring .spool ((offset + p.body.length) % spoolSize), min 8 (p.length - p.body.length), [], .slotBody i⟩

/-- Asks the bus for the LOADING slot's next burst. -/
def peLoad (s : State) : State :=
  if s.jmc.busy .pe then s
  else match s.pe.slotA, s.pe.slotB with
    | .loading p o, _ => busRequest .pe (loadBurst p o s.spoolSize .a) s
    | _, .loading p o => busRequest .pe (loadBurst p o s.spoolSize .b) s
    | _, _ => s

/-- A body burst has completed: the slot is FILLED when the whole body is held (R48). -/
def bodyRead (i : SlotId) (data : Text) (s : State) : State :=
  match s.pe.slot i with
  | .loading p o =>
    let p := { p with body := p.body ++ data }
    s.setPe (s.pe.setSlot i (if p.length ≤ p.body.length then .filled p else .loading p o))
  | _ => s

/-! ## The transmitter (R39, R54) -/

/-- A control parcel as sent (Table 3.1). -/
def Control.parcel : Control → Parcel
  | .ack q => ⟨.ack, q.setWidth 8, 0, 0, false, []⟩
  | .nak q => ⟨.nak, q.setWidth 8, 0, 0, false, []⟩
  | .reminder => ⟨.hold, 0, 0, 0, false, []⟩
  | .hold => ⟨.hold, 0, 0, 0, false, []⟩
  | .resume => ⟨.resume, 0, 0, 0, false, []⟩
  | .clear => ⟨.clear, 0, 0, 0, false, []⟩

/-- A slot's parcel as sent (Table 3.1, R38). -/
def SlotParcel.parcel (p : SlotParcel) (q : BitVec 3) : Parcel :=
  ⟨if p.report then .report else .text, q.setWidth 8, BitVec.ofNat 16 p.serial, byteOf p.index, p.last, p.body⟩

/-- A parcel begins: its first character is handed to the CLU, the rest wait (R39). -/
def beginParcel (item : TxItem) (p : Parcel) (s : State) : State :=
  match p.chars with
  | [] => s
  | c :: rest => (s.setPe { s.pe with tx := some ⟨item, rest⟩ }).setClu { s.clu with txChar := some c }

/-- Begins the control parcel at the front of the queue; HOLD and RESUME change the flow state as they begin (R56). -/
def beginControl (s : State) : Option State :=
  match s.pe.control with
  | [] => none
  | c :: cs =>
    let s := beginParcel (.control c) c.parcel (s.setPe { s.pe with control := cs })
    match c with
    | .hold => some (flowTest (s.setPe { s.pe with held := true }))
    | .resume => some (flowTest (s.setPe { s.pe with held := false }))
    | _ => some s

/-- The oldest parcel's ACK timer does not run while that parcel is in transmission or resend-due (R51). -/
def Pe.oldest (p : Pe) : Option SlotId := p.byAge.find? fun i => (p.slot i).isOutstanding

/-- A FILLED slot's first transmission (R49) or a resend-due slot's next one (R50). -/
def beginSlot (i : SlotId) (s : State) : Option State :=
  match s.pe.slot i with
  | .filled p =>
    let q := s.pe.nextSeq
    some (beginParcel (.slot i) (p.parcel q)
      (s.setPe { s.pe.setSlot i (.outstanding p q 1 false true) with nextSeq := q + 1 }))
  | .outstanding p q n true _ =>
    let pe := { s.pe.setSlot i (.outstanding p q (min 15 (n + 1)) false true) with resends := bump s.pe.resends }
    some (beginParcel (.slot i) (p.parcel q)
      (s.setPe { pe with ackTimer := if pe.oldest = some i then none else pe.ackTimer }))
  | _ => none

/-- The first parcel of R54's list, when the transmitter is idle; in CLEARING the CLEAR alone (R59). -/
def beginNext (s : State) : Option State :=
  if s.clu.txChar.isSome ∨ s.pe.tx.isSome then none
  else if s.clu.line = .clearing then
    match s.pe.control with
    | [.clear] => beginControl s
    | _ => none
  else if s.clu.line = .ready then
    match beginControl s with
    | some s' => some s'
    | none =>
      if s.pe.stationHold then none
      else match s.pe.byAge.find? fun i => (s.pe.slot i).resendDue with
        | some i => beginSlot i s
        | none =>
          match s.pe.byAge.find? fun i => (s.pe.slot i).isFilled with
          | some i => beginSlot i s
          | none => none
  else none

/-- What the Parcel Engine does when its turn comes: begin a parcel; failing one fill a slot, and begin the parcel if that
filled it at once (R48, R54, Table 3.3); then ask for a LOADING slot's burst. -/
def peTurn (s : State) : State :=
  let s := match beginNext s with
    | some s' => s'
    | none =>
      match fillNext s with
      | none => s
      | some s' => (beginNext s').getD s'
  peLoad s

/-- The Parcel Engine's turn. It reaches its own state, the transmitter's character and the arbiter, and nothing else. -/
def peKick (s : State) : State :=
  let t := peTurn s
  ((s.setPe t.pe).setClu { s.clu with txChar := t.clu.txChar }).setJmc t.jmc

/-! ## Acknowledgment (R49–R52) -/

/-- The ACK timer starts for the oldest OUTSTANDING parcel unless it is in transmission or resend-due, and stops when there is
none (R51). -/
def startAckTimer (timeout : Nat) (p : Pe) : Pe :=
  match p.oldest with
  | none => { p with ackTimer := none }
  | some i => { p with ackTimer := if (p.slot i).inTx || (p.slot i).resendDue then none else some timeout }

/-- What a parcel's acknowledgment passes on (R52): the LAST of an entry a last-ACK, the LAST of a report its delivery. -/
def passOn (p : SlotParcel) (s : State) : State :=
  if p.last then
    if p.report then
      match s.pe.reports.findIdx? fun r => r.tag == p.serial with
      | some k => s.setPe { s.pe with reports := s.pe.reports.eraseIdx k }
      | none => s
    else lastAck p.serial s
  else s

/-- One OUTSTANDING parcel is acknowledged: its slot is FREE, or ends with its transmission, and R52 follows. A slot that so waits for
its transmission's end is no longer OUTSTANDING, for a further ACK as for QS, which is the model's choice (log entry 13). -/
def ackSlot (i : SlotId) (s : State) : State :=
  match s.pe.slot i with
  | .outstanding p _ _ _ tx => passOn p (s.setPe (s.pe.setSlot i (if tx then .ending else .free)))
  | _ => s

/-- The OUTSTANDING slots, the oldest first. -/
def Pe.outstanding (p : Pe) : List SlotId := p.byAge.filter fun i => (p.slot i).isOutstanding

/-- The OUTSTANDING slots up to and including the one with this sequence; none if no slot has it. -/
def Pe.upTo (p : Pe) (q : BitVec 3) : Option (List SlotId) :=
  match p.outstanding with
  | [] => none
  | [i] => if (p.slot i).seq = some q then some [i] else none
  | i :: j :: _ =>
    if (p.slot i).seq = some q then some [i] else if (p.slot j).seq = some q then some [i, j] else none

/-- A cumulative acknowledgment, the older parcel passed on first (R49, R52). -/
def ackAll (is : List SlotId) (s : State) : State :=
  let s := is.foldl (fun s i => ackSlot i s) s
  s.setPe (startAckTimer s.work.ack s.pe)

/-- A stray ACK or NAK is counted (R49, R50). -/
def strayAck (s : State) : State := s.setPe { s.pe with stray := bump s.pe.stray }

/-- A GOOD ACK (R49). -/
def onAck (q : BitVec 3) (s : State) : State :=
  match s.pe.upTo q with
  | some is => ackAll is s
  | none => strayAck s

/-- Marks a parcel resend-due unless its transmission is in progress (R50, R51). -/
def SendSlot.markResend : SendSlot → SendSlot
  | .outstanding p q n due tx => .outstanding p q n (due || !tx) tx
  | v => v

/-- Marks both slots' OUTSTANDING parcels resend-due where R50 and R51 say so. -/
def Pe.resendAll (p : Pe) : Pe := { p with slotA := p.slotA.markResend, slotB := p.slotB.markResend }

/-- The OUTSTANDING parcels are to be resent (R50); the oldest one's timer does not run while it is resend-due (R51). -/
def Pe.resend (p : Pe) : Pe :=
  let p := p.resendAll
  { p with ackTimer := if p.oldest.any fun i => (p.slot i).resendDue then none else p.ackTimer }

/-- A GOOD NAK (R50). -/
def onNak (q : BitVec 3) (s : State) : State :=
  match s.pe.upTo q with
  | some is =>
    let s := ackAll is.dropLast s
    s.setPe s.pe.resend
  | none => if q = s.pe.nextSeq then ackAll s.pe.outstanding s else strayAck s

/-- A slot's transmission has ended: it is no longer in transmission, or becomes FREE if its parcel was acknowledged (R49). -/
def endSlot (i : SlotId) (timeout : Nat) (p : Pe) : Pe :=
  match p.slot i with
  | .outstanding c q n due _ =>
    let p := p.setSlot i (.outstanding c q n due false)
    if p.oldest = some i then startAckTimer timeout p else p
  | .ending => p.setSlot i .free
  | _ => p

/-- A slot once the entry of this serial is dropped: FREE if it was LOADING or FILLED with a parcel of it (R53). -/
def SendSlot.drop (serial : Nat) : SendSlot → SendSlot
  | .loading p o => if p.report = false ∧ p.serial = serial then .free else .loading p o
  | .filled p => if p.report = false ∧ p.serial = serial then .free else .filled p
  | v => v

/-- The SENDING entry leaves SENDING by a verdict (R53): its LOADING and FILLED parcels are dropped, its fill index too. -/
def dropSource (serial : Nat) (s : State) : State :=
  let loading := s.pe.slotA.isLoading || s.pe.slotB.isLoading
  let s := s.setPe { s.pe with slotA := s.pe.slotA.drop serial, slotB := s.pe.slotB.drop serial, source := none }
  -- after a drop the remaining slot is the older one
  let s := if s.pe.slot s.pe.older = .free then s.setPe { s.pe with older := s.pe.older.other } else s
  if loading then busAbandon .pe s else s

/-! ## Verdicts (R114) -/

/-- A stray verdict is counted (R114). -/
def strayVerdict (s : State) : State := s.setSpu { s.spu with stray := bump s.spu.stray }

/-- May a verdict change this entry (the first three rows of R114's table)? -/
def Entry.takesVerdict (e : Entry) : Bool :=
  e.state == .awaiting || e.state == .sending || (e.state == .closed && e.sentOnce)

/-- A taken verdict: the entry's new state, and the Parcel Engine told if it was SENDING (R114, R53). -/
def verdict (slot : Nat) (f : Entry → Entry) (s : State) : State :=
  let e := s.spu.entry slot
  let s' := changeEntry slot (fun e => f { e with acceptTimer := none }) s
  if e.state = .sending then dropSource (e.serial.getD 0) s' else s'

/-- ACCEPT (R114); not taken while the journal is being secured (R122). -/
def onAccept (serial : Nat) (s : State) : State :=
  if s.spu.securing then s
  else match s.spu.slotOf serial with
    | none => strayVerdict s
    | some n =>
      if (s.spu.entry n).takesVerdict then
        let s := verdict n (fun e => { e with state := .sent }) s
        if s.work.acceptNotices then raise (spaced [ascii "ENTRY", decText serial, ascii "ACCEPTED"]) s else s
      else strayVerdict s

/-- REJECT (R114). -/
def onReject (serial code : Nat) (reason : Text) (s : State) : State :=
  if s.spu.securing then s
  else match s.spu.slotOf serial with
    | none => strayVerdict s
    | some n =>
      if (s.spu.entry n).takesVerdict then
        raise (spaced [ascii "ENTRY", decText serial, ascii "REJECTED", decText code, reason])
          (verdict n (fun e => { e with state := .rejected, reason := code, reasonText := reason }) s)
      else strayVerdict s

end Sys2Proof.Machine
end

