-- ==== Sys2Proof/Machine/Queue.lean ====
section
/-! DEFINITION. The Print Queue Unit and the Directive Unit's answers: how a directive ends, the lines of a local answer, station
text into the INBOUND ring, claims for list slots, and the release of a finished line (07_print_queue.md, R168, R171, R173). -/

namespace Sys2Proof.Machine

/-! ## Answers (R171, R173, R137) -/

/-- The text of an answer line, built when the line is offered (R125, log entry 11). -/
def entryLine (slot : Nat) (e : Entry) : Text :=
  spaced [twoDigits slot, e.state.name,
    (match e.serial with
      | some n => decText n
      | none => ascii "----"),
    decText e.length, decText e.attempts,
    (if e.interrupted then ascii "I" else []) ++ (if e.sentOnce then ascii "S" else []),
    if e.state = .rejected then ascii "R" ++ decText e.reason else []]

/-- The characters of an answer line. -/
def AnswerLine.build (s : State) : AnswerLine → Text
  | .text t => t
  | .entryItem n => entryLine n (s.spu.entry n)
  | .entryReason n => (s.spu.entry n).reasonText

/-- Offers the local answer's lines while notice slots are FREE; when the last is placed the context is IDLE (R137, R173). -/
def offerLines : Nat → State → State
  | 0, s => s
  | fuel + 1, s =>
    match s.du.keyed.job, s.du.keyed.offered with
    | some (.answering _), some t =>
      match s.pqu.place t with
      | some p => offerLines fuel ((s.setPqu p).setDu { s.du with keyed := { s.du.keyed with offered := none } })
      | none => s
    | some (.answering _), none =>
      match s.du.keyed.answer with
      | [] => s.setDu { s.du with keyed := ⟨none, [], none, []⟩ }
      | a :: as =>
        offerLines fuel (s.setDu { s.du with keyed := { s.du.keyed with offered := some (a.build s), answer := as } })
    | _, _ => s

/-- 8 notice slots, two turns a line, and the end: 20 turns offer all that can be offered. -/
def offerAll (s : State) : State := offerLines 20 s

/-- A report is handed to the Parcel Engine, which takes none while it holds 4 (R46, R171). -/
def handReport (tag : Nat) (o : Outcome) (data : Text) (s : State) : State :=
  if s.pe.reports.length < 4 then s.setPe { s.pe with reports := s.pe.reports ++ [⟨tag, o.code :: data, 0⟩] } else s

/-- A line directive ends: its report, unless the session has ended meanwhile, and the context IDLE (R171, R172). -/
def finishLine (o : Outcome) (data : Text) (s : State) : State :=
  let l := s.du.line
  let s := if l.orphan then s else handReport l.tag o data s
  s.setDu { s.du with line := { l with state := .idle, collection := [], overlong := false, job := none, orphan := false } }

/-- What a local directive that ends was: an LF or EF that was taken, an SR that was taken, or another one. A refused one was never
taken, and so is none that executes (R170, R173, log entry 57). -/
def Answered.of : Option Job → Answered
  | some (.form _ k _) => .form k
  | some (.regions _) => .regions
  | _ => .other

/-- A local directive ends: its outcome line and data lines are offered (R173). -/
def finishService (o : Outcome) (lines : List AnswerLine) (s : State) : State :=
  offerAll (s.setDu { s.du with keyed :=
    { s.du.keyed with
      job := some (.answering (.of s.du.keyed.job)), offered := some (spaced [s.du.keyed.head, o.name]), answer := lines } })

/-- A directive ends in its context. -/
def finishDirective (c : Ctx) (o : Outcome) (data : Text) (lines : List AnswerLine) (s : State) : State :=
  match c with
  | .line => finishLine o data s
  | .service => finishService o lines s

/-- The directive executing in a context. -/
def Du.job (d : Du) : Ctx → Option Job
  | .line => d.line.job
  | .service => d.keyed.job

/-- Sets the directive executing in a context. -/
def Du.setJob (d : Du) (c : Ctx) (j : Option Job) : Du :=
  match c with
  | .line => { d with line := { d.line with job := j } }
  | .service => { d with keyed := { d.keyed with job := j } }

/-- The directive of a context goes on as this job. -/
def setJob (c : Ctx) (j : Job) (s : State) : State := s.setDu (s.du.setJob c (some j))

/-- The other parse context. -/
def otherCtx : Ctx → Ctx
  | .line => .service
  | .service => .line

/-! ## Station text (R128–R133) -/

/-- The INBOUND region's size. -/
def State.inboundSize (s : State) : Nat := s.work.map.inbound.size

/-- The line completes (R129, R131, R132). -/
def LineAsm.finish (a : LineAsm) (part : Bool) : LineAsm := { a with complete := true, part := part, idleTimer := none }

/-- A taken byte's effect on the line (Table 7.2). `at'` is its ring offset; the just-wrapped flag is clear after it, or set by a wrap. -/
def LineAsm.take (a : LineAsm) (kind : CodeKind) (at' lineIdle : Nat) : LineAsm :=
  let a := { a with length := a.length + 1, justWrapped := false, idleTimer := if lineIdle = 0 then none else some lineIdle }
  let wrap (a : LineAsm) : LineAsm := if 40 ≤ a.column then { a.finish false with justWrapped := true } else a
  match kind with
  | .glyph _ | .substitute => wrap { a with column := a.column + 1, cells := a.cells ++ [some at'] }
  | .tab =>
    let stop := 8 * (a.column / 8 + 1)
    wrap { a with column := stop, cells := a.cells ++ List.replicate (stop - a.column) none }
  | .lineEnd => a.finish false
  | .ignored => a

/-- Is an offered byte refused (R128)? -/
def offerRefused (s : State) : Bool :=
  s.pqu.asm.complete || s.pqu.ring.free s.inboundSize == 0 || s.du.srRunning

/-- Offers a byte of station text: none when it is refused (R128, R129, R130, R132). -/
def offerByte (b : Byte) (s : State) : Option State :=
  if offerRefused s then none
  else
    let a := s.pqu.asm
    let kind := kindOf s.hdu.codes b
    if a.justWrapped && kind == .lineEnd then some (s.setPqu { s.pqu with asm := { a with justWrapped := false } })
    else
      let ring := s.pqu.ring.append s.inboundSize 1
      let a' := a.take kind s.pqu.ring.head s.work.lineIdle
      let a' := if ring.free s.inboundSize = 0 && !a'.complete then a'.finish true else a'
      let du := { s.du with
        unwritten := s.du.unwritten ++ [b]
        unwrittenAt := if s.du.unwritten = [] then s.pqu.ring.head else s.du.unwrittenAt }
      some (flowTest ((s.setPqu { s.pqu with ring := ring, asm := a' }).setDu du))

/-- The LINE context takes the front byte in IDLE (R168): the introducer, the terminator, or station text, which may be refused
and is then waited for. -/
def takeIdleByte (b : Byte) (rest : Text) (s : State) : State :=
  if b = s.work.introducer then
    s.setDu { s.du with input := rest, blocked := false,
                        line := { s.du.line with state := .collecting, collection := [], overlong := false } }
  else if b = s.work.terminator then s.setDu { s.du with input := rest, blocked := false }
  else
    match offerByte b s with
    | some s' => s'.setDu { s'.du with input := rest, blocked := false }
    | none => s.setDu { s.du with blocked := true }

/-- A byte that was refused is offered again when appends may be taken (R128, R168). -/
def reoffer (s : State) : State :=
  if s.du.blocked && s.du.line.state == .idle && !s.pm.restarting && !offerRefused s then
    match s.du.input with
    | b :: rest => takeIdleByte b rest s
    | [] => s.setDu { s.du with blocked := false }
  else s

/-- Has the line input queue a text byte to offer (R133, log entry 17)? -/
def Du.offersText (d : Du) (introducer : Byte) : Bool :=
  d.line.state == .idle &&
    match d.input with
    | b :: _ => b != introducer
    | [] => false

/-- How many INBOUND write bursts are due: one for each 8 unwritten bytes, and one for the rest when the line has completed or
there is no further text byte to offer (R133). -/
def inboundBursts (s : State) : Nat :=
  let n := s.du.unwritten.length
  if s.pqu.asm.complete || !s.du.offersText s.work.introducer then (n + 7) / 8 else n / 8

/-- The INBOUND write bursts that have become due join the Directive Unit's order (R10, R133). -/
def inboundDue (s : State) : State :=
  let have' := s.du.due.countP (· == .inbound)
  s.setDu { s.du with due := s.du.due ++ List.replicate (inboundBursts s - have') .inbound }

/-- The assembler's line completes as PARTIAL at session end or at the line idle timer's expiry (R131, R132). -/
def completePart (s : State) : State :=
  if s.pqu.asm.complete || s.pqu.asm.length == 0 then s
  else s.setPqu { s.pqu with asm := s.pqu.asm.finish true }

/-! ## The line list (R126, R134) -/

/-- Is the assembler's line ready: complete with every byte written (R133)? -/
def State.lineReady (s : State) : Bool := s.pqu.asm.complete && s.du.unwritten == [] && !s.du.inboundOut

/-- The oldest notice not yet listed (R136). -/
def Pqu.nextNotice (p : Pqu) : Option Nat := p.noticeOrder.find? fun n => (p.noticeAt n).status == .waiting

/-- Places a descriptor at the back of the list (R126). -/
def listed (d : Descriptor) (s : State) : State := s.setPqu { s.pqu with list := s.pqu.list ++ [d] }

/-- The inbound line is listed: the assembler is empty at the ring head, the just-wrapped flag kept (R127, R130, R133). A byte refused
till then is taken, and the writes this makes due join the Directive Unit's order. -/
def listInbound (s : State) : State :=
  let a := s.pqu.asm
  let s := listed (.inbound a.part a.start a.length a.cells) s
  inboundDue (reoffer (s.setPqu { s.pqu with asm := { emptyLine s.pqu.ring.head with justWrapped := a.justWrapped } }))

/-- The notice of slot `n` is listed (R127). -/
def Pqu.listNotice (p : Pqu) (n : Nat) : Pqu :=
  { p.setNotice n { p.noticeAt n with status := .listed } with list := p.list ++ [.notice n] }

/-- Lists the notices that wait, the oldest first, while the list has room; there are 8 slots, so 8 turns suffice (R134, R136). -/
def Pqu.listNotices : Nat → Pqu → Pqu
  | 0, p => p
  | fuel + 1, p =>
    if 24 ≤ p.list.length then p
    else match p.nextNotice with
      | some n => Pqu.listNotices fuel (p.listNotice n)
      | none => p

/-- An entry's unprinted echo count changes by a report of the Print Queue Unit (R116), which the Spool Unit does not take while it
secures the journal (R122). -/
def countEcho (slot : Nat) (f : Nat → Nat) (s : State) : State :=
  if s.spu.securing then s else updateEntry slot (fun e => { e with echoes := f e.echoes }) s

/-- What listing an ECHO descriptor reports: the entry's echo count and the form slot's listed field count rise (R116, R127). -/
def echoListed (d : Descriptor) (s : State) : State :=
  match d with
  | .echoText slot _ _ => countEcho slot (· + 1) s
  | .echoField slot form _ _ _ =>
    let s := countEcho slot (· + 1) s
    let f := s.kcu.formSlotAt form
    s.setKcu (s.kcu.setForm form { f with listed := f.listed + 1 })
  | _ => s

/-- The composer's claim is listed, and its echo stops being pending (R95, R127, R135). -/
def listComposer (d : Descriptor) (s : State) : State :=
  let s := echoListed d (listed d (s.setPqu { s.pqu with composerClaim := none }))
  s.setKcu { s.kcu with echo := none }

/-- The oldest FD claim is listed, and that FD completes (R139). -/
def listFd (c : Ctx) (rows : Nat) (s : State) : State :=
  finishDirective c .done [] [] (listed (.feed rows) (s.setPqu { s.pqu with fdClaims := s.pqu.fdClaims.drop 1 }))

/-- Grants one slot, in the fixed order of the claimants (R134); none when the list is full or nobody claims. -/
def grantOne (s : State) : Option State :=
  if 24 ≤ s.pqu.list.length then none
  else if s.lineReady then some (listInbound s)
  else match s.pqu.nextNotice with
    | some n => some (s.setPqu (s.pqu.listNotice n))
    | none =>
      match s.pqu.composerClaim with
      | some d => some (listComposer d s)
      | none =>
        match s.pqu.fdClaims with
        | (c, rows) :: _ => some (listFd c rows s)
        | [] => none

/-- Grants slots while there are claims and room; the list holds 24, so 24 turns suffice. -/
def grantSlots : Nat → State → State
  | 0, s => s
  | fuel + 1, s =>
    match grantOne s with
    | some s' => grantSlots fuel s'
    | none => s

/-- The Print Queue Unit's turn: a refused byte again, the INBOUND writes now due, the claims (R128, R133, R134). -/
def pquTurn (s : State) : State := grantSlots 24 (inboundDue (reoffer s))

/-! ## Finishing a line (R138) -/

/-- A notice slot becomes FREE, and a waiting offered line may take it (R136, R137). -/
def freeNoticeSlot (n : Nat) (s : State) : State :=
  offerAll (s.setPqu { s.pqu.setNotice n freeNotice with noticeOrder := s.pqu.noticeOrder.erase n })

/-- An echo line has finished: the entry's echo count falls, and the form slot's listed field count for a FIELD line (R116, R138). -/
def echoFinished (slot : Nat) (form : Option Nat) (s : State) : State :=
  let s := countEcho slot (· - 1) s
  match form with
  | none => s
  | some k =>
    let f := s.kcu.formSlotAt k
    s.setKcu (s.kcu.setForm k { f with listed := f.listed - 1 })

/-- Releases what a descriptor held. A refused station byte that the release lets in is classified here, by the code table in force
before a waiting LC is applied at this boundary, which is the model's choice (log entry 53). -/
def releaseLine (d : Descriptor) (s : State) : State :=
  match d with
  | .inbound _ _ n _ => reoffer (flowTest (s.setPqu { s.pqu with ring := s.pqu.ring.release s.inboundSize n }))
  | .echoText slot _ _ => echoFinished slot none s
  | .echoField slot form _ _ _ => echoFinished slot (some form) s
  | .notice n => freeNoticeSlot n s
  | .feed _ => s

/-- The front line has finished: it leaves the list and is released (R138). `settle` grants the freed slot. -/
def finishFront (s : State) : State :=
  match s.pqu.list with
  | [] => s
  | d :: rest => releaseLine d (s.setPqu { s.pqu with list := rest })

end Sys2Proof.Machine
end

