-- ==== Sys2Proof/Machine/Head.lean ====
section
/-! DEFINITION. The Head Drive Unit: building rows, strobes, pauses and resumption, and the loads of the print tables
(08_dot_rows_and_heat_control.md, 09_paper_and_head_conditions.md). -/

namespace Sys2Proof.Machine

/-! ## Rendering (R141–R145) -/

/-- The rows a descriptor prints (R141). -/
def Descriptor.rows : Descriptor → Nat
  | .feed n => n
  | _ => 14

/-- The rows of the descriptor at the front of the list. -/
def State.frontRows (s : State) : Nat :=
  match s.pqu.list with
  | d :: _ => d.rows
  | [] => 0

/-- The overlay flag of glyph index `i`, 128–191. -/
def Hdu.isLoaded (h : Hdu) (i : Nat) : Bool := h.loaded.getLsbD (i - 128)

/-- What a column's code shows in row `r`: a ROM byte, or none and the overlay glyph to read (R142, R143). -/
def columnByte (h : Hdu) (r : Nat) (code : Option Byte) : Byte × Option Nat :=
  match code with
  | none => (0, none)
  | some c =>
    match kindOf h.codes c with
    | .glyph i =>
      if i = 32 then (0, none)
      else if i < 128 then (Config.glyphRom i r, none)
      else if h.isLoaded i then (0, some i)
      else (Config.glyphRom 127 r, none)
    | .substitute => (Config.glyphRom 127 r, none)
    | .lineEnd | .tab | .ignored => (0, none)

/-- Offsets cut from the front into runs of up to 8 that follow one another in a ring of `size` (R145); `start` and `len` are the
run being gathered. -/
def ringRunsFrom (size : Nat) (start len : Nat) : List Nat → List (Nat × Nat)
  | [] => if len = 0 then [] else [(start, len)]
  | o :: rest =>
    if len = 0 then ringRunsFrom size o 1 rest
    else if (start + len) % size = o ∧ len < 8 then ringRunsFrom size start (len + 1) rest
    else (start, len) :: ringRunsFrom size o 1 rest

/-- A span cut into runs of up to 8 ring bytes. -/
def spanRuns (r : RingName) (start : Nat) (size : Nat) : Nat → Nat → List (Place × Nat)
  | 0, _ => []
  | fuel + 1, n => if n = 0 then [] else (.ring r start, min 8 n) :: spanRuns r ((start + 8) % size) size fuel (n - 8)

/-- The address of the label of field `f` in form slot `k` (Table 12.7). -/
def labelAddr (m : RegionMap) (k f : Nat) : Nat := formAddr m k + 14 + 14 * (f - 1)

/-- The text bursts a descriptor needs for a glyph row (R145). A label is read whole, its 12 bytes in bursts of 8 and 4, which is
the model's choice (log entry 46). -/
def textRuns (s : State) : Descriptor → List (Place × Nat)
  | .inbound _ _ _ cells =>
    (ringRunsFrom s.inboundSize 0 0 (cells.filterMap id)).map fun (o, n) => (.ring .inbound o, n)
  | .echoText _ start n => spanRuns .spool start s.spoolSize 6 n
  | .echoField _ k f start n =>
    let a := labelAddr s.work.map k f
    [(.addr a, 8), (.addr (a + 8), 4)] ++ spanRuns .spool start s.spoolSize 6 n
  | .notice _ => []
  | .feed _ => []

/-- The bytes of the cell list, in column order. -/
def cellCodes : List (Option Nat) → Text → List (Option Byte)
  | [], _ => []
  | none :: cs, t => none :: cellCodes cs t
  | some _ :: cs, b :: t => some b :: cellCodes cs t
  | some _ :: cs, [] => none :: cellCodes cs []

/-- The column codes of a descriptor whose text bytes have arrived (R144). -/
def columnCodes (s : State) (d : Descriptor) (text : Text) : List (Option Byte) :=
  match d with
  | .inbound _ _ _ cells => cellCodes cells text
  | .echoText .. => text.map some
  | .echoField .. => (nameOf text ++ [0x3A, 0x20] ++ text.drop 12).map some
  | .notice n => (s.pqu.noticeAt n).text.map some
  | .feed _ => []

/-- A build whose text has arrived: the ROM bytes stand in their cells, and the overlay bytes are still to read (R145). -/
def buildCells (s : State) (d : Descriptor) (b : Build) : Build :=
  let cols := ((columnCodes s d b.text).take 40).map (columnByte s.hdu b.row)
  let glyphs := (cols.zipIdx.filterMap fun (c, i) => c.2.map fun g => (i, glyphAddr s.work.map g b.row))
  { b with texted := true, cells := padTo 40 (cols.map Prod.fst), glyphs := glyphs }

/-- A row's pattern stands in its buffer: the strobing place for the row there, otherwise the buffer of the next row (R146). -/
def Hdu.built (h : Hdu) (row : Nat) (pattern : Text) : Hdu :=
  let current := match h.active with
    | some a => a.row
    | none => h.next
  if row = current then { h with rowBuf := some pattern, build := none }
  else { h with nextBuf := some pattern, build := none }

/-- Begins the build of a row. A blank row and a row that needs no burst are built at once (R145). -/
def beginBuild (row : Nat) (s : State) : State :=
  match s.pqu.list with
  | [] => s
  | d :: _ =>
    let blank := match d with
      | .feed _ => true
      | _ => decide (12 ≤ row)
    if blank then s.setHdu (s.hdu.built row noDots)
    else
      let b : Build := ⟨row, textRuns s d, [], false, [], []⟩
      let b := if b.runs = [] then buildCells s d b else b
      if b.texted && b.glyphs == [] then s.setHdu (s.hdu.built row b.cells) else s.setHdu { s.hdu with build := some b }

/-- A text burst of the row being built has completed. -/
def rowTextRead (data : Text) (s : State) : State :=
  match s.hdu.build, s.pqu.list with
  | some b, d :: _ =>
    let b := { b with runs := b.runs.drop 1, text := b.text ++ data }
    let b := if b.runs = [] then buildCells s d b else b
    if b.texted && b.glyphs == [] then s.setHdu (s.hdu.built b.row b.cells) else s.setHdu { s.hdu with build := some b }
  | _, _ => s

/-- A glyph burst of the row being built has completed. -/
def glyphRowRead (column : Nat) (data : Text) (s : State) : State :=
  match s.hdu.build with
  | some b =>
    let b := { b with glyphs := b.glyphs.drop 1, cells := b.cells.set column (data.getD 0 0) }
    if b.glyphs = [] then s.setHdu (s.hdu.built b.row b.cells) else s.setHdu { s.hdu with build := some b }
  | none => s

/-! ## Strobes (R147–R151) -/

/-- A group's share of a pattern: 5 cells (R141). -/
def share (g : Nat) (pattern : Text) : Text := (pattern.drop (5 * (g - 1))).take 5

/-- The new dots of a group's share: on in the row and off in the previous-row image (R147). -/
def newDots (g : Nat) (pattern prev : Text) : Text := ((share g pattern).zip (share g prev)).map fun (a, b) => a &&& ~~~b

/-- The strobe of a group that begins now (R148, R149). -/
def strobeOf (s : State) (row : ActiveRow) (pattern : Text) (g : Nat) : Strobe :=
  let base := effectiveBase s.work row.band s.pm.band
  let warm := warmDuration s.work base
  let new := newDots g pattern s.hdu.prev
  ⟨g, base, warm, share g pattern, new, warm != 0, new.any (· != 0) && base - warm != 0⟩

/-- Has the group a strobe in the row (R149)? -/
def hasStrobe (s : State) (row : ActiveRow) (pattern : Text) (g : Nat) : Bool :=
  let st := strobeOf s row pattern g
  st.share.any (· != 0) && (st.inWarm || st.hasCold)

/-- The dots the strobe fires now (R149): every dot of the share in its warm phase, the new ones in its cold phase. -/
def Strobe.firing (t : Strobe) : Text := if t.inWarm then t.share else t.new

/-- How long the group is energised (R149). -/
def Strobe.duration (t : Strobe) : Nat := if t.hasCold then t.base else t.warm

/-- The Key Sense Unit is told that groups are energised: a measurement in progress is disturbed (R71, R151). -/
def disturb (s : State) : State :=
  if s.hdu.energised = [] then s
  else s.setKsu { s.ksu with scan := s.ksu.scan.map fun c => { c with disturbed := true } }

/-- Starts groups in ascending order while the number energised is below the limit (R150, R151). -/
def startStrobes : Nat → State → State
  | 0, s => s
  | fuel + 1, s =>
    match s.hdu.active with
    | some a =>
      match a.todo with
      | g :: rest =>
        if a.phase = .strobing ∧ s.hdu.head = .printing ∧ s.hdu.energised.length < s.hdu.limit then
          let st := strobeOf s a (s.hdu.rowBuf.getD noDots) g
          startStrobes fuel (disturb (s.setHdu { s.hdu with
            energised := s.hdu.energised ++ [st]
            active := some { a with todo := rest, begun := a.begun ++ [g] } }))
        else s
      | [] => s
    | none => s

/-! ## Pauses (R159–R165) -/

/-- A thermistor sample (R158, R159). -/
def Hdu.sample (h : Hdu) (celsius : Int) : Hdu :=
  let band := tempBand celsius
  { h with reading := celsius, band := band, hot := if h.hot then !decide (celsius ≤ 50) else band == .hot }

/-- The resume point of a descriptor that waits at row `row` with these groups done. -/
def resumeAt (d : Descriptor) (row : Nat) (groups : List Nat) : Resume :=
  match d with
  | .feed n => .feed (n - row)
  | _ => .text row groups

/-- The head pauses at this resume point: the row and the build are discarded, the previous-row image is all-off, and a burst
of the build is withdrawn (R145, R147, R163, R164, R167). While an LG's glyphs are being written no row is built, and the LG's burst,
waiting or in progress, stands through the pause: R163 speaks of the unit's waiting burst without naming an LG's, so that is the
model's choice (log entry 56). -/
def pauseHead (r : Resume) (s : State) : State :=
  let h := s.hdu
  let s := if h.build.isSome then busAbandon .hdu s else s
  s.setHdu { h with
    head := .paused, resume := some r, active := none, next := 0, nextDone := [], rowBuf := none, nextBuf := none,
    build := none, prev := noDots, pauseTimer := true }

/-- The row the head would go on with, and its groups done. -/
def Hdu.place (h : Hdu) : Nat × List Nat :=
  match h.active with
  | some a => (a.row, a.begun)
  | none => (h.next, h.nextDone)

/-- A PAPER or LID cause takes effect (R162, R163): the row in progress is abandoned, or a resume point is moved. -/
def abandonLine (s : State) : State :=
  match s.hdu.head, s.pqu.list with
  | .printing, d :: _ =>
    match d with
    | .feed n => pauseHead (.feed (n - s.hdu.place.1)) s
    | _ => pauseHead (.text 0 []) s
  | .paused, _ =>
    match s.hdu.resume with
    | some (.text _ _) => s.setHdu { s.hdu with resume := some (.text 0 []) }
    | _ => s
  | _, _ => s

/-- Leaves IDLE for a listed descriptor, and PAUSED when no cause is left (R162, R165). -/
def headEnter (s : State) : State :=
  match s.pqu.list with
  | [] => s
  | d :: _ =>
    match s.hdu.head with
    | .idle =>
      if s.hdu.anyCause then pauseHead (resumeAt d 0 []) s
      else s.setHdu { s.hdu with head := .printing, next := 0, nextDone := [], suspended := false }
    | .paused =>
      if s.hdu.anyCause then s
      else
        let (row, groups) := match s.hdu.resume with
          | some (.text r g) => (r, g)
          | some (.feed left) => (d.rows - left, [])
          | none => (0, [])
        s.setHdu { s.hdu with
          head := .printing, resume := none, next := row, nextDone := groups, pauseTimer := false, suspended := false }
    | .printing => s

/-- A row start: the thermistor is sampled, and any cause pauses the head at this row (R146, R158, R159, R161). -/
def rowStart (s : State) : State :=
  match s.pqu.list with
  | [] => s
  | d :: _ =>
    if s.hdu.head = .printing ∧ s.hdu.active = none ∧ !s.hdu.stepping ∧ s.hdu.energised = [] then
      let s := s.setHdu (s.hdu.sample s.pins.thermistor)
      if s.hdu.anyCause then pauseHead (resumeAt d s.hdu.next s.hdu.nextDone) s
      else s.setHdu { s.hdu with
        active := some ⟨s.hdu.next, s.hdu.band, .waiting, [], s.hdu.nextDone⟩, nextDone := [] }
    else s

/-- Builds the row in the strobing place if it is not built, unless a load is being applied (R146, R152). -/
def buildCurrent (s : State) : State :=
  match s.hdu.active with
  | some a =>
    if a.phase = .waiting ∧ s.hdu.rowBuf = none ∧ s.hdu.build = none ∧ s.hdu.loading = none then beginBuild a.row s else s
  | none => s

/-- The strobes of a built row may begin: the groups that have one are laid out (R146, R151, R161). -/
def layOut (s : State) : State :=
  match s.hdu.active, s.hdu.rowBuf with
  | some a, some p =>
    if a.phase = .waiting ∧ s.hdu.loading = none ∧ s.hdu.head = .printing then
      let todo := (List.range' 1 8).filter fun g => hasStrobe s a p g && !a.begun.contains g
      s.setHdu { s.hdu with active := some { a with phase := .strobing, todo := todo } }
    else s
  | _, _ => s

/-- The POWER cause takes effect when no group is energised and the row has groups not begun (R161). -/
def powerPause (s : State) : State :=
  match s.hdu.active, s.pqu.list with
  | some a, d :: _ =>
    if s.hdu.power ∧ s.hdu.head = .printing ∧ s.hdu.energised = [] ∧
        (a.phase = .waiting ∨ a.phase = .strobing ∧ a.todo ≠ []) then
      pauseHead (resumeAt d a.row a.begun) s
    else s
  | _, _ => s

/-- A row whose strobes are complete is fed (R146, R166). -/
def beginFeed (s : State) : State :=
  match s.hdu.active with
  | some a =>
    if a.phase = .strobing ∧ a.todo = [] ∧ s.hdu.energised = [] ∧ s.hdu.head = .printing then
      s.setHdu { s.hdu with active := some { a with phase := .feeding }, stepping := true }
    else s
  | none => s

/-- Builds the following row of the descriptor in the other buffer (R146). -/
def buildNext (s : State) : State :=
  match s.hdu.active with
  | some a =>
    if a.row + 1 < s.frontRows ∧ s.hdu.rowBuf.isSome ∧ s.hdu.nextBuf = none ∧ s.hdu.build = none ∧ s.hdu.loading = none then
      beginBuild (a.row + 1) s
    else s
  | none => s

/-- The Head Drive Unit's next burst: of an LG being applied, or of the row being built (R145, R154). A row's glyph bursts are
placed only when all its text bursts have completed, which is the model's choice (log entry 51). -/
def hduBurst (h : Hdu) : Option Burst :=
  match h.loading with
  | some g =>
    match g.todo with
    | (a, d) :: _ => some ⟨true, .addr a, d.length, d, .loadGlyphs⟩
    | [] => none
  | none =>
    match h.build with
    | none => none
    | some b =>
      match b.runs with
      | (p, n) :: _ => some ⟨false, p, n, [], .rowText⟩
      | [] =>
        match b.glyphs with
        | (c, a) :: _ => some ⟨false, .addr a, 1, [], .glyphRow c⟩
        | [] => none

/-- Asks the bus for it, if none is outstanding. -/
def hduRequest (s : State) : State :=
  if s.jmc.busy .hdu then s
  else match hduBurst s.hdu with
    | some b => busRequest .hdu b s
    | none => s

/-- All the Head Drive Unit can do now. -/
def hduTurn (s : State) : State :=
  hduRequest (buildNext (beginFeed (powerPause (startStrobes 8 (layOut (buildCurrent (rowStart (headEnter s))))))))

/-- The Head Drive Unit's turn. It reaches its own state, the arbiter and the mark on a measurement, and nothing else. -/
def hduKick (s : State) : State :=
  let t := hduTurn s
  ((s.setHdu t.hdu).setJmc t.jmc).setKsu { s.ksu with scan := t.ksu.scan }

/-! ## A row fed (R146, R163, R166) -/

/-- The descriptor at the front has finished: the line is released, and the head is IDLE when the list is empty (R138, R162). -/
def lineFinished (s : State) : State :=
  let s := s.setHdu { s.hdu with
    active := none, next := 0, nextDone := [], rowBuf := none, nextBuf := none, build := none, resume := none }
  let s := finishFront s
  match s.pqu.list with
  | [] => s.setHdu { s.hdu with head := .idle, pauseTimer := false }
  | d :: _ => if s.hdu.head = .paused then s.setHdu { s.hdu with resume := some (resumeAt d 0 []) } else s

/-- A paper-feed step has completed (R166). -/
def stepEnded (s : State) : State :=
  let h := s.hdu
  let s := s.setHdu { h with stepping := false }
  match h.head, h.active, h.resume with
  | .printing, some a, _ =>
    if a.phase = .feeding then
      let s := s.setHdu { s.hdu with prev := h.rowBuf.getD noDots }
      if a.row + 1 < s.frontRows then
        s.setHdu { s.hdu with active := none, next := a.row + 1, nextDone := [], rowBuf := h.nextBuf, nextBuf := none }
      else lineFinished s
    else s
  | .printing, none, _ =>
    -- the head resumed before the step of the abandoned row ended: a FEED row counts as fed (R163)
    match s.pqu.list with
    | .feed n :: _ => if h.next + 1 < n then s.setHdu { s.hdu with next := h.next + 1 } else lineFinished s
    | _ => s
  | .paused, _, some (.feed left) =>
    if 1 < left then s.setHdu { s.hdu with resume := some (.feed (left - 1)) } else lineFinished s
  | _, _, _ => s

/-! ## Print-table loads (R152–R156) -/

/-- Does the head stand at a line boundary (R152)? The model's choices (log entry 40): where row 0 has no strobe the boundary ends
when its paper step begins; a head PAUSED in row 0 with some groups done stands at none, though QS reports its resume point as row
0; and a line sent back to row 0 by a pause is at one till the first strobe of row 0 begins again. -/
def atBoundary (s : State) : Bool :=
  match s.pqu.list with
  | [] => true
  | d :: _ =>
    match s.hdu.head with
    | .idle => true
    | .printing =>
      match s.hdu.active with
      | none => s.hdu.next == 0 && s.hdu.nextDone == [] && !s.hdu.stepping
      | some a => a.row == 0 && a.begun == [] && a.phase != .feeding
    | .paused => s.hdu.resume == some (resumeAt d 0 [])

/-- Row 0 already built is built again under the new tables (R152). A build of row 0 still in progress begins again too: the part
built is dropped, its waiting burst is withdrawn, and the data of a burst in progress is discarded, which is the model's choice
(log entry 55). -/
def rebuild (s : State) : State :=
  let h := s.hdu
  let s := if h.build.isSome then busAbandon .hdu s else s
  s.setHdu { h with
    build := none, rowBuf := none, nextBuf := none
    active := h.active.map fun a => { a with phase := .waiting, todo := [] } }

/-- Replaces the code table's entries from `c` on (R153). -/
def putCodes (codes : List CodeKind) (c : Nat) : List CodeKind → List CodeKind
  | [] => codes
  | k :: ks => putCodes (codes.set c k) (c + 1) ks

/-- Applies a load that has come to the front at a boundary (R152–R156). -/
def applyLoad (c : Ctx) (l : Load) (s : State) : State :=
  let s := rebuild s
  match l with
  | .codesDefault => finishDirective c .done [] [] (s.setHdu { s.hdu with codes := defaultCodes })
  | .codes first ks => finishDirective c .done [] [] (s.setHdu { s.hdu with codes := putCodes s.hdu.codes first ks })
  | .glyphs first rows =>
    s.setHdu { s.hdu with loading := some ⟨c, first, rows.length / 12, writesAt (glyphAddr s.work.map first 0) rows⟩ }
  | .heat row high mid low =>
    let heat := ((s.work.heat.set (3 * row) high).set (3 * row + 1) mid).set (3 * row + 2) low
    finishDirective c .done [] [] (s.setWork { s.work with heat := heat })
  | .density code warm =>
    finishDirective c .done [] [] (s.setWork { s.work with density := code, warm := warm.getD s.work.warm })

/-- Applies the waiting loads, one at a time, in the order taken (R152). At most two contexts have one waiting. -/
def applyLoads : Nat → State → State
  | 0, s => s
  | fuel + 1, s =>
    match s.hdu.loads with
    | (c, l) :: rest =>
      if s.hdu.loading = none ∧ atBoundary s then applyLoads fuel (applyLoad c l (s.setHdu { s.hdu with loads := rest })) else s
    | [] => s

/-- The overlay flags of `n` glyphs from index `g` on. -/
def glyphFlags (g : Nat) : Nat → BitVec 64
  | 0 => 0
  | n + 1 => glyphFlags g n ||| (1#64 <<< (g - 128 + n))

/-- A burst of the LG being applied has completed; after the last its flags are set and LG is complete (R154). -/
def glyphsWritten (s : State) : State :=
  match s.hdu.loading with
  | none => s
  | some g =>
    match g.todo.drop 1 with
    | [] =>
      let s := s.setHdu { s.hdu with loading := none, loaded := s.hdu.loaded ||| glyphFlags g.first g.count }
      finishDirective g.ctx .done [] [] (spuDue .header s)
    | rest => s.setHdu { s.hdu with loading := some { g with todo := rest } }

/-! ## Sensors and limits (R150, R160, R161) -/

/-- The group limit is recomputed from the battery band and the transmitter (R150). -/
def recomputeLimit (s : State) : State := s.setHdu { s.hdu with limit := groupLimit s.pm.band s.clu.line.txOn }

/-- A battery band is reported to the Head Drive Unit: the limit and the POWER cause follow (R150, R161, R180). -/
def reportBand (s : State) : State :=
  let s := recomputeLimit s
  s.setHdu { s.hdu with power := s.pm.band.weak }

/-- The sensors are read with no wait, and the thermistor sampled (R158, R160, R183, R186). -/
def readSensors (s : State) : State :=
  s.setHdu { s.hdu.sample s.pins.thermistor with
    paper := s.pins.paperAbsent, lid := s.pins.lidOpen, paperTiming := false, lidTiming := false }

end Sys2Proof.Machine
end

