-- ==== Sys2Proof/Machine/Staging.lean ====
section
/-! DEFINITION. What the composer's events share: the field in hand, what an event would store, staging and the flush request,
the pending echo, and the display's frame (05_keymaps_forms_and_composition.md, sections 5.2, 5.3 and 5.6). -/

namespace Sys2Proof.Machine

/-! ## The field in hand (R87, R88) -/

/-- Field `n` of the open form image. -/
def FormImage.field (m : FormImage) (n : Nat) : Option FormField := m.fields[n - 1]?

/-- The field at the cursor; none at END. -/
def Kcu.field (k : Kcu) : Option (Nat × FormField) :=
  match k.cursor with
  | .field n => (k.image.field n).map fun f => (n, f)
  | .finish => none

/-- Does the kind allow this character after this value (Table 5.5)? -/
def FieldKind.allows (kind : FieldKind) (value : Text) (c : Byte) : Bool :=
  match kind with
  | .digits => isDigit c
  | .amount =>
    if value.contains 0x2E then isDigit c && decide ((value.dropWhile (· != 0x2E)).length ≤ 2)
    else isDigit c || c == 0x2E
  | .letters => isLetter (upper c) || c == 0x20
  | .any => charCodeOk c

/-- Is a CHAR in FORM stored (R87, R92)? -/
def Kcu.formTakes (k : Kcu) (c : Byte) : Bool :=
  match k.field with
  | some (_, f) => decide (k.value.length < f.width) && f.kind.allows k.value c && decide (k.count + 1 ≤ 4093)
  | none => false

/-- Does this CHAR complete the current line (R86)? -/
def Kcu.completes (k : Kcu) : Bool := decide (39 ≤ k.line.length)

/-- The bytes a CHAR in FREE stores: a 40th character brings its LINE END (R86). -/
def Kcu.freeBytes (k : Kcu) : Nat := if k.completes then 2 else 1

/-- Is a CHAR in FREE stored (R92)? -/
def Kcu.freeTakes (k : Kcu) : Bool := decide (k.count + k.freeBytes ≤ 4093)

/-- Is the field at the cursor required and empty (R88, R89)? -/
def Kcu.wants (k : Kcu) : Bool :=
  match k.field with
  | some (_, f) => f.required && k.value == []
  | none => false

/-- Does a TAB in FORM close the field (R88, R92)? -/
def Kcu.tabCloses (k : Kcu) : Bool := k.field.isSome && !k.wants && decide (k.count + 2 ≤ 4093)

/-- Does an ENTER in FORM close the field at the cursor (R89)? -/
def Kcu.enterCloses (k : Kcu) : Bool := k.field.isSome && !k.wants

/-- The bytes an event would store (R83). -/
def Kcu.stores (k : Kcu) : KeyEvent → Nat
  | .char c =>
    match k.state with
    | .idle => 1
    | .free => if k.freeTakes then k.freeBytes else 0
    | .form => if k.formTakes c then 1 else 0
    | .formSelect | .service => 0
  | .action .enter =>
    match k.state with
    | .free => if k.line = [] then 0 else 1
    | .form => if k.enterCloses then 2 else 0
    | _ => 0
  | .action .tab => if k.state = .form ∧ k.tabCloses then 2 else 0
  | .action _ => 0

/-- Would the event end a line or close a field, or is it FEED (R83)? -/
def Kcu.echoes (k : Kcu) : KeyEvent → Bool
  | .char _ => k.state == .free && k.freeTakes && k.completes
  | .action .enter => (k.state == .free && k.line != []) || (k.state == .form && k.enterCloses)
  | .action .tab => k.state == .form && k.tabCloses
  | .action .feed => true
  | .action _ => false

/-- Would the event open an entry (R83, R16)? -/
def Kcu.opens (k : Kcu) : KeyEvent → Bool
  | .char c =>
    k.state == .idle ||
      (k.state == .formSelect && decide (0x31 ≤ c.toNat ∧ c.toNat ≤ 0x34) &&
        (k.formSlotAt (c.toNat - 0x30)).status == .loaded)
  | .action .note => k.state == .idle
  | .action _ => false

/-- Can the composer act on this event now (R83, R187)? An ENTER that acts as CANCEL is not held by a FEED claim that waits, which is
the model's choice (log entry 29). -/
def canTake (e : KeyEvent) (s : State) : Bool :=
  let k := s.kcu
  s.pm.power.awake && !s.pm.restarting && k.staging.length != 8 && decide (k.staging.length + k.stores e ≤ 8) &&
    !k.closing && k.claim.isNone &&
    !((e == .action .rub || e == .action .cancel) && k.flush == .running) &&
    !(k.echoes e && k.echo.isSome) &&
    !(e == .action .cancel && k.echo.any fun q => q.stage == .claimed) &&
    !(k.opens e && s.du.srRunning) &&
    !(e == .action .enter && k.state == .service && s.du.keyed.job.isSome)

/-! ## The display (R100) -/

/-- The text of the composition display. -/
def Kcu.displayText (k : Kcu) : Text :=
  match k.state with
  | .idle => []
  | .formSelect =>
    spaced (((List.range' 1 4).filter fun n => (k.formSlotAt n).status == .loaded).map fun n => [byteOf (0x30 + n)])
  | .free => k.line
  | .form =>
    match k.field with
    | some (_, f) => f.label ++ [0x3A] ++ k.value
    | none => k.image.name
  | .service => k.serviceLine

/-- The mode letter (Table 5.3). -/
def ComposerState.letter : ComposerState → Byte
  | .idle => 0x49 | .formSelect => 0x53 | .free => 0x4E | .form => 0x4F | .service => 0x56

/-- The last `n` characters, followed by spaces to fill them. -/
def lastPadded (n : Nat) (t : Text) : Text :=
  let u := t.drop (t.length - n)
  u ++ List.replicate (n - u.length) 0x20

/-- The frame that shows the state as it stands; 24 spaces in DOZE (R100). -/
def frameNow (s : State) : Text :=
  if s.pm.power = .doze then 0x02 :: List.replicate 24 0x20
  else [0x02, s.kcu.state.letter] ++ lastPadded 23 s.kcu.displayText

/-- A frame becomes due: it is sent at once, or when the frame in progress ends (R100). -/
def sendFrame (s : State) : State :=
  if s.kcu.sending then s.setKcu { s.kcu with frameDue := true }
  else s.setKcu { s.kcu with frame := frameNow s, sending := true, frameDue := false }

/-! ## Staging and flushes (R94, R95) -/

/-- The composer refuses an event: the alert and the count (R83). -/
def refuse (s : State) : State := alert (s.setKcu { s.kcu with refusals := bump s.kcu.refusals })

/-- Stores bytes of the OPEN entry in staging. A waiting flush that now lacks room in the ring starts the flush wait timer (R94). -/
def store (bytes : Text) (s : State) : State :=
  let k := s.kcu
  let staging := k.staging ++ bytes
  let free := s.spu.ring.free s.spoolSize
  let late := k.flush == .waiting && decide (k.staging.length ≤ free) && decide (free < staging.length)
  s.setKcu { k with staging := staging, count := k.count + bytes.length, flushTimer := k.flushTimer || late }

/-- The cursor a flush request carries (R94). -/
def Kcu.requestCursor (k : Kcu) : Option Cursor := if k.state = .form then some k.cursor else none

/-- Is the front event held for want of staging room (R94)? -/
def Kcu.frontLacksRoom (k : Kcu) : Bool :=
  match k.typeahead with
  | e :: _ => decide (8 < k.staging.length + k.stores e)
  | [] => false

/-- The composer requests a flush when R94 says; a request the ring has no room for starts the flush wait timer. -/
def flushRequest (s : State) : State :=
  let k := s.kcu
  if k.flush == .none && k.staging != [] && (k.staging.length == 8 || k.flushOwed || k.frontLacksRoom) then
    s.setKcu { k with
      flush := .waiting
      flushCursor := k.requestCursor
      flushTimer := decide (s.spu.ring.free s.spoolSize < k.staging.length) }
  else s

/-- The pending echo of an entry becomes a descriptor (R135). -/
def echoDescriptor (q : Echo) (s : State) : Descriptor :=
  let at' := fun o => ((s.spu.entry q.slot).start + o) % s.spoolSize
  match q.kind with
  | .line o n => .echoText q.slot (at' o) n
  | .field k f o n => .echoField q.slot k f (at' o) n
  | .feed => .feed 14

/-- The composer places its echo claim (R95). -/
def claimEcho (q : Echo) (s : State) : State :=
  (s.setKcu { s.kcu with echo := some { q with stage := .claimed } }).setPqu
    { s.pqu with composerClaim := some (echoDescriptor q s) }

/-- The flush that carries the echo's bytes is in progress (R95). -/
def Echo.carried (q : Echo) : Echo := if q.stage = .owed then { q with stage := .flushing } else q

/-- A flush has completed with this length and cursor: the composer is told, and the echo it carried claims its line (R95, R105).
One taken behind it while the journal is being secured is then the flush in progress (R122). -/
def flushDone (length : Nat) (cursor : Option Cursor) (s : State) : State :=
  let s := flushWritten length cursor s
  let more := s.spu.flushing
  let s := s.setKcu { s.kcu with flush := if more then .running else .none }
  match s.kcu.echo with
  | some q =>
    if q.stage = .flushing then claimEcho q s
    else s.setKcu { s.kcu with echo := some (if more then q.carried else q) }
  | none => s

/-- The Spool Unit takes what staging holds as a flush with this cursor (R94, R105). A flush that the 4095 guard cuts to no byte places
no burst and completes at once, which is the model's choice (log entry 45). -/
def flushTaken (cursor : Option Cursor) (s : State) : State :=
  let (t, n) := takeFlush s.kcu.staging cursor s
  let k := s.kcu
  let e := t.spu.openEntry.getD freeEntry
  let t := t.setKcu { k with
    staging := [], flush := .running, flushOwed := false, flushTimer := false
    -- ENTRY FULL: the composer takes the new length as its entry count (R105)
    count := if n < k.staging.length then e.length else k.count
    echo := if k.flush = .running then k.echo else k.echo.map Echo.carried }
  if n = 0 then flushDone e.recLength cursor t else t

/-- The composer is IDLE, with nothing of an entry (R91, R95). -/
def Kcu.toIdle (k : Kcu) : Kcu :=
  { k with
    state := .idle, line := [], cursor := .field 1, value := [], hasValue := [], image := ⟨[], []⟩, formSlot := 0, count := 0,
    staging := [], flushOwed := false, flush := .none, flushCursor := none, flushTimer := false, closing := false }

end Sys2Proof.Machine
end

