-- ==== Sys2Proof/Machine/Settle.lean ====
section
/-! DEFINITION. What every command ends with: the claims, requests and transmissions that its effect has made possible, in one
fixed order (log entry 6), each on the state of the block that acts. -/

namespace Sys2Proof.Machine

/-! ## The Directive Unit's bursts (R10, R17, R19, R97, R98, R15, R133) -/

/-- The next burst of a directive that is executing. -/
def Job.burst (c : Ctx) : Job → Option Burst
  | .reading start n got => some ⟨false, .addr (start + got.length), min 8 (n - got.length), [], .directive c⟩
  | .writing ((a, d) :: _) | .form ((a, d) :: _) _ _ | .regions ((a, d) :: _) =>
    some ⟨true, .addr a, d.length, d, .directive c⟩
  | _ => none

/-- The Directive Unit's next burst, in the order in which its bursts became due (R10). An INBOUND write carries the unwritten bytes, up
to 8, as they stand when it is placed, which is the model's choice (log entry 49). -/
def duTurn : Nat → State → State
  | 0, s => s
  | fuel + 1, s =>
    if s.jmc.busy .du then s
    else match s.du.due with
      | [] => s
      | .directive c :: rest =>
        let s := s.setDu { s.du with due := rest }
        match (s.du.job c).bind (Job.burst c) with
        | some b => busRequest .du b s
        | none => duTurn fuel s
      | .inbound :: rest =>
        let bytes := s.du.unwritten.take 8
        let at' := s.du.unwrittenAt
        let s := s.setDu { s.du with due := rest }
        if bytes = [] then duTurn fuel s
        else
          let s := s.setDu { s.du with
            unwritten := s.du.unwritten.drop 8, unwrittenAt := (at' + bytes.length) % s.inboundSize, inboundOut := true }
          busRequest .du ⟨true, .ring .inbound at', bytes.length, bytes, .inboundText⟩ s

/-- The Directive Unit's turn: at most as many turns as bursts due. -/
def duKick (s : State) : State := duTurn (s.du.due.length + 1) s

/-- A directive's next burst becomes due (R10). -/
def directiveDue (c : Ctx) (s : State) : State := s.setDu { s.du with due := s.du.due ++ [.directive c] }

/-! ## Waking (R183) -/

/-- A calibration starts, in NORMAL scan mode (R72). -/
def Ksu.calibrate (k : Ksu) : Ksu :=
  { k with before := k.pads, ganged := false, calibrating := true, cal := List.replicate 48 freshCal, scan := none, wakeWait := false }

/-- The Coupler Line Unit runs again at a wake: the receiver hunting, and the carrier indication as the detector gives it (R21, R37,
log entry 42). -/
def cluWake (s : State) : State :=
  s.setClu { s.clu with receiver := .hunting, carrier := carrierHeard s.work.carrier s.pins.energy }

/-- The part returns from DOZE to RUN: the band report, the sensors, the limit, the frame, the line unit (R183, R37). -/
def wake (s : State) : State := sendFrame (reportBand (readSensors (cluWake (s.setPm { s.pm with power := .run }))))

/-- A descriptor listed in DOZE wakes the part, and the calibration starts at once (R183). -/
def wakeForLine (s : State) : State :=
  if s.pm.power = .doze ∧ s.pqu.list ≠ [] then
    let s := wake s
    s.setKsu s.ksu.calibrate
  else s

/-! ## The common end of a command -/

/-- Flush request, reclaim, stop test and selection, print-table loads, the print queue's claims, then each requester in the
arbiter's order. -/
def settleTurn (s : State) : State :=
  duKick (spuKick (peKick (hduKick (wakeForLine (pquTurn (applyLoads 2 (spoolFollow (flushRequest s))))))))

/-- The blocks' turns. While a restart waits only for the burst in progress, every request they place is withdrawn, and with that
burst complete start-up comes first (R187). -/
def settled (s : State) : State :=
  if s.pm.stage = .burst then (if s.jmc.current = none then s else withdrawAll (settleTurn s)) else settleTurn s

/-- The common end of a command. It reaches exactly the parts of the state named here. -/
def settle (s : State) : State :=
  let t := settled s
  { s with
    work := { s.work with heat := t.work.heat, warm := t.work.warm, density := t.work.density }
    jmc := t.jmc
    clu := { (if s.pm.power = .doze then { s.clu with receiver := t.clu.receiver, carrier := t.clu.carrier } else s.clu) with
      txChar := t.clu.txChar }
    pe := { s.pe with
      slotA := t.pe.slotA, slotB := t.pe.slotB, older := t.pe.older, nextSeq := t.pe.nextSeq, ackTimer := t.pe.ackTimer,
      tx := t.pe.tx, control := t.pe.control, reports := t.pe.reports, source := t.pe.source, held := t.pe.held,
      resends := t.pe.resends }
    du := t.du
    ksu := { s.ksu with
      before := t.ksu.before, ganged := t.ksu.ganged, calibrating := t.ksu.calibrating, cal := t.ksu.cal, scan := t.ksu.scan,
      wakeWait := t.ksu.wakeWait }
    kcu := { s.kcu with
      flush := t.kcu.flush, flushCursor := t.kcu.flushCursor, flushTimer := t.kcu.flushTimer, echo := t.kcu.echo,
      forms := t.kcu.forms, frame := t.kcu.frame, sending := t.kcu.sending, frameDue := t.kcu.frameDue }
    spu := { s.spu with
      table := t.spu.table, order := t.spu.order, ring := t.spu.ring, active := t.spu.active, firstChoice := t.spu.firstChoice,
      due := t.spu.due, cur := t.spu.cur, srGate := t.spu.srGate }
    pqu := { s.pqu with
      list := t.pqu.list, ring := t.pqu.ring, asm := t.pqu.asm, notices := t.pqu.notices, noticeOrder := t.pqu.noticeOrder,
      composerClaim := t.pqu.composerClaim, fdClaims := t.pqu.fdClaims }
    hdu := t.hdu
    pm := { s.pm with power := t.pm.power } }

end Sys2Proof.Machine
end

