-- ==== Sys2Proof/Machine/Session.lean ====
section
/-! DEFINITION. Changes of the line state, session start and session end, and what each block does at them
(02_coupler_line.md R23–R35 and Table 2.4, R59, R60, R81, R115, R132, R172). -/

namespace Sys2Proof.Machine

/-- The doze idle timer is to start afresh if the doze conditions go on holding (R182). -/
def dozeAfresh (s : State) : State := s.setPm { s.pm with dozeHeld := false }

/-- The Coupler Line Unit with every timer stopped (R26–R34). -/
def Clu.still (c : Clu) : Clu :=
  { c with
    listenTimer := none, confirming := false, gap := false, settleTimer := false, lossGap := false, fadeTimer := none,
    regain := false, clearingTimer := false, clearingCause := none }

/-- The line changes state: the unit's new state, a fresh doze idle timer, and the group limit if the transmitter changes
(R24, R150, R182). -/
def lineTo (c : Clu) (s : State) : State :=
  let was := s.clu.line.txOn
  let s := dozeAfresh (s.setClu c)
  if c.line.txOn = was then s else recomputeLimit s

/-- The line enters OFF: every timer stops, the transmitter stops at once, and what was left of a CLEAR is lost (R23, R34). -/
def enterOff (s : State) : State :=
  let s := lineTo { s.clu.still with line := .off, txChar := none } s
  s.setPe { s.pe with tx := none, control := [] }

/-- The line enters LISTEN with the listen timer started (R26). -/
def enterListen (s : State) : State :=
  lineTo { s.clu.still with line := .listen, listenTimer := some s.work.listen } s

/-! ## Session end (R33, Table 2.4) -/

/-- The Parcel Engine abandons its session state (R59). -/
def peSessionEnd (s : State) : State :=
  let p := s.pe
  busAbandon .pe (s.setPe { p with
    asm := huntingAsm, nakRecord := none, nakTimer := none, reminderTimer := none, slotA := .free, slotB := .free, older := .a,
    ackTimer := none, tx := none, control := [], reports := [], source := none, held := false, stationHold := false,
    holdTimer := none })

/-- The Directive Unit acts on the LINE context and its queue (R172). -/
def duSessionEnd (s : State) : State :=
  let l := s.du.line
  let l := match l.state with
    | .idle => l
    | .collecting => { l with state := .idle, collection := [], overlong := false }
    | .executing => { l with orphan := true }
  s.setDu { s.du with input := [], blocked := false, line := l }

/-- The Spool Unit's entries and run at session end (R115). The SENDING entry's record becomes due first, then the AWAITING ones in the
order of the entry list, which is the model's choice (log entry 50). -/
def spuSessionEnd (s : State) : State :=
  let cut := s.spu.order.filter fun n => (s.spu.entry n).state == .sending
  let wait := s.spu.order.filter fun n => (s.spu.entry n).state == .awaiting
  let s := cut.foldl (fun s n => changeEntry n (fun e => { e with state := .closed, interrupted := true }) s) s
  let s := wait.foldl (fun s n => changeEntry n (fun e => { e with state := .closed, acceptTimer := none }) s) s
  s.setSpu { s.spu with active := false, firstChoice := none }

/-- The keypad lock is cleared (R81). -/
def kcuSessionEnd (s : State) : State := s.setKcu { s.kcu with lock := false }

/-- A line being assembled completes as PARTIAL, and the just-wrapped flag is cleared (R130, R132). -/
def pquSessionEnd (s : State) : State :=
  let s := completePart s
  s.setPqu { s.pqu with asm := { s.pqu.asm with justWrapped := false } }

/-- The notices that wait are listed now, ahead of what claims a list slot later in the same command (R134). -/
def listNotices (s : State) : State := s.setPqu (s.pqu.listNotices 8)

/-- The session ends with this cause (R33): the notice, listed at once where the list has room, and the alert, then every block of
Table 2.4. -/
def sessionEnd (cause : EndCause) (s : State) : State :=
  let s := s.setClu { s.clu with lastEnd := cause }
  let s := alert (listNotices (raise (spaced [ascii "LINE DOWN", cause.name]) s))
  pquSessionEnd (kcuSessionEnd (spuSessionEnd (duSessionEnd (peSessionEnd s))))

/-- The line leaves READY or FADE for CLEARING: the session ends, and the CLEAR is queued (R32, R33, R34, R59). -/
def enterClearing (cause : ClearCause) (s : State) : State :=
  let s := sessionEnd (.clear cause)
    (lineTo { s.clu.still with line := .clearing, clearingTimer := true, clearingCause := some cause } s)
  s.setPe (s.pe.queue .clear)

/-- The fade timer's expiry: OFF, then the session ends with CARRIER LOST (R31, R33). -/
def fadeOut (s : State) : State := sessionEnd .carrierLost (enterOff s)

/-- A request to end the line, from a restart or from power exhaustion (R35). -/
def endLine (cause : ClearCause) (s : State) : State :=
  match s.clu.line with
  | .ready | .fade => enterClearing cause s
  | .listen | .detect | .settle | .clearing => enterOff s
  | .off => s

/-- The LINE key action reaches the Coupler Line Unit (R25). -/
def lineAction (s : State) : State :=
  let s := dozeAfresh s
  match s.clu.line with
  | .off => enterListen s
  | .listen | .detect | .settle => enterOff s
  | .ready | .fade => enterClearing .user s
  | .clearing => s

/-! ## Session start (R29, R60, R110) -/

/-- The line enters READY from SETTLE (R29). A carrier already absent is timed as a loss from now on (R28). In a session that starts
while the Spool Unit secures the journal, auto-send starts no run: R122 bars claims and R110 does not say whether this run is one, so
that is the model's choice (log entry 23). -/
def sessionStart (s : State) : State :=
  let gap := s.clu.lossGap
  let s := lineTo { s.clu.still with line := .ready, lastEnd := .none, lossGap := gap } s
  let s := alert (raise (ascii "LINE UP") s)
  let s := s.setPe { s.pe with
    nextSeq := 0, expected := 0, asm := huntingAsm, nakRecord := none, nakTimer := none, reminderTimer := none }
  let s := flowTest s
  if s.work.autoSend && !s.spu.securing then startRun none s else s

end Sys2Proof.Machine
end

