-- ==== Sys2Proof/Machine/Power.lean ====
section
/-! DEFINITION. The Power Monitor's sequences: securing the journal, shutdown and the release of the latch, start-up with its
restores, the restart, and the doze conditions (11_power_settings_and_start_up.md, R4, R96, R99, R120–R122). -/

namespace Sys2Proof.Machine

/-! ## The latch (R1, R181) -/

/-- The bytes of a burst with which of them hold their new values: those whose bit of `landed` is set (R1). -/
def tornWrites (m : RegionMap) (b : Burst) (landed : BitVec 8) : List (Nat × Byte) :=
  (((placeAddrs m b.place b.count).zip b.data).zipIdx.filter fun p => landed.getLsbD p.2).map Prod.fst

/-- Power is gone: a write burst in progress is torn, a settings write or an SR is cut off, and every working state is lost (R1, R16,
R185). -/
def powerLost (landed : BitVec 8) (s : State) : State :=
  let mem := match s.jmc.current with
    | some c => if c.burst.write then Memory.writeAll s.mem (tornWrites s.work.map c.burst landed) else s.mem
    | none => s.mem
  { s with
    mem := mem
    settingsTorn := s.settingsTorn || s.pm.writing.isSome
    regionsCut := s.regionsCut || s.du.srRunning
    work := defaultSettings
    jmc := Jmc.reset
    clu := Clu.reset
    pe := Pe.reset
    du := Du.reset
    ksu := Ksu.reset
    kcu := { Kcu.reset with sending := false }
    spu := Spu.reset
    pqu := Pqu.reset
    hdu := Hdu.reset
    pm := { Pm.reset with power := .off, dozeTimer := none, dozeHeld := false } }

/-- The power latch is released (R181). Which bytes of a write burst in progress land is a free value (log entry 4). -/
def releaseLatch (s : State) : State := powerLost (Config.latchTear s.fresh) (s.setFresh (s.fresh + 1))

/-! ## Settings at start-up (R184, R4) -/

/-- The settings as read: the defaults if the mark or the check fails, and whether SETTINGS DEFAULTED is raised so far. -/
def readSettings (s : State) : Settings × Bool :=
  if s.settingsTorn || !settingsOk s.settings then (defaultSettings, true) else settingsOf s.settings

/-- The memory size and region map in force (R4), and whether the notice is raised. -/
def judgeMap (w : Settings) : Nat × RegionMap × Bool :=
  if !memSizes.contains w.memSize then (8192, defaultMap 8192, true)
  else if w.map.valid w.memSize then (w.memSize, w.map, false)
  else (w.memSize, defaultMap w.memSize, true)

/-- Do the marks lie in their range with this INBOUND size (Table 11.2)? -/
def marksOk (hold res inbound : Nat) : Bool := decide (64 ≤ hold ∧ hold < res ∧ res ≤ inbound - 64)

/-- The marks in force with an INBOUND size (R184), and whether the notice is raised. -/
def judgeMarks (hold res inbound : Nat) : Nat × Nat × Bool :=
  if marksOk hold res inbound then (hold, res, false)
  else if marksOk 256 768 inbound then (256, 768, true)
  else (64, inbound - 64, true)

/-- Steps 1 and 2 of start-up: the image, the working values and the notice (R184, R4). -/
def settingsInForce (s : State) : Settings × Settings × Bool :=
  let (w, d) := readSettings s
  let (size, map, d') := judgeMap w
  let (hold, res, d'') := judgeMarks w.holdMark w.resumeMark map.inbound.size
  let image := { w with holdMark := hold, resumeMark := res }
  (image, { image with memSize := size, map := map }, d || d' || d'')

/-! ## The spool restore (R120, R121) -/

/-- What the restore keeps as it goes down the slot list: the entries judged so far, the newest first (none for DAMAGED). -/
abbrev Judged := List (Nat × Option Entry)

/-- The state a written state is restored as (R121). -/
def EntryState.restored : EntryState → EntryState
  | .sending | .awaiting => .closed
  | st => st

/-- The class byte (Table 12.6); any other value is read as no class, which is the model's choice (log entry 10). -/
def classOf (n : Nat) : Option EntryClass × Nat :=
  if 1 ≤ n ∧ n ≤ 4 then (some .order, n) else if n = 5 then (some .note, 0) else (none, 0)

/-- The entry a record's 14 bytes restore, in the written state `st` (R121). An attempts byte above 15 is cut to 15, which is the model's
choice (log entry 10). -/
def recordEntry (l : Text) (st : EntryState) : Entry :=
  let (cls, form) := classOf (byteAt l 1)
  let cursor := if st = .opened ∧ cls = some .order then cursorOf (byteAt l 2) else none
  { freeEntry with
    state := st.restored, cls := cls, formSlot := form, cursor := cursor, recCursor := cursor
    serial := if wordAt l 3 = 0 then none else some (wordAt l 3)
    start := wordAt l 5, length := wordAt l 7, recLength := wordAt l 7
    attempts := min 15 (byteAt l 9)
    reason := if st = .rejected then byteAt l 11 else 0
    interrupted := (l.getD 10 0).getLsbD 0 || st == .sending
    sentOnce := (l.getD 10 0).getLsbD 1
    recorded := true }

/-- Where the next span must begin: the tail for the first entry, the end of the one before; the test is not made after one restored
as DAMAGED, be its record good or not (R121). -/
def expectedStart (tail size : Nat) : Judged → Option Nat
  | [] => some tail
  | (_, some e) :: _ => if e.state = .damaged then none else some ((e.start + e.length) % size)
  | (_, none) :: _ => none

/-- Is a listed record good (R121)? `last`: it is the last in the list. -/
def recordGood (l : Text) (tail size : Nat) (before : Judged) (last : Bool) : Option Entry :=
  match EntryState.ofCode (byteAt l 0) with
  | none => none
  | some st =>
    let serial := wordAt l 3
    let carries := st == .opened || st == .damaged || st == .void || serial != 0
    let fits := match expectedStart tail size before with
      | some o => wordAt l 5 == o
      | none => true
    let fresh := serial == 0 || !before.any fun p => p.2.any fun e => e.serial == some serial
    if checkBytes (l.take 12) == (l.drop 12).take 2 && st != .free && fits && decide (wordAt l 7 ≤ 4095) &&
        (st != .opened || last) && carries && fresh then some (recordEntry l st)
    else none

/-- Judges the listed records in order; the result is newest first. -/
def judgeRecords (m : Memory) (tail size : Nat) : List Nat → Judged → Judged
  | [], acc => acc
  | n :: rest, acc =>
    judgeRecords m tail size rest
      ((n, recordGood (m.readAll (addrsFrom (recordAddr n) 14)) tail size acc rest.isEmpty) :: acc)

/-- A DAMAGED entry with its derived span (R121). -/
def damagedEntry (start length : Nat) : Entry :=
  { freeEntry with state := .damaged, start := start, length := length, recLength := length, recorded := true }

/-- Spans of a run of DAMAGED slots from `start`, over `dist` bytes (R121). -/
def damagedRun (size : Nat) : List Nat → Nat → Nat → List (Nat × Entry)
  | [], _, _ => []
  | [n], start, dist => [(n, damagedEntry start dist)]
  | n :: rest, start, dist =>
    let k := min 4095 dist
    (n, damagedEntry start k) :: damagedRun size rest ((start + k) % size) (dist - k)

/-- Lays out the judged entries from `start`, oldest first; `run` holds the DAMAGED slots since then. None where a run cannot cover
its distance (R121). `whole`: a distance of 0 counts as the whole ring. -/
def layEntries (size head : Nat) (whole : Bool) : List (Nat × Option Entry) → List Nat → Nat → Option (List (Nat × Entry))
  | [], [], _ => some []
  | [], run, start =>
    let d := (head + size - start % size) % size
    let d := if d = 0 ∧ whole then size else d
    if d ≤ 4095 * run.length then some (damagedRun size run start d) else none
  | (n, none) :: rest, run, start => layEntries size head whole rest (run ++ [n]) start
  | (n, some e) :: rest, run, start => do
    let d := if run = [] then 0 else (e.start + size - start % size) % size
    if d ≤ 4095 * run.length then
      let more ← layEntries size head whole rest [] ((e.start + e.length) % size)
      some (damagedRun size run start d ++ (n, e) :: more)
    else none

/-- Does the header pass (R120)? -/
def headerGood (l : Text) (w : Settings) : Bool :=
  l.getD 0 0 == 0x5A && l.getD 1 0 == 0xA5 && checkBytes (l.take 59) == (l.drop 59).take 2 &&
    (l.drop 42).take 9 == stampBytes w.memSize w.map

/-- The slots the header lists, a count above 32 read as 32, less any that is no slot or stands twice (log entry 10). -/
def headerSlots (l : Text) : List Nat :=
  ((((l.drop 5).take (min 32 (byteAt l 4))).map BitVec.toNat).filter fun n => decide (1 ≤ n ∧ n ≤ 32)).eraseDups

/-- What a restore gives: the spool, the loaded set, the slots found DAMAGED, and whether the journal was reset. -/
structure Restored where
  spu : Spu
  loaded : BitVec 64
  damaged : List Nat
  wiped : Bool
deriving DecidableEq, Repr

/-- A journal reset (R120): the fresh header becomes due. -/
def journalReset : Restored := ⟨Spu.reset.dueItem .header, 0, [], true⟩

/-- The entries laid out by the restore, as the spool (R121). Lengths that sum to more than the ring leave the full flag clear, which is
the model's choice (log entry 10). -/
def spoolOf (l : Text) (size : Nat) (es : List (Nat × Entry)) : Spu :=
  let tail := wordAt l 37 % size
  let head := match es.getLast? with
    | some (_, e) => (e.start + e.length) % size
    | none => tail
  let sum := (es.map fun p => p.2.length).sum
  let p : Spu := { Spu.reset with
    order := es.map Prod.fst, serialNext := if wordAt l 2 = 0 then 1 else wordAt l 2
    ring := ⟨tail, head, decide (sum = size ∧ 0 < sum)⟩ }
  es.foldl (fun p q => p.setEntry q.1 q.2) p

/-- Is the record of a restored entry to be rewritten (R118, R121)? Of a DAMAGED entry, and of one whose state the restore changed: a
SENDING or an AWAITING one. -/
def rewritten (m : Memory) (n : Nat) (e : Entry) : Bool :=
  e.state == .damaged || (EntryState.ofCode (m.read (recordAddr n)).toNat).any fun st => st.restored != st

/-- The spool restore from the directory (R120, R121). The records to be rewritten become due in the order of the slot list, which is
the model's choice (log entry 50). 'Every listed entry is DAMAGED' is read as 'no listed record is good', and a full
flag byte other than 1 as clear, which are the model's choices (log entry 10). -/
def restoreSpool (m : Memory) (w : Settings) : Restored :=
  let l := m.readAll (addrsFrom 0 64)
  if !headerGood l w then journalReset
  else
    let size := w.map.spool.size
    let tail := wordAt l 37 % size
    let judged := judgeRecords m tail size (headerSlots l) []
    let whole := judged.all (fun p => p.2.isNone) && byteAt l 41 == 1
    match layEntries size (wordAt l 39 % size) whole judged.reverse [] tail with
    | none => journalReset
    | some es =>
      let damaged := (es.filter fun p => p.2.state == .damaged).map Prod.fst
      let due := (es.filter fun p => rewritten m p.1 p.2).map Prod.fst
      let p := due.foldl (fun p n => p.dueItem (.record n)) (spoolOf l size es)
      ⟨p, loadedOf ((l.drop 51).take 8), damaged, false⟩

/-- The spool restore at start-up: the journal is reset where power was lost before an SR completed (R16). -/
def State.restored (s : State) (w : Settings) : Restored := if s.regionsCut then journalReset else restoreSpool s.mem w

/-! ## Forms and the composer at start-up (R96, R99) -/

/-- The 256 bytes of form slot `k`. -/
def formBytes (m : Memory) (map : RegionMap) (k : Nat) : Text := m.readAll (addrsFrom (formAddr map k) 256)

/-- A form slot judged at start-up (R96). -/
def judgeForm (m : Memory) (map : RegionMap) (k : Nat) : FormSlot :=
  let l := formBytes m map k
  if formLoadedOk l then { emptyForm with status := .loaded, count := byteAt l 1 } else emptyForm

/-- The EMPTY status is written into every slot not judged LOADED (R96). -/
def emptyForms (m : Memory) (map : RegionMap) : Memory :=
  ([1, 2, 3, 4].filter fun k => (judgeForm m map k).status != .loaded).foldl (fun m k => m.write (formAddr map k) 0) m

/-- The field items of an ORDER's text: the fields that have a value, and the value of the field in hand (R99). -/
def fieldItems : Nat → Text → List Nat → List Nat × Text
  | 0, t, acc => (acc, t)
  | fuel + 1, t, acc =>
    let value := t.takeWhile (· != 0x1F)
    match t.drop value.length with
    | _ :: n :: rest => fieldItems fuel rest (if value = [] then acc else acc ++ [n.toNat])
    | _ => (acc, t)

/-- The text of an entry, from the SPOOL ring. -/
def entryText (m : Memory) (map : RegionMap) (e : Entry) : Text :=
  m.readAll (placeAddrs map (.ring .spool e.start) e.length)

/-- The composer is set from the restored OPEN entry, if there is one (R99). An ORDER whose record holds no cursor (byte 0, Table 12.6)
resumes at field 1, which is the model's choice (log entry 10). -/
def restoreComposer (s : State) : State :=
  match s.spu.openSlot with
  | none => s
  | some n =>
    let e := s.spu.entry n
    let text := entryText s.mem s.work.map e
    match e.cls with
    | some .note =>
      let line := (text.reverse.takeWhile (· != 0x0A)).reverse
      s.setKcu { s.kcu with state := .free, line := line, count := e.length }
    | some .order =>
      match (if (s.kcu.formSlotAt e.formSlot).status = .loaded then imageOf (formBytes s.mem s.work.map e.formSlot) else none) with
      | some image =>
        let (has, value) := fieldItems (text.length + 1) text []
        s.setKcu { s.kcu with
          state := .form, cursor := e.cursor.getD (.field 1), value := value, hasValue := has.eraseDups, image := image,
          formSlot := e.formSlot, count := e.length }
      | none => closeEntry s
    | none => closeEntry s

/-! ## Start-up (R186) -/

/-- Notices raised in order. -/
def raiseAll (ts : List Text) (s : State) : State := ts.foldl (fun s t => raise t s) s

/-- The pad records start-up begins its calibration from: the former baselines and last counts, everything else 0 (R72). -/
def startPads (ps : List Pad) : List Pad := ps.map fun p => { freshPad with baseline := p.baseline, last := p.last }

/-- The state start-up leaves before its notices and the composer: every block as the "After start-up" columns give it. A scan in
progress goes on (R63). The model's choices where Table 5.7, Table 9.4 and R186 are silent: an alert that sounds and a display frame in
progress go on, and a paper-feed step in progress is dropped (log entry 37). -/
def startState (s : State) : State :=
  let (image, work, _) := settingsInForce s
  let r := s.restored work
  let band := batteryBand s.pins.battery
  let s1 : State := { s with
    mem := emptyForms s.mem work.map
    regionsCut := false
    work := work
    jmc := Jmc.reset
    clu := { Clu.reset with carrier := carrierHeard work.carrier s.pins.energy }
    pe := Pe.reset
    du := Du.reset
    ksu := { Ksu.reset with pads := startPads s.ksu.pads, before := startPads s.ksu.pads, scan := s.ksu.scan }
    kcu := { Kcu.reset with
      forms := [1, 2, 3, 4].map (judgeForm s.mem work.map), frame := s.kcu.frame, sending := s.kcu.sending, alert := s.kcu.alert }
    spu := r.spu
    pqu := Pqu.reset
    hdu := { Hdu.reset with loaded := r.loaded }
    pm := { Pm.reset with image := image, band := band, dozeTimer := none, dozeHeld := false } }
  reportBand (readSensors s1)

/-- Start-up (R186): with the band EXHAUSTED the latch is released and the part does not start. -/
def startUp (s : State) : State :=
  if batteryBand s.pins.battery = .exhausted then releaseLatch s
  else
    let (_, work, defaulted) := settingsInForce s
    let r := s.restored work
    let t := startState s
    let t := if defaulted then raise (ascii "SETTINGS DEFAULTED") t else t
    let t := if r.wiped then raise (ascii "JOURNAL RESET") t else t
    let t := raiseAll (r.damaged.map fun n => spaced [ascii "ENTRY DAMAGED", twoDigits n]) t
    let t := restoreComposer (reclaim 32 t)
    let t := if t.pm.band = .critical then raise (ascii "BATTERY LOW") t else t
    sendFrame t

/-! ## Securing, shutdown and restart (R122, R181, R187) -/

/-- What staging holds when the Spool Unit is asked to secure the journal: taken as a flush if it fits, behind one in progress, and
lost if it does not (R122). -/
def secureStaging (s : State) : State :=
  let k := s.kcu
  if k.staging = [] then s
  else if k.staging.length ≤ s.spu.ring.free s.spoolSize ∧ s.spu.openSlot.isSome then
    flushTaken (if k.flush = .waiting then k.flushCursor else k.requestCursor) s
  else s.setKcu { k with
    staging := [], flush := if k.flush = .running then .running else .none, flushOwed := false, flushTimer := false }

/-- The Spool Unit is asked to secure the journal: it acts on the bytes in staging, and from then on it takes no claim (R122). A second
request, of a shutdown that takes over from a restart, changes nothing. -/
def secureJournal (s : State) : State :=
  if s.spu.securing then s else secureStaging (s.setSpu { s.spu with securing := true })

/-- The directives that either context is executing are abandoned, with no outcome, report or line, and with them their FEED claims
and print-table loads (R187). -/
def abandonDirectives (s : State) : State :=
  let l := s.du.line
  let line : LineContext := if l.state = .executing then ⟨.idle, [], false, l.tag, none, false⟩ else l
  ((s.setDu { s.du with line := line, keyed := ⟨none, [], none, []⟩, due := s.du.due.filter (· == .inbound) }).setPqu
    { s.pqu with fdClaims := [] }).setHdu { s.hdu with loads := [], loading := none }

/-- One advance of a restart or a shutdown; none when it waits (R181, R187). -/
def pmStage (s : State) : Option State :=
  match s.pm.stage with
  | .none => none
  | .report =>
    if s.pe.reports = [] ∨ !s.clu.line.inSession then
      some (settle (endLine .restart (s.setPm { s.pm with stage := .line })))
    else none
  | .line =>
    if s.clu.line = .off then some (settle (secureJournal (s.setPm { s.pm with stage := .secure }))) else none
  | .secure => if s.spu.idle then some (withdrawAll (abandonDirectives (s.setPm { s.pm with stage := .burst }))) else none
  | .burst => if s.jmc.current = none then some (settle (startUp s)) else none
  | .shutdown => if s.spu.idle ∧ s.pm.writing = none then some (releaseLatch s) else none

/-- Advances as far as it goes at once; no sequence has more than 6 stages. -/
def pmAdvance : Nat → State → State
  | 0, s => s
  | fuel + 1, s =>
    match pmStage s with
    | some t => pmAdvance fuel t
    | none => s

/-- Shutdown begins (R181): the line is ended with POWER, and the journal is secured. -/
def beginShutdown (s : State) : State :=
  let s := s.setPm { s.pm with power := .shutdown, stage := .shutdown }
  secureJournal (endLine .power s)

/-! ## Doze (R182) -/

/-- Do the doze conditions hold (R182)? -/
def dozeConditions (s : State) : Bool :=
  s.pm.power == .run && !s.pm.restarting && s.clu.line == .off && s.pqu.list == [] && s.kcu.typeahead == [] &&
    s.kcu.state != .formSelect && !s.kcu.closing && s.kcu.staging == [] && s.kcu.flush == .none && s.kcu.echo == none &&
    s.kcu.claim == none && s.spu.idle && s.hdu.head == .idle && s.du.line.state != .executing && s.du.keyed.job == none &&
    s.pm.writing == none

/-- The doze idle timer follows the doze conditions (R182). -/
def pmTrack (s : State) : State :=
  if dozeConditions s then
    if s.pm.dozeHeld then s
    else s.setPm { s.pm with dozeHeld := true, dozeTimer := if s.work.dozeIdle = 0 then none else some s.work.dozeIdle }
  else s.setPm { s.pm with dozeHeld := false, dozeTimer := none }

/-- The common end of a command: what its effect has made possible, a restart or shutdown on its way, the doze idle timer. -/
def finish (s : State) : State := pmTrack (pmAdvance 8 (settle s))

/-- A command that has had its effect. -/
def done (s : State) : Out := .next (finish s)

/-- A command without effect in this state (log entry 6). -/
def ignored (s : State) : Out := .next s

end Sys2Proof.Machine
end

