-- ==== Sys2Proof/Machine/Line.lean ====
section
/-! DEFINITION. The commands of the coupler line and of the parcel protocol: carrier and line timers, characters, parcels judged,
protocol timers (02_coupler_line.md, 03_parcel_protocol.md). -/

namespace Sys2Proof.Machine

/-- A command that has its effect `t` where its condition holds, and none elsewhere. -/
def guarded (c : Bool) (t s : State) : Out := if c then done t else ignored s

/-! ## Characters on the line (R20, R22) -/

/-- A character's ten bits in the order in which they are sent, mark as true (R20): the start bit, space; the data bits, the least
significant first, 1 as mark; the stop bit, mark, or space in a framing error. -/
def frame (c : Byte) (flagged : Bool) : List Bool := false :: ((List.range 8).map fun i => c.getLsbD i) ++ [!flagged]

/-- The tone that is sent for mark and for space, in hertz (Table 2.1): in the low band from the terminal, in the high band from the
station. -/
def toneOf (high mark : Bool) : Nat :=
  match high, mark with
  | false, true => 1150
  | false, false => 950
  | true, true => 2300
  | true, false => 2100

/-- The tones the transmitter sends, one for each bit (R20, R23): none while it is off, those of the frame of the character it holds,
the mark tone otherwise. -/
def Clu.sends (c : Clu) : List Nat :=
  if !c.line.txOn then []
  else match c.txChar with
    | some x => (frame x false).map (toneOf false)
    | none => [toneOf false true]

/-- The byte of eight data bits, the least significant first. -/
def byteOfBits (bits : List Bool) : Byte := byteOf (bits.foldr (fun b n => 2 * n + b.toNat) 0)

/-- A bit is read as mark where the mark tone is the stronger of the two, and as space otherwise (R20). -/
def readsMark (mark space : Nat) : Bool := decide (space < mark)

/-- What the receiver makes of a bit at its middle, mark as true (R22), and the character it ends, if any, flagged where its stop bit
is space. -/
def Receiver.read (mark : Bool) : Receiver → Receiver × Option (Byte × Bool)
  | .hunting => (.hunting, none)
  | .start => (if mark then .hunting else .data [], none)
  | .data bits => (if bits.length < 7 then .data (bits ++ [mark]) else .stop (byteOfBits (bits ++ [mark])), none)
  | .stop c => if mark then (.hunting, some (c, false)) else (.awaitMark, some (c, true))
  | .awaitMark => (if mark then .hunting else .awaitMark, none)

/-- What the receiver makes of one sound (R20, R22). -/
def Receiver.hear (r : Receiver) : Sound → Receiver × Option (Byte × Bool)
  | .fall => (if r = .hunting then .start else r, none)
  | .level mark space => r.read (readsMark mark space)

/-- What the receiver makes of several sounds, and the last character they end. -/
def Receiver.listen : Receiver → List Sound → Receiver × Option (Byte × Bool)
  | r, [] => (r, none)
  | r, x :: xs =>
    let (q, c) := r.hear x
    let (q', c') := q.listen xs
    (q', c' <|> c)

/-- What is heard of a tone of the station: the mark tone alone, or the space tone alone (log entry 31). -/
def heardTone (hertz : Nat) : Sound := .level (if hertz = toneOf true true then 1 else 0) (if hertz = toneOf true false then 1 else 0)

/-- What is heard of a character that the receiver reads to its stop bit (R20, R22): mark before it, the leading edge of its start
bit, and the middle of each of its bits (log entry 31). -/
def soundsOf (c : Byte) (flagged : Bool) : List Sound :=
  heardTone (toneOf true true) :: .fall :: (frame c flagged).map fun mark => heardTone (toneOf true mark)

/-! ## Carrier and line timers (R21, R26–R34) -/

/-- The carrier indication turns present (R27, R28, R31). -/
def carrierPresent (s : State) : State :=
  let c := { s.clu with carrier := true }
  match s.clu.line with
  | .listen => lineTo { c with line := .detect, confirming := true, gap := false } s
  | .detect => s.setClu { c with gap := false }
  | .settle | .ready => s.setClu { c with lossGap := false }
  | .fade => s.setClu { c with regain := true }
  | .off | .clearing => s.setClu c

/-- The carrier indication turns absent (R27, R28, R30, R31). -/
def carrierAbsent (s : State) : State :=
  let c := { s.clu with carrier := false }
  match s.clu.line with
  | .detect => s.setClu { c with gap := true }
  | .settle | .ready => s.setClu { c with lossGap := true }
  | .fade => s.setClu { c with regain := false }
  | .off | .listen | .clearing => s.setClu c

/-- A carrier loss (R28, R30): SETTLE returns to LISTEN, READY goes to FADE. -/
def carrierLost (s : State) : State :=
  if s.clu.line = .settle then enterListen s
  else
    let s := lineTo { s.clu.still with line := .fade, fadeTimer := some s.work.fadeTime, fades := bump s.clu.fades } s
    s.setPe { s.pe with asm := huntingAsm }

/-- The detector compares the high-band energy with the threshold (R21), and the line acts on a turn of the indication (log entry
42). -/
def judgeCarrier (s : State) : State :=
  let present := carrierHeard s.work.carrier s.pins.energy
  if present = s.clu.carrier then s
  else if present then carrierPresent s
  else carrierAbsent s

/-- The high-band energy where the indication turns (R21): above the threshold for a turn to present, at it or below for one to
absent; how far is a free value (log entry 42). -/
def turnedEnergy (present : Bool) (s : State) : Nat :=
  let free := Config.carrierEnergy s.fresh
  if present then 30 * s.work.carrier + 1 + free else min (30 * s.work.carrier) free

/-- The energy the microphone hears after a turn of the indication. -/
def energyTurned (present : Bool) (s : State) : State :=
  (s.setPins { s.pins with energy := turnedEnergy present s }).setFresh (s.fresh + 1)

/-- CARRIER_PRESENT (R21, R27, R28, R31); the detector is stopped in DOZE (R37). -/
def execCarrierPresent (s : State) : Out :=
  let t := energyTurned true s
  guarded (s.pm.power != .off) (if s.pm.power.awake then carrierPresent t else t) s

/-- CARRIER_ABSENT (R21, R27, R28, R30); the detector is stopped in DOZE (R37). -/
def execCarrierAbsent (s : State) : Out :=
  let t := energyTurned false s
  guarded (s.pm.power != .off) (if s.pm.power.awake then carrierAbsent t else t) s

/-- DETECT_GAP_EXPIRY (R27): back to LISTEN, the listen timer running on. -/
def execDetectGapExpiry (s : State) : Out :=
  guarded (s.pm.power.awake && s.clu.line == .detect && s.clu.gap)
    (lineTo { s.clu with line := .listen, confirming := false, gap := false } s) s

/-- CONFIRMATION_COMPLETE (R27): SETTLE, with the settle timer started; a gap being timed goes on as a loss gap. -/
def execConfirmationComplete (s : State) : Out :=
  guarded (s.pm.power.awake && s.clu.line == .detect && s.clu.confirming)
    (lineTo { s.clu.still with line := .settle, settleTimer := true, lossGap := s.clu.gap } s) s

/-- LISTEN_TIMER_EXPIRY (R26): OFF, with the notice NO ANSWER. -/
def execListenTimerExpiry (s : State) : Out :=
  guarded (s.pm.power.awake && (s.clu.line == .listen || s.clu.line == .detect) && s.clu.listenTimer.isSome)
    (raise (ascii "NO ANSWER") (enterOff s)) s

/-- SETTLE_TIMER_EXPIRY (R28, R29): the session starts. -/
def execSettleTimerExpiry (s : State) : Out :=
  guarded (s.pm.power.awake && s.clu.line == .settle && s.clu.settleTimer) (sessionStart s) s

/-- CARRIER_LOSS (R28, R30). -/
def execCarrierLoss (s : State) : Out :=
  guarded (s.pm.power.awake && (s.clu.line == .settle || s.clu.line == .ready) && s.clu.lossGap) (carrierLost s) s

/-- CARRIER_REGAINED (R31): READY again, with no session start. -/
def execCarrierRegained (s : State) : Out :=
  guarded (s.pm.power.awake && s.clu.line == .fade && s.clu.regain) (lineTo { s.clu.still with line := .ready } s) s

/-- FADE_TIMER_EXPIRY (R31). -/
def execFadeTimerExpiry (s : State) : Out :=
  guarded (s.pm.power.awake && s.clu.line == .fade && s.clu.fadeTimer.isSome) (fadeOut s) s

/-- CLEARING_TIMER_EXPIRY (R34). -/
def execClearingTimerExpiry (s : State) : Out :=
  guarded (s.pm.power.awake && s.clu.line == .clearing && s.clu.clearingTimer) (enterOff s) s

/-! ## Acting on a parcel (R42–R45, R57) -/

/-- A TEXT parcel from the station (R44, R45). -/
def onText (seq : BitVec 3) (body : Text) (s : State) : State :=
  let p := s.pe
  if seq = p.expected then
    if s.du.input.length + body.length ≤ 64 then
      (s.setPe { p.queue (.ack seq) with expected := p.expected + 1 }).setDu { s.du with input := s.du.input ++ body }
    else s.setPe ({ p with refused := bump p.refused }.remind s.work.ack)
  else if seq + 1 = p.expected then s.setPe { p.queue (.ack seq) with duplicates := bump p.duplicates }
  else s.setPe (p.queueNak s.work.ack)

/-- A HOLD from the station (R57). -/
def onHold (seconds : Nat) (s : State) : State :=
  s.setPe { s.pe with stationHold := true, holdTimer := if seconds = 0 then none else some seconds }

/-- A RESUME from the station (R57). -/
def onResume (s : State) : State := s.setPe { s.pe with stationHold := false, holdTimer := none }

/-- A CLEAR from the station ends the session in READY (R32). -/
def onClear (s : State) : State := if s.clu.line = .ready then enterClearing .cleared s else s

/-- A GOOD parcel is acted on by its kind (R42). -/
def actOn (p : Parcel) (s : State) : State :=
  match p.kind with
  | .text => onText (p.seq.setWidth 3) p.body s
  | .report => s
  | .ack => onAck (p.seq.setWidth 3) s
  | .nak => onNak (p.seq.setWidth 3) s
  | .hold => onHold p.serial.toNat s
  | .resume => onResume s
  | .accept => onAccept p.serial.toNat s
  | .reject => onReject p.serial.toNat p.index.toNat p.body s
  | .clear => onClear s

/-- A parcel judged other than GOOD (R41, R43). -/
def parcelBad (s : State) : State := s.setPe ({ s.pe with bad := bump s.pe.bad }.queueNak s.work.ack)

/-- A parcel judged GOOD (R41, R42). -/
def parcelGood (p : Parcel) (s : State) : State := actOn p (s.setPe { s.pe with good := bump s.pe.good })

/-- A parcel whose fields have arrived whole: GOOD if it is in range (R38, R41). -/
def takeParcel (p : Parcel) (s : State) : State := if p.inRange then parcelGood p s else parcelBad s

/-- The judgment of a closed parcel (R41); the parcel where it is GOOD. -/
def Assembler.judge (a : Assembler) : Judgment × Option Parcel :=
  if a.framing then (.framing, none)
  else if a.badEscape || !parcelCheckOk a.bytes then (.badCheck, none)
  else match parcelOf a.bytes with
    | some p => if p.inRange then (.good, some p) else (.badCheck, none)
    | none => (.badCheck, none)

/-- The judgment of a parcel cut off by a mark (R40, R41). -/
def Assembler.cutOff (a : Assembler) : Judgment :=
  if a.bytes.length < 7 then .short else if a.framing then .framing else .badCheck

/-- Acts on a closed parcel by its judgment. -/
def closed (a : Assembler) (s : State) : State :=
  match a.judge with
  | (.good, some p) => parcelGood p s
  | _ => parcelBad s

/-! ## The receive assembler (R40, R41) -/

/-- A parcel just begun by its mark. -/
def headerAsm : Assembler := { huntingAsm with state := .header }

/-- One more byte of the parcel, and the state that follows; LONG for a length over 48 (R40). -/
def Assembler.push (a : Assembler) (b : Byte) : Assembler × Bool :=
  let a := { a with bytes := a.bytes ++ [b] }
  let n := a.bytes.length
  let length := byteAt a.bytes 6
  match a.state with
  | .header =>
    if n < 7 then (a, false)
    else if 48 < length then (huntingAsm, true)
    else ({ a with state := if length = 0 then .check else .body }, false)
  | .body => (if n < 7 + length then a else { a with state := .check }, false)
  | .check => (if n < 9 + length then a else { a with state := .closeWait, closeTimer := true }, false)
  | .hunting | .closeWait => (a, false)

/-- A character other than an unflagged mark while a parcel is collected; true where the parcel is LONG (R40). -/
def Assembler.collect (a : Assembler) (c : Byte) (flagged : Bool) : Assembler × Bool :=
  let a := { a with framing := a.framing || flagged }
  if a.escape then
    let a := { a with escape := false }
    if c = 0x75 then a.push 0xF5 else if c = 0x76 then a.push 0xF6 else { a with badEscape := true }.push c
  else if !flagged && c == 0xF6 then ({ a with escape := true }, false)
  else a.push c

/-- A character delivered in READY (R40, R41). The assembler stands in its new state before a parcel is acted on. -/
def assemble (c : Byte) (flagged : Bool) (s : State) : State :=
  let a := s.pe.asm
  let put := fun (b : Assembler) => s.setPe { s.pe with asm := b }
  if !flagged && c == 0xF5 then
    match a.state with
    | .hunting => put headerAsm
    | .header | .body | .check => parcelBad (put headerAsm)
    | .closeWait => closed a (put headerAsm)
  else
    match a.state with
    | .hunting => s
    | .header | .body | .check =>
      match a.collect c flagged with
      | (b, true) => parcelBad (put b)
      | (b, false) => put b
    | .closeWait => parcelBad (put huntingAsm)

/-- A stop bit has been read (R22): in READY the character is delivered, elsewhere it is discarded. -/
def characterRead (c : Byte) (flagged : Bool) (s : State) : State :=
  if s.clu.line = .ready then
    assemble c flagged (if flagged then s.setClu { s.clu with framingErrors := bump s.clu.framingErrors } else s)
  else s

/-- The receiver hears a character to the middle of its stop bit (R22). -/
def characterReceived (c : Byte) (flagged : Bool) (s : State) : State :=
  let (receiver, read) := s.clu.receiver.listen (soundsOf c flagged)
  let s := s.setClu { s.clu with receiver := receiver }
  match read with
  | some (code, bad) => characterRead code bad s
  | none => s

/-- CHARACTER_RECEIVED (R22): the receiver is stopped in DOZE (R37). -/
def execCharacterReceived (c : Byte) (flagged : Bool) (s : State) : Out :=
  guarded s.pm.power.awake (characterReceived c flagged s) s

/-- CLOSE_TIMER_EXPIRY (R41). -/
def execCloseTimerExpiry (s : State) : Out :=
  guarded (s.pm.power.awake && s.clu.line == .ready && s.pe.asm.closeTimer && s.pe.asm.state == .closeWait)
    (closed s.pe.asm (s.setPe { s.pe with asm := huntingAsm })) s

/-! ## Parcels as commands (R42, log entry 6) -/

/-- May a parcel be judged: in READY, the part awake (R41)? -/
def State.receiving (s : State) : Bool := s.pm.power.awake && s.clu.line == .ready

/-- RECEIVE_TEXT (R44, R45). -/
def execReceiveText (seq : Byte) (body : Text) (s : State) : Out :=
  guarded s.receiving (takeParcel ⟨.text, seq, 0, 0, false, body⟩ s) s

/-- RECEIVE_ACK (R49). -/
def execReceiveAck (seq : Byte) (s : State) : Out := guarded s.receiving (takeParcel ⟨.ack, seq, 0, 0, false, []⟩ s) s

/-- RECEIVE_NAK (R50). -/
def execReceiveNak (seq : Byte) (s : State) : Out := guarded s.receiving (takeParcel ⟨.nak, seq, 0, 0, false, []⟩ s) s

/-- RECEIVE_HOLD (R57). -/
def execReceiveHold (seconds : BitVec 16) (s : State) : Out :=
  guarded s.receiving (takeParcel ⟨.hold, 0, seconds, 0, false, []⟩ s) s

/-- RECEIVE_RESUME (R57). -/
def execReceiveResume (s : State) : Out := guarded s.receiving (takeParcel ⟨.resume, 0, 0, 0, false, []⟩ s) s

/-- RECEIVE_ACCEPT (R114). -/
def execReceiveAccept (serial : BitVec 16) (s : State) : Out :=
  guarded s.receiving (takeParcel ⟨.accept, 0, serial, 0, false, []⟩ s) s

/-- RECEIVE_REJECT (R114). -/
def execReceiveReject (serial : BitVec 16) (code : Byte) (reason : Text) (s : State) : Out :=
  guarded s.receiving (takeParcel ⟨.reject, 0, serial, code, false, reason⟩ s) s

/-- RECEIVE_CLEAR (R32). -/
def execReceiveClear (s : State) : Out := guarded s.receiving (takeParcel ⟨.clear, 0, 0, 0, false, []⟩ s) s

/-! ## The transmitter and the protocol timers (R23, R39, R43, R44, R51, R57) -/

/-- A parcel has been sent (R39): its slot leaves transmission, or a CLEAR ends the clearing (R34). -/
def parcelSent (item : TxItem) (s : State) : State :=
  let s := s.setPe { s.pe with tx := none }
  match item with
  | .slot i => s.setPe (endSlot i s.work.ack s.pe)
  | .control .clear => if s.clu.line = .clearing then enterOff s else s
  | .control _ => s

/-- The held character's stop bit has ended: the next one is handed at once, or the parcel is sent (R23, R39). -/
def characterSent (s : State) : State :=
  let s := s.setClu { s.clu with txChar := none }
  match s.pe.tx with
  | some ⟨item, c :: rest⟩ => (s.setClu { s.clu with txChar := some c }).setPe { s.pe with tx := some ⟨item, rest⟩ }
  | some ⟨item, []⟩ => parcelSent item s
  | none => s

/-- CHARACTER_SENT (R23). -/
def execCharacterSent (s : State) : Out := guarded (s.pm.power.awake && s.clu.txChar.isSome) (characterSent s) s

/-- The ACK timer expires: the OUTSTANDING parcels are resend-due, or the link has failed (R51, R32). -/
def ackExpired (s : State) : State :=
  let s := s.setPe { s.pe with ackTimer := none }
  match s.pe.oldest.map s.pe.slot with
  | some (.outstanding _ _ n _ _) =>
    if n < s.work.attemptLimit then s.setPe s.pe.resendAll else enterClearing .linkFailure s
  | _ => s

/-- ACK_TIMER_EXPIRY (R51): the timer stands still in FADE and under a station hold. -/
def execAckTimerExpiry (s : State) : Out :=
  guarded (s.receiving && !s.pe.stationHold && s.pe.ackTimer.isSome) (ackExpired s) s

/-- NAK_SPACING_EXPIRY (R43). -/
def execNakSpacingExpiry (s : State) : Out :=
  guarded (s.receiving && s.pe.nakTimer.isSome) (s.setPe { s.pe with nakTimer := none }) s

/-- REMINDER_SPACING_EXPIRY (R44). -/
def execReminderSpacingExpiry (s : State) : Out :=
  guarded (s.receiving && s.pe.reminderTimer.isSome) (s.setPe { s.pe with reminderTimer := none }) s

/-- STATION_HOLD_EXPIRY (R57). -/
def execStationHoldExpiry (s : State) : Out :=
  guarded (s.receiving && s.pe.holdTimer.isSome) (s.setPe { s.pe with stationHold := false, holdTimer := none }) s

end Sys2Proof.Machine
end

