-- ==== Sys2Proof/Machine/Keys.lean ====
section
/-! DEFINITION. Key sensing and what a key event goes through before the composer: scans, pad records, calibration, doze and wake,
roles, repeat and the typeahead queue (04_key_sensing.md, R78–R80). -/

namespace Sys2Proof.Machine

/-! ## Readings (R62, R64) -/

/-- A fault reading (R62). -/
def faultCount (n : Nat) : Bool := n == 4095 || decide (n < 16)

/-- The class of a reading (Table 4.2). -/
def classify (baseline offset count : Nat) : ReadingClass :=
  if faultCount count then .faulty
  else if baseline + offset ≤ count then .touch
  else if count < baseline + offset / 2 then .clear
  else .neither

/-- One step of a baseline toward a count (R68). -/
def driftStep (baseline last : Nat) : Nat :=
  if baseline < last then baseline + 1 else if last < baseline then baseline - 1 else baseline

/-- Is the pad held (R66)? -/
def PadState.held : PadState → Bool
  | .down | .releasing => true
  | .up | .pressing | .fault => false

/-- What a scan produces for one pad. -/
inductive PadEvent where
  | none
  | press
  | release
  /-- Entry into FAULT; `held`: with a release event first (R69). -/
  | fault (held : Bool)
deriving DecidableEq, Repr

/-- The counts of a record that every change to UP or FAULT clears. -/
def Pad.still (p : Pad) : Pad := { p with debounce := 0, drift := 0, heldTime := 0 }

/-- A reading that is not a fault reading, outside FAULT (R65, R66, R68). -/
def Pad.goodReading (p : Pad) (c : ReadingClass) (press release : Nat) : Pad × PadEvent :=
  let goDown (q : Pad) : Pad × PadEvent := ({ q with state := .down, debounce := 0, heldTime := 0 }, .press)
  let goUp (q : Pad) : Pad × PadEvent := ({ q.still with state := .up }, .release)
  match p.state with
  | .up =>
    if c = .touch then
      let q := { p with state := .pressing, debounce := 1, drift := 0 }
      if press ≤ 1 then goDown q else (q, .none)
    else if p.drift + 1 < 16 then ({ p with drift := p.drift + 1 }, .none)
    else ({ p with drift := 0, baseline := driftStep p.baseline p.last }, .none)
  | .pressing =>
    if c = .touch then
      let q := { p with debounce := p.debounce + 1 }
      if press ≤ q.debounce then goDown q else (q, .none)
    else if c = .clear then ({ p with state := .up, debounce := 0, drift := 0 }, .none)
    else (p, .none)
  | .down =>
    if c = .clear then
      let q := { p with state := .releasing, debounce := 1 }
      if release ≤ 1 then goUp q else (q, .none)
    else (p, .none)
  | .releasing =>
    if c = .clear then
      let q := { p with debounce := p.debounce + 1 }
      if release ≤ q.debounce then goUp q else (q, .none)
    else if c = .touch then ({ p with state := .down, debounce := 0 }, .none)
    else (p, .none)
  | .fault => (p, .none)

/-- A fault reading outside FAULT (R69). -/
def Pad.faultReading (p : Pad) : Pad × PadEvent :=
  let run := p.faultRun + 1
  if run < 4 then ({ p with faultRun := run, drift := 0 }, .none)
  else ({ p.still with state := .fault, faultRun := 0 }, .fault p.state.held)

/-- A reading in FAULT (R70). -/
def Pad.inFault (p : Pad) (faulty : Bool) : Pad :=
  if faulty then { p with faultRun := 0 }
  else if p.faultRun + 1 < 16 then { p with faultRun := p.faultRun + 1 }
  else { p.still with state := .up, baseline := p.last, faultRun := 0 }

/-- The stuck test (R67), after the reading has acted. `stuck` is in seconds, a scan is 16 ms. -/
def Pad.stuckTest (p : Pad) (stuck : Nat) : Pad × PadEvent :=
  if p.state.held && decide (stuck * 1000 < p.heldTime * 16) then
    ({ p.still with state := .up, baseline := p.last, stuck := bump p.stuck }, .release)
  else (p, .none)

/-- A reading that is not doubtful is applied to a pad record (R64–R70). -/
def Pad.apply (p : Pad) (count offset press release stuck : Nat) : Pad × PadEvent :=
  let c := classify p.baseline offset count
  let p := { p with last := count, heldTime := if p.state.held then min 4095 (p.heldTime + 1) else p.heldTime }
  let (q, e) :=
    if p.state = .fault then (p.inFault (c == .faulty), PadEvent.none)
    else if c = .faulty then p.faultReading
    else { p with faultRun := 0 }.goodReading c press release
  match e with
  | .none => q.stuckTest stuck
  | e => (q, e)

/-! ## Key events (R78–R80) -/

/-- The layer in force (R78): 0 BASE, 1 SHIFT, 2 FUNC. -/
def layerOf (roles : List Role) : Nat :=
  if roles.contains (.modifier .func) then 2 else if roles.contains (.modifier .shift) then 1 else 0

/-- The keymap entry of a pad in a layer. -/
def Kcu.entryAt (k : Kcu) (layer pad : Nat) : KeyEntry := k.keymap.getD (layer * 48 + pad - 1) .none

/-- A key event joins the typeahead queue, or is discarded (R80). -/
def queueKey (e : KeyEvent) (s : State) : State :=
  if s.kcu.lock then s
  else if s.kcu.typeahead.length < 16 then s.setKcu { s.kcu with typeahead := s.kcu.typeahead ++ [e] }
  else alert (s.setKcu { s.kcu with overflows := bump s.kcu.overflows })

/-- The key event an entry produces (R80): LINE goes to the Coupler Line Unit at once. -/
def keyEvent (e : KeyEntry) (s : State) : State :=
  match e with
  | .char c _ => queueKey (.char c) s
  | .action .line _ => lineAction s
  | .action a _ => queueKey (.action a) s
  | .modifier _ | .none => s

/-- A pad's role changes. -/
def setRole (pad : Nat) (r : Role) (s : State) : State := s.setKcu { s.kcu with roles := s.kcu.roles.set (pad - 1) r }

/-- Is the role DELIVERED? -/
def Role.isDelivered : Role → Bool
  | .delivered _ => true
  | _ => false

/-- A press event (R78). -/
def pressEvent (pad : Nat) (s : State) : State :=
  let e := s.kcu.entryAt (layerOf s.kcu.roles) pad
  match e with
  | .modifier m => setRole pad (.modifier m) s
  | .none => setRole pad .ignored s
  | _ =>
    if s.kcu.roles.countP Role.isDelivered < 2 then keyEvent e (setRole pad (.delivered e) s)
    else setRole pad .blocked s

/-- A release event (R78). -/
def releaseEvent (pad : Nat) (s : State) : State := setRole pad .free s

/-- Does the entry auto-repeat (R79)? -/
def KeyEntry.repeats : KeyEntry → Bool
  | .char _ rep => rep
  | .action a rep => rep && a != .line
  | _ => false

/-- A repeat falls at a held time of 38 scans and at each further 6 (R79). -/
def repeatDue (held : Nat) : Bool := decide (38 ≤ held) && (held - 38) % 6 == 0

/-- The repeats of a scan for one pad, whose held time advanced in it (R79). -/
def repeatKey (pad : Nat) (s : State) : State :=
  match s.kcu.roles.getD (pad - 1) .free with
  | .delivered e => if e.repeats && repeatDue (s.ksu.pad pad).heldTime then keyEvent e s else s
  | _ => s

/-! ## Scans (R63, R71) -/

/-- A group measurement joins the scan (R62, R71). -/
def addGroup (counts : List (BitVec 12)) (disturbed : Bool) (scan : Scan) : Scan :=
  ⟨scan.readings ++ (List.range 8).map fun i => ⟨(counts.getD i 0).toNat, scan.disturbed⟩, disturbed⟩

/-- The pad records after a scan, with the event of each (R63). -/
def applyScan (w : Settings) (pads : List Pad) (rs : List Reading) : List (Pad × PadEvent) :=
  (pads.zip rs).zipIdx.map fun ((p, r), i) =>
    if r.doubtful then (p, .none)
    else p.apply r.count (w.offsets.getD i 40) w.pressDebounce w.releaseDebounce w.stuck

/-- The pads, 1–48, whose event satisfies `f`. -/
def padsWith (f : PadEvent → Bool) (l : List (Pad × PadEvent)) : List Nat :=
  (l.zipIdx.filter fun p => f p.1.2).map fun p => p.2 + 1

def PadEvent.isRelease : PadEvent → Bool
  | .release | .fault true => true
  | _ => false

def PadEvent.isPress : PadEvent → Bool
  | .press => true
  | _ => false

def PadEvent.isFault : PadEvent → Bool
  | .fault _ => true
  | _ => false

/-- The counter and the notice of a pad's entry into FAULT (R69). -/
def padFault (pad : Nat) (s : State) : State :=
  raise (spaced [ascii "PAD", twoDigits pad, ascii "FAULT"]) (s.setKsu { s.ksu with padFaults := bump s.ksu.padFaults })

/-- A scan has completed outside calibration: the records, then releases, presses and repeats (R63, R79). The PAD nn FAULT notices are
raised in ascending pad number, which is the model's choice (log entry 43). -/
def scanApplied (rs : List Reading) (s : State) : State :=
  let l := applyScan s.work s.ksu.pads rs
  let s := s.setKsu { s.ksu with pads := l.map Prod.fst }
  let s := (padsWith PadEvent.isFault l).foldl (fun s p => padFault p s) s
  let releases := padsWith PadEvent.isRelease l
  let presses := padsWith PadEvent.isPress l
  let s := if releases = [] ∧ presses = [] then s else dozeAfresh s
  let s := releases.foldl (fun s p => releaseEvent p s) s
  let s := presses.foldl (fun s p => pressEvent p s) s
  let advanced := (rs.zipIdx.filter fun r => !r.1.doubtful).map fun r => r.2 + 1
  advanced.foldl (fun s p => repeatKey p s) s

/-! ## Calibration (R72) -/

/-- One reading gathered for a pad whose calibration is not complete. -/
def PadCal.gather (c : PadCal) (r : Reading) : PadCal :=
  if r.doubtful || decide (8 ≤ c.readings) then c
  else if faultCount r.count then { c with readings := c.readings + 1, faults := c.faults + 1, last := r.count }
  else { c with readings := c.readings + 1, good := c.good + 1, sum := c.sum + r.count, last := r.count }

/-- A pad's record when its calibration completes. -/
def Pad.calibrated (p : Pad) (c : PadCal) : Pad :=
  { p.still with
    state := if 4 ≤ c.faults then .fault else .up
    baseline := if c.good = 0 then p.baseline else c.sum / c.good
    last := c.last, faultRun := 0 }

/-- A scan has completed during calibration (R72); PAD nn FAULT notices in ascending pad number, the model's choice (log entry 43). -/
def scanCalibrates (rs : List Reading) (s : State) : State :=
  let was := s.ksu.cal
  let cal := (was.zip rs).map fun (c, r) => c.gather r
  let now := (was.zip cal).map fun (a, b) => a.readings < 8 && b.readings == 8
  let pads := ((s.ksu.pads.zip cal).zip now).map fun ((p, c), n) => if n then p.calibrated c else p
  let faults := ((cal.zip now).zipIdx.filter fun p => p.1.2 && decide (4 ≤ p.1.1.faults)).map fun p => p.2 + 1
  let s := s.setKsu { s.ksu with pads := pads, cal := cal, calibrating := !cal.all fun c => c.readings == 8 }
  faults.foldl (fun s p => padFault p s) s

/-- SCAN_START (R63): in NORMAL scan mode, with no scan in progress. -/
def execScanStart (s : State) : Out :=
  guarded (s.pm.power.awake && !s.ksu.ganged && s.ksu.scan.isNone)
    (s.setKsu { s.ksu with scan := some ⟨[], s.hdu.energised != []⟩ }) s

/-- A group measurement ends; after the sixth the scan completes (R62, R63). -/
def measurementEnd (counts : List (BitVec 12)) (scan : Scan) (s : State) : State :=
  let scan := addGroup counts (s.hdu.energised != []) scan
  if scan.readings.length < 48 then s.setKsu { s.ksu with scan := some scan }
  else
    let s := s.setKsu { s.ksu with scan := none }
    if s.ksu.calibrating then scanCalibrates scan.readings s else scanApplied scan.readings s

/-- MEASUREMENT_END (R62). -/
def execMeasurementEnd (counts : List (BitVec 12)) (s : State) : Out :=
  match s.ksu.scan with
  | some scan => guarded (s.pm.power.awake && !s.ksu.ganged) (measurementEnd counts scan s) s
  | none => ignored s

/-! ## Doze and wake (R73, R74) -/

/-- The least of the working offsets (R73). -/
def leastOffset (offsets : List Nat) : Nat := offsets.foldl min 255

/-- The Key Sense Unit enters GANGED scan, releasing the pads held (R73). -/
def ksuDoze (s : State) : State :=
  let k := s.ksu
  let pads := if k.calibrating then k.before else k.pads
  let held := (pads.zipIdx.filter fun p => p.1.state.held).map fun p => p.2 + 1
  let s := s.setKsu { k with
    pads := pads.map fun p => { p.still with state := if p.state = .fault then .fault else .up }
    ganged := true, calibrating := false, scan := none, wakeWait := false
    combined := { freshCombined with offset := leastOffset s.work.offsets } }
  held.foldl (fun s p => releaseEvent p s) s

/-- The combined pad after a count, and its class once the combined baseline has been taken (R73). The count that completes the
baseline is itself left unclassed, NEITHER with no drift run, which is the model's choice (log entry 52). -/
def Combined.measure (c : Combined) (count : Nat) : Combined × ReadingClass :=
  match c.baseline with
  | none =>
    if faultCount count then (c, .faulty)
    else
      let c := { c with good := c.good + 1, sum := c.sum + count, last := count }
      (if c.good < 8 then c else { c with baseline := some (c.sum / 8) }, .neither)
  | some b =>
    match classify b c.offset count with
    | .faulty => ({ c with drift := 0 }, .faulty)
    | .touch => ({ c with drift := 0, last := count }, .touch)
    | k =>
      if c.drift + 1 < 16 then ({ c with drift := c.drift + 1, last := count }, k)
      else ({ c with drift := 0, last := count, baseline := some (driftStep b count) }, k)

/-- A combined count (R73, R74): a TOUCH in DOZE wakes the part, and the first CLEAR after a wake starts the calibration. -/
def gangedMeasurement (count : Nat) (s : State) : State :=
  let (c, k) := s.ksu.combined.measure count
  let s := s.setKsu { s.ksu with combined := c }
  if s.pm.power = .doze then
    if k = .touch then wake (s.setKsu { s.ksu with wakeWait := true }) else s
  else if s.ksu.wakeWait ∧ k = .clear then s.setKsu s.ksu.calibrate
  else s

/-- GANGED_MEASUREMENT (R73): in GANGED scan mode. -/
def execGangedMeasurement (count : BitVec 12) (s : State) : Out :=
  guarded (s.ksu.ganged && s.pm.power != .off) (gangedMeasurement count.toNat s) s

/-- WAKE_WAIT_EXPIRY (R74): the stuck time has passed since the wake touch. -/
def execWakeWaitExpiry (s : State) : Out :=
  guarded (s.pm.power.awake && s.ksu.ganged && s.ksu.wakeWait) (s.setKsu s.ksu.calibrate) s

end Sys2Proof.Machine
end

