-- ==== Sys2Proof/Machine/Directives.lean ====
section
/-! DEFINITION. The directives: reading and beginning one, the 24 rules, and the LINE context's bytes (10_directives.md and the
rules Table 10.2 points to). A rule answers through `finishDirective`, or leaves a `Job` that a later command completes. -/

namespace Sys2Proof.Machine

/-! ## Beginning a directive (R170, R171, R173) -/

/-- A directive's own rule: its context, its arguments, the state in which its context is executing. -/
abbrev DirRule := Ctx → List Text → State → State

/-- A refusal (Table 10.1). -/
def answer (o : Outcome) (c : Ctx) (s : State) : State := finishDirective c o [] [] s

/-- DONE with no data. -/
def answerDone (c : Ctx) (s : State) : State := answer .done c s

/-- The context executes; `head` is the first four characters a local answer repeats (R171, R173). -/
def occupy (c : Ctx) (tag : Nat) (head : Text) (s : State) : State :=
  match c with
  | .line => s.setDu { s.du with line := ⟨.executing, [], false, tag, none, false⟩ }
  | .service => s.setDu { s.du with keyed := ⟨some .unanswered, head, none, []⟩ }

/-- Is an SR executing in this context (R170 check 4)? A local one is until its answer line is placed (R173, log entry 57); what
waits for an SR's completion waits for `Du.srRunning` (R16). -/
def Du.srIn (d : Du) (c : Ctx) : Bool :=
  match d.job c with
  | some (.regions _) | some (.answering .regions) => true
  | _ => false

/-- R170 checks 3 and 4, then the directive's own rule. -/
def begin' (d : Dir) (rule : DirRule) (c : Ctx) (args : List Text) (s : State) : State :=
  if c = .line ∧ !d.lineAllowed s.work.protect then answer .prot c s
  else if s.du.srIn (otherCtx c) then answer .busy c s
  else rule c args s

/-- A claim the Spool Unit does not take while it secures the journal leaves its directive unanswered (R122). -/
def spoolRule (rule : DirRule) : DirRule := fun c args s => if s.spu.securing then setJob c .unanswered s else rule c args s

/-- No argument, or MALFORMED. -/
def noArgs (f : Ctx → State → State) : DirRule := fun c args s => if args = [] then f c s else answer .malformed c s

/-! ## Status (R176, R177) -/

/-- The thirteen counters (Table 10.3). -/
def counters (s : State) : Text :=
  [s.pe.good, s.pe.bad, s.pe.duplicates, s.pe.refused, s.pe.resends, s.pe.stray, s.spu.stray, s.clu.framingErrors, s.clu.fades,
    s.kcu.refusals, s.kcu.overflows, s.ksu.padFaults, s.pqu.dropped]

/-- Every counter is set to 0 (R177). -/
def clearCounters (s : State) : State :=
  let s := s.setPe { s.pe with good := 0, bad := 0, duplicates := 0, refused := 0, resends := 0, stray := 0 }
  let s := s.setSpu { s.spu with stray := 0 }
  let s := s.setClu { s.clu with framingErrors := 0, fades := 0 }
  let s := s.setKcu { s.kcu with refusals := 0, overflows := 0 }
  let s := s.setKsu { s.ksu with padFaults := 0 }
  s.setPqu { s.pqu with dropped := 0 }

/-- The entry states in the order of Table 6.2. -/
def EntryState.all : List EntryState :=
  [.free, .opened, .closed, .sending, .awaiting, .sent, .rejected, .damaged, .void]

/-- The data of a line QS (Table 12.4). -/
def qsData (s : State) : Text :=
  counters s ++
    [s.clu.line.code, s.clu.lastEnd.code, boolCode s.pe.held, boolCode s.pe.stationHold, s.pe.outstanding.length,
      s.pe.reports.length, s.pqu.notices.countP (fun n => n.status != .free), s.hdu.head.code, s.hdu.causeCode].map byteOf ++
    [BitVec.ofInt 8 s.hdu.reading] ++
    [s.hdu.band.code, boolCode s.hdu.resumeAtZero, s.pm.band.code, s.kcu.state.code, boolCode s.kcu.lock].map byteOf ++
    (EntryState.all.map fun st => byteOf (s.spu.countIn st)) ++
    byteOf s.pqu.list.length :: s.pqu.list.map fun d => byteOf d.streamCode

/-- The names of the causes set (log entry 11). -/
def causeNames (h : Hdu) : Text :=
  spaced [if h.paper then ascii "PAPER" else [], if h.lid then ascii "LID" else [], if h.hot then ascii "HOT" else [],
    if h.power then ascii "POWER" else []]

/-- The five data lines of a local QS (R177, log entry 11). -/
def qsLines (s : State) : List Text :=
  let n := (counters s).map fun b => decText b.toNat
  [spaced (n.take 7), spaced (n.drop 7),
    spaced [s.clu.line.name, s.clu.lastEnd.name, if s.pe.held then ascii "HELD" else ascii "OPEN"],
    spaced [s.hdu.head.name, causeNames s.hdu, intText s.hdu.reading],
    spaced [s.pm.band.name, decText s.pqu.list.length]]

/-- QS (R177). -/
def ruleQs : DirRule := fun c args s =>
  let finish' (clear : Bool) : State :=
    finishDirective c .done (qsData s) ((qsLines s).map .text) (if clear then clearCounters s else s)
  match args with
  | [] => finish' false
  | [a] =>
    match decimal a with
    | some 0 => finish' false
    | some 1 => finish' true
    | some _ => answer .range c s
    | none => answer .malformed c s
  | _ => answer .malformed c s

/-! ## Entries (R123–R125) -/

/-- An entry's item (Table 12.4). -/
def entryItem (slot : Nat) (e : Entry) : Text :=
  let cls := match e.cls with
    | none => 0
    | some .order => 1
    | some .note => 2
  [byteOf slot, byteOf (e.state.code + 16 * cls + 64 * boolCode e.interrupted + 128 * boolCode e.sentOnce)] ++
    be16 (e.serial.getD 0) ++ be16 e.length ++ [byteOf e.attempts, byteOf e.reason]

/-- A decimal serial 1–65535 held by an entry that is not FREE: the entry's slot, or the refusal. -/
def serialArg (a : Text) (s : State) : Except Outcome Nat :=
  match decimal a with
  | none => .error .malformed
  | some n =>
    if n < 1 ∨ 65535 < n then .error .range
    else match s.spu.slotOf n with
      | some slot => .ok slot
      | none => .error .range

/-- QE (R125). Which table slots a local QE prints, and with a serial whether a second line, the reason, follows, is decided when QE
is taken; each line shows its slot as it stands when the line is built, also a slot reclaimed or used again meanwhile. Both are the
model's choice (log entry 39). -/
def ruleQe : DirRule := spoolRule fun c args s =>
  match args with
  | [] =>
    let items := ((s.spu.order.take 29).map fun n => entryItem n (s.spu.entry n)).flatten
    let lines := if s.spu.order = [] then [AnswerLine.text (ascii "NO ENTRIES")] else s.spu.order.map .entryItem
    finishDirective c .done (byteOf s.spu.order.length :: items) lines s
  | [a] =>
    match serialArg a s with
    | .error o => answer o c s
    | .ok n =>
      let e := s.spu.entry n
      let lines := .entryItem n :: (if e.state = .rejected ∧ e.reasonText ≠ [] then [AnswerLine.entryReason n] else [])
      finishDirective c .done (1 :: entryItem n e ++ byteOf e.reasonText.length :: e.reasonText) lines s
  | _ => answer .malformed c s

/-- XS (R123). -/
def ruleXs : DirRule := spoolRule fun c args s =>
  match args with
  | [] => if s.clu.line = .ready then answerDone c (startRun none s) else answer .notReady c s
  | [a] =>
    match serialArg a s with
    | .error o => answer o c s
    | .ok n =>
      if s.clu.line ≠ .ready then answer .notReady c s
      else if (s.spu.entry n).state ≠ .closed then answer .inUse c s
      else answerDone c (startRun (s.spu.entry n).serial s)
  | _ => answer .malformed c s

/-- XH (R123). -/
def ruleXh : DirRule := spoolRule (noArgs fun c s => answerDone c (s.setSpu { s.spu with active := false, firstChoice := none }))

/-- Discards the entry of a slot, where its state allows (R124). -/
def discardSlot (c : Ctx) (n : Nat) (s : State) : State :=
  match (s.spu.entry n).state with
  | .opened | .sending | .awaiting | .sent => answer .inUse c s
  | .void => answerDone c s
  | _ => answerDone c (voidEntry n s)

/-- XD (R124). -/
def ruleXd : DirRule := spoolRule fun c args s =>
  match args with
  | [a] =>
    match serialArg a s with
    | .error o => answer o c s
    | .ok n => discardSlot c n s
  | [a, b] =>
    match decimal a, decimal b with
    | some 0, some n =>
      if 1 ≤ n ∧ n ≤ 32 ∧ (s.spu.entry n).state = .damaged then discardSlot c n s else answer .range c s
    | _, _ => answer .malformed c s
  | _ => answer .malformed c s

/-! ## Journal memory (R13–R19) -/

/-- QM (R17). -/
def ruleQm : DirRule := fun c args s =>
  match args.map decimal with
  | [some a, some n] =>
    if 1 ≤ n ∧ n ≤ 32 ∧ a + n ≤ s.work.memSize then directiveDue c (setJob c (.reading a n []) s) else answer .range c s
  | _ => answer .malformed c s

/-- The lines of a local QM: the address and up to 8 bytes, in hexadecimal (R17, log entry 11). -/
def qmLines (a : Nat) (t : Text) : List Text := (writesAt a t).map fun (a, d) => spaced (hexWord a :: d.map hexByte)

/-- A form slot is in use (R97). -/
def formInUse (k : Nat) (s : State) : Bool :=
  (match s.spu.openSlot with
    | some n => (s.spu.entry n).cls == some .order && (s.spu.entry n).formSlot == k
    | none => false) ||
    s.kcu.claim == some (.image k) || decide (0 < (s.kcu.formSlotAt k).listed)

/-- WM's checks 3 to 5 on the bytes from `a` (R18). -/
def patchRefused (a n : Nat) (s : State) : Option Outcome :=
  if overlaps a n 0 512 then some .prot
  else if overlaps a n s.work.map.spool.base s.work.map.spool.size && s.spu.order != [] then some .prot
  else if [1, 2, 3, 4].any (fun k => overlaps a n (formAddr s.work.map k) 256 && formInUse k s) then some .inUse
  else none

/-- WM (R18, R19). -/
def ruleWm : DirRule := fun c args s =>
  match args with
  | [x, y] =>
    match decimal x, hexBytes y with
    | some a, some t =>
      if ¬ (1 ≤ t.length ∧ t.length ≤ 32 ∧ a + t.length ≤ s.work.memSize) then answer .range c s
      else match patchRefused a t.length s with
        | some o => answer o c s
        | none => directiveDue c (setJob c (.writing (writesAt a t)) s)
    | _, _ => answer .malformed c s
  | _ => answer .malformed c s

/-- The memory size and map an SR names (R13). -/
def srNames : List Nat → Option (Nat × RegionMap)
  | [m] => some (m, defaultMap m)
  | [m, gb, gs, fb, fs, ib, is, sb, ss] => some (m, ⟨⟨gb, gs⟩, ⟨fb, fs⟩, ⟨ib, is⟩, ⟨sb, ss⟩⟩)
  | _ => none

/-- R14: may an SR be taken in this context? -/
def srFree (c : Ctx) (s : State) : Bool :=
  s.pqu.ring.fill s.inboundSize == 0 && s.spu.order == [] && s.kcu.claim == none && s.pqu.list == [] &&
    (s.du.job (otherCtx c)).isNone && (c == .line || s.du.line.state != .executing)

/-- An SR is taken (R15); the INBOUND ring's free space changes with its size, so the flow test is made (R56). The four empty-slot marks
are written in ascending slot order, which is the model's choice (log entry 48). -/
def takeRegions (c : Ctx) (m : Nat) (map : RegionMap) (s : State) : State :=
  let old := s.work.map
  let moved := decide (map.form ≠ old.form)
  let s := s.setWork { s.work with memSize := m, map := map }
  let s := if map.glyph = old.glyph then s else s.setHdu { s.hdu with loaded := 0 }
  let s := if moved then s.setKcu { s.kcu with forms := List.replicate 4 emptyForm } else s
  let s := flowTest (s.setPqu { s.pqu with ring := emptyRing, asm := emptyLine 0 })
  let s := s.setSpu { (s.spu.dueItem .header) with ring := emptyRing, srGate := .wait }
  let todo := if moved then [1, 2, 3, 4].map fun k => (formAddr map k, [(0 : Byte)]) else []
  let s := setJob c (.regions todo) s
  if moved then directiveDue c s else s

/-- SR (R13–R15). -/
def ruleSr : DirRule := fun c args s =>
  match (decimals args).bind srNames with
  | none => answer .malformed c s
  | some (m, map) =>
    if !memSizes.contains m || !map.valid m || decide (map.inbound.size - 64 < s.work.resumeMark) then answer .range c s
    else if srFree c s then takeRegions c m map s
    else answer .inUse c s

/-! ## Tables (R178) -/

/-- A table's index range and count limit (Table 10.4). -/
def tableRange : Nat → Option (Nat × Nat × Nat)
  | 1 => some (0, 255, 64) | 2 => some (0, 143, 64) | 3 => some (1, 48, 24) | 4 => some (0, 0, 1) | 5 => some (0, 0, 1)
  | 6 => some (1, 17, 17) | 7 => some (1, 4, 4) | _ => none

/-- One item of a table (Table 12.4). -/
def tableItem (s : State) (t i : Nat) : Text :=
  match t with
  | 1 => (s.hdu.codes.getD i .substitute).bytes
  | 2 => (s.kcu.keymap.getD i .none).bytes
  | 3 =>
    let p := s.ksu.pad i
    be16 p.baseline ++ [byteOf (s.work.offsets.getD (i - 1) 0)] ++ be16 p.last ++ [byteOf p.state.code, p.stuck]
  | 4 => s.work.heat.map byteOf ++ [byteOf s.work.warm, byteOf s.work.density]
  | 5 => loadedBytes s.hdu.loaded
  | 6 => be16 (s.work.value i)
  | 7 => [byteOf (s.kcu.formSlotAt i).status.code, byteOf (s.kcu.formSlotAt i).listed]
  | _ => []

/-- Items six to a line, after the three-digit index of the first (R178). -/
def sixToALine (s : State) (t : Nat) : Nat → Nat → Nat → List Text
  | 0, _, _ => []
  | fuel + 1, i, n =>
    if n = 0 then []
    else
      spaced (threeDigits i :: (List.range (min 6 n)).map fun k => ((tableItem s t (i + k)).map hexByte).flatten) ::
        sixToALine s t fuel (i + 6) (n - 6)

/-- The data lines of a local QT (R178, log entry 11). -/
def qtLines (s : State) (t first n : Nat) : List Text :=
  let each (f : Nat → Text) : List Text := (List.range' first n).map f
  let numbers (l : List Nat) : Text := spaced (l.map decText)
  match t with
  | 1 | 2 => sixToALine s t n first n
  | 3 => each fun i =>
    let p := s.ksu.pad i
    spaced [twoDigits i, decText p.baseline, decText (s.work.offsets.getD (i - 1) 0), decText p.last, p.state.name,
      decText p.stuck.toNat]
  | 4 => [numbers (s.work.heat.take 3), numbers ((s.work.heat.drop 3).take 3), numbers ((s.work.heat.drop 6).take 3),
      numbers [s.work.warm, s.work.density]]
  | 5 => (List.range 4).map fun k => (List.range 16).map fun i => if s.hdu.loaded.getLsbD (16 * k + i) then 0x31 else 0x30
  | 6 => each fun i => numbers [i, s.work.value i]
  | 7 => each fun i => spaced [decText i, (s.kcu.formSlotAt i).status.name, decText (s.kcu.formSlotAt i).listed]
  | _ => []

/-- QT (R178). The count limit holds the count, as Table 10.4 heads it, and not the last index (log entry 47). -/
def ruleQt : DirRule := fun c args s =>
  match args.map decimal with
  | [some t, some first, some n] =>
    match tableRange t with
    | none => answer .range c s
    | some (lo, hi, limit) =>
      if lo ≤ first ∧ first ≤ hi ∧ 1 ≤ n ∧ first + n - 1 ≤ hi ∧ n ≤ limit then
        finishDirective c .done ([byteOf t, byteOf first, byteOf n] ++ ((List.range' first n).map (tableItem s t)).flatten)
          ((qtLines s t first n).map .text) s
      else answer .range c s
  | _ => answer .malformed c s

/-! ## Printing (R139, R153–R156) -/

/-- FD (R139). -/
def ruleFd : DirRule := fun c args s =>
  let claim (rows : Nat) : State := setJob c .feedClaim (s.setPqu { s.pqu with fdClaims := s.pqu.fdClaims ++ [(c, rows)] })
  match args with
  | [] => claim 14
  | [a] =>
    match decimal a with
    | some n => if 1 ≤ n ∧ n ≤ 255 then claim n else answer .range c s
    | none => answer .malformed c s
  | _ => answer .malformed c s

/-- A load is taken and waits for a line boundary (R152). -/
def takeLoad (c : Ctx) (l : Load) (s : State) : State :=
  setJob c .load (s.setHdu { s.hdu with loads := s.hdu.loads ++ [(c, l)] })

/-- PD (R156). -/
def rulePd : DirRule := fun c args s =>
  match args.map decimal with
  | [some d] => if d ≤ 8 then takeLoad c (.density d none) s else answer .range c s
  | [some d, some w] => if d ≤ 8 ∧ w ≤ 16 then takeLoad c (.density d (some w)) s else answer .range c s
  | _ => answer .malformed c s

/-- Two-byte entries read by `f`; none for one that is not an entry. -/
def pairs {α : Type} (f : Byte → Byte → Option α) : Text → Option (List α)
  | a :: b :: rest => do return (← f a b) :: (← pairs f rest)
  | _ => some []

/-- LC (R153). -/
def ruleLc : DirRule := fun c args s =>
  match args with
  | [] => takeLoad c .codesDefault s
  | [x, y] =>
    match decimal x, hexBytes y with
    | some first, some t =>
      if t.length % 2 = 1 then answer .malformed c s
      else if 255 < first ∨ 255 < first + t.length / 2 - 1 then answer .range c s
      else match pairs CodeKind.ofBytes t with
        | some ks => takeLoad c (.codes first ks) s
        | none => answer .range c s
    | _, _ => answer .malformed c s
  | _ => answer .malformed c s

/-- LG (R154). -/
def ruleLg : DirRule := fun c args s =>
  match args with
  | [x, y] =>
    match decimal x, hexBytes y with
    | some g, some t =>
      if t.length % 12 ≠ 0 then answer .malformed c s
      else if 128 ≤ g ∧ g ≤ 191 ∧ g + t.length / 12 - 1 ≤ 191 then takeLoad c (.glyphs g t) s
      else answer .range c s
    | _, _ => answer .malformed c s
  | _ => answer .malformed c s

/-- Is a heat table entry in range (R155)? -/
def heatOk (n : Nat) : Bool := decide (16 ≤ n ∧ n ≤ 255)

/-- LH (R155). -/
def ruleLh : DirRule := fun c args s =>
  match args.map decimal with
  | [some row, some h, some m, some l] =>
    if row ≤ 2 ∧ heatOk h ∧ heatOk m ∧ heatOk l then takeLoad c (.heat row h m l) s else answer .range c s
  | _ => answer .malformed c s

/-! ## Forms and keys (R75, R81, R82, R97, R98) -/

/-- Is the other context executing an LF or EF for this slot (R97 check 4, R98)? LOCAL executes one until the outcome line of its
answer is placed in the notice buffer (R173). -/
def formBusy (c : Ctx) (k : Nat) (s : State) : Bool :=
  match s.du.job (otherCtx c) with
  | some (.form _ j _) | some (.answering (.form j)) => j == k
  | _ => false

/-- May a name or label be loaded (R97)? -/
def labelOk (t : Text) : Bool := decide (t.length ≤ 12) && t.all charCodeOk

/-- Replaces the bytes of an image from `i` on. -/
def patch (image : Text) (i : Nat) (t : Text) : Text := image.take i ++ t ++ image.drop (i + t.length)

/-- The slot's checks 3 and 4, then its writes (R97). -/
def formWrite (c : Ctx) (k : Nat) (todo : List (Nat × Text)) (becomes : Option FormStatus) (s s' : State) : State :=
  if formInUse k s then answer .inUse c s
  else if formBusy c k s then answer .busy c s
  else directiveDue c (setJob c (.form todo k becomes) s')

/-- A header LF (R97): the whole slot is written, BUILDING, with no field (R190, log entry 20). -/
def loadHeader (c : Ctx) (k : Nat) (name : Text) (count : Nat) (s : State) : State :=
  let image := padTo 238 (formHeader 1 count name)
  let f := { s.kcu.formSlotAt k with status := .building, count := count, defined := [], image := image }
  formWrite c k (writesAt (formAddr s.work.map k) (padTo 256 image)) none s (s.setKcu (s.kcu.setForm k f))

/-- A field LF (R97): the field's bytes, and after the last field the LOADED status and the check. The check covers the bytes that LF
itself has written, not what a WM has patched meanwhile (R19), which is the model's choice (log entry 33). -/
def loadField (c : Ctx) (k n : Nat) (label : Text) (width kind : Nat) (s : State) : State :=
  let f := s.kcu.formSlotAt k
  let a := formAddr s.work.map k
  let bytes := formFieldBytes label width kind
  let image := patch f.image (14 + 14 * (n - 1)) bytes
  let defined := if f.defined.contains n then f.defined else f.defined ++ [n]
  let whole := (List.range' 1 f.count).all defined.contains
  let loaded := patch image 0 [2]
  let last := if whole then [(a, [(2 : Byte)]), (a + 238, checkBytes loaded)] else []
  let f := { f with defined := defined, image := if whole then loaded else image }
  formWrite c k (writesAt (a + 14 + 14 * (n - 1)) bytes ++ last) (if whole then some .loaded else none) s
    (s.setKcu (s.kcu.setForm k f))

/-- LF (R97). -/
def ruleLf : DirRule := fun c args s =>
  match args with
  | [x, z, y, n] =>
    match decimal x, decimal z, hexBytes y, decimal n with
    | some k, some 0, some name, some count =>
      if 1 ≤ k ∧ k ≤ 4 ∧ labelOk name ∧ 1 ≤ count ∧ count ≤ 16 then loadHeader c k name count s else answer .range c s
    | _, _, _, _ => answer .malformed c s
  | [x, m, y, w, q] =>
    match decimal x, decimal m, hexBytes y, decimal w, decimal q with
    | some k, some n, some label, some width, some kind =>
      if 1 ≤ k ∧ k ≤ 4 ∧ 1 ≤ n ∧ n ≤ 16 ∧ labelOk label ∧ 1 ≤ width ∧ width ≤ 24 ∧ kind ≤ 7 ∧
          (s.kcu.formSlotAt k).status = .building ∧ n ≤ (s.kcu.formSlotAt k).count then
        loadField c k n label width kind s
      else answer .range c s
    | _, _, _, _, _ => answer .malformed c s
  | _ => answer .malformed c s

/-- EF (R98). -/
def ruleEf : DirRule := fun c args s =>
  match args.map decimal with
  | [some k] =>
    if 1 ≤ k ∧ k ≤ 4 then formWrite c k [(formAddr s.work.map k, [0])] (some .empty) s s else answer .range c s
  | _ => answer .malformed c s

/-- KL (R81). -/
def ruleKl : DirRule := noArgs fun c s =>
  if s.clu.line = .ready then answerDone c (s.setKcu { s.kcu with lock := true }) else answer .notReady c s

/-- KU (R81). -/
def ruleKu : DirRule := noArgs fun c s => answerDone c (s.setKcu { s.kcu with lock := false })

/-- Replaces list members from position `i` on. -/
def putFrom {α : Type} (l : List α) (i : Nat) : List α → List α
  | [] => l
  | x :: xs => putFrom (l.set i x) (i + 1) xs

/-- LK (R82). -/
def ruleLk : DirRule := fun c args s =>
  match args with
  | [x, y, z] =>
    match decimal x, decimal y, hexBytes z with
    | some layer, some p, some t =>
      if t.length % 2 = 1 then answer .malformed c s
      else if layer ≤ 2 ∧ 1 ≤ p ∧ p ≤ 48 ∧ p + t.length / 2 - 1 ≤ 48 then
        match pairs KeyEntry.ofBytes t with
        | some es => answerDone c (s.setKcu { s.kcu with keymap := putFrom s.kcu.keymap (layer * 48 + p - 1) es })
        | none => answer .range c s
      else answer .range c s
    | _, _, _ => answer .malformed c s
  | _ => answer .malformed c s

/-- LS (R75). -/
def ruleLs : DirRule := fun c args s =>
  match decimals args with
  | some (p :: o :: os) =>
    if 1 ≤ p ∧ p ≤ 48 ∧ p + (o :: os).length - 1 ≤ 48 ∧ (o :: os).all (fun v => decide (8 ≤ v ∧ v ≤ 255)) then
      if s.pm.writing.isSome then answer .busy c s
      else answerDone c (s.setWork { s.work with offsets := putFrom s.work.offsets (p - 1) (o :: os) })
    else answer .range c s
  | _ => answer .malformed c s

/-! ## Settings, restart, protection (R175, R179, R185, R187) -/

/-- Is a value outside what SV allows for the setting (R179)? -/
def svOutOfRange (w : Settings) (n v : Nat) : Bool :=
  match settingRange n with
  | none => true
  | some (lo, hi) =>
    v < lo || hi < v ||
      (n == 1 && byteOf v == w.terminator) || (n == 2 && byteOf v == w.introducer) ||
      (n == 8 && decide (w.resumeMark ≤ v)) ||
      (n == 9 && decide (v ≤ w.holdMark ∨ w.map.inbound.size - 64 < v)) ||
      (n == 11 && decide (v ≠ 0 ∧ v < 30))

/-- What a new working value does at once (R56, R131, R182, R21). -/
def svFollow (n old v : Nat) (s : State) : State :=
  match n with
  | 8 | 9 => flowTest s
  | 10 =>
    let a := s.pqu.asm
    if v = 0 then s.setPqu { s.pqu with asm := { a with idleTimer := none } }
    else if old = 0 ∧ !a.complete ∧ 1 ≤ a.length then s.setPqu { s.pqu with asm := { a with idleTimer := some v } }
    else s
  | 11 => if v = 0 then s.setPm { s.pm with dozeTimer := none } else s
  | 17 => judgeCarrier s
  | _ => s

/-- SV (R179). -/
def ruleSv : DirRule := fun c args s =>
  match args.map decimal with
  | [some n, some v] =>
    if svOutOfRange s.work n v then answer .range c s
    else if s.pm.writing.isSome then answer .busy c s
    else answerDone c (svFollow n (s.work.value n) v (s.setWork (s.work.withValue n v)))
  | _ => answer .malformed c s

/-- WS (R185). -/
def ruleWs : DirRule := noArgs fun c s =>
  if s.pm.writing.isSome then answer .busy c s
  else setJob c .settings (s.setPm { s.pm with writing := some s.work.bytes })

/-- RT (R187). A line RT waits for its report; a local one ends the line at once. A shutdown under way goes on. -/
def ruleRt : DirRule := noArgs fun c s =>
  if s.pm.writing.isSome then answer .busy c s
  else
    let stage := if s.pm.stage = .shutdown then .shutdown else if c = .line then .report else .line
    let s := s.setPm { s.pm with restarting := true, stage := stage }
    match c with
    | .line => answerDone c s
    | .service => setJob c .restart (if stage = .line then endLine .restart s else s)

/-- The class numbers of PS (R175). -/
def classLetters : Text := ascii "QPFSKX"

/-- The data line of PS (R175). -/
def psLine (protect : BitVec 6) : Text :=
  spaced ((classLetters.zipIdx.map fun (l, i) => [[l], if protect.getLsbD i then ascii "Y" else ascii "N"]).flatten)

/-- PS (R175). -/
def rulePs : DirRule := fun c args s =>
  match args with
  | [] => finishDirective c .done [] [.text (psLine s.work.protect)] s
  | [x, y] =>
    match decimal x, decimal y with
    | some n, some v =>
      if 1 ≤ n ∧ n ≤ 6 ∧ v ≤ 1 then
        let bit : BitVec 6 := 1#6 <<< (n - 1)
        answerDone c (s.setWork { s.work with
          protect := if v = 1 then s.work.protect ||| bit else s.work.protect &&& ~~~bit })
      else answer .range c s
    | _, _ => answer .malformed c s
  | _ => answer .malformed c s

/-- The rule of each directive (Table 10.2). -/
def Dir.rule : Dir → DirRule
  | .qs => ruleQs | .qe => ruleQe | .qm => ruleQm | .qt => ruleQt | .fd => ruleFd | .pd => rulePd | .lc => ruleLc
  | .lg => ruleLg | .lh => ruleLh | .lf => ruleLf | .ef => ruleEf | .kl => ruleKl | .ku => ruleKu | .xs => ruleXs
  | .xh => ruleXh | .xd => ruleXd | .lk => ruleLk | .ls => ruleLs | .sr => ruleSr | .sv => ruleSv | .wm => ruleWm
  | .ws => ruleWs | .rt => ruleRt | .ps => rulePs

/-! ## From text (R168–R170) -/

/-- The text of a directive is read and begun in a context (R170). -/
def beginText (c : Ctx) (text : Text) (s : State) : State :=
  let s := occupy c (tagOf text) (text.take 4) s
  match parseDirective text with
  | .refused o => answer o c s
  | .directive d args => begin' d d.rule c args s

/-- A byte taken in COLLECTING (R169); at a full report queue the byte that would begin a directive stays. -/
def collectByte (b : Byte) (rest : Text) (s : State) : State :=
  let l := s.du.line
  let take (l : LineContext) : State := s.setDu { s.du with input := rest, line := l }
  if b = s.work.terminator then
    if 4 ≤ s.pe.reports.length then s
    else if l.overlong then answer .tooLong .line (occupy .line (tagOf l.collection) [] (take l))
    else beginText .line l.collection (take l)
  else if b = s.work.introducer then
    if 4 ≤ s.pe.reports.length then s
    else handReport (tagOf l.collection) (if l.overlong then .tooLong else .malformed) []
      (take { l with collection := [], overlong := false })
  else if l.collection.length < 120 then take { l with collection := l.collection ++ [b] }
  else take { l with overlong := true }

/-- The LINE context takes the front byte of the line input queue (R168, R169). -/
def lineInputByte (s : State) : State :=
  match s.du.input, s.du.line.state with
  | b :: rest, .idle => takeIdleByte b rest s
  | b :: rest, .collecting => collectByte b rest s
  | _, _ => s

/-- LINE_INPUT_BYTE (R168): held while a directive executes, while a refused byte waits, and once the part restarts. -/
def execLineInputByte (s : State) : Out :=
  guarded (s.pm.power.awake && !s.pm.restarting && s.du.line.state != .executing && !s.du.blocked && s.du.input != [])
    (lineInputByte s) s

/-- LINE_IDLE_TIMER_EXPIRY (R131). -/
def execLineIdleTimerExpiry (s : State) : Out :=
  guarded (s.pm.power.awake && s.pqu.asm.idleTimer.isSome) (completePart s) s

/-! ## Directives as commands (log entry 6) -/

/-- Can a context begin a directive now (R168, R169, R173, R187)? -/
def ctxFree (c : Ctx) (s : State) : Bool :=
  s.pm.power.awake && !s.pm.restarting &&
    match c with
    | .line => s.clu.line.inSession && s.du.line.state == .idle && decide (s.pe.reports.length < 4)
    | .service => s.du.keyed.job == none

/-- A directive begun by a command: its arguments' form, then R170 checks 3 and 4 and its own rule. -/
def beginCommand (d : Dir) (rule : DirRule) (c : Ctx) (tag : Nat) (args : List Text) (s : State) : State :=
  let s := occupy c tag (d.letters ++ twoDigits tag) s
  let args := args.map fun t => t.map upper
  if argsOk d args then begin' d rule c args s else answer .malformed c s

/-- A directive command: without effect while its context is not free. -/
def directiveCommand (d : Dir) (rule : DirRule) (c : Ctx) (tag : Nat) (args : List Text) (s : State) : Out :=
  guarded (ctxFree c s) (beginCommand d rule c tag args s) s

/-- QS (R177). -/
def execQs (c : Ctx) (tag : Nat) (args : List Text) (s : State) : Out := directiveCommand .qs ruleQs c tag args s
/-- QE (R125). -/
def execQe (c : Ctx) (tag : Nat) (args : List Text) (s : State) : Out := directiveCommand .qe ruleQe c tag args s
/-- QM (R17). -/
def execQm (c : Ctx) (tag : Nat) (args : List Text) (s : State) : Out := directiveCommand .qm ruleQm c tag args s
/-- QT (R178). -/
def execQt (c : Ctx) (tag : Nat) (args : List Text) (s : State) : Out := directiveCommand .qt ruleQt c tag args s
/-- FD (R139). -/
def execFd (c : Ctx) (tag : Nat) (args : List Text) (s : State) : Out := directiveCommand .fd ruleFd c tag args s
/-- PD (R156). -/
def execPd (c : Ctx) (tag : Nat) (args : List Text) (s : State) : Out := directiveCommand .pd rulePd c tag args s
/-- LC (R153). -/
def execLc (c : Ctx) (tag : Nat) (args : List Text) (s : State) : Out := directiveCommand .lc ruleLc c tag args s
/-- LG (R154). -/
def execLg (c : Ctx) (tag : Nat) (args : List Text) (s : State) : Out := directiveCommand .lg ruleLg c tag args s
/-- LH (R155). -/
def execLh (c : Ctx) (tag : Nat) (args : List Text) (s : State) : Out := directiveCommand .lh ruleLh c tag args s
/-- LF (R97). -/
def execLf (c : Ctx) (tag : Nat) (args : List Text) (s : State) : Out := directiveCommand .lf ruleLf c tag args s
/-- EF (R98). -/
def execEf (c : Ctx) (tag : Nat) (args : List Text) (s : State) : Out := directiveCommand .ef ruleEf c tag args s
/-- KL (R81). -/
def execKl (c : Ctx) (tag : Nat) (args : List Text) (s : State) : Out := directiveCommand .kl ruleKl c tag args s
/-- KU (R81). -/
def execKu (c : Ctx) (tag : Nat) (args : List Text) (s : State) : Out := directiveCommand .ku ruleKu c tag args s
/-- XS (R123). -/
def execXs (c : Ctx) (tag : Nat) (args : List Text) (s : State) : Out := directiveCommand .xs ruleXs c tag args s
/-- XH (R123). -/
def execXh (c : Ctx) (tag : Nat) (args : List Text) (s : State) : Out := directiveCommand .xh ruleXh c tag args s
/-- XD (R124). -/
def execXd (c : Ctx) (tag : Nat) (args : List Text) (s : State) : Out := directiveCommand .xd ruleXd c tag args s
/-- LK (R82). -/
def execLk (c : Ctx) (tag : Nat) (args : List Text) (s : State) : Out := directiveCommand .lk ruleLk c tag args s
/-- LS (R75). -/
def execLs (c : Ctx) (tag : Nat) (args : List Text) (s : State) : Out := directiveCommand .ls ruleLs c tag args s
/-- SR (R13–R16). -/
def execSr (c : Ctx) (tag : Nat) (args : List Text) (s : State) : Out := directiveCommand .sr ruleSr c tag args s
/-- SV (R179). -/
def execSv (c : Ctx) (tag : Nat) (args : List Text) (s : State) : Out := directiveCommand .sv ruleSv c tag args s
/-- WM (R18, R19). -/
def execWm (c : Ctx) (tag : Nat) (args : List Text) (s : State) : Out := directiveCommand .wm ruleWm c tag args s
/-- WS (R185). -/
def execWs (c : Ctx) (tag : Nat) (args : List Text) (s : State) : Out := directiveCommand .ws ruleWs c tag args s
/-- RT (R187). -/
def execRt (c : Ctx) (tag : Nat) (args : List Text) (s : State) : Out := directiveCommand .rt ruleRt c tag args s
/-- PS (R175). -/
def execPs (c : Ctx) (tag : Nat) (args : List Text) (s : State) : Out := directiveCommand .ps rulePs c tag args s

end Sys2Proof.Machine
end

