-- ==== Sys2Proof/Machine/Composer.lean ====
section
/-! DEFINITION. The commands of the composer: the eleven events it takes from the typeahead queue, the taking of a flush, the
close of an entry, the display and the sounder (05_keymaps_forms_and_composition.md, R105, R113). -/

namespace Sys2Proof.Machine

/-- The composer takes the event at the front of the typeahead queue, where it can act on it, and a frame shows what it made of it
(R83, R100). -/
def takeKey (e : KeyEvent) (effect : State → State) (s : State) : Out :=
  match s.kcu.typeahead with
  | x :: rest =>
    guarded (x == e && canTake x s) (sendFrame (effect (s.setKcu { s.kcu with typeahead := rest }))) s
  | [] => ignored s

/-- A claim on the Spool Unit, which does not take it while it secures the journal (R122). -/
def spoolClaim (t s : State) : State := if s.spu.securing then s.setKcu { s.kcu with claim := some .untaken } else t

/-- An event refused in FORM SELECT returns the composer to IDLE (R85). -/
def refuseSelect (s : State) : State := refuse (s.setKcu s.kcu.toIdle)

/-- The slot of the OPEN entry, as an echo names it. -/
def Spu.openNumber (p : Spu) : Nat := p.openSlot.getD 0

/-- An echo is owed for bytes that have just been stored (R95). -/
def oweEcho (kind : EchoKind) (s : State) : State :=
  s.setKcu { s.kcu with echo := some ⟨kind, s.spu.openNumber, .owed⟩, flushOwed := true }

/-- The current line, held in full, is completed by its LINE END (R86). -/
def completeLine (bytes : Text) (line : Text) (s : State) : State :=
  let s := store bytes s
  let start := s.kcu.count - 1 - line.length
  oweEcho (.line start line.length) (s.setKcu { s.kcu with line := [] })

/-- A CHAR stored in FREE (R86). -/
def freeChar (c : Byte) (s : State) : State :=
  if !s.kcu.freeTakes then refuse s
  else if s.kcu.completes then completeLine [c, 0x0A] (s.kcu.line ++ [c]) s
  else
    let s := store [c] s
    s.setKcu { s.kcu with line := s.kcu.line ++ [c] }

/-- A CHAR in FORM (R87). -/
def formChar (c : Byte) (s : State) : State :=
  if s.kcu.formTakes c then
    let s := store [c] s
    s.setKcu { s.kcu with value := s.kcu.value ++ [c] }
  else refuse s

/-- A NOTE entry is opened, or the opening event is refused with SPOOL FULL raised (R85, R104, R107). -/
def openNote (after : State → State) (s : State) : State :=
  spoolClaim
    (match createEntry .note 0 s with
      | some (_, t) => after (t.setKcu { t.kcu.toIdle with state := .free })
      | none => refuse (raiseSpoolFull s)) s

/-- A CHAR in FORM SELECT names a form slot (R85). -/
def selectForm (c : Byte) (s : State) : State :=
  let n := c.toNat - 0x30
  if 0x31 ≤ c.toNat ∧ c.toNat ≤ 0x34 ∧ (s.kcu.formSlotAt n).status = .loaded then
    spoolClaim (spuDue (.image n) (s.setKcu { s.kcu with claim := some (.image n) })) s
  else refuseSelect s

/-- A CHAR (R85, R86, R87, R93). -/
def charEffect (c : Byte) (s : State) : State :=
  match s.kcu.state with
  | .idle => openNote (freeChar c) s
  | .formSelect => selectForm c s
  | .free => freeChar c s
  | .form => formChar c s
  | .service =>
    if s.kcu.serviceLine.length < 40 then s.setKcu { s.kcu with serviceLine := s.kcu.serviceLine ++ [c] } else refuse s

/-- KEY_CHAR (R86). -/
def execKeyChar (s : State) : Out :=
  match s.kcu.typeahead with
  | .char c :: _ => takeKey (.char c) (charEffect c) s
  | _ => ignored s

/-- Where the cursor goes from field `n` (R88). -/
def Kcu.nextCursor (k : Kcu) (n : Nat) (has : List Nat) : Cursor :=
  let count := k.image.fields.length
  if n < count then .field (n + 1)
  else match (List.range' 1 count).find? fun i => !has.contains i with
    | some i => .field i
    | none => .finish

/-- Closes field `n` (R88): its item stored, its flag, its echo, the cursor. -/
def closeField (n : Nat) (s : State) : State :=
  let k := s.kcu
  let start := k.count - k.value.length
  let has := if k.value = [] ∨ k.hasValue.contains n then k.hasValue else k.hasValue ++ [n]
  let s := oweEcho (.field k.formSlot n start k.value.length) (store [0x1F, byteOf n] s)
  s.setKcu { s.kcu with hasValue := has, value := [], cursor := k.nextCursor n has }

/-- The lowest-numbered required field without a value (R89). -/
def Kcu.missing (k : Kcu) : Option Nat :=
  (List.range' 1 k.image.fields.length).find? fun n =>
    (k.image.field n).any (fun f => f.required) && !k.hasValue.contains n

/-- What CANCEL does before its claim (R91): the staged bytes are discarded, a waiting flush is withdrawn, and an echo whose flush has
not been taken is dropped. -/
def Kcu.cancelled (k : Kcu) : Kcu :=
  { k with
    staging := [], flushOwed := false, flush := if k.flush = .waiting then .none else k.flush
    flushCursor := none, flushTimer := false
    echo := k.echo.filter fun q => q.stage == .claimed }

/-- CANCEL in FREE or FORM (R91): the claim to make the entry VOID, and, when it is answered, IDLE. -/
def cancelEffect (s : State) : State :=
  let s := s.setKcu s.kcu.cancelled
  spoolClaim (let t := cancelEntry s
    t.setKcu t.kcu.toIdle) s

/-- The composer begins to close the entry (R95). -/
def beginClosing (s : State) : State := s.setKcu { s.kcu with closing := true }

/-- ENTER in FREE (R86). -/
def enterFree (s : State) : State :=
  if s.kcu.line ≠ [] then beginClosing (completeLine [0x0A] s.kcu.line s)
  else if 0 < s.kcu.count then beginClosing s
  else cancelEffect s

/-- ENTER in FORM (R89). -/
def enterForm (s : State) : State :=
  if s.kcu.wants then refuse s
  else
    let s := match s.kcu.field with
      | some (n, _) => closeField n s
      | none => s
    match s.kcu.missing with
    | none => beginClosing s
    | some n => refuse (s.setKcu { s.kcu with cursor := .field n, value := [] })

/-- ENTER in SERVICE hands the line to the LOCAL context (R93, R173). -/
def enterService (s : State) : State :=
  if s.kcu.serviceLine = [] then refuse s
  else beginText .service s.kcu.serviceLine (s.setKcu { s.kcu with serviceLine := [] })

/-- ENTER (R84). -/
def enterEffect (s : State) : State :=
  match s.kcu.state with
  | .idle => refuse s
  | .formSelect => refuseSelect s
  | .free => enterFree s
  | .form => enterForm s
  | .service => enterService s

/-- ENTER (R89). -/
def execEnter (s : State) : Out := takeKey (.action .enter) enterEffect s

/-- TAB (R88). -/
def tabEffect (s : State) : State :=
  match s.kcu.state with
  | .formSelect => refuseSelect s
  | .form =>
    match s.kcu.field with
    | some (n, _) => if s.kcu.tabCloses then closeField n s else refuse s
    | none => refuse s
  | _ => refuse s

/-- TAB (R88). -/
def execTab (s : State) : Out := takeKey (.action .tab) tabEffect s

/-- Removes the OPEN entry's youngest byte, from staging or from the ring (R90). A waiting flush left with no byte is withdrawn
(log entry 18). -/
def removeByte (s : State) : State :=
  let k := s.kcu
  if k.staging = [] then spoolClaim (let t := retractByte s; t.setKcu { t.kcu with count := k.count - 1 }) s
  else
    let staging := k.staging.dropLast
    let gone := staging == [] && k.flush == .waiting
    s.setKcu { k with
      staging := staging, count := k.count - 1
      flush := if gone then .none else k.flush
      flushTimer := k.flushTimer && !gone }

/-- RUB (R90, R93). The line or value is shortened first; where the byte must be retracted from the ring while the Spool Unit secures
the journal, that claim is not taken (R122), the count and the ring stay as they are and the composer waits. R90 does not say whether
the line or value is then already shortened: that it is, is the model's choice (log entry 23). -/
def rubEffect (s : State) : State :=
  let k := s.kcu
  match k.state with
  | .idle => refuse s
  | .formSelect => refuseSelect s
  | .free => if k.line = [] then refuse s else removeByte (s.setKcu { k with line := k.line.dropLast })
  | .form => if k.field = none ∨ k.value = [] then refuse s else removeByte (s.setKcu { k with value := k.value.dropLast })
  | .service => if k.serviceLine = [] then refuse s else s.setKcu { k with serviceLine := k.serviceLine.dropLast }

/-- RUB (R90). -/
def execRub (s : State) : Out := takeKey (.action .rub) rubEffect s

/-- CANCEL (R91, R93). -/
def cancelKey (s : State) : State :=
  match s.kcu.state with
  | .idle => refuse s
  | .formSelect => refuseSelect s
  | .free | .form => cancelEffect s
  | .service => s.setKcu { s.kcu with serviceLine := [] }

/-- CANCEL (R91). -/
def execCancel (s : State) : Out := takeKey (.action .cancel) cancelKey s

/-- NEW ORDER (R85). -/
def newOrderEffect (s : State) : State :=
  match s.kcu.state with
  | .idle => s.setKcu { s.kcu with state := .formSelect }
  | .formSelect => refuseSelect s
  | _ => refuse s

/-- NEW_ORDER (R85). -/
def execNewOrder (s : State) : Out := takeKey (.action .newOrder) newOrderEffect s

/-- NOTE (R85). -/
def noteEffect (s : State) : State :=
  match s.kcu.state with
  | .idle => openNote id s
  | .formSelect => refuseSelect s
  | _ => refuse s

/-- NOTE (R85). -/
def execNote (s : State) : Out := takeKey (.action .note) noteEffect s

/-- SEND (R84, R110). -/
def sendEffect (s : State) : State :=
  if s.kcu.state = .formSelect then refuseSelect s
  else if s.clu.line ≠ .ready then refuse s
  else spoolClaim (startRun none s) s

/-- SEND (R84). -/
def execSend (s : State) : Out := takeKey (.action .send) sendEffect s

/-- DISCARD (R84, R109). -/
def discardEffect (s : State) : State :=
  match s.kcu.state with
  | .idle =>
    spoolClaim
      (match s.spu.discardable with
        | some n => voidEntry n s
        | none => refuse s) s
  | .formSelect => refuseSelect s
  | _ => refuse s

/-- DISCARD (R109). -/
def execDiscard (s : State) : Out := takeKey (.action .discard) discardEffect s

/-- FEED (R84, R95): the composer's own echo claim, for 14 rows. -/
def feedEffect (s : State) : State :=
  if s.kcu.state = .formSelect then refuseSelect s else claimEcho ⟨.feed, 0, .claimed⟩ s

/-- FEED (R84). -/
def execFeed (s : State) : Out := takeKey (.action .feed) feedEffect s

/-- SERVICE (R84, R93). -/
def serviceEffect (s : State) : State :=
  match s.kcu.state with
  | .idle => s.setKcu { s.kcu with state := .service, serviceLine := [] }
  | .formSelect => refuseSelect s
  | .service => s.setKcu { s.kcu with state := .idle, serviceLine := [] }
  | _ => refuse s

/-- SERVICE (R84). -/
def execService (s : State) : Out := takeKey (.action .service) serviceEffect s

/-! ## Flush, close and the other commands -/

/-- Can the waiting flush be taken (R105, R122)? -/
def flushReady (s : State) : Bool :=
  s.pm.power.awake && s.kcu.flush == .waiting && !s.spu.securing && s.spu.openSlot.isSome &&
    decide (s.kcu.staging.length ≤ s.spu.ring.free s.spoolSize)

/-- FLUSH_TAKE (R105). -/
def execFlushTake (s : State) : Out := guarded (flushReady s) (flushTaken s.kcu.flushCursor s) s

/-- FLUSH_WAIT_TIMER_EXPIRY (R94, R107). -/
def execFlushWaitTimerExpiry (s : State) : Out :=
  guarded (s.pm.power.awake && s.kcu.flushTimer)
    (raiseSpoolFull (s.setKcu { s.kcu with flushTimer := false })) s

/-- Can the composer hand its close, and the Spool Unit take it (R95, R108, R122)? -/
def closeReady (s : State) : Bool :=
  s.pm.power.awake && s.kcu.closing && s.kcu.staging == [] && s.kcu.flush == .none && s.kcu.echo == none && !s.spu.securing &&
    s.spu.openSlot.isSome

/-- The close is taken, and the composer enters IDLE (R95, R108). -/
def entryClosed (s : State) : State :=
  let s := closeEntry s
  sendFrame (s.setKcu s.kcu.toIdle)

/-- ENTRY_CLOSE (R108). -/
def execEntryClose (s : State) : Out := guarded (closeReady s) (entryClosed s) s

/-- ACCEPT_TIMER_EXPIRY (R113): the timer stands still in FADE. -/
def execAcceptTimerExpiry (slot : Nat) (s : State) : Out :=
  let e := s.spu.entry slot
  guarded (s.pm.power.awake && s.clu.line != .fade && e.state == .awaiting && e.acceptTimer.isSome)
    (changeEntry slot (fun e => { e with state := .closed, acceptTimer := none }) s) s

/-- The form image of an ORDER opening has been read: the entry is created, or the opening refused (R85). -/
def imageRead (form : Nat) (bytes : Text) (s : State) : State :=
  if s.kcu.claim ≠ some (.image form) then s
  else
    let s := s.setKcu { s.kcu with claim := none }
    spoolClaim
      (sendFrame
        (match imageOf bytes with
          | none => refuseSelect s
          | some image =>
            match createEntry .order form s with
            | none => refuseSelect (raiseSpoolFull s)
            | some (_, t) =>
              raise (spaced [ascii "ORDER", image.name])
                (t.setKcu { t.kcu.toIdle with state := .form, image := image, formSlot := form }))) s

/-- DISPLAY_FRAME_END (R100). -/
def execDisplayFrameEnd (s : State) : Out :=
  let t := s.setKcu { s.kcu with sending := false }
  guarded (s.pm.power != .off && s.kcu.sending) (if s.kcu.frameDue then sendFrame t else t) s

/-- ALERT_END (R101). -/
def execAlertEnd (s : State) : Out :=
  guarded (s.pm.power != .off && s.kcu.alert) (s.setKcu { s.kcu with alert := false }) s

end Sys2Proof.Machine
end

