-- ==== Sys2Proof/Machine/Events.lean ====
section
/-! DEFINITION. The commands of the journal memory bus, the head, the sensors, the battery and the power state
(R1, R10, R149, R158–R167, R180–R186). -/

namespace Sys2Proof.Machine

/-! ## The bus (R10) -/

/-- A burst of the Spool Unit's work in progress has completed (R118). -/
def spoolWorked (data : Text) (s : State) : State :=
  match s.spu.cur with
  | none => s
  | some c =>
    match c.bursts.drop 1 with
    | b :: bs => s.setSpu { s.spu with cur := some { c with bursts := b :: bs, got := c.got ++ data } }
    | [] =>
      let s := s.setSpu { s.spu with cur := none }
      match c.item with
      | .header => s.setSpu s.spu.headerEnded
      | .record n => recordWritten n c.live s
      | .flush _ _ length cursor => flushDone length cursor s
      | .image k => imageRead k (c.got ++ data) s

/-- An SR completes when its header rewrite and its marks have been written (R15). -/
def regionsDone (s : State) : State :=
  let check (c : Ctx) (s : State) : State :=
    match s.du.job c with
    | some (.regions []) => if s.spu.srGate = .clear then answerDone c s else s
    | _ => s
  check .service (check .line s)

/-- A burst of an executing directive has completed (R17, R19, R97, R98, R15). -/
def directiveWorked (c : Ctx) (data : Text) (s : State) : State :=
  match s.du.job c with
  | some (.reading a n got) =>
    let got := got ++ data
    if got.length < n then directiveDue c (setJob c (.reading a n got) s)
    else finishDirective c .done (be16 a ++ [byteOf n] ++ got) ((qmLines a got).map .text) s
  | some (.writing todo) =>
    match todo.drop 1 with
    | [] => answerDone c s
    | rest => directiveDue c (setJob c (.writing rest) s)
  | some (.form todo k becomes) =>
    match todo.drop 1 with
    | [] =>
      let f := s.kcu.formSlotAt k
      let s := match becomes with
        | some st => s.setKcu (s.kcu.setForm k { f with status := st })
        | none => s
      answerDone c s
    | rest => directiveDue c (setJob c (.form rest k becomes) s)
  | some (.regions todo) =>
    match todo.drop 1 with
    | [] => setJob c (.regions []) s
    | rest => directiveDue c (setJob c (.regions rest) s)
  | _ => s

/-- The requester learns of its burst's completion (R10). -/
def deliver (p : Purpose) (data : Text) (s : State) : State :=
  match p with
  | .rowText => rowTextRead data s
  | .glyphRow c => glyphRowRead c data s
  | .loadGlyphs => glyphsWritten s
  | .slotBody i => bodyRead i data s
  | .spoolWork => spoolWorked data s
  | .directive c => directiveWorked c data s
  | .inboundText => s.setDu { s.du with inboundOut := false }

/-- The burst in progress completes: its bytes are read or written, the bus is granted, the requester told (R10, R11). -/
def burstComplete (c : CurrentBurst) (s : State) : State :=
  let addrs := placeAddrs s.work.map c.burst.place c.burst.count
  let data := if c.burst.write then [] else s.mem.readAll addrs
  let s := if c.burst.write then s.setMem (s.mem.writeAll (addrs.zip c.burst.data)) else s
  let s := s.setJmc s.jmc.completed
  regionsDone (if c.wanted then deliver c.burst.purpose data s else s)

/-- BURST_COMPLETE (R10). An address the memory does not have is a fault (R1, R9). -/
def execBurstComplete (s : State) : Out :=
  match s.jmc.current with
  | none => ignored s
  | some c =>
    match (placeAddrs s.work.map c.burst.place c.burst.count).find? fun a => decide (s.work.memSize ≤ a) with
    | some a => .fault (.noSuchAddress a)
    | none => done (burstComplete c s)

/-! ## Strobes and rows (R149, R166) -/

/-- WARM_PHASE_END (R149): the group's cold phase begins. -/
def execWarmPhaseEnd (group : Nat) (s : State) : Out :=
  guarded (s.hdu.energised.any fun t => t.group == group && t.inWarm && t.hasCold)
    (s.setHdu { s.hdu with energised := s.hdu.energised.map fun t => if t.group = group then { t with inWarm := false } else t }) s

/-- STROBE_END (R149): after the last phase of the group's strobe. -/
def execStrobeEnd (group : Nat) (s : State) : Out :=
  guarded (s.hdu.energised.any fun t => t.group == group && !(t.inWarm && t.hasCold))
    (s.setHdu { s.hdu with energised := s.hdu.energised.filter fun t => t.group != group }) s

/-- FEED_STEP_END (R166), with the thermistor as the next row start samples it (R158). -/
def execFeedStepEnd (celsius : Int) (s : State) : Out :=
  guarded (s.pm.power.awake && s.hdu.stepping) (stepEnded (s.setPins { s.pins with thermistor := celsius })) s

/-! ## Head conditions (R158–R161, R167) -/

/-- Is the head inside a row, so that no sample is made (R158)? -/
def Hdu.inRow (h : Hdu) : Bool := h.head == .printing && h.active.any fun a => a.phase != .waiting

/-- The thermistor stands at `celsius`; the head samples it unless it is inside a row or the part dozes (R158). -/
def temperatureSample (celsius : Int) (s : State) : State :=
  let s := s.setPins { s.pins with thermistor := celsius }
  if s.pm.power.awake && !s.hdu.inRow then s.setHdu (s.hdu.sample celsius) else s

/-- TEMPERATURE_SAMPLE (R158). -/
def execTemperatureSample (celsius : Int) (s : State) : Out := guarded (s.pm.power != .off) (temperatureSample celsius s) s

/-- A report changes, and its 50 ms timing starts afresh; a report that reverts is disregarded (R160). -/
def sensorChanged (sensor : Sensor) (bad : Bool) (s : State) : State :=
  match sensor with
  | .paper =>
    (s.setPins { s.pins with paperAbsent := bad }).setHdu { s.hdu with paperTiming := s.pm.power.awake && bad != s.hdu.paper }
  | .lid => (s.setPins { s.pins with lidOpen := bad }).setHdu { s.hdu with lidTiming := s.pm.power.awake && bad != s.hdu.lid }

/-- SENSOR_CHANGE (R160). -/
def execSensorChange (sensor : Sensor) (bad : Bool) (s : State) : Out :=
  guarded (s.pm.power != .off) (sensorChanged sensor bad s) s

/-- A report is taken: the cause is set, and takes effect, or is cleared (R160, R162). -/
def reportTaken (sensor : Sensor) (s : State) : State :=
  match sensor with
  | .paper =>
    let s := s.setHdu { s.hdu with paper := s.pins.paperAbsent, paperTiming := false }
    if s.hdu.paper then abandonLine s else s
  | .lid =>
    let s := s.setHdu { s.hdu with lid := s.pins.lidOpen, lidTiming := false }
    if s.hdu.lid then abandonLine s else s

/-- Is the sensor's report being timed? -/
def Hdu.timing (h : Hdu) : Sensor → Bool
  | .paper => h.paperTiming
  | .lid => h.lidTiming

/-- SENSOR_REPORT_TAKEN (R160). -/
def execSensorReportTaken (sensor : Sensor) (s : State) : Out :=
  guarded (s.pm.power.awake && s.hdu.timing sensor) (reportTaken sensor s) s

/-- PAUSE_TIMER_EXPIRY (R167). -/
def execPauseTimerExpiry (s : State) : Out :=
  guarded (s.pm.power.awake && s.hdu.head == .paused && s.hdu.pauseTimer)
    (raise (ascii "PRINT SUSPENDED") (s.setHdu { s.hdu with suspended := true, pauseTimer := false })) s

/-! ## Power (R180–R186) -/

/-- The band changes (R180): the report to the head unless the part dozes, BATTERY LOW, and shutdown. -/
def bandChanged (b : BatteryBand) (s : State) : State :=
  let was := s.pm.band
  let s := s.setPm { s.pm with band := b, candidate := none }
  let s := if s.pm.power = .doze then s else reportBand s
  let s := if b = .critical ∧ !was.weak then raise (ascii "BATTERY LOW") s else s
  if b = .exhausted ∧ s.pm.power ≠ .shutdown then beginShutdown s else s

/-- A battery sample (R180). -/
def batterySampled (millivolts : Nat) (s : State) : State :=
  let b := batteryBand millivolts
  let s := s.setPins { s.pins with battery := millivolts }
  if b = s.pm.band then s.setPm { s.pm with candidate := none }
  else if s.pm.candidate = some b then bandChanged b s
  else s.setPm { s.pm with candidate := some b }

/-- BATTERY_SAMPLE (R180). -/
def execBatterySample (millivolts : Nat) (s : State) : Out :=
  guarded (s.pm.power != .off) (batterySampled millivolts s) s

/-- The part enters DOZE (R182, R73, R100, R101, R37). -/
def enterDoze (s : State) : State :=
  let s := s.setPm { s.pm with power := .doze, dozeTimer := none, dozeHeld := false }
  let s := ksuDoze s
  let s := s.setHdu { s.hdu with paperTiming := false, lidTiming := false }
  sendFrame (s.setKcu { s.kcu with alert := false })

/-- DOZE_IDLE_TIMER_EXPIRY (R182). -/
def execDozeIdleTimerExpiry (s : State) : Out :=
  guarded (s.pm.power == .run && s.pm.dozeTimer.isSome) (enterDoze s) s

/-- The context whose WS is writing. -/
def settingsCtx (d : Du) : Option Ctx :=
  if d.line.job = some .settings then some .line else if d.keyed.job = some .settings then some .service else none

/-- A settings write completes (R185). -/
def settingsWritten (bytes : Text) (s : State) : State :=
  let s := (s.setSettings bytes).setSettingsTorn false
  let s := s.setPm { s.pm with image := (settingsOf bytes).1, writing := none }
  match settingsCtx s.du with
  | some c => answerDone c s
  | none => s

/-- SETTINGS_WRITE_COMPLETE (R185). -/
def execSettingsWriteComplete (s : State) : Out :=
  match s.pm.writing with
  | some bytes => guarded (s.pm.power != .off) (settingsWritten bytes s) s
  | none => ignored s

/-- POWER_ON (R186): the lines as start-up finds them. A part that has power does not start again. -/
def execPowerOn (millivolts : Nat) (celsius : Int) (paperAbsent lidOpen : Bool) (s : State) : Out :=
  guarded (s.pm.power == .off) (startUp (s.setPins ⟨millivolts, celsius, s.pins.energy, paperAbsent, lidOpen⟩)) s

/-- BATTERY_REMOVED (R1). -/
def execBatteryRemoved (landed : BitVec 8) (s : State) : Out := .next (powerLost landed s)

end Sys2Proof.Machine
end

