-- ==== Sys2Proof/Machine/Dispatch.lean ====
section
/-! DEFINITION. The effect of each command: one arm per row of the table. -/

namespace Sys2Proof.Machine

def exec (i : Instr) (s : State) : Host.Outcome State Fault Refusal :=
  match i with
  | .powerOn millivolts celsius paperAbsent lidOpen => Sys2Proof.Machine.execPowerOn millivolts celsius paperAbsent lidOpen s
  | .batteryRemoved landed => Sys2Proof.Machine.execBatteryRemoved landed s
  | .carrierPresent => Sys2Proof.Machine.execCarrierPresent s
  | .carrierAbsent => Sys2Proof.Machine.execCarrierAbsent s
  | .detectGapExpiry => Sys2Proof.Machine.execDetectGapExpiry s
  | .confirmationComplete => Sys2Proof.Machine.execConfirmationComplete s
  | .listenTimerExpiry => Sys2Proof.Machine.execListenTimerExpiry s
  | .settleTimerExpiry => Sys2Proof.Machine.execSettleTimerExpiry s
  | .carrierLoss => Sys2Proof.Machine.execCarrierLoss s
  | .carrierRegained => Sys2Proof.Machine.execCarrierRegained s
  | .fadeTimerExpiry => Sys2Proof.Machine.execFadeTimerExpiry s
  | .clearingTimerExpiry => Sys2Proof.Machine.execClearingTimerExpiry s
  | .characterReceived code framingError => Sys2Proof.Machine.execCharacterReceived code framingError s
  | .characterSent => Sys2Proof.Machine.execCharacterSent s
  | .closeTimerExpiry => Sys2Proof.Machine.execCloseTimerExpiry s
  | .receiveText seq body => Sys2Proof.Machine.execReceiveText seq body s
  | .receiveAck seq => Sys2Proof.Machine.execReceiveAck seq s
  | .receiveNak seq => Sys2Proof.Machine.execReceiveNak seq s
  | .receiveHold seconds => Sys2Proof.Machine.execReceiveHold seconds s
  | .receiveResume => Sys2Proof.Machine.execReceiveResume s
  | .receiveAccept serial => Sys2Proof.Machine.execReceiveAccept serial s
  | .receiveReject serial code reason => Sys2Proof.Machine.execReceiveReject serial code reason s
  | .receiveClear => Sys2Proof.Machine.execReceiveClear s
  | .ackTimerExpiry => Sys2Proof.Machine.execAckTimerExpiry s
  | .nakSpacingExpiry => Sys2Proof.Machine.execNakSpacingExpiry s
  | .reminderSpacingExpiry => Sys2Proof.Machine.execReminderSpacingExpiry s
  | .stationHoldExpiry => Sys2Proof.Machine.execStationHoldExpiry s
  | .burstComplete => Sys2Proof.Machine.execBurstComplete s
  | .scanStart => Sys2Proof.Machine.execScanStart s
  | .measurementEnd counts => Sys2Proof.Machine.execMeasurementEnd counts s
  | .gangedMeasurement count => Sys2Proof.Machine.execGangedMeasurement count s
  | .wakeWaitExpiry => Sys2Proof.Machine.execWakeWaitExpiry s
  | .keyChar => Sys2Proof.Machine.execKeyChar s
  | .enter => Sys2Proof.Machine.execEnter s
  | .tab => Sys2Proof.Machine.execTab s
  | .rub => Sys2Proof.Machine.execRub s
  | .cancel => Sys2Proof.Machine.execCancel s
  | .newOrder => Sys2Proof.Machine.execNewOrder s
  | .note => Sys2Proof.Machine.execNote s
  | .send => Sys2Proof.Machine.execSend s
  | .discard => Sys2Proof.Machine.execDiscard s
  | .feed => Sys2Proof.Machine.execFeed s
  | .service => Sys2Proof.Machine.execService s
  | .flushTake => Sys2Proof.Machine.execFlushTake s
  | .flushWaitTimerExpiry => Sys2Proof.Machine.execFlushWaitTimerExpiry s
  | .entryClose => Sys2Proof.Machine.execEntryClose s
  | .acceptTimerExpiry slot => Sys2Proof.Machine.execAcceptTimerExpiry slot s
  | .lineInputByte => Sys2Proof.Machine.execLineInputByte s
  | .lineIdleTimerExpiry => Sys2Proof.Machine.execLineIdleTimerExpiry s
  | .warmPhaseEnd group => Sys2Proof.Machine.execWarmPhaseEnd group s
  | .strobeEnd group => Sys2Proof.Machine.execStrobeEnd group s
  | .feedStepEnd celsius => Sys2Proof.Machine.execFeedStepEnd celsius s
  | .temperatureSample celsius => Sys2Proof.Machine.execTemperatureSample celsius s
  | .sensorChange sensor bad => Sys2Proof.Machine.execSensorChange sensor bad s
  | .sensorReportTaken sensor => Sys2Proof.Machine.execSensorReportTaken sensor s
  | .pauseTimerExpiry => Sys2Proof.Machine.execPauseTimerExpiry s
  | .batterySample millivolts => Sys2Proof.Machine.execBatterySample millivolts s
  | .dozeIdleTimerExpiry => Sys2Proof.Machine.execDozeIdleTimerExpiry s
  | .settingsWriteComplete => Sys2Proof.Machine.execSettingsWriteComplete s
  | .displayFrameEnd => Sys2Proof.Machine.execDisplayFrameEnd s
  | .alertEnd => Sys2Proof.Machine.execAlertEnd s
  | .qs ctx tag args => Sys2Proof.Machine.execQs ctx tag args s
  | .qe ctx tag args => Sys2Proof.Machine.execQe ctx tag args s
  | .qm ctx tag args => Sys2Proof.Machine.execQm ctx tag args s
  | .qt ctx tag args => Sys2Proof.Machine.execQt ctx tag args s
  | .fd ctx tag args => Sys2Proof.Machine.execFd ctx tag args s
  | .pd ctx tag args => Sys2Proof.Machine.execPd ctx tag args s
  | .lc ctx tag args => Sys2Proof.Machine.execLc ctx tag args s
  | .lg ctx tag args => Sys2Proof.Machine.execLg ctx tag args s
  | .lh ctx tag args => Sys2Proof.Machine.execLh ctx tag args s
  | .lf ctx tag args => Sys2Proof.Machine.execLf ctx tag args s
  | .ef ctx tag args => Sys2Proof.Machine.execEf ctx tag args s
  | .kl ctx tag args => Sys2Proof.Machine.execKl ctx tag args s
  | .ku ctx tag args => Sys2Proof.Machine.execKu ctx tag args s
  | .xs ctx tag args => Sys2Proof.Machine.execXs ctx tag args s
  | .xh ctx tag args => Sys2Proof.Machine.execXh ctx tag args s
  | .xd ctx tag args => Sys2Proof.Machine.execXd ctx tag args s
  | .lk ctx tag args => Sys2Proof.Machine.execLk ctx tag args s
  | .ls ctx tag args => Sys2Proof.Machine.execLs ctx tag args s
  | .sr ctx tag args => Sys2Proof.Machine.execSr ctx tag args s
  | .sv ctx tag args => Sys2Proof.Machine.execSv ctx tag args s
  | .wm ctx tag args => Sys2Proof.Machine.execWm ctx tag args s
  | .ws ctx tag args => Sys2Proof.Machine.execWs ctx tag args s
  | .rt ctx tag args => Sys2Proof.Machine.execRt ctx tag args s
  | .ps ctx tag args => Sys2Proof.Machine.execPs ctx tag args s

end Sys2Proof.Machine
end

