-- ==== Sys2Proof/Safety.lean ====
section
/-! DEFINITION. What is said of every state, in the statements' own words: the memory's canonical form, the parts of a state that
lie outside the blocks, and the states a directive's answer leaves. -/

namespace Sys2Proof.Machine

/-- The journal memory is in canonical form. -/
def Inv (s : State) : Prop := Memory.wf s.mem = true

/-- Does the receiver hunt, or wait for mark after a framing error? So it stands between two commands (R22, log entry 31). -/
def Receiver.rests : Receiver → Bool
  | .hunting | .awaitMark => true
  | .start | .data _ | .stop _ => false

/-- The bounds the spec puts on every state. -/
structure Bounded (s : State) : Prop where
  /-- The memory size is one of the three (R1). -/
  size : s.work.memSize ∈ memSizes
  /-- The region map in force is valid with it (R3). -/
  map : s.work.map.valid s.work.memSize = true
  /-- A pass-over count is at most 4 (R11). -/
  passed : ∀ w, (s.jmc.req w).passed ≤ 4
  /-- The control queue holds at most 4 parcels (R55). -/
  control : s.pe.control.length ≤ 4
  /-- The report queue holds at most 4 reports (R46). -/
  reports : s.pe.reports.length ≤ 4
  /-- The line input queue holds at most 64 bytes (R44). -/
  input : s.du.input.length ≤ 64
  /-- The typeahead queue holds at most 16 events (R80). -/
  typeahead : s.kcu.typeahead.length ≤ 16
  /-- The line list holds at most 24 descriptors (R126). -/
  list : s.pqu.list.length ≤ 24
  /-- The receiver is in no character (R22, log entry 31). -/
  receiver : s.clu.receiver.rests = true
  /-- The notice buffer has 8 slots (R136). -/
  notices : s.pqu.notices.length = 8

/-- What lies outside the blocks: the journal memory, the settings memory, whether a write of it or an SR was cut off, the part's
lines, the counter of free values, and the queue of commands. -/
def State.outside (s : State) : Memory × Text × Bool × Bool × Pins × Nat × List Instr :=
  (s.mem, s.settings, s.settingsTorn, s.regionsCut, s.pins, s.fresh, s.pending)

/-- No restart and no shutdown is on its way. -/
def State.steady (s : State) : Prop := s.pm.stage = .none

/-- `s` with a line change's marks: the Coupler Line Unit `c`, and a doze idle timer to start afresh (R182). -/
def State.onLine (s : State) (c : Clu) : State := { s with clu := c, pm := { s.pm with dozeHeld := false } }

/-- `s` with the group limit of a transmitter that is on or off (R150). -/
def State.limited (s : State) (txOn : Bool) : State := { s with hdu := { s.hdu with limit := groupLimit s.pm.band txOn } }

/-- `s` with a notice raised (R136). -/
def State.noticed (s : State) (t : Text) : State := { s with pqu := s.pqu.raise t }

/-- `s` with the alert requested, where the sounder runs (R101). -/
def State.alerted (s : State) : State := { s with kcu := { s.kcu with alert := s.kcu.alert || s.pm.power != .doze } }

/-- An argument list as a directive reads it: lower-case letters as capitals (R170). -/
def asRead (args : List Text) : List Text := args.map fun t => t.map upper

/-- May a directive command begin in this context: the context is free, the line may take it, and no SR runs in the other context
(R170 checks 3 and 4, log entry 6). -/
def admits (d : Dir) (c : Ctx) (s : State) : Bool :=
  ctxFree c s && (c == .service || d.lineAllowed s.work.protect) && !s.du.srIn (otherCtx c)

/-- Has an argument list the number and the form of arguments that the directive's own rule admits? All others it answers
MALFORMED (R13, R17, R18, R75, R81, R82, R97, R98, R123–R125, R139, R153–R156, R175, R177–R179, R185, R187). A hex string is
counted in entries of `unit` bytes. -/
def Dir.formed (d : Dir) (args : List Text) : Bool :=
  let number := fun a : Text => (decimal a).isSome
  let hex := fun (a : Text) (unit : Nat) => (hexBytes a).any fun t => t.length % unit == 0
  let numbers := fun counts : List Nat => counts.contains args.length && args.all number
  match d with
  | .kl | .ku | .xh | .ws | .rt => args == []
  | .qs | .qe | .xs | .fd => numbers [0, 1]
  | .ef => numbers [1]
  | .qm | .sv => numbers [2]
  | .qt => numbers [3]
  | .lh => numbers [4]
  | .ps => numbers [0, 2]
  | .pd => numbers [1, 2]
  | .sr => numbers [1, 9]
  | .ls => decide (2 ≤ args.length) && args.all number
  | .xd => numbers [1] || numbers [2] && args.head?.any fun a => decimal a == some 0
  | .lc =>
    match args with
    | [] => true
    | [a, b] => number a && hex b 2
    | _ => false
  | .lg =>
    match args with
    | [a, b] => number a && hex b 12
    | _ => false
  | .wm =>
    match args with
    | [a, b] => number a && hex b 1
    | _ => false
  | .lk =>
    match args with
    | [a, b, c] => number a && number b && hex c 2
    | _ => false
  | .lf =>
    match args with
    | [a, b, c, n] => number a && decimal b == some 0 && hex c 1 && number n
    | [a, b, c, w, k] => number a && number b && hex c 1 && number w && number k
    | _ => false

/-- `s` after a directive of this context and tag has answered: over the line a report and the context idle (R171), locally the
outcome line and the data lines, offered as notice slots allow (R173). -/
def answered (d : Dir) (c : Ctx) (tag : Nat) (o : Outcome) (data : Text) (lines : List AnswerLine) (s : State) : State :=
  match c with
  | .line => { s with
      pe := { s.pe with reports := s.pe.reports ++ [⟨tag, o.code :: data, 0⟩] }
      du := { s.du with line := ⟨.idle, [], false, tag, none, false⟩ } }
  | .service => offerAll { s with du := { s.du with
      keyed := ⟨some (.answering .other), d.letters ++ twoDigits tag, some (spaced [d.letters ++ twoDigits tag, o.name]), lines⟩ } }

/-- `s` with a directive of this context and tag executing as a job, no answer made yet (R171, R173). -/
def executing (d : Dir) (c : Ctx) (tag : Nat) (j : Job) (s : State) : State :=
  match c with
  | .line => { s with du := { s.du with line := ⟨.executing, [], false, tag, some j, false⟩ } }
  | .service => { s with du := { s.du with keyed := ⟨some j, d.letters ++ twoDigits tag, none, []⟩ } }

/-- `s` after the directive executing in a context has completed with this outcome: over the line its report, unless the session has
ended meanwhile, and the context idle with its tag kept (R171, R172); locally the outcome line and the data lines, offered as notice
slots allow (R173). -/
def ended (c : Ctx) (o : Outcome) (data : Text) (lines : List AnswerLine) (s : State) : State :=
  match c with
  | .line => { s with
      pe := if s.du.line.orphan = true ∨ 4 ≤ s.pe.reports.length then s.pe
        else { s.pe with reports := s.pe.reports ++ [⟨s.du.line.tag, o.code :: data, 0⟩] }
      du := { s.du with line := ⟨.idle, [], false, s.du.line.tag, none, false⟩ } }
  | .service => offerAll { s with du := { s.du with
      keyed := ⟨some (.answering (match s.du.keyed.job with
        | some (.form _ k _) => .form k
        | some (.regions _) => .regions
        | _ => .other)), s.du.keyed.head, some (spaced [s.du.keyed.head, o.name]), lines⟩ } }

/-- `s` with the directive of a context going on as this job, its next burst due (R10). -/
def goingOn (c : Ctx) (j : Job) (s : State) : State :=
  { s with du := { s.du.setJob c (some j) with due := s.du.due ++ [.directive c] } }

/-- The Parcel Engine with its session state abandoned and `control` in its control queue (R59): the counters, the next and the
expected sequence stay. -/
def Pe.abandoned (p : Pe) (control : List Control) : Pe :=
  { p with
    asm := huntingAsm, nakRecord := none, nakTimer := none, reminderTimer := none, slotA := .free, slotB := .free, older := .a,
    ackTimer := none, tx := none, control := control, reports := [], source := none, held := false, stationHold := false,
    holdTimer := none }

/-- From `s` to `e` the session has ended with this cause (Table 2.4); `control` is what the control queue then holds. -/
def SessionEnded (cause : EndCause) (control : List Control) (s e : State) : Prop :=
  e.clu.lastEnd = cause ∧ e.kcu = { s.alerted.kcu with lock := false } ∧
  e.pe = s.pe.abandoned control ∧
  e.jmc = s.jmc.abandon .pe ∧
  e.du.input = [] ∧ e.du.blocked = false ∧ e.du.keyed = s.du.keyed ∧
  (s.du.line.state = .idle → e.du.line = s.du.line) ∧
  (s.du.line.state = .collecting → e.du.line = { s.du.line with state := .idle, collection := [], overlong := false }) ∧
  (s.du.line.state = .executing → e.du.line = { s.du.line with orphan := true }) ∧
  e.spu = (spuSessionEnd s).spu ∧
  e.pqu = { ((s.pqu.raise (spaced [ascii "LINE DOWN", cause.name])).listNotices 8) with
    asm := { (if s.pqu.asm.complete = false ∧ 1 ≤ s.pqu.asm.length
      then { s.pqu.asm with complete := true, part := true, idleTimer := none } else s.pqu.asm) with justWrapped := false } } ∧
  (∀ n, s.pqu.notices.length = 8 → (∀ m ∈ s.pqu.noticeOrder, 1 ≤ m) → s.pqu.nextNotice = none → s.pqu.freeSlot = some n →
    s.pqu.list.length < 24 →
    e.pqu.list = s.pqu.list ++ [.notice n]) ∧
  e.outside = s.outside ∧ e.work = s.work ∧ e.ksu = s.ksu

/-- The Parcel Engine after NAK(expected) has been asked for (R43): queued, unless the spacing forbids it. -/
def Pe.nakked (p : Pe) (ack : Nat) : Pe :=
  if p.nakRecord = some p.expected ∧ p.nakTimer.isSome then p
  else { p with control := (p.queue (.nak p.expected)).control, nakRecord := some p.expected, nakTimer := some ack }

/-- From `s` to `e` the entry of this serial, SENDING till now, has left the Parcel Engine (R53): the slots LOADING or FILLED with a
parcel of it are FREE and every other slot stands, its fill index is gone, and the burst of a LOADING slot is withdrawn. -/
def SourceDropped (serial : Nat) (s e : State) : Prop :=
  (∀ i p o, s.pe.slot i = .loading p o →
    e.pe.slot i = if p.report = false ∧ p.serial = serial then .free else .loading p o) ∧
  (∀ i p, s.pe.slot i = .filled p → e.pe.slot i = if p.report = false ∧ p.serial = serial then .free else .filled p) ∧
  (∀ i, (s.pe.slot i).isLoading = false → (s.pe.slot i).isFilled = false → e.pe.slot i = s.pe.slot i) ∧
  e = { s with
    pe := { s.pe with
      slotA := e.pe.slotA, slotB := e.pe.slotB, source := none
      older := if e.pe.slot s.pe.older = .free then s.pe.older.other else s.pe.older }
    jmc := if s.pe.slotA.isLoading = true ∨ s.pe.slotB.isLoading = true then s.jmc.abandon .pe else s.jmc }

/-- From `s` to `t` power has gone (R1, R181): every working state is lost, a settings write or an SR in progress is cut off, and
the journal memory keeps every byte outside a write burst in progress; of that burst's bytes, byte `i` reads its new value where
bit `i` of `landed` is set, and its old one otherwise. What the blocks hold without power, the values of reset with no display
frame and the doze idle timer stopped, is the model's (log entry 2). -/
def PowerLost (landed : BitVec 8) (s t : State) : Prop :=
  t = { s with
    mem := t.mem, fresh := t.fresh
    settingsTorn := s.settingsTorn || s.pm.writing.isSome, regionsCut := s.regionsCut || s.du.srRunning
    work := defaultSettings, jmc := Jmc.reset, clu := Clu.reset, pe := Pe.reset, du := Du.reset, ksu := Ksu.reset
    kcu := { Kcu.reset with sending := false }
    spu := Spu.reset, pqu := Pqu.reset, hdu := Hdu.reset
    pm := { Pm.reset with power := .off, dozeTimer := none, dozeHeld := false } } ∧
  (s.jmc.current = none ∨ s.jmc.current.any (fun b => !b.burst.write) = true → t.mem = s.mem) ∧
  ∀ b, s.jmc.current = some b → Inv s →
    let addrs := placeAddrs s.work.map b.burst.place b.burst.count
    (∀ a, a ∉ addrs → t.mem.read a = s.mem.read a) ∧
    (b.burst.write = true → addrs.Nodup → ∀ (i a : Nat) (v : Byte), addrs[i]? = some a → b.burst.data[i]? = some v →
      t.mem.read a = if landed.getLsbD i = true then v else s.mem.read a)

/-- From `s` to `e` the Key Code Unit has become `k`, with a frame in progress and what it shows left open (R100), and nothing else
has changed. -/
def KcuBecame (k : Kcu) (s e : State) : Prop :=
  e = { s with kcu := { k with frame := e.kcu.frame, sending := true, frameDue := e.kcu.frameDue } }

/-- The notices a start-up raises, in their order (R184, R120, R121, R186). -/
def startNotices (s : State) : List Text :=
  let (_, work, defaulted) := settingsInForce s
  (if defaulted = true then [ascii "SETTINGS DEFAULTED"] else []) ++
  (if (s.restored work).wiped = true then [ascii "JOURNAL RESET"] else []) ++
  ((s.restored work).damaged.map fun n => spaced [ascii "ENTRY DAMAGED", twoDigits n]) ++
  if batteryBand s.pins.battery = .critical then [ascii "BATTERY LOW"] else []

/-- From `s` to `e` start-up has run (R186), its battery sample not EXHAUSTED: every counter is 0, but that of the notices dropped
where start-up itself raises more than the buffer holds; the default keymap and code table are in force; the spool is the one the
restore gives, its oldest entries reclaimed, and the composer is set from it. The display frame is left open (R100). A scan in
progress goes on (R63); that an alert that sounds goes on, and a paper-feed step does not, is the model's choice (log entry 37). -/
def StartedUp (s e : State) : Prop :=
  e.clu.framingErrors = 0 ∧ e.clu.fades = 0 ∧ e.spu.stray = 0 ∧ e.kcu.refusals = 0 ∧ e.kcu.overflows = 0 ∧ e.ksu.padFaults = 0 ∧
  e.pqu = (startNotices s).foldl Pqu.raise Pqu.reset ∧ ((startNotices s).length ≤ 8 → e.pqu.dropped = 0) ∧
  e.pm.power = .run ∧ e.pm.stage = .none ∧ e.pm.restarting = false ∧ e.pm.writing = none ∧
  e.pm.band = batteryBand s.pins.battery ∧ e.clu.line = .off ∧ e.clu.lastEnd = .none ∧ e.pe = Pe.reset ∧ e.du = Du.reset ∧
  e.jmc = Jmc.reset ∧ e.clu.receiver = .hunting ∧ e.clu.carrier = decide (30 * e.work.carrier < s.pins.energy) ∧
  e.ksu.calibrating = true ∧ e.ksu.ganged = false ∧ e.hdu.paper = s.pins.paperAbsent ∧ e.hdu.lid = s.pins.lidOpen ∧
  e.hdu.reading = s.pins.thermistor ∧ e.hdu.head = .idle ∧ e.kcu.typeahead = [] ∧ e.kcu.lock = false ∧ e.pqu.list = [] ∧
  e.settings = s.settings ∧ e.pm.image = (settingsInForce s).1 ∧ e.work = (settingsInForce s).2.1 ∧
  ((settingsInForce s).2.2 = true → (e.pqu.noticeAt 1).text = ascii "SETTINGS DEFAULTED") ∧
  e.kcu.forms = [1, 2, 3, 4].map (judgeForm s.mem e.work.map) ∧
  (∀ k a, Inv s → 1 ≤ k → k ≤ 4 → a = e.work.map.form.base + (k - 1) * 256 →
    e.mem.read a = if formLoadedOk (s.mem.readAll (addrsFrom a 256)) = true then s.mem.read a else 0) ∧
  (∀ a, Inv s → (∀ k, 1 ≤ k → k ≤ 4 → a ≠ e.work.map.form.base + (k - 1) * 256) → e.mem.read a = s.mem.read a) ∧
  e.regionsCut = false ∧ e.hdu.loaded = (s.restored e.work).loaded ∧
  ((s.restored e.work).wiped = true → e.spu = Spu.reset.dueItem .header ∧ e.kcu.state = .idle) ∧
  (let v := restoreComposer (reclaim 32 { e with
      spu := (s.restored e.work).spu, kcu := { Kcu.reset with forms := e.kcu.forms, alert := s.kcu.alert } });
    KcuBecame v.kcu v e) ∧
  e.kcu.keymap = defaultKeymap ∧ e.hdu.codes = defaultCodes ∧
  e.clu = { Clu.reset with carrier := e.clu.carrier } ∧
  (let pads := s.ksu.pads.map fun p => { freshPad with baseline := p.baseline, last := p.last };
    e.ksu = { Ksu.reset with pads := pads, before := pads, scan := s.ksu.scan }) ∧
  e.hdu = { Hdu.reset with
    loaded := e.hdu.loaded, paper := s.pins.paperAbsent, lid := s.pins.lidOpen, reading := s.pins.thermistor
    band := tempBand s.pins.thermistor, hot := decide (60 ≤ s.pins.thermistor)
    limit := groupLimit e.pm.band false, power := e.pm.band.weak } ∧
  e.pm = { Pm.reset with image := e.pm.image, band := e.pm.band, dozeTimer := none, dozeHeld := false } ∧
  e.pins = s.pins ∧ e.pending = s.pending ∧ e.fresh = s.fresh ∧ e.settingsTorn = s.settingsTorn

/-- The ACK timer once a slot's parcel is the oldest, as that slot stands (R51). -/
def SendSlot.timer (v : SendSlot) (ack : Nat) : Option Nat :=
  match v with
  | .outstanding _ _ _ due tx => if tx || due then none else some ack
  | _ => none

/-- The Key Code Unit with an event refused: the counter and the alert (R83). -/
def Kcu.refused (k : Kcu) : Kcu := { k with refusals := bump k.refusals, alert := true }

/-- The flush wait timer once `n` more bytes have been staged (R94): a waiting flush that thereby comes to lack room in the ring
starts it. -/
def State.flushTimerAfter (s : State) (n : Nat) : Bool :=
  s.kcu.flushTimer || (s.kcu.flush == .waiting && decide (s.kcu.staging.length ≤ s.spu.ring.free s.spoolSize) &&
    decide (s.spu.ring.free s.spoolSize < s.kcu.staging.length + n))

/-- From `s` to `e` the line has been ended for a shutdown (R35, R181): READY and FADE enter CLEARING and the session ends, and
every other line state becomes OFF. -/
def LineEnded (s e : State) : Prop :=
  let off : State := { s.onLine { s.clu.still with line := .off, txChar := none } with pe := { s.pe with tx := none, control := [] } }
  (s.clu.line = .off → e = s) ∧
  (s.clu.line = .listen ∨ s.clu.line = .detect → e = off) ∧
  (s.clu.line = .settle ∨ s.clu.line = .clearing → e = off.limited false) ∧
  (s.clu.line = .ready ∨ s.clu.line = .fade →
    SessionEnded (.clear .power) [.clear] s e ∧ e.pm = { s.pm with dozeHeld := false } ∧ e.hdu = s.hdu ∧
    e.clu = { s.clu.still with
      line := .clearing, clearingTimer := true, clearingCause := some .power, lastEnd := .clear .power })

/-- From `s` to `e` the Spool Unit has been asked to secure the journal (R122): staged bytes that fit the ring are taken as a
flush, with a cursor that is the model's behind a flush in progress (log entry 23), and others are lost; a second request changes
nothing (log entry 22). -/
def Secured (s e : State) : Prop :=
  let k := s.kcu
  let u : State := { s with spu := { s.spu with securing := true } }
  let fits := k.staging.length ≤ s.spu.ring.free s.spoolSize ∧ s.spu.openSlot.isSome = true
  (s.spu.securing = true → e = s) ∧
  (s.spu.securing = false →
    (k.staging = [] → e = u) ∧
    (k.staging ≠ [] → fits → e = flushTaken (if k.flush = .waiting then k.flushCursor else k.requestCursor) u) ∧
    (k.staging ≠ [] → ¬ fits → e = { u with kcu := { k with
      staging := [], flush := if k.flush = .running then .running else .none, flushOwed := false, flushTimer := false } }))

/-- The Spool Unit with the entry of slot `n` made VOID and its record due (R109). -/
def Spu.voided (p : Spu) (n : Nat) : Spu :=
  (p.setEntry n { p.entry n with
    state := .void, cursor := none, recCursor := none, acceptTimer := none, reason := 0, reasonText := [] }).dueItem (.record n)

/-- The Key Code Unit with field `n` of the entry in table slot `slot` closed (R88): its item stored, its flag set if it has a
value, its echo owed, and the cursor moved. -/
def Kcu.fieldClosed (k : Kcu) (slot n : Nat) : Kcu :=
  let has := if k.value = [] ∨ k.hasValue.contains n then k.hasValue else k.hasValue ++ [n]
  { k with
    staging := k.staging ++ [0x1F, byteOf n], count := k.count + 2, flushOwed := true
    echo := some ⟨.field k.formSlot n (k.count - k.value.length) k.value.length, slot, .owed⟩
    hasValue := has, value := []
    cursor :=
      if n < k.image.fields.length then .field (n + 1)
      else match (List.range' 1 k.image.fields.length).find? fun i => !has.contains i with
        | some i => .field i
        | none => .finish }

/-- `s` with a directive executing whose first burst has become due (R10). -/
def started (d : Dir) (c : Ctx) (tag : Nat) (j : Job) (s : State) : State :=
  let t := executing d c tag j s
  { t with du := { t.du with due := t.du.due ++ [.directive c] } }

/-- The command that names a parcel's kind and fields, run on `u`; no REPORT parcel is judged GOOD (R38, R41). -/
def Parcel.received (p : Parcel) (u : State) : Out :=
  match p.kind with
  | .text => exec (.receiveText p.seq p.body) u
  | .ack => exec (.receiveAck p.seq) u
  | .nak => exec (.receiveNak p.seq) u
  | .hold => exec (.receiveHold p.serial) u
  | .resume => exec .receiveResume u
  | .accept => exec (.receiveAccept p.serial) u
  | .reject => exec (.receiveReject p.serial p.index p.body) u
  | .clear => exec .receiveClear u
  | .report => .next u

/-- The command that begins a directive. -/
def Dir.command (c : Ctx) (tag : Nat) (args : List Text) : Dir → Instr
  | .qs => .qs c tag args | .qe => .qe c tag args | .qm => .qm c tag args | .qt => .qt c tag args | .fd => .fd c tag args
  | .pd => .pd c tag args | .lc => .lc c tag args | .lg => .lg c tag args | .lh => .lh c tag args | .lf => .lf c tag args
  | .ef => .ef c tag args | .kl => .kl c tag args | .ku => .ku c tag args | .xs => .xs c tag args | .xh => .xh c tag args
  | .xd => .xd c tag args | .lk => .lk c tag args | .ls => .ls c tag args | .sr => .sr c tag args | .sv => .sv c tag args
  | .wm => .wm c tag args | .ws => .ws c tag args | .rt => .rt c tag args | .ps => .ps c tag args

end Sys2Proof.Machine
end

