-- ==== Sys2Proof/Certificates/Slice0/Obligations.lean ====
section
/-! DEFINITION. The statements for the provers. In them a command's effect is a state written out from the rules, and `finish` is
the common end that follows every effect (what the blocks do next of themselves: log entry 6); `CommonEndKeeps` says what that end
leaves alone. The titles and the rules each rests on stand in OBLIGATIONS.json. -/

open Sys2Proof Sys2Proof.Machine

/-! ## The machine -/

/-- A step takes the command at the front of the queue and runs it with the queue's rest; on an empty queue the block idles, which
is the model's choice (log entry 1). -/
def Obligations.StepRunsFront : Prop :=
  (∀ (c : Instr) (rest : List Instr) (s : State), s.pending = c :: rest → step s = exec c { s with pending := rest }) ∧
  ∀ s : State, s.pending = [] → step s = .next s

/-- The values of State.reset that the "After start-up" columns give; which start-up it is, is the model's choice (log entry 2). -/
def Obligations.ResetValues : Prop :=
  Inv State.reset ∧ Bounded State.reset ∧ State.reset.steady ∧ State.reset.pending = [] ∧
  State.reset.clu.line = .off ∧ State.reset.clu.receiver = .hunting ∧ State.reset.clu.lastEnd = .none ∧
  State.reset.clu.framingErrors = 0 ∧ State.reset.clu.fades = 0 ∧
  State.reset.pe.slotA = .free ∧ State.reset.pe.slotB = .free ∧ State.reset.pe.control = [] ∧ State.reset.pe.reports = [] ∧
  State.reset.pe.held = false ∧ State.reset.pe.stationHold = false ∧ State.reset.pe.asm.state = .hunting ∧
  State.reset.jmc.current = none ∧ State.reset.jmc.hdu = ⟨none, 0⟩ ∧ State.reset.jmc.pe = ⟨none, 0⟩ ∧
  State.reset.jmc.spu = ⟨none, 0⟩ ∧ State.reset.jmc.du = ⟨none, 0⟩ ∧
  State.reset.du.line.state = .idle ∧ State.reset.du.keyed.job = none ∧ State.reset.du.input = [] ∧
  State.reset.ksu.ganged = false ∧ State.reset.ksu.calibrating = true ∧
  State.reset.kcu.typeahead = [] ∧ State.reset.kcu.lock = false ∧ State.reset.kcu.state = .idle ∧
  State.reset.spu.order = [] ∧ State.reset.spu.serialNext = 1 ∧ State.reset.spu.active = false ∧
  State.reset.pqu.list = [] ∧ State.reset.pqu.ring = ⟨0, 0, false⟩ ∧
  State.reset.hdu.head = .idle ∧ State.reset.hdu.loaded = 0 ∧ State.reset.hdu.prev = noDots ∧
  State.reset.pm.power = .run ∧ State.reset.pm.writing = none

/-- Every command answers a next state, from every state and with every operand, but for a burst that reaches an address the
memory does not have, which is the model's own stop (log entry 30). None is refused. -/
def Obligations.EveryCommandAnswers : Prop :=
  ∀ (c : Instr) (s : State), (∃ t, exec c s = .next t) ∨
    (c = .burstComplete ∧ ∃ b a, s.jmc.current = some b ∧ a ∈ placeAddrs s.work.map b.burst.place b.burst.count ∧
      s.work.memSize ≤ a ∧ exec c s = .fault (.noSuchAddress a))

/-- Every step keeps the bounds the spec puts on a state: the memory size one of the three and the region map valid with it, the
pass-over counts at most 4, the control and report queues at most 4, the line input queue at most 64 bytes, the typeahead queue at
most 16 events, the line list at most 24, the notice buffer 8 slots; and the model's own two: the receiver in no character between
two commands (log entry 31), and the journal memory in canonical form (log entry 7). -/
def Obligations.StepKeepsMemoryForm : Prop :=
  (∀ s t : State, Inv s → step s = .next t → Inv t) ∧ ∀ s t : State, Bounded s → step s = .next t → Bounded t

/-- Only the completion of a settings write changes the settings memory, to the bytes being written: that it stands unchanged when
a write of it is cut off is the model's choice (log entry 8). No command changes the queue. No command's own effect changes the
journal memory but those that say so: the others answer the state they had, or their effect and the common end (log entry 6). -/
def Obligations.MemoriesChange : Prop :=
  (∀ (c : Instr) (s t : State), exec c s = .next t →
    t.pending = s.pending ∧ (t.settings = s.settings ∨ c = .settingsWriteComplete ∧ s.pm.writing = some t.settings)) ∧
  ∀ (c : Instr) (s : State), c ≠ .burstComplete → c ≠ .settingsWriteComplete → (∀ b, c ≠ .batteryRemoved b) →
    (∀ n x p l, c ≠ .powerOn n x p l) →
    exec c s = .next s ∨ ∃ e, exec c s = .next (finish e) ∧ e.mem = s.mem ∧ e.settings = s.settings ∧
      e.settingsTorn = s.settingsTorn ∧ e.regionsCut = s.regionsCut ∧
      (c ≠ .carrierPresent → c ≠ .carrierAbsent → e.fresh = s.fresh)

/-- What the common end of a command does and leaves alone. The blocks take their turns in the model's order (log entry 6), in
which only what stands below changes; while a restart waits for the burst in progress their requests of the bus are withdrawn.
Where no restart and no shutdown is on its way, the doze idle timer follows the doze conditions. A restart or a shutdown on its
way advances, after the blocks' turns, from stage to stage as far as it can: a line RT waits for its report's delivery and ends
the line; with the line OFF the journal is secured, staging taken as a flush or lost; when it is secured the directives in
execution are abandoned and the waiting requests withdrawn, and when the burst in progress has ended start-up runs, or with the
battery EXHAUSTED the latch is released; a shutdown releases the latch when the journal is secured and no settings write goes on.
Which bytes of a write burst in progress land at the release is free (log entry 4). That a line RT goes on when the report queue
is empty, and that a second request to secure changes nothing, are the model's choices (log entry 22); so are that staging is
flushed once, at the request, with a cursor of the model's behind a flush in progress, and that verdicts and last acknowledgments
are claims not taken while the journal is secured (log entry 23). -/
def Obligations.CommonEndKeeps : Prop :=
  (∀ s : State,
    let t := duKick (spuKick (peKick (hduKick (wakeForLine (pquTurn (applyLoads 2 (spoolFollow (flushRequest s))))))))
    let taking := fun t : State => { s with
      work := { s.work with heat := t.work.heat, warm := t.work.warm, density := t.work.density }
      jmc := t.jmc
      clu := { s.clu with
        txChar := t.clu.txChar
        receiver := if s.pm.power = .doze then t.clu.receiver else s.clu.receiver
        carrier := if s.pm.power = .doze then t.clu.carrier else s.clu.carrier }
      pe := { t.pe with
        asm := s.pe.asm, expected := s.pe.expected, nakRecord := s.pe.nakRecord, nakTimer := s.pe.nakTimer,
        reminderTimer := s.pe.reminderTimer, stationHold := s.pe.stationHold, holdTimer := s.pe.holdTimer, good := s.pe.good,
        bad := s.pe.bad, duplicates := s.pe.duplicates, refused := s.pe.refused, stray := s.pe.stray }
      du := t.du
      ksu := { t.ksu with pads := s.ksu.pads, combined := s.ksu.combined, padFaults := s.ksu.padFaults }
      kcu := { t.kcu with
        keymap := s.kcu.keymap, roles := s.kcu.roles, typeahead := s.kcu.typeahead, lock := s.kcu.lock, state := s.kcu.state,
        line := s.kcu.line, cursor := s.kcu.cursor, value := s.kcu.value, hasValue := s.kcu.hasValue, image := s.kcu.image,
        formSlot := s.kcu.formSlot, count := s.kcu.count, staging := s.kcu.staging, flushOwed := s.kcu.flushOwed,
        closing := s.kcu.closing, claim := s.kcu.claim, serviceLine := s.kcu.serviceLine, alert := s.kcu.alert,
        refusals := s.kcu.refusals, overflows := s.kcu.overflows }
      spu := { t.spu with
        serialNext := s.spu.serialNext, episode := s.spu.episode, securing := s.spu.securing, stray := s.spu.stray }
      pqu := { t.pqu with dropped := s.pqu.dropped }
      hdu := t.hdu
      pm := { s.pm with power := t.pm.power } }
    (s.pm.stage ≠ .burst → settle s = taking t) ∧
    (s.pm.stage = .burst → s.jmc.current ≠ none → settle s = taking { t with
      jmc := { t.jmc with hdu := ⟨none, 0⟩, pe := ⟨none, 0⟩, spu := ⟨none, 0⟩, du := ⟨none, 0⟩ } }) ∧
    (s.pm.stage = .burst → s.jmc.current = none → settle s = s)) ∧
  (∀ s : State, s.steady → ∃ (timer : Option Nat) (held : Bool),
    finish s = { settle s with pm := { (settle s).pm with dozeTimer := timer, dozeHeld := held } } ∧
    (dozeConditions (finish s) = false → timer = none ∧ held = false) ∧
    (dozeConditions (finish s) = true → held = true ∧
      timer = if s.pm.dozeHeld = true then s.pm.dozeTimer else if s.work.dozeIdle = 0 then none else some s.work.dozeIdle)) ∧
  (∀ (s : State) (n : Nat),
    (∃ timer held, finish s = { pmAdvance 8 (settle s) with
      pm := { (pmAdvance 8 (settle s)).pm with dozeTimer := timer, dozeHeld := held } }) ∧
    pmAdvance 0 s = s ∧ (pmStage s = none → pmAdvance (n + 1) s = s) ∧
    ∀ t, pmStage s = some t → pmAdvance (n + 1) s = pmAdvance n t) ∧
  ∀ s : State,
    let at' := fun st : Stage => { s with pm := { s.pm with stage := st } }
    (s.pm.stage = .none → pmStage s = none) ∧
    (s.pm.stage = .report →
      let off : State := { (at' .line).onLine { s.clu.still with line := .off, txChar := none } with
        pe := { s.pe with tx := none, control := [] } }
      (s.clu.line = .off → pmStage s = some (settle (at' .line))) ∧
      (s.clu.line = .listen ∨ s.clu.line = .detect → pmStage s = some (settle off)) ∧
      (s.clu.line = .settle ∨ s.clu.line = .clearing → pmStage s = some (settle (off.limited false))) ∧
      (s.clu.line = .ready ∨ s.clu.line = .fade →
        (s.pe.reports ≠ [] → pmStage s = none) ∧
        (s.pe.reports = [] → ∃ e, pmStage s = some (settle e) ∧ SessionEnded (.clear .restart) [.clear] s e ∧
          e.pm = { s.pm with stage := .line, dozeHeld := false } ∧ e.hdu = s.hdu ∧ e.clu = { s.clu.still with
            line := .clearing, clearingTimer := true, clearingCause := some .restart, lastEnd := .clear .restart }))) ∧
    (s.pm.stage = .line →
      let u : State := { at' .secure with spu := { s.spu with securing := true } }
      (s.clu.line ≠ .off → pmStage s = none) ∧
      (s.clu.line = .off → s.spu.securing = true → pmStage s = some (settle (at' .secure))) ∧
      (s.clu.line = .off → s.spu.securing = false →
        (s.kcu.staging = [] → pmStage s = some (settle u)) ∧
        (s.kcu.staging ≠ [] → s.kcu.staging.length ≤ s.spu.ring.free s.spoolSize → s.spu.openSlot.isSome = true → pmStage s =
          some (settle (flushTaken (if s.kcu.flush = .waiting then s.kcu.flushCursor else s.kcu.requestCursor) u))) ∧
        (s.kcu.staging ≠ [] → s.spu.ring.free s.spoolSize < s.kcu.staging.length ∨ s.spu.openSlot = none → pmStage s =
          some (settle { u with kcu := { s.kcu with
            staging := [], flush := if s.kcu.flush = .running then .running else .none, flushOwed := false,
            flushTimer := false } })))) ∧
    (s.pm.stage = .secure →
      (s.spu.due ≠ [] ∨ s.spu.cur ≠ none → pmStage s = none) ∧
      (s.spu.due = [] → s.spu.cur = none → pmStage s = some { at' .burst with
        jmc := { s.jmc with hdu := ⟨none, 0⟩, pe := ⟨none, 0⟩, spu := ⟨none, 0⟩, du := ⟨none, 0⟩ }
        du := { s.du with
          line := if s.du.line.state = .executing then ⟨.idle, [], false, s.du.line.tag, none, false⟩ else s.du.line
          keyed := ⟨none, [], none, []⟩, due := s.du.due.filter (· == .inbound) }
        pqu := { s.pqu with fdClaims := [] }, hdu := { s.hdu with loads := [], loading := none } })) ∧
    (s.pm.stage = .burst →
      (s.jmc.current ≠ none → pmStage s = none) ∧
      (s.jmc.current = none → batteryBand s.pins.battery ≠ .exhausted → ∃ e, pmStage s = some (settle e) ∧ StartedUp s e) ∧
      (s.jmc.current = none → batteryBand s.pins.battery = .exhausted →
        ∃ e landed, pmStage s = some (settle e) ∧ PowerLost landed s e ∧ e.fresh = s.fresh + 1)) ∧
    (s.pm.stage = .shutdown →
      (s.spu.due ≠ [] ∨ s.spu.cur ≠ none ∨ s.pm.writing ≠ none → pmStage s = none) ∧
      (s.spu.due = [] → s.spu.cur = none → s.pm.writing = none →
        ∃ e landed, pmStage s = some e ∧ PowerLost landed s e ∧ e.fresh = s.fresh + 1)) ∧
    (s.spu.securing = true → exec .flushTake s = .next s ∧ exec .entryClose s = .next s ∧
      (∀ n, onAccept n s = s ∧ lastAck n s = s ∧ ∀ k r, onReject n k r s = s))

/-! ## Journal memory -/

/-- A written byte reads as written and every other byte as before. -/
def Obligations.MemoryReadsWhatWasWritten : Prop :=
  ∀ (m : Memory) (x y : Nat) (v : Byte), Memory.wf m = true →
    Memory.read (Memory.write m x v) x = v ∧ (y ≠ x → Memory.read (Memory.write m x v) y = Memory.read m y)

/-- The rings' arithmetic: the fill and the free space, and what an append, a release and a retract make of them. -/
def Obligations.RingArithmetic : Prop :=
  ∀ (r : RingState) (size n : Nat), r.tail < size → r.head < size → (r.full = true → r.head = r.tail) → 1 ≤ n →
    r.fill size + r.free size = size ∧
    (n ≤ r.free size → (r.append size n).fill size = r.fill size + n ∧ (r.append size n).head = (r.head + n) % size ∧
      (r.append size n).tail = r.tail) ∧
    (n ≤ r.fill size → (r.release size n).fill size + n = r.fill size ∧ (r.release size n).tail = (r.tail + n) % size ∧
      (r.release size n).head = r.head ∧ (r.release size n).full = false) ∧
    (n ≤ r.fill size → (r.retract size n).fill size + n = r.fill size ∧ ((r.retract size n).head + n) % size = r.head ∧
      (r.retract size n).tail = r.tail ∧ (r.retract size n).full = false)

/-- A grant of the bus: to the first waiting requester whose count is 4 in the order HDU, PE, SPU, DU, else to the first waiting
one; every other waiting count rises by 1 up to 4, and the count of the one granted and of those not waiting is 0. -/
def Obligations.ArbiterGrants : Prop :=
  ∀ (j : Jmc) (w : Requester) (b : Burst), j.choice = some w → (j.req w).waiting = some b →
    j.grant.current = some ⟨w, b, true⟩ ∧ j.grant.req w = ⟨none, 0⟩ ∧
    (∀ v, v ≠ w → (j.grant.req v).waiting = (j.req v).waiting ∧
      (j.grant.req v).passed = if (j.req v).waiting.isSome then min 4 ((j.req v).passed + 1) else 0) ∧
    ((∃ v, (j.req v).waiting.isSome = true ∧ (j.req v).passed = 4) → (j.req w).passed = 4) ∧
    (∀ v, Requester.all.idxOf v < Requester.all.idxOf w → (j.req v).waiting.isSome = true →
      (j.req w).passed = 4 ∧ (j.req v).passed ≠ 4)

/-- The burst in progress completes: a write's bytes stand in memory and every other byte is as before; a read leaves all of
memory alone and its requester is given the bytes that stood there; the bus is granted to a waiting request, or is idle. A
requester that withdrew (R10) is told nothing. What each requester makes of it stands with the statement of its block. A burst's
addresses follow one another, in a ring by the offset modulo the ring's size. -/
def Obligations.BurstCompletes : Prop :=
  (∀ (m : RegionMap) (a o n i : Nat),
    let places := fun p => placeAddrs m p n
    (places (.addr a)).length = n ∧ (places (.ring .inbound o)).length = n ∧ (places (.ring .spool o)).length = n ∧
    (i < n → (places (.addr a))[i]? = some (a + i) ∧
      (places (.ring .inbound o))[i]? = some (m.inbound.base + (o + i) % m.inbound.size) ∧
      (places (.ring .spool o))[i]? = some (m.spool.base + (o + i) % m.spool.size))) ∧
  ∀ (s : State) (c : CurrentBurst), s.jmc.current = some c →
    let addrs := placeAddrs s.work.map c.burst.place c.burst.count
    Inv s → (∀ a ∈ addrs, a < s.work.memSize) →
    (c.burst.write = true → c.burst.data.length = c.burst.count ∧ addrs.Nodup) →
    ∃ (m : Memory) (j : Jmc) (e : State), exec .burstComplete s = .next (finish e) ∧
      (c.burst.write = false → m = s.mem) ∧
      (c.burst.write = true → m.readAll addrs = c.burst.data ∧ ∀ a, a ∉ addrs → m.read a = s.mem.read a) ∧
      j = ({ s.jmc with current := none } : Jmc).grant ∧
      ((∀ w, (s.jmc.req w).waiting = none) → j = { s.jmc with current := none }) ∧
      e = regionsDone (
        if c.wanted = true then
          deliver c.burst.purpose (if c.burst.write = true then [] else s.mem.readAll addrs) { s with mem := m, jmc := j }
        else { s with mem := m, jmc := j }) ∧
      e.mem = m ∧ e.settings = s.settings ∧ e.pending = s.pending ∧ e.pins = s.pins

/-! ## Coupler line -/

/-- The carrier indication turns (R21): the energy then lies above the threshold, or at it or below, how far being a free value
(log entry 42). What the turn does by the line state, here LISTEN, DETECT, OFF and CLEARING; in DOZE the detector is stopped. A
gap's expiry, the confirmation's completion, after which a gap being timed goes on being timed as a carrier loss, by the model's
choice (log entry 27), and the listen timer's expiry: OFF, with the notice NO ANSWER and no alert. -/
def Obligations.CarrierDetection : Prop :=
  ∀ s : State, ∃ high low : Nat, 30 * s.work.carrier < high ∧ low ≤ 30 * s.work.carrier ∧
    let u : State := { s with pins := { s.pins with energy := high }, fresh := s.fresh + 1 }
    let v : State := { s with pins := { s.pins with energy := low }, fresh := s.fresh + 1 }
    (s.pm.power = .doze → exec .carrierPresent s = .next (finish u) ∧ exec .carrierAbsent s = .next (finish v)) ∧
    (s.pm.power.awake = true →
      (s.clu.line = .listen → exec .carrierPresent s =
        .next (finish (u.onLine { s.clu with carrier := true, line := .detect, confirming := true, gap := false }))) ∧
      (s.clu.line = .detect → exec .carrierPresent s =
        .next (finish { u with clu := { s.clu with carrier := true, gap := false } })) ∧
      (s.clu.line = .off ∨ s.clu.line = .clearing → exec .carrierPresent s =
        .next (finish { u with clu := { s.clu with carrier := true } })) ∧
      (s.clu.line = .detect → exec .carrierAbsent s =
        .next (finish { v with clu := { s.clu with carrier := false, gap := true } })) ∧
      (s.clu.line = .listen ∨ s.clu.line = .off ∨ s.clu.line = .clearing → exec .carrierAbsent s =
        .next (finish { v with clu := { s.clu with carrier := false } })) ∧
      (s.clu.line = .detect → s.clu.gap = true → exec .detectGapExpiry s =
        .next (finish (s.onLine { s.clu with line := .listen, confirming := false, gap := false }))) ∧
      (s.clu.line = .detect → s.clu.confirming = true → exec .confirmationComplete s =
        .next (finish ((s.onLine { s.clu.still with line := .settle, settleTimer := true, lossGap := s.clu.gap }).limited true))) ∧
      (s.clu.line = .listen ∨ s.clu.line = .detect → s.clu.listenTimer.isSome = true → exec .listenTimerExpiry s =
        .next (finish ({ s.onLine { s.clu.still with line := .off, txChar := none } with
          pe := { s.pe with tx := none, control := [] } }.noticed (ascii "NO ANSWER")))))

/-- SETTLE: a carrier loss returns the line to LISTEN with the transmitter off and no notice; the settle timer's expiry starts the
session, and makes the flow test: a HOLD below the hold mark, a RESUME above the resume mark, nothing between them. A gap being
timed goes on being timed (log entry 27). -/
def Obligations.SettleEnds : Prop :=
  (∀ s : State,
    let free := s.pqu.ring.free s.inboundSize
    let session := s.clu.line = .ready ∨ s.clu.line = .fade
    let holds := free < s.work.holdMark ∧ s.pe.held = false ∧ .hold ∉ s.pe.control
    let resumes := s.work.resumeMark < free ∧ s.pe.held = true ∧ .resume ∉ s.pe.control
    (session → holds → flowTest s = { s with pe := s.pe.queue .hold }) ∧
    (session → resumes → flowTest s = { s with pe := s.pe.queue .resume }) ∧
    (¬ session ∨ ¬ holds ∧ ¬ resumes → flowTest s = s)) ∧
  ∀ s : State, s.pm.power.awake = true → s.clu.line = .settle →
    (s.clu.lossGap = true → exec .carrierLoss s =
      .next (finish ((s.onLine { s.clu.still with line := .listen, listenTimer := some s.work.listen }).limited false))) ∧
    (s.clu.settleTimer = true → ∃ e, exec .settleTimerExpiry s = .next (finish e) ∧
      e.clu = { s.clu.still with line := .ready, lastEnd := .none, lossGap := s.clu.lossGap } ∧
      e.pqu = s.pqu.raise (ascii "LINE UP") ∧ e.kcu = s.alerted.kcu ∧
      e.pe = { s.pe with
        nextSeq := 0, expected := 0, asm := huntingAsm, nakRecord := none, nakTimer := none, reminderTimer := none,
        control := (flowTest { s with clu := e.clu }).pe.control } ∧
      (s.pe.held = false → s.pe.control = [] →
        e.pe.control = if s.pqu.ring.free s.inboundSize < s.work.holdMark then [.hold] else []) ∧
      e.spu = { s.spu with active := s.spu.active || s.work.autoSend && !s.spu.securing } ∧
      e.outside = s.outside ∧ e.work = s.work ∧ e.jmc = s.jmc ∧ e.du = s.du ∧ e.ksu = s.ksu ∧ e.hdu = s.hdu)

/-- The gap timed in SETTLE and READY, FADE entered by a carrier loss, the regain timed in FADE, and READY regained. How far from
the threshold a turn leaves the energy is a free value (log entry 42). -/
def Obligations.FadeAndRegain : Prop :=
  ∀ s : State, s.pm.power.awake = true → ∃ high low : Nat, 30 * s.work.carrier < high ∧ low ≤ 30 * s.work.carrier ∧
    let u : State := { s with pins := { s.pins with energy := high }, fresh := s.fresh + 1 }
    let v : State := { s with pins := { s.pins with energy := low }, fresh := s.fresh + 1 }
    (s.clu.line = .settle ∨ s.clu.line = .ready →
      exec .carrierAbsent s = .next (finish { v with clu := { s.clu with carrier := false, lossGap := true } }) ∧
      exec .carrierPresent s = .next (finish { u with clu := { s.clu with carrier := true, lossGap := false } })) ∧
    (s.clu.line = .ready → s.clu.lossGap = true → exec .carrierLoss s =
      .next (finish { s.onLine { s.clu.still with line := .fade, fadeTimer := some s.work.fadeTime, fades := bump s.clu.fades } with
        pe := { s.pe with asm := huntingAsm } })) ∧
    (s.clu.line = .fade →
      exec .carrierPresent s = .next (finish { u with clu := { s.clu with carrier := true, regain := true } }) ∧
      exec .carrierAbsent s = .next (finish { v with clu := { s.clu with carrier := false, regain := false } })) ∧
    (s.clu.line = .fade → s.clu.regain = true →
      exec .carrierRegained s = .next (finish (s.onLine { s.clu.still with line := .ready })))

/-- A good CLEAR parcel in READY and the fade timer's expiry end the session; in CLEARING the clearing timer's expiry turns the
line off with no second session end. -/
def Obligations.SessionEnds : Prop :=
  ∀ s : State, s.pm.power.awake = true →
    (s.clu.line = .ready → ∃ e, exec .receiveClear s = .next (finish e) ∧
      e.clu = { s.clu.still with
        line := .clearing, clearingTimer := true, clearingCause := some .cleared, lastEnd := .clear .cleared } ∧
      SessionEnded (.clear .cleared) [.clear] { s with pe := { s.pe with good := bump s.pe.good } } e ∧
      e.hdu = s.hdu) ∧
    (s.clu.line = .fade → s.clu.fadeTimer.isSome = true → ∃ e, exec .fadeTimerExpiry s = .next (finish e) ∧
      e.clu = { s.clu.still with line := .off, txChar := none, lastEnd := .carrierLost } ∧
      SessionEnded .carrierLost [] s e ∧ e.hdu = (s.limited false).hdu) ∧
    (s.clu.line = .clearing → s.clu.clearingTimer = true → exec .clearingTimerExpiry s =
      .next (finish { (s.onLine { s.clu.still with line := .off, txChar := none }).limited false with
        pe := { s.pe with tx := none, control := [] } }))

/-- At session end the SENDING entry returns to CLOSED and is marked interrupted, AWAITING entries return to CLOSED with their
accept timers stopped, every other entry stays, and the run and the first choice are gone. The record of each changed entry is due:
what was due keeps its place, and nothing else becomes due. -/
def Obligations.SessionEndEntries : Prop :=
  (∀ s : State,
    (∃ new, (spuSessionEnd s).spu.due = s.spu.due ++ new) ∧
    (s.spu.due.Nodup → (spuSessionEnd s).spu.due.Nodup) ∧
    (∀ i, i ∈ (spuSessionEnd s).spu.due ↔ i ∈ s.spu.due ∨
      ∃ m ∈ s.spu.order, i = .record m ∧ ((s.spu.entry m).state = .sending ∨ (s.spu.entry m).state = .awaiting))) ∧
  ∀ (s : State) (n : Nat), s.spu.table.length = 32 → s.spu.order.Nodup → (∀ m ∈ s.spu.order, 1 ≤ m ∧ m ≤ 32) →
    n ∈ s.spu.order →
    (spuSessionEnd s).spu.entry n =
      (match (s.spu.entry n).state with
        | .sending => { s.spu.entry n with state := .closed, interrupted := true }
        | .awaiting => { s.spu.entry n with state := .closed, acceptTimer := none }
        | _ => s.spu.entry n) ∧
    (spuSessionEnd s).spu.active = false ∧ (spuSessionEnd s).spu.firstChoice = none ∧
    (spuSessionEnd s).spu.order = s.spu.order ∧ (spuSessionEnd s).spu.ring = s.spu.ring

/-- The LINE key action in each line state. -/
def Obligations.LineAction : Prop :=
  ∀ s : State,
    (s.clu.line = .off → lineAction s = s.onLine { s.clu.still with line := .listen, listenTimer := some s.work.listen }) ∧
    (s.clu.line = .listen ∨ s.clu.line = .detect → lineAction s =
      { s.onLine { s.clu.still with line := .off, txChar := none } with pe := { s.pe with tx := none, control := [] } }) ∧
    (s.clu.line = .settle → lineAction s = { (s.onLine { s.clu.still with line := .off, txChar := none }).limited false with
      pe := { s.pe with tx := none, control := [] } }) ∧
    (s.clu.line = .ready ∨ s.clu.line = .fade →
      (lineAction s).clu = { s.clu.still with
        line := .clearing, clearingTimer := true, clearingCause := some .user, lastEnd := .clear .user } ∧
      SessionEnded (.clear .user) [.clear] s (lineAction s)) ∧
    (s.clu.line = .clearing → lineAction s = s.onLine s.clu)

/-! ## Parcels -/

/-- A parcel's characters: the mark, then header, body and check with F5h and F6h escaped. The held character's stop bit has
ended: the parcel's next character follows at once; after the last, the slot's parcel is no longer in transmission and its ACK
timer starts if it is the oldest OUTSTANDING one, the timer of an older one running on; an acknowledged parcel's slot is FREE;
after the last of a CLEAR in CLEARING the line is OFF. A parcel acknowledged while in transmission holds its slot till then (log
entry 13). On the line a character is its ten bits, each the low band's tone for mark or space. What begins next on an idle
transmitter, and what fills a FREE slot; an entry parcel with an empty body is FILLED at once, which is the model's choice (log
entry 36). -/
def Obligations.CharacterSent : Prop :=
  (∀ (p : Parcel) (v : SlotParcel) (q : BitVec 3),
    let image := [p.kind.code, p.seq, byteOf (p.serial.toNat / 256), byteOf p.serial.toNat, p.index,
      if p.last = true then 1 else 0, byteOf p.body.length] ++ p.body
    p.chars = 0xF5 :: (image ++ checkBytes image).flatMap (fun b =>
      if b = 0xF5 then [0xF6, 0x75] else if b = 0xF6 then [0xF6, 0x76] else [b]) ∧
    v.parcel q = ⟨if v.report = true then .report else .text, q.setWidth 8, BitVec.ofNat 16 v.serial, byteOf v.index, v.last, v.body⟩ ∧
    (∀ c : Control, c.parcel = match c with
      | .ack q => ⟨.ack, q.setWidth 8, 0, 0, false, []⟩
      | .nak q => ⟨.nak, q.setWidth 8, 0, 0, false, []⟩
      | .reminder | .hold => ⟨.hold, 0, 0, 0, false, []⟩
      | .resume => ⟨.resume, 0, 0, 0, false, []⟩
      | .clear => ⟨.clear, 0, 0, 0, false, []⟩) ∧
    [ParcelKind.text, .report, .ack, .nak, .hold, .resume, .accept, .reject, .clear].map ParcelKind.code =
      [1, 2, 3, 4, 5, 6, 7, 8, 9]) ∧
  (∀ s : State, s.pm.power.awake = true → s.clu.txChar.isSome = true →
    (∀ item c rest, s.pe.tx = some ⟨item, c :: rest⟩ → exec .characterSent s =
      .next (finish { s with clu := { s.clu with txChar := some c }, pe := { s.pe with tx := some ⟨item, rest⟩ } })) ∧
    (s.pe.tx = none → exec .characterSent s = .next (finish { s with clu := { s.clu with txChar := none } })) ∧
    (∀ i p q n due tx, s.pe.tx = some ⟨.slot i, []⟩ → s.pe.slot i = .outstanding p q n due tx →
      exec .characterSent s = .next (finish { s with
        clu := { s.clu with txChar := none }
        pe := { s.pe.setSlot i (.outstanding p q n due false) with
          tx := none
          ackTimer := if i = s.pe.older ∨ (s.pe.slot s.pe.older).isOutstanding = false
            then (if due = true then none else some s.work.ack) else s.pe.ackTimer } })) ∧
    (s.pe.tx = some ⟨.control .clear, []⟩ → s.clu.line = .clearing → exec .characterSent s =
      .next (finish { (s.onLine { s.clu.still with line := .off, txChar := none }).limited false with
        pe := { s.pe with tx := none, control := [] } })) ∧
    (∀ c, s.pe.tx = some ⟨.control c, []⟩ → c ≠ .clear → exec .characterSent s =
      .next (finish { s with clu := { s.clu with txChar := none }, pe := { s.pe with tx := none } })) ∧
    (∀ i, s.pe.tx = some ⟨.slot i, []⟩ → s.pe.slot i = .ending → exec .characterSent s =
      .next (finish { s with clu := { s.clu with txChar := none }, pe := { s.pe.setSlot i .free with tx := none } }))) ∧
  (∀ (c : Byte) (space : Bool), frame c space = [false, c.getLsbD 0, c.getLsbD 1, c.getLsbD 2, c.getLsbD 3, c.getLsbD 4,
    c.getLsbD 5, c.getLsbD 6, c.getLsbD 7, !space]) ∧
  (∀ c : Clu, (c.line = .off ∨ c.line = .listen ∨ c.line = .detect → c.sends = []) ∧
    (c.line = .settle ∨ c.line = .ready ∨ c.line = .fade ∨ c.line = .clearing →
      (c.txChar = none → c.sends = [1150]) ∧
      ∀ x, c.txChar = some x → c.sends = (frame x false).map fun mark => if mark = true then 1150 else 950)) ∧
  (∀ mark : Bool, toneOf true mark = if mark = true then 2300 else 2100) ∧
  (∀ s : State, s.clu.txChar = none → s.pe.tx = none →
    let begun := fun (item : TxItem) (p : Parcel) (e : Pe) => { s with
      pe := { e with tx := some ⟨item, p.chars.drop 1⟩ }, clu := { s.clu with txChar := p.chars.head? } }
    (∀ i p, (begun i p s.pe).clu.txChar = some 0xF5) ∧
    (s.clu.line = .ready →
      (∀ c cs, s.pe.control = c :: cs → beginNext s =
        if c = .hold then some (flowTest (begun (.control c) c.parcel { s.pe with control := cs, held := true }))
        else if c = .resume then some (flowTest (begun (.control c) c.parcel { s.pe with control := cs, held := false }))
        else some (begun (.control c) c.parcel { s.pe with control := cs })) ∧
      (s.pe.control = [] → s.pe.stationHold = true → beginNext s = none) ∧
      (∀ p q n tx, s.pe.control = [] → s.pe.stationHold = false → s.pe.slot s.pe.older = .outstanding p q n true tx →
        beginNext s = some (begun (.slot s.pe.older) (p.parcel q) { s.pe.setSlot s.pe.older
          (.outstanding p q (min 15 (n + 1)) false true) with resends := bump s.pe.resends, ackTimer := none })) ∧
      (∀ p q n tx, s.pe.control = [] → s.pe.stationHold = false → (s.pe.slot s.pe.older).resendDue = false →
        s.pe.slot s.pe.older.other = .outstanding p q n true tx →
        beginNext s = some (begun (.slot s.pe.older.other) (p.parcel q) { s.pe.setSlot s.pe.older.other
          (.outstanding p q (min 15 (n + 1)) false true) with
            resends := bump s.pe.resends
            ackTimer := if (s.pe.slot s.pe.older).isOutstanding then s.pe.ackTimer else none })) ∧
      (∀ i p, s.pe.control = [] → s.pe.stationHold = false → (s.pe.slot .a).resendDue = false →
        (s.pe.slot .b).resendDue = false → s.pe.slot i = .filled p →
        (i = s.pe.older ∨ (s.pe.slot s.pe.older).isFilled = false) → beginNext s = some (begun (.slot i)
          (p.parcel s.pe.nextSeq) { s.pe.setSlot i (.outstanding p s.pe.nextSeq 1 false true) with
            nextSeq := s.pe.nextSeq + 1 }))) ∧
    (s.clu.line = .clearing →
      (s.pe.control = [.clear] → beginNext s = some (begun (.control .clear) Control.clear.parcel { s.pe with control := [] })) ∧
      (s.pe.control ≠ [.clear] → beginNext s = none)) ∧
    (s.clu.line ≠ .ready → s.clu.line ≠ .clearing → beginNext s = none)) ∧
  (∀ s : State, s.clu.txChar.isSome = true ∨ s.pe.tx.isSome = true → beginNext s = none ∧ fillNext s = none) ∧
  ∀ s : State,
    (s.clu.line ≠ .ready ∨ s.pe.stationHold = true → fillNext s = none) ∧
    (s.clu.line = .ready → s.pe.stationHold = false → s.clu.txChar = none → s.pe.tx = none →
      (s.pe.slotA = .free → s.pe.slotB.isLoading = false → fillNext s = fillSlot .a s) ∧
      (s.pe.slotA ≠ .free → s.pe.slotB = .free → s.pe.slotA.isLoading = false → fillNext s = fillSlot .b s) ∧
      (s.pe.slotA ≠ .free → s.pe.slotB ≠ .free → fillNext s = none) ∧
      (s.pe.slotA.isLoading = true ∨ s.pe.slotB.isLoading = true → fillNext s = none)) ∧
    ∀ i : SlotId,
      let first : Pe := { s.pe with
        older := if (s.pe.slot i.other).isFilled || (s.pe.slot i.other).isOutstanding then i.other else i }
      (∀ k r, s.pe.reports[k]? = some r → r.filled < max 1 ((r.body.length + 47) / 48) →
        (∀ j q, j < k → s.pe.reports[j]? = some q → max 1 ((q.body.length + 47) / 48) ≤ q.filled) →
        fillSlot i s = some { s with pe := { first.setSlot i (.filled ⟨true, r.tag, r.filled,
            r.filled + 1 == max 1 ((r.body.length + 47) / 48), min 48 (r.body.length - 48 * r.filled),
            (r.body.drop (48 * r.filled)).take 48⟩) with
          reports := s.pe.reports.set k { r with filled := r.filled + 1 } } }) ∧
      ((∀ r ∈ s.pe.reports, max 1 ((r.body.length + 47) / 48) ≤ r.filled) →
        (s.pe.source = none → fillSlot i s = none) ∧
        (∀ z, s.pe.source = some z → max 1 ((z.length + 47) / 48) ≤ z.filled → fillSlot i s = none) ∧
        (∀ z, s.pe.source = some z → z.filled < max 1 ((z.length + 47) / 48) →
          let p : SlotParcel := ⟨false, z.serial, z.filled, z.filled + 1 == max 1 ((z.length + 47) / 48),
            min 48 (z.length - 48 * z.filled), []⟩
          fillSlot i s = some { s with pe := { first.setSlot i (
              if p.length = 0 then .filled p else .loading p ((z.start + 48 * z.filled) % s.spoolSize)) with
            source := some { z with filled := z.filled + 1 } } })) ∧
      (∀ p o data, s.pe.slot i = .loading p o → deliver (.slotBody i) data s = { s with pe := s.pe.setSlot i (
        if p.length ≤ (p.body ++ data).length then .filled { p with body := p.body ++ data }
        else .loading { p with body := p.body ++ data } o) })

/-- A bit is read as mark where the high band's mark tone is the stronger, and as space otherwise: what each makes of the start
bit, the data bits, the stop bit, and the mark awaited after a framing error. A character is read to its stop bit, from a receiver
that is in no character (log entry 31): the receiver then hunts, or waits for mark after a framing error. Outside READY the
character is discarded. In READY a framing error is counted; hunting, a mark begins a parcel and anything else is dropped; in a
parcel a mark cuts it off and begins another; an escape mark makes the next character stand for F5h (75h), for F6h (76h), or for
itself in a parcel marked bad; each byte so taken ends the header after 7, the body after its length and the check after 2, a
length over 48 being LONG; after its check any character but a mark shows the parcel LONG, and a mark closes it and begins
another. That the NAK record and its timer are set where a full control queue drops the NAK (log entry 34), and that eight
advances of the expected sequence leave a NAK forbidden (log entry 35), are the model's choices (Pe.nakked). -/
def Obligations.CharacterReceived : Prop :=
  (∀ (mark space : Nat) (bits : List Bool) (c : Byte),
    let b : Bool := decide (space < mark)
    Receiver.hunting.hear .fall = (.start, none) ∧
    Receiver.start.hear (.level mark space) = (if b = true then .hunting else .data [], none) ∧
    (bits.length < 7 → (Receiver.data bits).hear (.level mark space) = (.data (bits ++ [b]), none)) ∧
    (bits.length = 7 → ∃ x, (Receiver.data bits).hear (.level mark space) = (.stop x, none) ∧
      ∀ i, i < 8 → x.getLsbD i = (bits ++ [b]).getD i false) ∧
    (Receiver.stop c).hear (.level mark space) = (if b = true then (.hunting, some (c, false)) else (.awaitMark, some (c, true))) ∧
    Receiver.awaitMark.hear (.level mark space) = (if b = true then .hunting else .awaitMark, none)) ∧
  ∀ (s : State) (c : Byte) (flagged : Bool), s.pm.power.awake = true → s.clu.receiver.rests = true →
    let heard : Clu := { s.clu with receiver := if flagged = true then .awaitMark else .hunting }
    let u : State := { s with
      clu := { heard with framingErrors := if flagged = true then bump s.clu.framingErrors else s.clu.framingErrors } }
    let a := s.pe.asm
    let put := fun (b : Assembler) => Host.Outcome.next (finish { u with pe := { s.pe with asm := b } })
    let bad := fun (b : Assembler) =>
      Host.Outcome.next (finish { u with pe := { s.pe with asm := b, bad := bump s.pe.bad }.nakked s.work.ack })
    let r : Out := exec (.characterReceived c flagged) s
    (s.clu.line ≠ .ready → r = .next (finish { s with clu := heard })) ∧
    (s.clu.line = .ready → flagged = false → c = 0xF5 →
      (a.state = .hunting → r = put { huntingAsm with state := .header }) ∧
      (a.state = .header ∨ a.state = .body ∨ a.state = .check → r = bad { huntingAsm with state := .header }) ∧
      (a.state = .closeWait → a.judge.1 ≠ .good → r = bad { huntingAsm with state := .header }) ∧
      (∀ p, a.state = .closeWait → a.judge = (.good, some p) →
        r = p.received { u with pe := { s.pe with asm := { huntingAsm with state := .header } } })) ∧
    (s.clu.line = .ready → flagged = true ∨ c ≠ 0xF5 →
      (a.state = .hunting → r = put a) ∧
      (a.state = .closeWait → r = bad huntingAsm) ∧
      (a.state = .header ∨ a.state = .body ∨ a.state = .check →
        (a.escape = false → flagged = false → c = 0xF6 → r = put { a with escape := true }) ∧
        (a.escape = true ∨ flagged = true ∨ c ≠ 0xF6 →
          let b : Byte := if a.escape = true ∧ c = 0x75 then 0xF5 else if a.escape = true ∧ c = 0x76 then 0xF6 else c
          let n : Assembler := { a with
            bytes := a.bytes ++ [b], framing := a.framing || flagged, escape := false
            badEscape := a.badEscape || (a.escape && c != 0x75 && c != 0x76) }
          let size := n.bytes.length
          let length := byteAt n.bytes 6
          (a.state = .header → size < 7 → r = put n) ∧
          (a.state = .header → 7 ≤ size → 48 < length → r = bad huntingAsm) ∧
          (a.state = .header → 7 ≤ size → length = 0 → r = put { n with state := .check }) ∧
          (a.state = .header → 7 ≤ size → 1 ≤ length → length ≤ 48 → r = put { n with state := .body }) ∧
          (a.state = .body → size < 7 + length → r = put n) ∧
          (a.state = .body → 7 + length ≤ size → r = put { n with state := .check }) ∧
          (a.state = .check → size < 9 + length → r = put n) ∧
          (a.state = .check → 9 + length ≤ size → r = put { n with state := .closeWait, closeTimer := true }))))

/-- The close timer's expiry judges the parcel: one judged otherwise than GOOD is counted and a NAK asked for; a GOOD one has
exactly the effect of the command that names its kind and fields. The judgment takes, in this order: a framing mark, FRAMING; a bad
escape, a check that is not that of the header and the body, a kind that is none, or a field out of range, BAD CHECK; and GOOD
otherwise, with the fields as the header gives them. The check goes bit by bit through the bytes. That the NAK record and its timer
are set where a full control queue drops the NAK (log entry 34), and that eight advances of the expected sequence leave a NAK
forbidden (log entry 35), are the model's choices (Pe.nakked). -/
def Obligations.CloseTimerExpires : Prop :=
  (∀ s : State, s.receiving = true → s.pe.asm.state = .closeWait → s.pe.asm.closeTimer = true →
    (s.pe.asm.judge.1 ≠ .good → exec .closeTimerExpiry s =
      .next (finish { s with pe := { s.pe with asm := huntingAsm, bad := bump s.pe.bad }.nakked s.work.ack })) ∧
    (∀ p, s.pe.asm.judge = (.good, some p) →
      exec .closeTimerExpiry s = p.received { s with pe := { s.pe with asm := huntingAsm } })) ∧
  (∀ a : Assembler,
    let l := a.bytes
    let n := byteAt l 6
    let clean := a.badEscape = false ∧ checkBytes (l.take (7 + n)) = (l.drop (7 + n)).take 2
    (a.framing = true → a.judge = (.framing, none)) ∧
    (a.framing = false → ¬ clean → a.judge = (.badCheck, none)) ∧
    (a.framing = false → clean → (∀ k, l.getD 0 0 ≠ ParcelKind.code k) → a.judge = (.badCheck, none)) ∧
    (∀ k, a.framing = false → clean → l.getD 0 0 = ParcelKind.code k →
      let p : Parcel := ⟨k, l.getD 1 0, BitVec.ofNat 16 (wordAt l 2), l.getD 4 0, (l.getD 5 0).getLsbD 0, (l.drop 7).take n⟩
      let inRange := k ≠ .report ∧ p.seq.toNat ≤ 7 ∧ (k = .text → p.body.length ≤ 48) ∧
        (k = .reject → 1 ≤ p.index.toNat ∧ p.index.toNat ≤ 99 ∧ p.body.length ≤ 24) ∧ (k ≠ .text → k ≠ .reject → p.body = [])
      (inRange → a.judge = (.good, some p)) ∧ (¬ inRange → a.judge = (.badCheck, none)))) ∧
  ∀ (l : Text) (b : Byte),
    check [] = 0xFFFF#16 ∧ checkBytes l = [(check l >>> 8).setWidth 8, (check l).setWidth 8] ∧
    check (l ++ [b]) = [7, 6, 5, 4, 3, 2, 1, 0].foldl (fun (r : BitVec 16) i =>
      if r.msb = b.getLsbD i then r <<< 1 else (r <<< 1) ^^^ 0x1021#16) (check l)

/-- What the control queue makes of a parcel: an ACK takes a queued ACK's place and a NAK a NAK's; else it joins fewer than 4; a
HOLD or RESUME takes the place of the oldest ACK, NAK or reminder of a full queue, and any other is dropped. A TEXT parcel from
the station: accepted, refused, a duplicate, out of sequence, or not in range. What Pe.nakked leaves where a full control queue
drops the NAK (log entry 34), and after eight advances of the expected sequence (log entry 35), is the model's choice. -/
def Obligations.ReceiveText : Prop :=
  (∀ (p : Pe) (c : Control),
    let same := fun d : Control => (∃ a b, c = .ack a ∧ d = .ack b) ∨ ∃ a b, c = .nak a ∧ d = .nak b
    let minor := fun d : Control => (∃ a, d = .ack a) ∨ (∃ a, d = .nak a) ∨ d = .reminder
    (∀ before d after, p.control = before ++ d :: after → same d → (∀ x ∈ before, ¬ same x) →
      p.queue c = { p with control := before ++ c :: after }) ∧
    ((∀ d ∈ p.control, ¬ same d) →
      (p.control.length < 4 → p.queue c = { p with control := p.control ++ [c] }) ∧
      (4 ≤ p.control.length → c = .hold ∨ c = .resume →
        (∀ before d after, p.control = before ++ d :: after → minor d → (∀ x ∈ before, ¬ minor x) →
          p.queue c = { p with control := before ++ c :: after }) ∧
        ((∀ d ∈ p.control, ¬ minor d) → p.queue c = p)) ∧
      (4 ≤ p.control.length → c ≠ .hold → c ≠ .resume → p.queue c = p))) ∧
  ∀ (s : State) (seq : Byte) (body : Text), s.receiving = true →
    let q : BitVec 3 := seq.setWidth 3
    let p : Pe := { s.pe with good := bump s.pe.good }
    (seq.toNat ≤ 7 → body.length ≤ 48 →
      (q = s.pe.expected → s.du.input.length + body.length ≤ 64 → exec (.receiveText seq body) s = .next (finish { s with
        pe := { p with control := (p.queue (.ack q)).control, expected := s.pe.expected + 1 }
        du := { s.du with input := s.du.input ++ body } })) ∧
      (q = s.pe.expected → 64 < s.du.input.length + body.length → exec (.receiveText seq body) s = .next (finish { s with
        pe := if s.pe.held = true ∧ s.pe.reminderTimer = none
          then { p with refused := bump s.pe.refused, control := (p.queue .reminder).control, reminderTimer := some s.work.ack }
          else { p with refused := bump s.pe.refused } })) ∧
      (q + 1 = s.pe.expected → exec (.receiveText seq body) s = .next (finish { s with
        pe := { p with control := (p.queue (.ack q)).control, duplicates := bump s.pe.duplicates } })) ∧
      (q ≠ s.pe.expected → q + 1 ≠ s.pe.expected → exec (.receiveText seq body) s =
        .next (finish { s with pe := p.nakked s.work.ack }))) ∧
    (7 < seq.toNat ∨ 48 < body.length → exec (.receiveText seq body) s =
      .next (finish { s with pe := { s.pe with bad := bump s.pe.bad }.nakked s.work.ack }))

/-- An ACK from the station that names the oldest OUTSTANDING parcel frees its slot, or marks it to be freed when its transmission
ends (log entry 13); one that names the younger does so with both; one that names no OUTSTANDING parcel is stray. Which slot is the
oldest OUTSTANDING, and what the acknowledgment of a LAST parcel passes on, the older parcel's first. -/
def Obligations.ReceiveAck : Prop :=
  (∀ p : Pe,
    ((p.slot p.older).isOutstanding = true → p.oldest = some p.older) ∧
    ((p.slot p.older).isOutstanding = false → (p.slot p.older.other).isOutstanding = true → p.oldest = some p.older.other) ∧
    ((p.slot p.older).isOutstanding = false → (p.slot p.older.other).isOutstanding = false → p.oldest = none)) ∧
  (∀ (p : SlotParcel) (s : State),
    (p.last = false → passOn p s = s) ∧
    (p.last = true → p.report = true →
      (∀ before r after, s.pe.reports = before ++ r :: after → r.tag = p.serial → (∀ x ∈ before, x.tag ≠ p.serial) →
        passOn p s = { s with pe := { s.pe with reports := before ++ after } }) ∧
      ((∀ x ∈ s.pe.reports, x.tag ≠ p.serial) → passOn p s = s)) ∧
    (p.last = true → p.report = false → passOn p s = lastAck p.serial s)) ∧
  ∀ (s : State) (seq : Byte), s.receiving = true → seq.toNat ≤ 7 →
    let q : BitVec 3 := seq.setWidth 3
    ((s.pe.slot .a).seq ≠ some q → (s.pe.slot .b).seq ≠ some q → exec (.receiveAck seq) s =
      .next (finish { s with pe := { s.pe with good := bump s.pe.good, stray := bump s.pe.stray } })) ∧
    (∀ i p n due tx, s.pe.oldest = some i → s.pe.slot i = .outstanding p q n due tx →
      exec (.receiveAck seq) s = .next (finish (passOn p { s with
        pe := { s.pe.setSlot i (if tx = true then .ending else .free) with
          good := bump s.pe.good, ackTimer := (s.pe.slot i.other).timer s.work.ack } }))) ∧
    (∀ i p r n due tx p' n' due' tx', s.pe.oldest = some i → s.pe.slot i = .outstanding p r n due tx → r ≠ q →
      s.pe.slot i.other = .outstanding p' q n' due' tx' →
      exec (.receiveAck seq) s = .next (finish (passOn p' (passOn p { s with
        pe := { (s.pe.setSlot i (if tx = true then .ending else .free)).setSlot i.other (if tx' = true then .ending else .free) with
          good := bump s.pe.good, ackTimer := none } }))))

/-- The acknowledgment of the LAST parcel of the SENDING entry moves the entry to AWAITING with its accept timer started; of an
entry in another state it sets SENT-ONCE; of a serial no entry holds it changes no entry; that of the LAST parcel of the report
queue's report takes the report out of the queue. What the send slot becomes of a parcel in transmission is in ReceiveAck. -/
def Obligations.LastParcelAcknowledged : Prop :=
  ∀ (s : State) (seq : Byte) (i : SlotId) (p : SlotParcel) (n : Nat) (due tx : Bool), s.receiving = true → seq.toNat ≤ 7 →
    s.pe.oldest = some i → s.pe.slot i = .outstanding p (seq.setWidth 3) n due tx → p.last = true → ∃ pe : Pe,
    (tx = false → pe = { s.pe.setSlot i .free with
      good := bump s.pe.good, ackTimer := (s.pe.slot i.other).timer s.work.ack }) ∧
    pe.reports = s.pe.reports ∧
    (∀ m, p.report = false → s.spu.securing = false → s.spu.slotOf p.serial = some m → (s.spu.entry m).state = .sending →
      exec (.receiveAck seq) s = .next (finish { s with
        pe := pe
        spu := (s.spu.setEntry m { s.spu.entry m with
          state := .awaiting, sentOnce := true, acceptTimer := some s.work.accept }).dueItem (.record m) })) ∧
    (∀ m, p.report = false → s.spu.securing = false → s.spu.slotOf p.serial = some m → (s.spu.entry m).state ≠ .sending →
      exec (.receiveAck seq) s = .next (finish { s with
        pe := pe
        spu := if (s.spu.entry m).sentOnce = true then s.spu
          else (s.spu.setEntry m { s.spu.entry m with sentOnce := true }).dueItem (.record m) })) ∧
    (p.report = false → s.spu.slotOf p.serial = none → exec (.receiveAck seq) s = .next (finish { s with pe := pe })) ∧
    (∀ r rest, p.report = true → s.pe.reports = r :: rest → r.tag = p.serial → exec (.receiveAck seq) s =
      .next (finish { s with pe := { pe with reports := rest } }))

/-- A NAK from the station that names the oldest OUTSTANDING parcel makes it resend-due, and the younger one too, unless one is in
transmission; one that names the younger acknowledges the oldest and makes the younger resend-due; one that names the next
sequence acknowledges all that are OUTSTANDING; one that names neither an OUTSTANDING parcel nor the next sequence is stray. What an
acknowledgment passes on is in ReceiveAck. A slot acknowledged in transmission ends with it (log entry 13). -/
def Obligations.ReceiveNak : Prop :=
  ∀ (s : State) (seq : Byte), s.receiving = true → seq.toNat ≤ 7 →
    let q : BitVec 3 := seq.setWidth 3
    ((s.pe.slot .a).seq ≠ some q → (s.pe.slot .b).seq ≠ some q → q ≠ s.pe.nextSeq → exec (.receiveNak seq) s =
      .next (finish { s with pe := { s.pe with good := bump s.pe.good, stray := bump s.pe.stray } })) ∧
    (∀ i p n due tx, s.pe.oldest = some i → s.pe.slot i = .outstanding p q n due tx →
      exec (.receiveNak seq) s = .next (finish { s with pe := { s.pe with
        slotA := s.pe.slotA.markResend, slotB := s.pe.slotB.markResend, good := bump s.pe.good, ackTimer := none } })) ∧
    ((s.pe.slot .a).isOutstanding = false → (s.pe.slot .b).isOutstanding = false → q = s.pe.nextSeq →
      exec (.receiveNak seq) s = .next (finish { s with pe := { s.pe with good := bump s.pe.good, ackTimer := none } })) ∧
    (∀ i p r n due tx p' n' due' tx', s.pe.oldest = some i → s.pe.slot i = .outstanding p r n due tx → r ≠ q →
      s.pe.slot i.other = .outstanding p' q n' due' tx' → exec (.receiveNak seq) s = .next (finish (passOn p { s with
        pe := { (s.pe.setSlot i (if tx = true then .ending else .free)).setSlot i.other
            (.outstanding p' q n' (due' || !tx') tx') with good := bump s.pe.good, ackTimer := none } }))) ∧
    (∀ i p r n due tx, s.pe.oldest = some i → s.pe.slot i = .outstanding p r n due tx → r ≠ q → q = s.pe.nextSeq →
      ((s.pe.slot i.other).isOutstanding = false → exec (.receiveNak seq) s = .next (finish (passOn p { s with
        pe := { s.pe.setSlot i (if tx = true then .ending else .free) with good := bump s.pe.good, ackTimer := none } }))) ∧
      (∀ p' r' n' due' tx', s.pe.slot i.other = .outstanding p' r' n' due' tx' → r' ≠ q →
        exec (.receiveNak seq) s = .next (finish (passOn p' (passOn p { s with
          pe := { (s.pe.setSlot i (if tx = true then .ending else .free)).setSlot i.other
              (if tx' = true then .ending else .free) with good := bump s.pe.good, ackTimer := none } }))))) ∧
    (∀ p r n due tx, (SendSlot.outstanding p r n due tx).markResend = .outstanding p r n (due || !tx) tx) ∧
    (∀ v : SendSlot, v.isOutstanding = false → v.markResend = v)

/-- The station's HOLD and RESUME, and the expiry of the hold they set. -/
def Obligations.StationHold : Prop :=
  ∀ (s : State) (d : BitVec 16), s.receiving = true →
    exec (.receiveHold d) s = .next (finish { s with pe := { s.pe with
      good := bump s.pe.good, stationHold := true, holdTimer := if d = 0 then none else some d.toNat } }) ∧
    exec .receiveResume s =
      .next (finish { s with pe := { s.pe with good := bump s.pe.good, stationHold := false, holdTimer := none } }) ∧
    (s.pe.holdTimer.isSome = true → exec .stationHoldExpiry s =
      .next (finish { s with pe := { s.pe with stationHold := false, holdTimer := none } }))

/-- The ACK timer's expiry below the attempt limit makes the OUTSTANDING parcels resend-due but one in transmission; at the limit it
ends the session with LINK FAILURE. It stands still under a station hold: its expiry is then without effect (log entry 6). -/
def Obligations.AckTimerExpires : Prop :=
  ∀ (s : State) (i : SlotId) (p : SlotParcel) (q : BitVec 3) (n : Nat) (due tx : Bool), s.receiving = true →
    s.pe.ackTimer.isSome = true → s.pe.oldest = some i → s.pe.slot i = .outstanding p q n due tx →
    (s.pe.stationHold = true → exec .ackTimerExpiry s = .next s) ∧
    (s.pe.stationHold = false → n < s.work.attemptLimit → exec .ackTimerExpiry s =
      .next (finish { s with pe := { s.pe with
        ackTimer := none, slotA := s.pe.slotA.markResend, slotB := s.pe.slotB.markResend } })) ∧
    (s.pe.stationHold = false → s.work.attemptLimit ≤ n → ∃ e, exec .ackTimerExpiry s = .next (finish e) ∧
      e.clu = { s.clu.still with
        line := .clearing, clearingTimer := true, clearingCause := some .linkFailure, lastEnd := .clear .linkFailure } ∧
      SessionEnded (.clear .linkFailure) [.clear] s e)

/-- The station's verdict on an entry that awaits it, or was sent once and is CLOSED: SENT or REJECTED, its record due, and the
notice; one that is SENDING also leaves the Parcel Engine: the slots LOADING or FILLED with a parcel of it become FREE, the
waiting burst of a LOADING one is withdrawn, and its OUTSTANDING parcels stay; a verdict on a serial no entry has, or on an entry
in any other state, is stray. -/
def Obligations.Verdicts : Prop :=
  ∀ (s : State) (serial : BitVec 16) (code : Byte) (reason : Text), s.receiving = true → s.spu.securing = false →
    1 ≤ code.toNat → code.toNat ≤ 99 → reason.length ≤ 24 →
    let g : State := { s with pe := { s.pe with good := bump s.pe.good } }
    (s.spu.slotOf serial.toNat = none →
      exec (.receiveAccept serial) s = .next (finish { g with spu := { s.spu with stray := bump s.spu.stray } }) ∧
      exec (.receiveReject serial code reason) s = .next (finish { g with spu := { s.spu with stray := bump s.spu.stray } })) ∧
    (∀ n, s.spu.slotOf serial.toNat = some n →
      (s.spu.entry n).state = .awaiting ∨ (s.spu.entry n).state = .closed ∧ (s.spu.entry n).sentOnce = true →
      exec (.receiveAccept serial) s = .next (finish { g with
        spu := (s.spu.setEntry n { s.spu.entry n with state := .sent, acceptTimer := none }).dueItem (.record n)
        pqu := if s.work.acceptNotices
          then s.pqu.raise (spaced [ascii "ENTRY", decText serial.toNat, ascii "ACCEPTED"]) else s.pqu }) ∧
      exec (.receiveReject serial code reason) s = .next (finish { g with
        spu := (s.spu.setEntry n { s.spu.entry n with
          state := .rejected, acceptTimer := none, reason := code.toNat, reasonText := reason }).dueItem (.record n)
        pqu := s.pqu.raise (spaced [ascii "ENTRY", decText serial.toNat, ascii "REJECTED", decText code.toNat, reason]) })) ∧
    (∀ n, s.spu.slotOf serial.toNat = some n → (s.spu.entry n).state = .sending →
      ∃ e, exec (.receiveAccept serial) s = .next (finish e) ∧ SourceDropped serial.toNat { g with
        spu := (s.spu.setEntry n { s.spu.entry n with state := .sent, acceptTimer := none }).dueItem (.record n)
        pqu := if s.work.acceptNotices
          then s.pqu.raise (spaced [ascii "ENTRY", decText serial.toNat, ascii "ACCEPTED"]) else s.pqu } e) ∧
    (∀ n, s.spu.slotOf serial.toNat = some n → (s.spu.entry n).state = .sending →
      ∃ e, exec (.receiveReject serial code reason) s = .next (finish e) ∧ SourceDropped serial.toNat { g with
        spu := (s.spu.setEntry n { s.spu.entry n with
          state := .rejected, acceptTimer := none, reason := code.toNat, reasonText := reason }).dueItem (.record n)
        pqu := s.pqu.raise (spaced [ascii "ENTRY", decText serial.toNat, ascii "REJECTED", decText code.toNat, reason]) } e) ∧
    (∀ n, s.spu.slotOf serial.toNat = some n →
      (s.spu.entry n).state = .opened ∨ (s.spu.entry n).state = .sent ∨ (s.spu.entry n).state = .rejected ∨
        (s.spu.entry n).state = .damaged ∨ (s.spu.entry n).state = .void ∨
        (s.spu.entry n).state = .closed ∧ (s.spu.entry n).sentOnce = false →
      exec (.receiveAccept serial) s = .next (finish { g with spu := { s.spu with stray := bump s.spu.stray } }) ∧
      exec (.receiveReject serial code reason) s = .next (finish { g with spu := { s.spu with stray := bump s.spu.stray } }))

/-! ## Key sensing -/

/-- The class of a reading, and a reading applied to a pad record outside and in FAULT: debounce, press, release, held time,
drift, the stuck test, the fault run, and recovery; and what a calibration gathers of a pad's readings and makes of its record. -/
def Obligations.PadReadings : Prop :=
  ∀ (p : Pad) (count offset press release stuck : Nat),
    let c := classify p.baseline offset count
    let q : Pad := { p with last := count, faultRun := 0 }
    let h : Pad := { q with heldTime := min 4095 (p.heldTime + 1) }
    let stays := h.heldTime * 16 ≤ stuck * 1000
    let freed : Pad := { q with
      state := .up, baseline := count, debounce := 0, drift := 0, heldTime := 0, stuck := bump p.stuck }
    (count = 4095 ∨ count < 16 → c = .faulty) ∧
    (16 ≤ count → count ≠ 4095 → p.baseline + offset ≤ count → c = .touch) ∧
    (16 ≤ count → count ≠ 4095 → count < p.baseline + offset / 2 → c = .clear) ∧
    (16 ≤ count → count ≠ 4095 → p.baseline + offset / 2 ≤ count → count < p.baseline + offset → c = .neither) ∧
    (p.state = .up → c = .touch → 1 < press →
      p.apply count offset press release stuck = ({ q with state := .pressing, debounce := 1, drift := 0 }, .none)) ∧
    (p.state = .pressing → c = .touch → p.debounce + 1 < press →
      p.apply count offset press release stuck = ({ q with debounce := p.debounce + 1 }, .none)) ∧
    (p.state = .pressing → c = .touch → press ≤ p.debounce + 1 →
      p.apply count offset press release stuck = ({ q with state := .down, debounce := 0, heldTime := 0 }, .press)) ∧
    (p.state = .pressing → c = .clear →
      p.apply count offset press release stuck = ({ q with state := .up, debounce := 0, drift := 0 }, .none)) ∧
    (p.state = .pressing → c = .neither → p.apply count offset press release stuck = (q, .none)) ∧
    (p.state = .releasing → c = .clear → release ≤ p.debounce + 1 →
      p.apply count offset press release stuck =
        ({ q with state := .up, debounce := 0, drift := 0, heldTime := 0 }, .release)) ∧
    (p.state = .up ∨ p.state = .pressing → c = .faulty → p.faultRun < 3 →
      p.apply count offset press release stuck = ({ q with faultRun := p.faultRun + 1, drift := 0 }, .none)) ∧
    (p.state ≠ .fault → c = .faulty → 3 ≤ p.faultRun →
      p.apply count offset press release stuck =
        ({ q with state := .fault, debounce := 0, drift := 0, heldTime := 0 }, .fault p.state.held)) ∧
    (p.state = .fault → c = .faulty → p.apply count offset press release stuck = (q, .none)) ∧
    (p.state = .fault → c ≠ .faulty → p.faultRun < 15 →
      p.apply count offset press release stuck = ({ q with faultRun := p.faultRun + 1 }, .none)) ∧
    (p.state = .fault → c ≠ .faulty → 15 ≤ p.faultRun →
      p.apply count offset press release stuck =
        ({ q with state := .up, baseline := count, debounce := 0, drift := 0, heldTime := 0 }, .none)) ∧
    (p.state = .up → c = .touch → press ≤ 1 → p.apply count offset press release stuck =
      ({ q with state := .down, debounce := 0, drift := 0, heldTime := 0 }, .press)) ∧
    (p.state = .up → c = .clear ∨ c = .neither → p.apply count offset press release stuck =
      (if p.drift + 1 < 16 then { q with drift := p.drift + 1 }
        else { q with drift := 0, baseline :=
          if p.baseline < count then p.baseline + 1 else if count < p.baseline then p.baseline - 1 else p.baseline }, .none)) ∧
    (p.state = .down → c = .clear → release ≤ 1 → p.apply count offset press release stuck =
      ({ q with state := .up, debounce := 0, drift := 0, heldTime := 0 }, .release)) ∧
    (p.state = .down → c = .clear → 1 < release → p.apply count offset press release stuck =
      if stays then ({ h with state := .releasing, debounce := 1 }, .none) else (freed, .release)) ∧
    (p.state = .down → c = .touch ∨ c = .neither → p.apply count offset press release stuck =
      if stays then (h, .none) else (freed, .release)) ∧
    (p.state = .releasing → c = .clear → p.debounce + 1 < release → p.apply count offset press release stuck =
      if stays then ({ h with debounce := p.debounce + 1 }, .none) else (freed, .release)) ∧
    (p.state = .releasing → c = .touch → p.apply count offset press release stuck =
      if stays then ({ h with state := .down, debounce := 0 }, .none) else (freed, .release)) ∧
    (p.state = .releasing → c = .neither → p.apply count offset press release stuck =
      if stays then (h, .none) else (freed, .release)) ∧
    (p.state = .down ∨ p.state = .releasing → c = .faulty → p.faultRun < 3 → p.apply count offset press release stuck =
      if stays then ({ h with faultRun := p.faultRun + 1, drift := 0 }, .none)
      else ({ freed with faultRun := p.faultRun + 1 }, .release)) ∧
    (∀ (g : PadCal) (r : Reading),
      (r.doubtful = true ∨ 8 ≤ g.readings → g.gather r = g) ∧
      (r.doubtful = false → g.readings < 8 → g.gather r =
        if r.count = 4095 ∨ r.count < 16 then
          { g with readings := g.readings + 1, faults := g.faults + 1, last := r.count }
        else { g with readings := g.readings + 1, good := g.good + 1, sum := g.sum + r.count, last := r.count }) ∧
      p.calibrated g = { p with
        state := if 4 ≤ g.faults then .fault else .up
        baseline := if g.good = 0 then p.baseline else g.sum / g.good
        last := g.last, debounce := 0, drift := 0, faultRun := 0, heldTime := 0 })

/-- A scan starts, its measurements gather, and after the sixth the pad records take their readings that are not doubtful: each
pad that enters FAULT is counted and noticed, the releases are handed on, then the presses, then the repeats of the pads read,
each in ascending pad number. In a calibration each pad's record is set from what it has gathered once it has gathered 8, a pad
that so enters FAULT is counted and noticed, no event is handed on, and the calibration ends with the last pad's. The ascending
order of the notices is the model's choice (log entry 43). -/
def Obligations.Scanning : Prop :=
  ∀ s : State, s.pm.power.awake = true → s.ksu.ganged = false →
    (s.ksu.scan = none → exec .scanStart s =
      .next (finish { s with ksu := { s.ksu with scan := some ⟨[], s.hdu.energised != []⟩ } })) ∧
    (∀ sc counts, s.ksu.scan = some sc → counts.length = 8 → sc.readings.length < 40 → exec (.measurementEnd counts) s =
      .next (finish { s with ksu := { s.ksu with
        scan := some ⟨sc.readings ++ counts.map (fun n => ⟨n.toNat, sc.disturbed⟩), s.hdu.energised != []⟩ } })) ∧
    (∀ sc counts, s.ksu.scan = some sc → counts.length = 8 → sc.readings.length = 40 → s.ksu.calibrating = false →
      ∃ e, exec (.measurementEnd counts) s = .next (finish e) ∧ e.ksu.scan = none ∧ e.outside = s.outside ∧
        e.ksu.pads =
          (applyScan s.work s.ksu.pads (sc.readings ++ counts.map (fun n => ⟨n.toNat, sc.disturbed⟩))).map Prod.fst) ∧
    (∀ sc counts, s.ksu.scan = some sc → counts.length = 8 → sc.readings.length = 40 → s.ksu.calibrating = false →
      let rs := sc.readings ++ counts.map (fun n => ⟨n.toNat, sc.disturbed⟩)
      let l := applyScan s.work s.ksu.pads rs
      let having := fun es : List PadEvent => (List.range' 1 48).filter fun n => (l[n - 1]?).any fun p => es.contains p.2
      let faulted := having [.fault false, .fault true]
      let released := having [.release, .fault true]
      let pressed := having [.press]
      let read := (List.range' 1 48).filter fun n => (rs[n - 1]?).any fun r => !r.doubtful
      let t : State := { s with
        ksu := { s.ksu with scan := none, pads := l.map Prod.fst, padFaults := faulted.foldl (fun c _ => bump c) s.ksu.padFaults }
        pqu := faulted.foldl (fun p n => p.raise (spaced [ascii "PAD", twoDigits n, ascii "FAULT"])) s.pqu
        pm := if released = [] ∧ pressed = [] then s.pm else { s.pm with dozeHeld := false } }
      exec (.measurementEnd counts) s = .next (finish (read.foldl (fun t n => repeatKey n t)
        (pressed.foldl (fun t n => pressEvent n t) (released.foldl (fun t n => releaseEvent n t) t)))) ∧
      ∀ (i : Nat) (p : Pad) (r : Reading), s.ksu.pads[i]? = some p → rs[i]? = some r → l[i]? = some (
        if r.doubtful = true then (p, .none)
        else p.apply r.count (s.work.offsets.getD i 40) s.work.pressDebounce s.work.releaseDebounce s.work.stuck)) ∧
    (∀ sc counts, s.ksu.scan = some sc → counts.length = 8 → sc.readings.length = 40 → s.ksu.calibrating = true →
      s.ksu.pads.length = 48 → s.ksu.cal.length = 48 →
      let rs := sc.readings ++ counts.map (fun n => ⟨n.toNat, sc.disturbed⟩)
      ∃ e, exec (.measurementEnd counts) s = .next (finish e) ∧ e.ksu.scan = none ∧
        (∀ i < 48, ∀ g p r, s.ksu.cal[i]? = some g → s.ksu.pads[i]? = some p → rs[i]? = some r →
          e.ksu.cal[i]? = some (g.gather r) ∧
          e.ksu.pads[i]? = some (
            if g.readings < 8 ∧ (g.gather r).readings = 8 then p.calibrated (g.gather r) else p)) ∧
        e.ksu.calibrating = !(e.ksu.cal.all fun g => g.readings == 8) ∧
        let failed := (List.range' 1 48).filter fun n => (s.ksu.cal[n - 1]?).any fun g => (rs[n - 1]?).any fun r =>
          decide (g.readings < 8 ∧ (g.gather r).readings = 8 ∧ 4 ≤ (g.gather r).faults)
        e = { s with
          ksu := { s.ksu with
            scan := none, pads := e.ksu.pads, cal := e.ksu.cal, calibrating := e.ksu.calibrating
            padFaults := failed.foldl (fun c _ => bump c) s.ksu.padFaults }
          pqu := failed.foldl (fun p n => p.raise (spaced [ascii "PAD", twoDigits n, ascii "FAULT"])) s.pqu })

/-- The combined pad in GANGED scan: what it makes of a count, its baseline from the first 8 good counts, the 8th of which is left
unclassed by the model's choice (log entry 52), and its drift; a TOUCH in DOZE wakes the part, its receiver hunting and the
carrier judged from the energy last told (log entry 42); after a wake touch the first CLEAR, or the wake wait, starts a
calibration in NORMAL scan; any other count is only taken into the combined pad. -/
def Obligations.GangedScan : Prop :=
  (∀ (p : Combined) (n : Nat),
    let faulty := n = 4095 ∨ n < 16
    (p.baseline = none → faulty → p.measure n = (p, .faulty)) ∧
    (p.baseline = none → ¬ faulty → p.measure n = ({ p with
      good := p.good + 1, sum := p.sum + n, last := n
      baseline := if p.good + 1 < 8 then none else some ((p.sum + n) / 8) }, .neither)) ∧
    ∀ b, p.baseline = some b →
      (faulty → p.measure n = ({ p with drift := 0 }, .faulty)) ∧
      (¬ faulty → b + p.offset ≤ n → p.measure n = ({ p with drift := 0, last := n }, .touch)) ∧
      (¬ faulty → n < b + p.offset → p.measure n = ({ p with
        last := n
        drift := if p.drift + 1 < 16 then p.drift + 1 else 0
        baseline := some (if p.drift + 1 < 16 then b else if b < n then b + 1 else if n < b then b - 1 else b) },
        if n < b + p.offset / 2 then .clear else .neither))) ∧
  ∀ (s : State) (count : BitVec 12), s.ksu.ganged = true → s.pm.power ≠ .off →
    let m := s.ksu.combined.measure count.toNat
    let u : State := { s with ksu := { s.ksu with combined := m.1 } }
    (s.pm.power = .doze → m.2 = .touch → ∃ e, exec (.gangedMeasurement count) s = .next (finish e) ∧
      e.pm = { s.pm with power := .run } ∧ e.ksu = { s.ksu with combined := m.1, wakeWait := true } ∧
      e.hdu = { s.hdu with
        paper := s.pins.paperAbsent, lid := s.pins.lidOpen, paperTiming := false, lidTiming := false
        reading := s.pins.thermistor, band := tempBand s.pins.thermistor
        hot := if s.hdu.hot = true then !decide (s.pins.thermistor ≤ 50) else decide (60 ≤ s.pins.thermistor)
        limit := groupLimit s.pm.band s.clu.line.txOn, power := s.pm.band.weak } ∧
      e.clu = { s.clu with receiver := .hunting, carrier := decide (30 * s.work.carrier < s.pins.energy) } ∧
      KcuBecame s.kcu { s with pm := e.pm, ksu := e.ksu, hdu := e.hdu, clu := e.clu } e) ∧
    (s.pm.power = .doze → m.2 ≠ .touch → exec (.gangedMeasurement count) s = .next (finish u)) ∧
    (s.pm.power ≠ .doze → ¬ (s.ksu.wakeWait = true ∧ m.2 = .clear) → exec (.gangedMeasurement count) s = .next (finish u)) ∧
    (s.pm.power ≠ .doze → s.ksu.wakeWait = true → m.2 = .clear → exec (.gangedMeasurement count) s =
      .next (finish { s with ksu := { s.ksu with
        combined := m.1, before := s.ksu.pads, ganged := false, calibrating := true, cal := List.replicate 48 freshCal,
        scan := none, wakeWait := false } })) ∧
    (s.pm.power ≠ .doze → s.ksu.wakeWait = true → exec .wakeWaitExpiry s =
      .next (finish { s with ksu := { s.ksu with
        before := s.ksu.pads, ganged := false, calibrating := true, cal := List.replicate 48 freshCal, scan := none,
        wakeWait := false } }))

/-- A key event from a press or a repeat: LINE goes to the line at once; a CHAR or another ACTION is discarded under the lock, joins
the queue, or overflows it. A press takes the pad's entry in the layer in force and gives the pad its role: MODIFIER, IGNORED,
DELIVERED with a copy of the entry and its key event, or BLOCKED where two pads are DELIVERED. A release makes the role FREE. A
DELIVERED pad whose entry carries the repeat flag, but for LINE, repeats at a held time of 38 scans and at each further 6. -/
def Obligations.KeyEvents : Prop :=
  (∀ (s : State) (rep : Bool), keyEvent (.action .line rep) s = lineAction s) ∧
  (∀ (s : State) (e : KeyEntry) (k : KeyEvent) (rep : Bool),
    (∃ c, e = .char c rep ∧ k = .char c) ∨ (∃ a, a ≠ .line ∧ e = .action a rep ∧ k = .action a) →
    (s.kcu.lock = true → keyEvent e s = s) ∧
    (s.kcu.lock = false → s.kcu.typeahead.length < 16 →
      keyEvent e s = { s with kcu := { s.kcu with typeahead := s.kcu.typeahead ++ [k] } }) ∧
    (s.kcu.lock = false → 16 ≤ s.kcu.typeahead.length → s.pm.power ≠ .doze →
      keyEvent e s = { s with kcu := { s.kcu with overflows := bump s.kcu.overflows, alert := true } })) ∧
  ∀ (s : State) (n : Nat),
    let layer := if .modifier .func ∈ s.kcu.roles then 2 else if .modifier .shift ∈ s.kcu.roles then 1 else 0
    let e := s.kcu.keymap.getD (layer * 48 + n - 1) .none
    let given := fun r : Role => { s with kcu := { s.kcu with roles := s.kcu.roles.set (n - 1) r } }
    let delivered := s.kcu.roles.countP fun r => match r with
      | .delivered _ => true
      | _ => false
    (∀ m, e = .modifier m → pressEvent n s = given (.modifier m)) ∧
    (e = .none → pressEvent n s = given .ignored) ∧
    (e ≠ .none → (∀ m, e ≠ .modifier m) →
      (delivered < 2 → pressEvent n s = keyEvent e (given (.delivered e))) ∧
      (2 ≤ delivered → pressEvent n s = given .blocked)) ∧
    releaseEvent n s = given .free ∧
    (∀ x, s.kcu.roles[n - 1]? = some (.delivered x) →
      let due := ((∃ c, x = .char c true) ∨ ∃ a, a ≠ .line ∧ x = .action a true) ∧
        38 ≤ (s.ksu.pad n).heldTime ∧ ((s.ksu.pad n).heldTime - 38) % 6 = 0
      (due → repeatKey n s = keyEvent x s) ∧ (¬ due → repeatKey n s = s)) ∧
    ((∀ x, s.kcu.roles[n - 1]? ≠ some (.delivered x)) → repeatKey n s = s)

/-! ## Composition -/

/-- When the composer can act on an event: what it would store, which events an echo owed, a flush, a claim, a closing entry, an
SR or a busy LOCAL context holds, an ENTER that acts as CANCEL not by a FEED claim that waits, which is the model's choice (log
entry 29). A CHAR in FREE, FORM and SERVICE, and what a field takes: the value shorter than the width, the kind's characters, and
the entry reserve. The flush wait timer starts where a waiting flush comes to lack room (log entry 24). -/
def Obligations.CharactersComposed : Prop :=
  (∀ (s : State) (e : KeyEvent),
    let k := s.kcu
    canTake e s = true ↔ s.pm.power.awake = true ∧ s.pm.restarting = false ∧ k.staging.length ≠ 8 ∧
      k.staging.length + k.stores e ≤ 8 ∧ k.closing = false ∧ k.claim = none ∧
      (e = .action .rub ∨ e = .action .cancel → k.flush ≠ .running) ∧ (k.echoes e = true → k.echo = none) ∧
      (e = .action .cancel → ∀ q, k.echo = some q → q.stage ≠ .claimed) ∧ (k.opens e = true → s.du.srRunning = false) ∧
      (e = .action .enter → k.state = .service → s.du.keyed.job = none)) ∧
  (∀ (k : Kcu) (c : Byte),
    let n := if 39 ≤ k.line.length then 2 else 1
    let slot := 0x31 ≤ c.toNat ∧ c.toNat ≤ 0x34 ∧ (k.formSlotAt (c.toNat - 0x30)).status = .loaded
    (k.stores (.char c) = match k.state with
      | .idle => 1
      | .free => if k.count + n ≤ 4093 then n else 0
      | .form => if k.formTakes c = true then 1 else 0
      | .formSelect | .service => 0) ∧
    (k.echoes (.char c) = true ↔ k.state = .free ∧ 39 ≤ k.line.length ∧ k.count + 2 ≤ 4093) ∧
    (k.opens (.char c) = true ↔ k.state = .idle ∨ k.state = .formSelect ∧ slot)) ∧
  (∀ k : Kcu,
    let closes := k.state = .form ∧ ∃ n f, k.cursor = .field n ∧ k.image.field n = some f ∧ ¬ (f.required = true ∧ k.value = [])
    let ends := k.state = .free ∧ k.line ≠ []
    let reserve := k.count + 2 ≤ 4093
    (ends → k.stores (.action .enter) = 1) ∧ (closes → k.stores (.action .enter) = 2) ∧
    (¬ ends → ¬ closes → k.stores (.action .enter) = 0) ∧ (k.echoes (.action .enter) = true ↔ ends ∨ closes) ∧
    (closes → reserve → k.stores (.action .tab) = 2) ∧ (¬ (closes ∧ reserve) → k.stores (.action .tab) = 0) ∧
    (k.echoes (.action .tab) = true ↔ closes ∧ reserve) ∧
    (∀ a, k.echoes (.action .feed) = true ∧ (a ≠ .enter → a ≠ .tab → k.stores (.action a) = 0) ∧
      (a ≠ .enter → a ≠ .tab → a ≠ .feed → k.echoes (.action a) = false) ∧
      (k.opens (.action a) = true ↔ a = .note ∧ k.state = .idle))) ∧
  (∀ (v : Text) (c : Byte),
    let digit := 0x30 ≤ c.toNat ∧ c.toNat ≤ 0x39
    (FieldKind.digits.allows v c = true ↔ digit) ∧
    (0x2E ∉ v → (FieldKind.amount.allows v c = true ↔ digit ∨ c = 0x2E)) ∧
    (∀ a b, v = a ++ 0x2E :: b → 0x2E ∉ a → (FieldKind.amount.allows v c = true ↔ digit ∧ b.length < 2)) ∧
    (FieldKind.letters.allows v c = true ↔
      0x41 ≤ c.toNat ∧ c.toNat ≤ 0x5A ∨ 0x61 ≤ c.toNat ∧ c.toNat ≤ 0x7A ∨ c = 0x20) ∧
    (FieldKind.any.allows v c = true ↔ 0x20 ≤ c.toNat ∧ c.toNat ≤ 0x7E ∨ 0x80 ≤ c.toNat ∧ c.toNat ≤ 0xBF)) ∧
  ∀ (s : State) (c : Byte) (rest : List KeyEvent), s.kcu.typeahead = .char c :: rest → canTake (.char c) s = true →
    let k : Kcu := { s.kcu with typeahead := rest }
    ∃ e, exec .keyChar s = .next (finish e) ∧
    (s.kcu.state = .free → s.kcu.line.length < 39 → s.kcu.count + 1 ≤ 4093 → KcuBecame { k with
      staging := s.kcu.staging ++ [c], count := s.kcu.count + 1, line := s.kcu.line ++ [c]
      flushTimer := s.flushTimerAfter 1 } s e) ∧
    (s.kcu.state = .free → 39 ≤ s.kcu.line.length → s.kcu.count + 2 ≤ 4093 → KcuBecame { k with
      staging := s.kcu.staging ++ [c, 0x0A], count := s.kcu.count + 2, line := [], flushTimer := s.flushTimerAfter 2,
      flushOwed := true,
      echo := some ⟨.line (s.kcu.count - s.kcu.line.length) (s.kcu.line.length + 1), s.spu.openNumber, .owed⟩ } s e) ∧
    (s.kcu.state = .free → 4093 < s.kcu.count + (if 39 ≤ s.kcu.line.length then 2 else 1) → KcuBecame k.refused s e) ∧
    (s.kcu.state = .form → s.kcu.formTakes c = true → KcuBecame { k with
      staging := s.kcu.staging ++ [c], count := s.kcu.count + 1, value := s.kcu.value ++ [c]
      flushTimer := s.flushTimerAfter 1 } s e) ∧
    (s.kcu.state = .form → s.kcu.formTakes c = false → KcuBecame k.refused s e) ∧
    (s.kcu.state = .service → s.kcu.serviceLine.length < 40 → KcuBecame { k with serviceLine := s.kcu.serviceLine ++ [c] } s e) ∧
    (s.kcu.state = .service → 40 ≤ s.kcu.serviceLine.length → KcuBecame k.refused s e) ∧
    (∀ n f, s.kcu.cursor = .field n → s.kcu.image.field n = some f →
      (s.kcu.formTakes c = true ↔ s.kcu.value.length < f.width ∧ f.kind.allows s.kcu.value c = true ∧ s.kcu.count + 1 ≤ 4093)) ∧
    (s.kcu.cursor = .finish → s.kcu.formTakes c = false)

/-- The events that open an entry or begin to: NOTE and a CHAR in IDLE, NEW ORDER, and a slot's digit in FORM SELECT; and the last
burst of the form image's read, which opens the ORDER. An entry is opened in the lowest-numbered FREE slot, empty at the ring's
head, and its record and the header become due, in that order by the model's choice (log entry 50). In a slot used before, the
creation record waits as the FREE record did, which is the model's choice (log entry 38), and a write of the former entry's record
still in progress is not the creation record. With no FREE slot or no room the event is refused, with SPOOL FULL raised once in an
episode. That a display frame follows also when the form image has been read is deduced (log entry 19). -/
def Obligations.EntriesOpened : Prop :=
  ∀ (s : State) (rest : List KeyEvent),
    let k : Kcu := { s.kcu with typeahead := rest }
    let opened := fun (cur : Option SpuCur) (n : Nat) (e : Entry) => (({ s.spu with
      order := s.spu.order ++ [n], episode := false, table := s.spu.table.set (n - 1) e
      cur := cur.map fun c => if c.item = .record n then { c with live := false } else c } : Spu).dueItem (.record n)).dueItem .header
    let note := fun n => opened s.spu.cur n { freeEntry with
      state := .opened, cls := some .note, start := s.spu.ring.head, gate := (s.spu.entry n).gate }
    let full : State := { s with
      spu := { s.spu with episode := true }
      pqu := if s.spu.episode = true then s.pqu else s.pqu.raise (ascii "SPOOL FULL") }
    ((∀ n, s.spu.freeSlot = some n ↔ 1 ≤ n ∧ n ≤ 32 ∧ (s.spu.entry n).state = .free ∧
        ∀ m, 1 ≤ m → m < n → (s.spu.entry m).state ≠ .free) ∧
      (s.spu.freeSlot = none ↔ ∀ m, 1 ≤ m → m ≤ 32 → (s.spu.entry m).state ≠ .free)) ∧
    (s.kcu.typeahead = .action .note :: rest → canTake (.action .note) s = true → s.kcu.state = .idle → s.spu.securing = false →
      ∃ e, exec .note s = .next (finish e) ∧
        (∀ n, s.spu.freeSlot = some n → s.spu.ring.free s.spoolSize ≠ 0 →
          KcuBecame { k.toIdle with state := .free } { s with spu := note n } e) ∧
        (s.spu.freeSlot = none ∨ s.spu.ring.free s.spoolSize = 0 → KcuBecame k.refused full e)) ∧
    (∀ c, s.kcu.typeahead = .char c :: rest → canTake (.char c) s = true → s.kcu.state = .idle → s.spu.securing = false →
      ∃ e, exec .keyChar s = .next (finish e) ∧
        (∀ n, s.spu.freeSlot = some n → s.spu.ring.free s.spoolSize ≠ 0 →
          KcuBecame { k.toIdle with state := .free, staging := [c], count := 1, line := [c] } { s with spu := note n } e) ∧
        (s.spu.freeSlot = none ∨ s.spu.ring.free s.spoolSize = 0 → KcuBecame k.refused full e)) ∧
    (s.kcu.typeahead = .action .newOrder :: rest → canTake (.action .newOrder) s = true → s.kcu.state = .idle →
      ∃ e, exec .newOrder s = .next (finish e) ∧ KcuBecame { k with state := .formSelect } s e) ∧
    (∀ c, s.kcu.typeahead = .char c :: rest → canTake (.char c) s = true → s.kcu.state = .formSelect → s.spu.securing = false →
      ∃ e, exec .keyChar s = .next (finish e) ∧
        (0x31 ≤ c.toNat ∧ c.toNat ≤ 0x34 ∧ (s.kcu.formSlotAt (c.toNat - 0x30)).status = .loaded →
          KcuBecame { k with claim := some (.image (c.toNat - 0x30)) }
            { s with spu := s.spu.dueItem (.image (c.toNat - 0x30)) } e) ∧
        (¬ (0x31 ≤ c.toNat ∧ c.toNat ≤ 0x34 ∧ (s.kcu.formSlotAt (c.toNat - 0x30)).status = .loaded) →
          KcuBecame k.toIdle.refused s e)) ∧
    (∀ n b got live data, s.spu.cur = some ⟨.image n, [b], got, live⟩ → s.kcu.claim = some (.image n) →
      s.spu.securing = false → s.pm.power.awake = true →
      let e := deliver .spoolWork data s
      let j : Kcu := { s.kcu with claim := none }
      (imageOf (got ++ data) = none → KcuBecame j.toIdle.refused { s with spu := { s.spu with cur := none } } e) ∧
      (∀ image, imageOf (got ++ data) = some image →
        (s.spu.freeSlot = none ∨ s.spu.ring.free s.spoolSize = 0 →
          KcuBecame j.toIdle.refused { full with spu := { full.spu with cur := none } } e) ∧
        (∀ m, s.spu.freeSlot = some m → s.spu.ring.free s.spoolSize ≠ 0 →
          KcuBecame { j.toIdle with state := .form, image := image, formSlot := n } { s with
            spu := opened none m { freeEntry with
              state := .opened, cls := some .order, formSlot := n, cursor := some (.field 1), recCursor := some (.field 1),
              start := s.spu.ring.head, gate := (s.spu.entry m).gate }
            pqu := s.pqu.raise (spaced [ascii "ORDER", image.name]) } e)))

/-- TAB in FORM closes the field where it may, and is refused where it may not and in the other states. The flush wait timer
starts where a waiting flush comes to lack room (log entry 24). -/
def Obligations.TabComposed : Prop :=
  ∀ (s : State) (rest : List KeyEvent), s.kcu.typeahead = .action .tab :: rest → canTake (.action .tab) s = true →
    let k : Kcu := { s.kcu with typeahead := rest }
    ∃ e, exec .tab s = .next (finish e) ∧
    (∀ n f, s.kcu.state = .form → s.kcu.cursor = .field n → s.kcu.image.field n = some f →
      ¬ (f.required = true ∧ s.kcu.value = []) → s.kcu.count + 2 ≤ 4093 →
      KcuBecame { k.fieldClosed s.spu.openNumber n with flushTimer := s.flushTimerAfter 2 } s e) ∧
    (s.kcu.state = .form → s.kcu.cursor = .finish → KcuBecame k.refused s e) ∧
    (∀ n f, s.kcu.state = .form → s.kcu.cursor = .field n → s.kcu.image.field n = some f →
      (f.required = true ∧ s.kcu.value = []) ∨ 4093 < s.kcu.count + 2 → KcuBecame k.refused s e) ∧
    (s.kcu.state = .idle ∨ s.kcu.state = .free ∨ s.kcu.state = .service → KcuBecame k.refused s e) ∧
    (s.kcu.state = .formSelect → KcuBecame k.toIdle.refused s e)

/-- ENTER in each composer state. One that acts as CANCEL is not held by a FEED claim that waits, which is the model's choice (log
entry 29), and while the journal is secured its claim waits, staging discarded (log entry 23). The flush wait timer starts where a
waiting flush comes to lack room (log entry 24). -/
def Obligations.EnterComposed : Prop :=
  ∀ (s : State) (rest : List KeyEvent), s.kcu.typeahead = .action .enter :: rest → canTake (.action .enter) s = true →
    let k : Kcu := { s.kcu with typeahead := rest }
    ∃ e, exec .enter s = .next (finish e) ∧
    (s.kcu.state = .free → s.kcu.line ≠ [] → KcuBecame { k with
      staging := s.kcu.staging ++ [0x0A], count := s.kcu.count + 1, line := [], flushTimer := s.flushTimerAfter 1, flushOwed := true,
      closing := true,
      echo := some ⟨.line (s.kcu.count - s.kcu.line.length) s.kcu.line.length, s.spu.openNumber, .owed⟩ } s e) ∧
    (s.kcu.state = .free → s.kcu.line = [] → 0 < s.kcu.count → KcuBecame { k with closing := true } s e) ∧
    (∀ m, s.kcu.state = .free → s.kcu.line = [] → s.kcu.count = 0 → s.spu.securing = false → s.spu.openSlot = some m →
      KcuBecame { k.toIdle with echo := s.kcu.echo.filter fun q => q.stage == .claimed } { s with spu := s.spu.voided m } e) ∧
    (s.kcu.state = .free → s.kcu.line = [] → s.kcu.count = 0 → s.spu.securing = true → KcuBecame { k with
      staging := [], flushOwed := false, flush := if s.kcu.flush = .waiting then .none else s.kcu.flush, flushCursor := none,
      flushTimer := false, echo := s.kcu.echo.filter fun q => q.stage == .claimed, claim := some .untaken } s e) ∧
    (s.kcu.state = .form → s.kcu.wants = true → KcuBecame k.refused s e) ∧
    (∀ n f, s.kcu.state = .form → s.kcu.cursor = .field n → s.kcu.image.field n = some f →
      ¬ (f.required = true ∧ s.kcu.value = []) →
      let j : Kcu := { k.fieldClosed s.spu.openNumber n with flushTimer := s.flushTimerAfter 2 }
      (j.missing = none → KcuBecame { j with closing := true } s e) ∧
      (∀ m, j.missing = some m → KcuBecame { j with cursor := .field m, value := [] }.refused s e)) ∧
    (s.kcu.state = .form → s.kcu.cursor = .finish → s.kcu.missing = none → KcuBecame { k with closing := true } s e) ∧
    (∀ n, s.kcu.state = .form → s.kcu.cursor = .finish → s.kcu.missing = some n →
      KcuBecame { k with cursor := .field n, value := [] }.refused s e) ∧
    (∀ o, s.kcu.state = .service → s.kcu.serviceLine ≠ [] → parseDirective s.kcu.serviceLine = .refused o →
      KcuBecame { k with serviceLine := [] } (offerAll { s with du := { s.du with
        keyed := ⟨some (.answering .other), s.kcu.serviceLine.take 4, some (spaced [s.kcu.serviceLine.take 4, o.name]), []⟩ } }) e) ∧
    (∀ d args, s.kcu.state = .service → s.kcu.serviceLine ≠ [] → parseDirective s.kcu.serviceLine = .directive d args →
      let t := begin' d d.rule .service args { s with
        kcu := { k with serviceLine := [] }, du := { s.du with keyed := ⟨some .unanswered, s.kcu.serviceLine.take 4, none, []⟩ } }
      KcuBecame t.kcu t e) ∧
    (s.kcu.state = .service → s.kcu.serviceLine = [] → KcuBecame k.refused s e) ∧
    (s.kcu.state = .idle → KcuBecame k.refused s e) ∧
    (s.kcu.state = .formSelect → KcuBecame k.toIdle.refused s e)

/-- RUB removes the youngest character from staging, or is refused. What becomes of a flush that waits is left open (log entry
18). -/
def Obligations.RubComposed : Prop :=
  ∀ (s : State) (rest : List KeyEvent), s.kcu.typeahead = .action .rub :: rest → canTake (.action .rub) s = true →
    let k : Kcu := { s.kcu with typeahead := rest }
    ∃ e, exec .rub s = .next (finish e) ∧
    (s.kcu.state = .free → s.kcu.line ≠ [] → s.kcu.staging ≠ [] → KcuBecame { k with
      line := s.kcu.line.dropLast, staging := s.kcu.staging.dropLast, count := s.kcu.count - 1, flush := e.kcu.flush,
      flushTimer := e.kcu.flushTimer } s e) ∧
    (s.kcu.state = .form → s.kcu.field ≠ none → s.kcu.value ≠ [] → s.kcu.staging ≠ [] → KcuBecame { k with
      value := s.kcu.value.dropLast, staging := s.kcu.staging.dropLast, count := s.kcu.count - 1, flush := e.kcu.flush,
      flushTimer := e.kcu.flushTimer } s e) ∧
    (s.kcu.state = .free → s.kcu.line = [] → KcuBecame k.refused s e) ∧
    (s.kcu.state = .form → s.kcu.field = none ∨ s.kcu.value = [] → KcuBecame k.refused s e) ∧
    (s.kcu.state = .service → s.kcu.serviceLine ≠ [] → KcuBecame { k with serviceLine := s.kcu.serviceLine.dropLast } s e) ∧
    (s.kcu.state = .service → s.kcu.serviceLine = [] → KcuBecame k.refused s e) ∧
    (s.kcu.state = .idle → KcuBecame k.refused s e) ∧
    (s.kcu.state = .formSelect → KcuBecame k.toIdle.refused s e)

/-- A retract claim: asked by a RUB whose character was flushed, with the OPEN entry's length at least 1. The byte stays in
memory. -/
def Obligations.RetractTaken : Prop :=
  ∀ (s : State) (rest : List KeyEvent) (m : Nat) (k : Kcu), s.kcu.typeahead = .action .rub :: rest →
    canTake (.action .rub) s = true →
    (s.kcu.state = .free ∧ s.kcu.line ≠ [] ∧ k = { s.kcu with line := s.kcu.line.dropLast } ∨
      s.kcu.state = .form ∧ s.kcu.field ≠ none ∧ s.kcu.value ≠ [] ∧ k = { s.kcu with value := s.kcu.value.dropLast }) →
    s.kcu.staging = [] → s.spu.securing = false → s.spu.openSlot = some m → 1 ≤ (s.spu.entry m).length →
    let old := s.spu.entry m
    let p : Spu := { s.spu with ring := s.spu.ring.retract s.spoolSize 1 }
    ∃ e, exec .rub s = .next (finish e) ∧
      KcuBecame { k with typeahead := rest, count := s.kcu.count - 1 } { s with
        spu := (p.setEntry m { old with length := old.length - 1, recLength := old.length - 1 }).dueItem (.record m) } e

/-- CANCEL discards the staged bytes, withdraws a waiting flush, drops an echo whose flush has not been taken, and makes the OPEN
entry VOID; that while the journal is secured its claim waits, the rest being done, is the model's choice (log entry 23). DISCARD
makes the oldest REJECTED or DAMAGED entry VOID, which is the first of the entry list in one of these states, and none if none is.
Both make the entry's record due. -/
def Obligations.CancelAndDiscard : Prop :=
  ∀ (s : State) (rest : List KeyEvent),
    let k : Kcu := { s.kcu with typeahead := rest }
    (s.kcu.typeahead = .action .cancel :: rest → canTake (.action .cancel) s = true → ∃ e, exec .cancel s = .next (finish e) ∧
      (∀ m, s.kcu.state = .free ∨ s.kcu.state = .form → s.spu.securing = false → s.spu.openSlot = some m →
        KcuBecame { k.toIdle with echo := s.kcu.echo.filter fun q => q.stage == .claimed } { s with spu := s.spu.voided m } e) ∧
      (s.kcu.state = .free ∨ s.kcu.state = .form → s.spu.securing = true → KcuBecame { k with
        staging := [], flushOwed := false, flush := if s.kcu.flush = .waiting then .none else s.kcu.flush, flushCursor := none,
        flushTimer := false, echo := s.kcu.echo.filter fun q => q.stage == .claimed, claim := some .untaken } s e) ∧
      (s.kcu.state = .service → KcuBecame { k with serviceLine := [] } s e) ∧
      (s.kcu.state = .idle → KcuBecame k.refused s e) ∧
      (s.kcu.state = .formSelect → KcuBecame k.toIdle.refused s e)) ∧
    (s.kcu.typeahead = .action .discard :: rest → canTake (.action .discard) s = true → ∃ e,
      exec .discard s = .next (finish e) ∧
      (∀ n, s.kcu.state = .idle → s.spu.securing = false → s.spu.discardable = some n →
        KcuBecame k { s with spu := s.spu.voided n } e) ∧
      (s.kcu.state = .idle → s.spu.securing = false → s.spu.discardable = none → KcuBecame k.refused s e) ∧
      (s.kcu.state = .free ∨ s.kcu.state = .form ∨ s.kcu.state = .service → KcuBecame k.refused s e) ∧
      (s.kcu.state = .formSelect → KcuBecame k.toIdle.refused s e)) ∧
    (let dead := fun m => (s.spu.entry m).state = .rejected ∨ (s.spu.entry m).state = .damaged;
      (∀ n, s.spu.discardable = some n ↔
        ∃ older younger, s.spu.order = older ++ n :: younger ∧ dead n ∧ ∀ m ∈ older, ¬ dead m) ∧
      (s.spu.discardable = none ↔ ∀ m ∈ s.spu.order, ¬ dead m))

/-- SEND, FEED and SERVICE in each composer state, and NOTE and NEW ORDER where they are refused. That FEED's claim is held as the
composer's pending echo is the model's (log entry 29). -/
def Obligations.SendFeedService : Prop :=
  ∀ (s : State) (rest : List KeyEvent),
    let k : Kcu := { s.kcu with typeahead := rest }
    (s.kcu.typeahead = .action .send :: rest → canTake (.action .send) s = true → ∃ e, exec .send s = .next (finish e) ∧
      (s.kcu.state ≠ .formSelect → s.clu.line = .ready → s.spu.securing = false →
        KcuBecame k { s with spu := { s.spu with active := true } } e) ∧
      (s.kcu.state ≠ .formSelect → s.clu.line ≠ .ready → KcuBecame k.refused s e) ∧
      (s.kcu.state = .formSelect → KcuBecame k.toIdle.refused s e)) ∧
    (s.kcu.typeahead = .action .feed :: rest → canTake (.action .feed) s = true → ∃ e, exec .feed s = .next (finish e) ∧
      (s.kcu.state ≠ .formSelect → KcuBecame { k with echo := some ⟨.feed, 0, .claimed⟩ }
        { s with pqu := { s.pqu with composerClaim := some (.feed 14) } } e) ∧
      (s.kcu.state = .formSelect → KcuBecame k.toIdle.refused s e)) ∧
    (s.kcu.typeahead = .action .service :: rest → canTake (.action .service) s = true → ∃ e,
      exec .service s = .next (finish e) ∧
      (s.kcu.state = .idle → KcuBecame { k with state := .service, serviceLine := [] } s e) ∧
      (s.kcu.state = .service → KcuBecame { k with state := .idle, serviceLine := [] } s e) ∧
      (s.kcu.state = .free ∨ s.kcu.state = .form → KcuBecame k.refused s e) ∧
      (s.kcu.state = .formSelect → KcuBecame k.toIdle.refused s e)) ∧
    (s.kcu.state = .free ∨ s.kcu.state = .form ∨ s.kcu.state = .service →
      (s.kcu.typeahead = .action .note :: rest → canTake (.action .note) s = true →
        ∃ e, exec .note s = .next (finish e) ∧ KcuBecame k.refused s e) ∧
      (s.kcu.typeahead = .action .newOrder :: rest → canTake (.action .newOrder) s = true →
        ∃ e, exec .newOrder s = .next (finish e) ∧ KcuBecame k.refused s e)) ∧
    (s.kcu.state = .formSelect →
      (s.kcu.typeahead = .action .note :: rest → canTake (.action .note) s = true →
        ∃ e, exec .note s = .next (finish e) ∧ KcuBecame k.toIdle.refused s e) ∧
      (s.kcu.typeahead = .action .newOrder :: rest → canTake (.action .newOrder) s = true →
        ∃ e, exec .newOrder s = .next (finish e) ∧ KcuBecame k.toIdle.refused s e))

/-- Timers that only mark, tell or release: the NAK and reminder spacing, the flush wait, the accept timer, the line idle timer and
the pause timer, with the part awake; and with power, in DOZE too, the end of a display frame, after which one that became due
meanwhile is sent at once, and the end of the alert. An accept timer stands still in FADE: its expiry is then without effect (log
entry 6). What a frame holds: 02h, the state's letter and the last 23 characters of its text, spaces after them, or 24 spaces in
DOZE. -/
def Obligations.TimersExpire : Prop :=
  (∀ s : State, s.pm.power ≠ .off →
    (s.kcu.sending = true → s.kcu.frameDue = false → exec .displayFrameEnd s =
      .next (finish { s with kcu := { s.kcu with sending := false } })) ∧
    (s.kcu.sending = true → s.kcu.frameDue = true → exec .displayFrameEnd s =
      .next (finish { s with kcu := { s.kcu with frame := frameNow s, sending := true, frameDue := false } })) ∧
    (s.pm.power = .doze → s.kcu.sending = true → s.kcu.frameDue = true → exec .displayFrameEnd s = .next (finish { s with
      kcu := { s.kcu with frame := 0x02 :: List.replicate 24 0x20, sending := true, frameDue := false } })) ∧
    (s.kcu.alert = true → exec .alertEnd s = .next (finish { s with kcu := { s.kcu with alert := false } }))) ∧
  ∀ s : State, s.pm.power.awake = true →
    (s.clu.line = .ready → s.pe.nakTimer.isSome = true → exec .nakSpacingExpiry s =
      .next (finish { s with pe := { s.pe with nakTimer := none } })) ∧
    (s.clu.line = .ready → s.pe.reminderTimer.isSome = true → exec .reminderSpacingExpiry s =
      .next (finish { s with pe := { s.pe with reminderTimer := none } })) ∧
    (s.kcu.flushTimer = true → s.spu.episode = false → exec .flushWaitTimerExpiry s = .next (finish { s with
      kcu := { s.kcu with flushTimer := false, alert := true }
      spu := { s.spu with episode := true }
      pqu := s.pqu.raise (ascii "SPOOL FULL") })) ∧
    (s.kcu.flushTimer = true → s.spu.episode = true → exec .flushWaitTimerExpiry s =
      .next (finish { s with kcu := { s.kcu with flushTimer := false } })) ∧
    (∀ n, (s.spu.entry n).state = .awaiting → (s.spu.entry n).acceptTimer.isSome = true →
      (s.clu.line ≠ .fade → exec (.acceptTimerExpiry n) s = .next (finish { s with
        spu := (s.spu.setEntry n { s.spu.entry n with state := .closed, acceptTimer := none }).dueItem (.record n) })) ∧
      (s.clu.line = .fade → exec (.acceptTimerExpiry n) s = .next s)) ∧
    (s.pqu.asm.idleTimer.isSome = true → s.pqu.asm.complete = false → 1 ≤ s.pqu.asm.length → exec .lineIdleTimerExpiry s =
      .next (finish { s with pqu := { s.pqu with asm := { s.pqu.asm with complete := true, part := true, idleTimer := none } } })) ∧
    (s.hdu.head = .paused → s.hdu.pauseTimer = true → exec .pauseTimerExpiry s = .next (finish ({ s with
      hdu := { s.hdu with suspended := true, pauseTimer := false } }.noticed (ascii "PRINT SUSPENDED")))) ∧
    (frameNow s).length = 25 ∧ (frameNow s).head? = some 0x02 ∧
    ∀ t : State,
      let k := t.kcu
      let shows := fun (letter : Byte) (text : Text) => frameNow t =
        [0x02, letter] ++ text.drop (text.length - 23) ++ List.replicate (23 - text.length) 0x20
      let digits := ([1, 2, 3, 4].filter fun n => (k.formSlotAt n).status = .loaded).map fun n => byteOf (0x30 + n)
      (t.pm.power = .doze → frameNow t = 0x02 :: List.replicate 24 0x20) ∧
      (t.pm.power ≠ .doze →
        (k.state = .idle → shows 0x49 []) ∧
        (k.state = .formSelect → shows 0x53 (digits.intersperse 0x20)) ∧
        (k.state = .free → shows 0x4E k.line) ∧
        (k.state = .form → ∀ n f, k.field = some (n, f) → shows 0x4F (f.label ++ [0x3A] ++ k.value)) ∧
        (k.state = .form → k.field = none → shows 0x4F k.image.name) ∧
        (k.state = .service → shows 0x56 k.serviceLine))

/-! ## The spool -/

/-- When a waiting flush can be taken: its staged bytes find room in the SPOOL ring, an entry is OPEN, and the journal is not
being secured. A flush is requested where none is outstanding and staging is full, the flush owed mark set, or the front event
held for room; one the ring has no room for starts the flush wait timer (log entry 24). A flush is taken: the staged bytes join
the SPOOL ring and the OPEN entry, and their write is due; one taken to secure the journal with a flush in progress leaves the
echo that flush carries, which is the model's choice (log entry 23). Its write completes: the entry's record takes the length and
the cursor that came with the flush and is due, the composer is told, and an echo the flush carried is claimed. -/
def Obligations.FlushTaken : Prop :=
  (∀ s : State, flushReady s = true ↔
    s.pm.power.awake = true ∧ s.kcu.flush = .waiting ∧ s.spu.securing = false ∧ (∃ m, s.spu.openSlot = some m) ∧
      s.kcu.staging.length ≤ s.spu.ring.free s.spoolSize) ∧
  (∀ s : State,
    let k := s.kcu
    let requests := k.flush = .none ∧ k.staging ≠ [] ∧ (k.staging.length = 8 ∨ k.flushOwed = true ∨
      ∃ x rest, k.typeahead = x :: rest ∧ 8 < k.staging.length + k.stores x)
    (requests → flushRequest s = { s with kcu := { k with
      flush := .waiting, flushCursor := if k.state = .form then some k.cursor else none
      flushTimer := decide (s.spu.ring.free s.spoolSize < k.staging.length) } }) ∧
    (¬ requests → flushRequest s = s)) ∧
  (∀ (s : State) (m : Nat), flushReady s = true → s.spu.openSlot = some m → s.kcu.staging ≠ [] →
    (s.spu.entry m).length + s.kcu.staging.length ≤ 4095 →
    let old := s.spu.entry m
    let p : Spu := { s.spu with
      episode := false, ring := s.spu.ring.append s.spoolSize s.kcu.staging.length,
      due := s.spu.due ++
        [.flush s.spu.ring.head s.kcu.staging ((s.spu.entry m).length + s.kcu.staging.length) s.kcu.flushCursor] }
    exec .flushTake s =
      .next (finish { s with
        spu := p.setEntry m { old with length := old.length + s.kcu.staging.length, cursor := s.kcu.flushCursor }
        kcu := { s.kcu with
          staging := [], flush := .running, flushOwed := false, flushTimer := false,
          echo := s.kcu.echo.map fun q => if q.stage = .owed then { q with stage := .flushing } else q } })) ∧
  (∀ (s : State) (m : Nat) (cursor : Option Cursor), s.spu.openSlot = some m → s.kcu.staging ≠ [] →
    (s.spu.entry m).length + s.kcu.staging.length ≤ 4095 →
    let old := s.spu.entry m
    let n := old.length + s.kcu.staging.length
    let p : Spu := { s.spu with
      episode := false, ring := s.spu.ring.append s.spoolSize s.kcu.staging.length,
      due := s.spu.due ++ [.flush s.spu.ring.head s.kcu.staging n cursor] }
    flushTaken cursor s = { s with
      spu := p.setEntry m { old with length := n, cursor := cursor }
      kcu := { s.kcu with
        staging := [], flush := .running, flushOwed := false, flushTimer := false
        echo := if s.kcu.flush = .running then s.kcu.echo
          else s.kcu.echo.map fun q => if q.stage = .owed then { q with stage := .flushing } else q } }) ∧
  ∀ (s : State) (m off length : Nat) (bytes got : Text) (cursor : Option Cursor) (b : Burst) (live : Bool),
    s.spu.cur = some ⟨.flush off bytes length cursor, [b], got, live⟩ → s.spu.openSlot = some m →
    s.spu.due.any SpuItem.isFlush = false →
    let old := s.spu.entry m
    let p : Spu := { s.spu with cur := none }
    let w : State := { s with
      spu := (p.setEntry m { old with recLength := length, recCursor := cursor }).dueItem (.record m)
      kcu := { s.kcu with flush := .none } }
    (s.kcu.echo = none ∨ (∃ q, s.kcu.echo = some q ∧ q.stage ≠ .flushing) → deliver .spoolWork [] s = w) ∧
    (∀ q, s.kcu.echo = some q → q.stage = .flushing →
      deliver .spoolWork [] s = { w with
        kcu := { s.kcu with flush := .none, echo := some { q with stage := .claimed } }
        pqu := { s.pqu with composerClaim := some (echoDescriptor q w) } } ∧
      let at' := fun o => ((w.spu.entry q.slot).start + o) % s.spoolSize
      (∀ o n, q.kind = .line o n → echoDescriptor q w = .echoText q.slot (at' o) n) ∧
      (∀ k f o n, q.kind = .field k f o n → echoDescriptor q w = .echoField q.slot k f (at' o) n))

/-- When a close is handed and taken: the composer closing, staging empty, no flush outstanding and no echo pending. A close claim:
the entry takes the first serial from the counter on that no entry holds and becomes CLOSED, the header and its record become due,
and the composer is IDLE. The bytes of the header and of an entry's record. The order of the directory writes: the first item due
that does not wait for a header write is begun, its bytes as they stand, so that what is due behind a record that waits goes ahead
of it, which is the model's choice (log entry 54); an item already due keeps its place; a header write takes up, as it begins, the
records and the SR that wait for one, and lets them go as it completes; a creation record that completes makes the header due, which
is deduced (log entry 21). -/
def Obligations.EntryCloses : Prop :=
  (∀ (s : State) (m : Nat), closeReady s = true → s.spu.openSlot = some m → ∃ e, exec .entryClose s = .next (finish e) ∧
    KcuBecame s.kcu.toIdle { s with spu := e.spu } e ∧
    e.spu.table = s.spu.table.set (m - 1) { s.spu.entry m with
      state := .closed, serial := some (s.spu.serialFrom 33 s.spu.serialNext), cursor := none, recCursor := none, gate := .wait } ∧
    e.spu.serialNext = nextSerial (s.spu.serialFrom 33 s.spu.serialNext) ∧ e.spu.order = s.spu.order ∧
    .header ∈ e.spu.due ∧ (.record m) ∈ e.spu.due ∧
    (s.spu.slotOf s.spu.serialNext = none → s.spu.serialFrom 33 s.spu.serialNext = s.spu.serialNext)) ∧
  (∀ s : State, (s.spu.openSlot = none → closeEntry s = s) ∧ ∀ m, s.spu.openSlot = some m →
    let serial := s.spu.serialFrom 33 s.spu.serialNext
    let p : Spu := { s.spu with serialNext := nextSerial serial }
    closeEntry s = { s with spu := ((p.dueItem .header).setEntry m { s.spu.entry m with
      state := .closed, serial := some serial, cursor := none, recCursor := none, gate := .wait }).dueItem (.record m) }) ∧
  (∀ s : State, closeReady s = true ↔
    s.pm.power.awake = true ∧ s.kcu.closing = true ∧ s.kcu.staging = [] ∧ s.kcu.flush = .none ∧ s.kcu.echo = none ∧
      s.spu.securing = false ∧ ∃ m, s.spu.openSlot = some m) ∧
  (∀ n, nextSerial n = if n < 65535 then n + 1 else 1) ∧
  (∀ (p : Spu) (n : Nat), 1 ≤ n → n ≤ 65535 → p.order.length ≤ 32 → p.slotOf (p.serialFrom 33 n) = none ∧
    let value := fun k => (n - 1 + k) % 65535 + 1
    ∃ passed, passed ≤ 32 ∧ p.serialFrom 33 n = value passed ∧ ∀ k < passed, p.slotOf (value k) ≠ none) ∧
  (∀ e : Entry,
    let cursor := match e.recCursor with
      | none => 0
      | some (.field n) => n
      | some .finish => 17
    let cls := match e.cls with
      | none => 0
      | some .order => e.formSlot
      | some .note => 5
    let flags := (if e.interrupted = true then 1 else 0) + if e.sentOnce = true then 2 else 0
    let body := [byteOf e.state.code, byteOf cls, byteOf cursor] ++ be16 (e.serial.getD 0) ++ be16 e.start ++
      be16 e.recLength ++ [byteOf e.attempts, byteOf flags, byteOf e.reason]
    e.record = body ++ checkBytes body ∧ e.record.length = 14) ∧
  ([EntryState.free, .opened, .closed, .sending, .awaiting, .sent, .rejected, .damaged, .void].map EntryState.code =
    [0, 1, 2, 3, 4, 5, 6, 7, 8]) ∧
  (∀ s : State,
    let slots := s.spu.order.filter fun n => (s.spu.entry n).recorded
    let m := s.work.map
    let stamp := [m.glyph.base, m.glyph.size, m.form.base, m.form.size, m.inbound.base, m.inbound.size, m.spool.base,
      m.spool.size].map fun n => byteOf (n / 256)
    let size : Byte := if s.work.memSize = 8192 then 0 else if s.work.memSize = 16384 then 1 else 2
    let full : Byte := if s.spu.ring.full = true then 1 else 0
    let body := [(0x5A : Byte), 0xA5] ++ be16 s.spu.serialNext ++ [byteOf slots.length] ++ padTo 32 (slots.map byteOf) ++
      be16 s.spu.ring.tail ++ be16 s.spu.ring.head ++ [full] ++ size :: stamp ++
      (List.range 8).map fun k => (s.hdu.loaded >>> (8 * k)).setWidth 8
    itemBursts s .header = (writesAt 0 (body ++ checkBytes body ++ [0, 0, 0])).map
      fun (a, d) => ⟨true, .addr a, d.length, d, .spoolWork⟩) ∧
  ∀ s : State,
    let waits := fun i : SpuItem => ∃ n, i = .record n ∧ (s.spu.entry n).gate ≠ .clear
    (s.jmc.busy .spu = true ∨ s.spu.cur = none ∧ (∀ i ∈ s.spu.due, waits i) → spuKick s = s) ∧
    (∀ i b bs got live, s.jmc.busy .spu = false → s.spu.cur = some ⟨i, b :: bs, got, live⟩ →
      spuKick s = { s with jmc := s.jmc.request .spu b }) ∧
    (∀ before i after b bs, s.jmc.busy .spu = false → s.spu.cur = none → s.spu.due = before ++ i :: after →
      (∀ j ∈ before, waits j) → ¬ waits i → itemBursts s i = b :: bs →
      let t := spuKick s
      t.jmc = s.jmc.request .spu b ∧ t.spu.due = before ++ after ∧
      (t.spu.cur.map fun c => (c.item, c.bursts, c.got)) = some (i, b :: bs, []) ∧
      (i ≠ .header → t.spu.table = s.spu.table ∧ t.spu.srGate = s.spu.srGate) ∧
      (i = .header → t.spu.table = s.spu.table.map (fun e => { e with gate := if e.gate = .wait then .running else e.gate }) ∧
        t.spu.srGate = if s.spu.srGate = .wait then .running else s.spu.srGate)) ∧
    (∀ (p : Spu) (i : SpuItem), p.dueItem i = if i ∈ p.due then p else { p with due := p.due ++ [i] }) ∧
    (∀ n, itemBursts s (.record n) = (writesAt (64 + 14 * (n - 1)) (s.spu.entry n).record).map
      fun (a, d) => ⟨true, .addr a, d.length, d, .spoolWork⟩) ∧
    (∀ b got live, s.spu.cur = some ⟨.header, [b], got, live⟩ → deliver .spoolWork [] s = { s with spu := { s.spu with
      cur := none
      table := s.spu.table.map fun e => { e with gate := if e.gate = .running then .clear else e.gate }
      srGate := if s.spu.srGate = .running then .clear else s.spu.srGate } }) ∧
    (∀ n b got, s.spu.cur = some ⟨.record n, [b], got, true⟩ → (s.spu.entry n).state ≠ .free →
      (s.spu.entry n).recorded = false →
      let p : Spu := { s.spu with cur := none }
      deliver .spoolWork [] s = { s with spu := (p.setEntry n { s.spu.entry n with recorded := true }).dueItem .header })

/-! ## Station text and notices -/

/-- A raised notice takes the lowest FREE slot of the 8, cut to 40 characters, or with none FREE is dropped and counted. A local
answer's lines are offered in their order, each one with a slot FREE, until none is left or no slot is, so that with the buffer's 8
slots an answer that stays has a line waiting and no slot FREE. While the line list has room its slots go to the complete INBOUND
line, the oldest waiting notice, which is the first of their order that waits, the composer's claim and the oldest FD claim, in this
order; a line that has finished releases what it held. A byte of station text that was refused is offered again as a line is listed
and as one is released. That a FEED claim of the composer is its pending echo, gone when the claim is listed, is deduced (log entry
29). -/
def Obligations.NoticeRaised : Prop :=
  (∀ (p : Pqu) (t : Text),
    (∀ n, p.freeSlot = some n → p.raise t = { p with
      notices := p.notices.set (n - 1) ⟨.waiting, t.take 40⟩, noticeOrder := p.noticeOrder ++ [n] } ∧
      (p.noticeAt n).status = .free ∧ 1 ≤ n ∧ n ≤ 8 ∧ ∀ m, 1 ≤ m → m < n → (p.noticeAt m).status ≠ .free) ∧
    (p.freeSlot = none → p.raise t = { p with dropped := bump p.dropped }) ∧
    (p.freeSlot = none ↔ ∀ n, 1 ≤ n → n ≤ 8 → (p.noticeAt n).status ≠ .free) ∧
    (∀ n, p.nextNotice = some n ↔ ∃ older younger, p.noticeOrder = older ++ n :: younger ∧ (p.noticeAt n).status = .waiting ∧
      ∀ m ∈ older, (p.noticeAt m).status ≠ .waiting) ∧
    (p.nextNotice = none ↔ ∀ m ∈ p.noticeOrder, (p.noticeAt m).status ≠ .waiting)) ∧
  (∀ (s : State) (k : Nat),
    let c := s.du.keyed
    let with' := fun c : ServiceContext => { s with du := { s.du with keyed := c } }
    offerAll s = offerLines 20 s ∧ offerLines 0 s = s ∧
    ((∀ a, c.job ≠ some (.answering a)) → offerLines (k + 1) s = s) ∧
    (∀ a, c.job = some (.answering a) →
      (∀ t, c.offered = some t →
        (s.pqu.freeSlot = none → offerLines (k + 1) s = s) ∧
        (s.pqu.freeSlot ≠ none → offerLines (k + 1) s =
          offerLines k { with' { c with offered := none } with pqu := s.pqu.raise t })) ∧
      (c.offered = none →
        (c.answer = [] → offerLines (k + 1) s = with' ⟨none, [], none, []⟩) ∧
        (∀ line rest, c.answer = line :: rest →
          offerLines (k + 1) s = offerLines k (with' { c with offered := some (line.build s), answer := rest })))) ∧
    (∀ t n, (AnswerLine.text t).build s = t ∧ (AnswerLine.entryReason n).build s = (s.spu.entry n).reasonText) ∧
    (Bounded s → ∀ a, (offerAll s).du.keyed.job = some (.answering a) →
      (offerAll s).du.keyed.offered.isSome = true ∧ (offerAll s).pqu.freeSlot = none)) ∧
  ∀ s : State,
    let ready := s.pqu.asm.complete = true ∧ s.du.unwritten = [] ∧ s.du.inboundOut = false
    let a := s.pqu.asm
    let counted := fun (m : Nat) (f : Nat → Nat) => s.spu.setEntry m { s.spu.entry m with echoes := f (s.spu.entry m).echoes }
    let listing := fun (k : Nat) (f : Nat → Nat) =>
      { s.kcu with forms := s.kcu.forms.set (k - 1) { s.kcu.formSlotAt k with listed := f (s.kcu.formSlotAt k).listed } }
    pquTurn s = grantSlots 24 (inboundDue (reoffer s)) ∧
    (∀ n, grantSlots 0 s = s ∧ (∀ t, grantOne s = some t → grantSlots (n + 1) s = grantSlots n t) ∧
      (grantOne s = none → grantSlots (n + 1) s = s)) ∧
    (24 ≤ s.pqu.list.length → grantOne s = none) ∧
    (s.pqu.list.length < 24 →
      (ready → s.du.blocked = false → grantOne s = some { s with pqu := { s.pqu with
        list := s.pqu.list ++ [.inbound a.part a.start a.length a.cells]
        asm := ⟨false, false, s.pqu.ring.head, 0, 0, [], a.justWrapped, none⟩ } }) ∧
      (ready → grantOne s = some (inboundDue (reoffer { s with pqu := { s.pqu with
        list := s.pqu.list ++ [.inbound a.part a.start a.length a.cells]
        asm := ⟨false, false, s.pqu.ring.head, 0, 0, [], a.justWrapped, none⟩ } }))) ∧
      (¬ ready →
        (∀ n, s.pqu.nextNotice = some n → grantOne s = some { s with pqu := { s.pqu with
          notices := s.pqu.notices.set (n - 1) { s.pqu.noticeAt n with status := .listed }
          list := s.pqu.list ++ [.notice n] } }) ∧
        (s.pqu.nextNotice = none →
          (∀ r, s.pqu.composerClaim = some (.feed r) → grantOne s = some { s with
            pqu := { s.pqu with list := s.pqu.list ++ [.feed r], composerClaim := none }, kcu := { s.kcu with echo := none } }) ∧
          (∀ m o n, s.pqu.composerClaim = some (.echoText m o n) → s.spu.securing = false → grantOne s = some { s with
            pqu := { s.pqu with list := s.pqu.list ++ [.echoText m o n], composerClaim := none }
            spu := counted m (· + 1), kcu := { s.kcu with echo := none } }) ∧
          (∀ m k f o n, s.pqu.composerClaim = some (.echoField m k f o n) → s.spu.securing = false →
            grantOne s = some { s with
              pqu := { s.pqu with list := s.pqu.list ++ [.echoField m k f o n], composerClaim := none }
              spu := counted m (· + 1), kcu := { listing k (· + 1) with echo := none } }) ∧
          (s.pqu.composerClaim = none →
            (∀ c r rest, s.pqu.fdClaims = (c, r) :: rest → grantOne s = some (ended c .done [] [] { s with
              pqu := { s.pqu with list := s.pqu.list ++ [.feed r], fdClaims := rest } })) ∧
            (s.pqu.fdClaims = [] → grantOne s = none))))) ∧
    (∀ rest,
      (∀ r, s.pqu.list = .feed r :: rest → finishFront s = { s with pqu := { s.pqu with list := rest } }) ∧
      (∀ part o n cells, s.pqu.list = .inbound part o n cells :: rest → s.du.blocked = false →
        finishFront s = flowTest { s with pqu := { s.pqu with list := rest, ring := s.pqu.ring.release s.inboundSize n } }) ∧
      (∀ part o n cells, s.pqu.list = .inbound part o n cells :: rest → finishFront s = reoffer (flowTest { s with
        pqu := { s.pqu with list := rest, ring := s.pqu.ring.release s.inboundSize n } })) ∧
      (∀ n, s.pqu.list = .notice n :: rest → finishFront s = offerAll { s with pqu := { s.pqu with
        list := rest, notices := s.pqu.notices.set (n - 1) ⟨.free, []⟩, noticeOrder := s.pqu.noticeOrder.erase n } }) ∧
      (∀ m o n, s.pqu.list = .echoText m o n :: rest → s.spu.securing = false → finishFront s = { s with
        pqu := { s.pqu with list := rest }, spu := counted m (· - 1) }) ∧
      (∀ m k f o n, s.pqu.list = .echoField m k f o n :: rest → s.spu.securing = false → finishFront s = { s with
        pqu := { s.pqu with list := rest }, spu := counted m (· - 1), kcu := listing k (· - 1) }))

/-- The LINE context takes the front byte of its queue: in IDLE the introducer and the terminator, in COLLECTING a character, an
overlong one, a terminator, which answers TOO LONG, a refusal of the text's form or name, or has the effect of the directive
command the text spells, and an introducer, which begins another text. With the report queue full either of these two stays in the
queue. Which texts are refused for their form or name is the model's choice in the corners of log entry 41. -/
def Obligations.LineBytes : Prop :=
  ∀ (s : State) (b : Byte) (rest : Text), s.pm.power.awake = true → s.pm.restarting = false → s.du.input = b :: rest →
    s.du.blocked = false →
    (s.du.line.state = .idle → b = s.work.introducer → exec .lineInputByte s = .next (finish { s with
      du := { s.du with input := rest, line := { s.du.line with state := .collecting, collection := [], overlong := false } } })) ∧
    (s.du.line.state = .idle → b ≠ s.work.introducer → b = s.work.terminator → exec .lineInputByte s =
      .next (finish { s with du := { s.du with input := rest } })) ∧
    (s.du.line.state = .collecting → b ≠ s.work.introducer → b ≠ s.work.terminator → s.du.line.collection.length < 120 →
      exec .lineInputByte s = .next (finish { s with
        du := { s.du with input := rest, line := { s.du.line with collection := s.du.line.collection ++ [b] } } })) ∧
    (s.du.line.state = .collecting → b ≠ s.work.introducer → b ≠ s.work.terminator → 120 ≤ s.du.line.collection.length →
      exec .lineInputByte s = .next (finish { s with
        du := { s.du with input := rest, line := { s.du.line with overlong := true } } })) ∧
    (s.du.line.state = .collecting → b = s.work.terminator → s.pe.reports.length < 4 → s.du.line.overlong = true →
      exec .lineInputByte s = .next (finish { s with
        pe := { s.pe with reports := s.pe.reports ++ [⟨tagOf s.du.line.collection, [Outcome.tooLong.code], 0⟩] }
        du := { s.du with input := rest, line := ⟨.idle, [], false, tagOf s.du.line.collection, none, false⟩ } })) ∧
    (s.du.line.state = .collecting → b = s.work.terminator → s.pe.reports.length < 4 → s.du.line.overlong = false →
      let tag := tagOf s.du.line.collection
      let idle : Du := { s.du with input := rest, line := ⟨.idle, [], false, tag, none, false⟩ }
      (∀ o, parseDirective s.du.line.collection = .refused o → exec .lineInputByte s = .next (finish { s with
        pe := { s.pe with reports := s.pe.reports ++ [⟨tag, [o.code], 0⟩] }, du := idle })) ∧
      (∀ d args, parseDirective s.du.line.collection = .directive d args → s.clu.line = .ready ∨ s.clu.line = .fade →
        exec .lineInputByte s = exec (d.command .line tag args) { s with du := idle })) ∧
    (s.du.line.state = .collecting → b = s.work.introducer → b ≠ s.work.terminator → s.pe.reports.length < 4 →
      exec .lineInputByte s = .next (finish { s with
        pe := { s.pe with reports := s.pe.reports ++ [⟨tagOf s.du.line.collection,
          [if s.du.line.overlong = true then Outcome.tooLong.code else Outcome.malformed.code], 0⟩] }
        du := { s.du with input := rest, line := { s.du.line with collection := [], overlong := false } } })) ∧
    (s.du.line.state = .collecting → b = s.work.terminator ∨ b = s.work.introducer → 4 ≤ s.pe.reports.length →
      exec .lineInputByte s = .next (finish s))

/-- Station text offered by the LINE context in IDLE: a byte is refused while the assembler is COMPLETE, the INBOUND ring has no
room, or an SR goes on, and waits. Each other byte joins the INBOUND ring, and acts on the line by its code's kind: a GLYPH or
SUBSTITUTE adds its cell, a TAB BLANK cells, and a column count of 40 completes the line as a wrap; a LINE END completes it, the
one after a wrap being absorbed; the byte that fills the ring completes the line as PARTIAL where nothing else does. The byte that
was refused is offered again once nothing refuses it, and is taken as any byte in IDLE is; that the release of a finished line
offers it before a load waiting for that boundary is applied is the model's choice (log entry 53). The Directive Unit's INBOUND
bursts: how many are due, when its input holds no further text (log entry 17), and which bytes a burst carries when it is placed
(log entry 49). -/
def Obligations.StationText : Prop :=
  let taken := fun (t : State) (x : Byte) (xs : Text) =>
    let a := t.pqu.asm
    let kind := kindOf t.hdu.codes x
    let ring := t.pqu.ring.append t.inboundSize 1
    let full := ring.free t.inboundSize = 0
    let after := fun (column : Nat) (cells : List (Option Nat)) (wraps ends : Bool) => { a with
      length := a.length + 1, column := column, cells := cells, justWrapped := wraps
      complete := wraps || ends || decide full
      part := if wraps || ends then false else if full then true else a.part
      idleTimer := if wraps || ends || decide full || decide (t.work.lineIdle = 0) then none else some t.work.lineIdle }
    let stop := 8 * (a.column / 8 + 1)
    let line := match kind with
      | .glyph _ | .substitute => after (a.column + 1) (a.cells ++ [some t.pqu.ring.head]) (decide (40 ≤ a.column + 1)) false
      | .tab => after stop (a.cells ++ List.replicate (stop - a.column) none) (decide (40 ≤ stop)) false
      | .ignored => after a.column a.cells false false
      | .lineEnd => after a.column a.cells false true
    let du := { t.du with input := xs, blocked := false }
    if a.justWrapped = true ∧ kind = .lineEnd then
      { t with pqu := { t.pqu with asm := { a with justWrapped := false } }, du := du }
    else flowTest { t with
      pqu := { t.pqu with ring := ring, asm := line }
      du := { du with
        unwritten := t.du.unwritten ++ [x], unwrittenAt := if t.du.unwritten = [] then t.pqu.ring.head else t.du.unwrittenAt } }
  (∀ (s : State) (b : Byte) (rest : Text), s.pm.power.awake = true → s.pm.restarting = false → s.du.input = b :: rest →
    s.du.blocked = false → s.du.line.state = .idle → b ≠ s.work.introducer → b ≠ s.work.terminator →
    (offerRefused s = true ↔ s.pqu.asm.complete = true ∨ s.pqu.ring.free s.inboundSize = 0 ∨
      ∃ c todo, s.du.job c = some (.regions todo)) ∧
    (offerRefused s = true → exec .lineInputByte s = .next (finish { s with du := { s.du with blocked := true } })) ∧
    (offerRefused s = false → exec .lineInputByte s = .next (finish (taken s b rest)))) ∧
  ∀ t : State,
    let n := t.du.unwritten.length
    let bytes := t.du.unwritten.take 8
    let more := t.du.line.state = .idle ∧ ∃ x xs, t.du.input = x :: xs ∧ x ≠ t.work.introducer
    (t.du.blocked = false ∨ t.du.line.state ≠ .idle ∨ t.pm.restarting = true ∨ offerRefused t = true → reoffer t = t) ∧
    (t.du.blocked = true → t.du.line.state = .idle → t.pm.restarting = false → offerRefused t = false →
      (t.du.input = [] → reoffer t = { t with du := { t.du with blocked := false } }) ∧
      ∀ x xs, t.du.input = x :: xs →
        (x = t.work.introducer → reoffer t = { t with du := { t.du with
          input := xs, blocked := false, line := { t.du.line with state := .collecting, collection := [], overlong := false } } }) ∧
        (x ≠ t.work.introducer → x = t.work.terminator →
          reoffer t = { t with du := { t.du with input := xs, blocked := false } }) ∧
        (x ≠ t.work.introducer → x ≠ t.work.terminator → reoffer t = taken t x xs)) ∧
    (∀ data, deliver .inboundText data t = { t with du := { t.du with inboundOut := false } }) ∧
    (t.pqu.asm.complete = true ∨ ¬ more → inboundBursts t = (n + 7) / 8) ∧
    (t.pqu.asm.complete = false → more → inboundBursts t = n / 8) ∧
    inboundDue t = { t with du := { t.du with
      due := t.du.due ++ List.replicate (inboundBursts t - t.du.due.countP (· == .inbound)) .inbound } } ∧
    (∀ rest, t.jmc.busy .du = false → t.du.due = .inbound :: rest → bytes ≠ [] → duKick t = { t with
      jmc := t.jmc.request .du ⟨true, .ring .inbound t.du.unwrittenAt, bytes.length, bytes, .inboundText⟩
      du := { t.du with
        due := rest, unwritten := t.du.unwritten.drop 8, inboundOut := true
        unwrittenAt := (t.du.unwrittenAt + bytes.length) % t.inboundSize } })

/-! ## The head -/

/-- A warm phase ends and the cold phase follows; a strobe ends and its group is no longer energised, every other group staying. A
paper-feed step ends: while PRINTING the previous-row image takes the row's pattern and the next row follows, or after the line's
last row the descriptor leaves the list, its INBOUND text is released, and the head is IDLE on an empty list; while PAUSED in a
feed the row fed is counted off. Which bursts bring a line's text, those of a label being the model's choice (log entry 46), and
the code of each of its columns. What makes the next row: its start, the row built from the text and the overlay glyphs read, its
groups laid out, and their strobes begun with the dots each phase fires. That the sample of a row start is made before a POWER
pause of that row start, and that a step which ends while PAUSED counts a row of a FEED, are the model's choices (DESIGN CHOICE,
log entry 15); that a row's glyph bursts come when all its text bursts have completed is the model's choice too (log entry 51);
the shapes of the ROM's glyphs are not known (log entry 3). -/
def Obligations.RowPrinted : Prop :=
  ∀ s : State,
    (∀ g t, t ∈ s.hdu.energised → t.group = g →
      (t.inWarm = true → t.hasCold = true → exec (.warmPhaseEnd g) s = .next (finish { s with hdu := { s.hdu with
        energised := s.hdu.energised.map fun u => if u.group = g then { u with inWarm := false } else u } })) ∧
      (¬ (t.inWarm = true ∧ t.hasCold = true) → exec (.strobeEnd g) s = .next (finish { s with hdu := { s.hdu with
        energised := s.hdu.energised.filter fun u => u.group != g } }))) ∧
    (∀ celsius, s.pm.power.awake = true → s.hdu.stepping = true →
      let u : State := { s with pins := { s.pins with thermistor := celsius } }
      (∀ a, s.hdu.head = .printing → s.hdu.active = some a → a.phase = .feeding →
        (a.row + 1 < s.frontRows → exec (.feedStepEnd celsius) s = .next (finish { u with hdu := { s.hdu with
          stepping := false, prev := s.hdu.rowBuf.getD noDots, active := none, next := a.row + 1, nextDone := [],
          rowBuf := s.hdu.nextBuf, nextBuf := none } })) ∧
        (∀ d, s.pqu.list = [d] → d.rows ≤ a.row + 1 → ∃ e, exec (.feedStepEnd celsius) s = .next (finish e) ∧
          e.pqu.list = [] ∧ e.hdu = { s.hdu with
            stepping := false, prev := s.hdu.rowBuf.getD noDots, active := none, next := 0, nextDone := [], rowBuf := none,
            nextBuf := none, build := none, resume := none, head := .idle, pauseTimer := false } ∧
          (∀ n, d = .feed n → e = { u with pqu := e.pqu, hdu := e.hdu } ∧ e.pqu = { s.pqu with list := [] }) ∧
          (∀ part start n cells, d = .inbound part start n cells → s.du.blocked = false →
            e.pqu.ring = s.pqu.ring.release s.inboundSize n)) ∧
        (∀ d d' rest, s.pqu.list = d :: d' :: rest → d.rows ≤ a.row + 1 → exec (.feedStepEnd celsius) s =
          .next (finish (finishFront { u with hdu := { s.hdu with
            stepping := false, prev := s.hdu.rowBuf.getD noDots, active := none, next := 0, nextDone := [], rowBuf := none,
            nextBuf := none, build := none, resume := none } })))) ∧
      (∀ n left rest, s.hdu.head = .paused → s.hdu.active = none → s.hdu.resume = some (.feed left) → left ≤ 1 →
        s.pqu.list = .feed n :: rest →
        let h := { s.hdu with
          stepping := false, next := 0, nextDone := [], rowBuf := none, nextBuf := none, build := none, resume := none }
        exec (.feedStepEnd celsius) s = .next (finish { u with
          pqu := { s.pqu with list := rest }
          hdu := match rest with
            | [] => { h with head := .idle, pauseTimer := false }
            | .feed r :: _ => { h with resume := some (.feed r) }
            | _ :: _ => { h with resume := some (.text 0 []) } })) ∧
      (∀ left, s.hdu.head = .paused → s.hdu.active = none → s.hdu.resume = some (.feed left) → 1 < left →
        exec (.feedStepEnd celsius) s =
          .next (finish { u with hdu := { s.hdu with stepping := false, resume := some (.feed (left - 1)) } }))) ∧
    (∀ d rest, s.pqu.list = d :: rest → s.hdu.head = .printing → s.hdu.active = none → s.hdu.stepping = false →
      s.hdu.energised = [] →
      let h := s.hdu.sample s.pins.thermistor
      let cause := h.paper = true ∨ h.lid = true ∨ h.hot = true ∨ h.power = true
      rowStart s = { s with
        jmc := if cause ∧ h.build.isSome = true then s.jmc.abandon .hdu else s.jmc
        hdu := if cause then { h with
            head := .paused, active := none, next := 0, nextDone := [], rowBuf := none, nextBuf := none, build := none,
            prev := noDots, pauseTimer := true
            resume := some (match d with
              | .feed n => .feed (n - h.next)
              | _ => .text h.next h.nextDone) }
          else { h with active := some ⟨h.next, h.band, .waiting, [], h.nextDone⟩, nextDone := [] } }) ∧
    (let spool := fun o n => (List.range ((n + 7) / 8)).map fun i =>
      (Place.ring .spool ((o + 8 * i) % s.spoolSize), min 8 (n - 8 * i))
    (∀ part start n cells, (∀ o ∈ cells.filterMap id, o < s.inboundSize) → ∃ runs : List (Nat × Nat),
      textRuns s (.inbound part start n cells) = runs.map (fun (o, l) => (.ring .inbound o, l)) ∧
      cells.filterMap id = runs.flatMap (fun (o, l) => (List.range l).map fun i => (o + i) % s.inboundSize) ∧
      (∀ r ∈ runs, 1 ≤ r.2 ∧ r.2 ≤ 8) ∧
      ∀ before x y after, runs = before ++ x :: y :: after → x.2 = 8 ∨ (x.1 + x.2) % s.inboundSize ≠ y.1) ∧
    (∀ m o n, o < s.spoolSize → n ≤ 40 → textRuns s (.echoText m o n) = spool o n) ∧
    (∀ m k f o n, o < s.spoolSize → n ≤ 24 →
      let label := s.work.map.form.base + (k - 1) * 256 + 14 + 14 * (f - 1)
      textRuns s (.echoField m k f o n) = [(.addr label, 8), (.addr (label + 8), 4)] ++ spool o n) ∧
    (∀ n, textRuns s (.notice n) = [] ∧ textRuns s (.feed n) = [])) ∧
    (∀ text : Text,
      (∀ part start n cells i, (columnCodes s (.inbound part start n cells) text)[i]? =
        cells[i]?.map fun cell : Option Nat => cell.bind fun _ => text[((cells.take i).filterMap id).length]?) ∧
      (∀ m o n, columnCodes s (.echoText m o n) text = text.map some) ∧
      (∀ m k f o n, columnCodes s (.echoField m k f o n) text =
        ((text.take 12).takeWhile (· ≠ 0) ++ [0x3A, 0x20] ++ text.drop 12).map some) ∧
      (∀ n, columnCodes s (.notice n) text = (s.pqu.noticeAt n).text.map some) ∧
      ∀ n, columnCodes s (.feed n) text = []) ∧
    (∀ d rest row, s.pqu.list = d :: rest →
      (12 ≤ row ∨ (∃ n, d = .feed n) → beginBuild row s = { s with hdu := s.hdu.built row noDots }) ∧
      (row < 12 → (∀ n, d ≠ .feed n) → textRuns s d ≠ [] →
        beginBuild row s = { s with hdu := { s.hdu with build := some ⟨row, textRuns s d, [], false, [], []⟩ } }) ∧
      (row < 12 → (∀ n, d ≠ .feed n) → textRuns s d = [] →
        let columns := ((columnCodes s d []).take 40).map (columnByte s.hdu row)
        let cells := padTo 40 (columns.map Prod.fst)
        let glyphs := columns.zipIdx.filterMap fun (c, i) =>
          c.2.map fun g => (i, s.work.map.glyph.base + (g - 128) * 12 + row)
        beginBuild row s = { s with
          hdu := if glyphs = [] then s.hdu.built row cells
          else { s.hdu with build := some ⟨row, [], [], true, glyphs, cells⟩ } })) ∧
    (∀ d rest b data, s.pqu.list = d :: rest → s.hdu.build = some b →
      (∀ x y ys, b.runs = x :: y :: ys → b.texted = false → deliver .rowText data s = { s with hdu := { s.hdu with
        build := some { b with runs := y :: ys, text := b.text ++ data } } }) ∧
      (∀ x, b.runs = [x] →
        let columns := ((columnCodes s d (b.text ++ data)).take 40).map (columnByte s.hdu b.row)
        let cells := padTo 40 (columns.map Prod.fst)
        let glyphs := columns.zipIdx.filterMap fun (c, i) =>
          c.2.map fun g => (i, s.work.map.glyph.base + (g - 128) * 12 + b.row)
        deliver .rowText data s = { s with
          hdu := if glyphs = [] then s.hdu.built b.row cells
          else { s.hdu with build := some ⟨b.row, [], b.text ++ data, true, glyphs, cells⟩ } }) ∧
      (∀ i a more x, b.glyphs = (i, a) :: more → deliver (.glyphRow i) [x] s = { s with
        hdu := if more = [] then s.hdu.built b.row (b.cells.set i x)
        else { s.hdu with build := some { b with glyphs := more, cells := b.cells.set i x } } })) ∧
    (∀ row p, s.hdu.built row p =
      if row = (match s.hdu.active with
        | some a => a.row
        | none => s.hdu.next) then { s.hdu with rowBuf := some p, build := none }
      else { s.hdu with nextBuf := some p, build := none }) ∧
    (∀ r c,
      columnByte s.hdu r none = (0, none) ∧
      (∀ i, kindOf s.hdu.codes c = .glyph i → columnByte s.hdu r (some c) =
        if i = 32 then (0, none) else if i < 128 then (Config.glyphRom i r, none)
        else if s.hdu.loaded.getLsbD (i - 128) = true then (0, some i) else (Config.glyphRom 127 r, none)) ∧
      (kindOf s.hdu.codes c = .substitute → columnByte s.hdu r (some c) = (Config.glyphRom 127 r, none)) ∧
      (kindOf s.hdu.codes c = .lineEnd ∨ kindOf s.hdu.codes c = .tab ∨ kindOf s.hdu.codes c = .ignored →
        columnByte s.hdu r (some c) = (0, none))) ∧
    (∀ a p, s.hdu.active = some a → s.hdu.rowBuf = some p → a.phase = .waiting → s.hdu.loading = none →
      s.hdu.head = .printing → layOut s = { s with hdu := { s.hdu with active := some { a with
        phase := .strobing, todo := (List.range' 1 8).filter fun g => hasStrobe s a p g && !a.begun.contains g } } }) ∧
    (∀ a p g,
      let t := strobeOf s a p g
      t.group = g ∧ t.base = effectiveBase s.work a.band s.pm.band ∧ t.warm = warmDuration s.work t.base ∧
      t.share = (p.drop (5 * (g - 1))).take 5 ∧
      t.new = List.zipWith (fun x y => x &&& ~~~y) t.share ((s.hdu.prev.drop (5 * (g - 1))).take 5) ∧
      (t.inWarm = true ↔ t.warm ≠ 0) ∧ (t.hasCold = true ↔ (∃ x ∈ t.new, x ≠ 0) ∧ t.warm < t.base) ∧
      (hasStrobe s a p g = true ↔ (∃ x ∈ t.share, x ≠ 0) ∧ (t.inWarm = true ∨ t.hasCold = true)) ∧
      t.firing = if t.inWarm = true then t.share else t.new) ∧
    (∀ a g todo n, s.hdu.active = some a → a.todo = g :: todo → a.phase = .strobing → s.hdu.head = .printing →
      (s.hdu.energised.length < s.hdu.limit → startStrobes (n + 1) s = startStrobes n { s with
        hdu := { s.hdu with
          energised := s.hdu.energised ++ [strobeOf s a (s.hdu.rowBuf.getD noDots) g]
          active := some { a with todo := todo, begun := a.begun ++ [g] } }
        ksu := { s.ksu with scan := s.ksu.scan.map fun c => { c with disturbed := true } } }) ∧
      (s.hdu.limit ≤ s.hdu.energised.length → startStrobes (n + 1) s = s))

/-- The strobe durations: the effective base, rounded with an exact half to the even neighbour, the warm duration, and the group
limit; and what a load changes of the print tables when it is applied at a line boundary: the code table, one row of the heat
table, the density and the warm ratio; the glyphs of an LG begin to be written, and its last write sets their flags and answers
DONE. A load applied has row 0 built again: that a build of it still in progress is dropped too, its waiting burst withdrawn and
the data of one in progress discarded, is the model's choice (log entry 55). The waiting loads are applied in their order at a
line boundary; where row 0 has no strobe, and for a head PAUSED in row 0 with groups done, what counts as one is the model's
choice (log entry 40). -/
def Obligations.HeatAndPrintTables : Prop :=
  ∀ (w : Settings) (n : Nat) (t : TempBand) (b : BatteryBand) (on : Bool),
    (roundSixteenths n * 16 ≤ n + 8 ∧ n ≤ roundSixteenths n * 16 + 8 ∧ (n % 16 = 8 → roundSixteenths n % 2 = 0)) ∧
    effectiveBase w t b = roundSixteenths (w.heat.getD (3 * t.row + b.column) 0 * (16 + w.density - 4)) ∧
    warmDuration w n = roundSixteenths (n * w.warm) ∧
    groupLimit .high false = 4 ∧ groupLimit .high true = 3 ∧ groupLimit .mid false = 3 ∧ groupLimit .mid true = 2 ∧
    groupLimit .low false = 2 ∧ groupLimit .low true = 1 ∧ groupLimit .critical on = 0 ∧ groupLimit .exhausted on = 0 ∧
    (∀ (s : State) (first row h m l code : Nat) (warm : Option Nat) (rows : Text) (ks : List CodeKind) (c : Ctx),
      let again : State := { s with
        jmc := if s.hdu.build.isSome = true then s.jmc.abandon .hdu else s.jmc
        hdu := { s.hdu with
          build := none, rowBuf := none, nextBuf := none
          active := s.hdu.active.map fun a => { a with phase := .waiting, todo := [] } } }
      applyLoad c .codesDefault s = ended c .done [] [] { again with hdu := { again.hdu with codes := defaultCodes } } ∧
      applyLoad c (.codes first ks) s =
        ended c .done [] [] { again with hdu := { again.hdu with codes := putCodes s.hdu.codes first ks } } ∧
      applyLoad c (.heat row h m l) s = ended c .done [] [] { again with
        work := { s.work with heat := ((s.work.heat.set (3 * row) h).set (3 * row + 1) m).set (3 * row + 2) l } } ∧
      applyLoad c (.density code warm) s = ended c .done [] [] { again with
        work := { s.work with density := code, warm := warm.getD s.work.warm } } ∧
      applyLoad c (.glyphs first rows) s = { again with hdu := { again.hdu with
        loading := some ⟨c, first, rows.length / 12, writesAt (s.work.map.glyph.base + (first - 128) * 12) rows⟩ } }) ∧
    (∀ (s : State) (c : Ctx) (first i : Nat) (ks : List CodeKind), s.hdu.codes.length = 256 → first + ks.length ≤ 256 → i < 256 →
      (putCodes s.hdu.codes first ks)[i]? = (applyLoad c (.codes first ks) s).hdu.codes[i]? ∧
      (applyLoad c (.codes first ks) s).hdu.codes[i]? =
        if first ≤ i ∧ i < first + ks.length then ks[i - first]? else s.hdu.codes[i]?) ∧
    (∀ (s : State) (c : Ctx) (l : Load) (rest : List (Ctx × Load)) (k : Nat), s.hdu.loads = (c, l) :: rest →
      (s.hdu.loading = none → atBoundary s = true → applyLoads (k + 1) s =
        applyLoads k (applyLoad c l { s with hdu := { s.hdu with loads := rest } })) ∧
      (s.hdu.loading.isSome = true ∨ atBoundary s = false → applyLoads (k + 1) s = s)) ∧
    (∀ s : State,
      (s.pqu.list = [] ∨ s.hdu.head = .idle → atBoundary s = true) ∧
      (∀ d rest, s.pqu.list = d :: rest →
        (∀ a, s.hdu.head = .printing → s.hdu.active = some a →
          (atBoundary s = true ↔ a.row = 0 ∧ a.begun = [] ∧ a.phase ≠ .feeding)) ∧
        (s.hdu.head = .printing → s.hdu.active = none →
          (atBoundary s = true ↔ s.hdu.next = 0 ∧ s.hdu.nextDone = [] ∧ s.hdu.stepping = false)) ∧
        (s.hdu.head = .paused → (atBoundary s = true ↔ s.hdu.resume = some (match d with
          | .feed r => .feed r
          | _ => .text 0 []))))) ∧
    (∀ (s : State) (g : GlyphLoad), s.hdu.loading = some g →
      (∀ x y ys, g.todo = x :: y :: ys → deliver .loadGlyphs [] s = { s with hdu := { s.hdu with
        loading := some { g with todo := y :: ys } } }) ∧
      (∀ x, g.todo = [x] → deliver .loadGlyphs [] s = ended g.ctx .done [] [] { s with
        hdu := { s.hdu with loading := none, loaded := s.hdu.loaded ||| glyphFlags g.first g.count }
        spu := s.spu.dueItem .header })) ∧
    (∀ g k i, 128 ≤ g → i < 64 → ((glyphFlags g k).getLsbD i = true ↔ g ≤ i + 128 ∧ i + 128 < g + k))

/-- A sensor's report changes and its timing starts, or a report that reverts is disregarded; a report taken sets or clears its
cause. Taken while PRINTING, paper absent or the lid open pauses the head, a text line at row 0 and a FEED at its rows not yet
fed, with the row discarded, the burst of a row being built withdrawn, the previous-row image all-off and the pause timer started.
Taken while PAUSED in a text line it moves the resume point to row 0. A thermistor sample outside a row gives the reading, the
band, and HOT, which is set at 60 and clears at 50 or below; inside a row, and in DOZE, it tells only what the next sample will
read (log entry 5). The head's own turns, in the model's order (log entry 6): for a listed descriptor it leaves IDLE, to PRINTING,
or with a cause set to PAUSED at row 0, and with the last cause gone it prints from its resume point; POWER pauses it in a row
that has groups not begun, with the groups done kept; the row in hand is built, a row whose strobes are complete is fed, and the
next row is built meanwhile; and the head asks the bus for its next burst. That HOT found while a row waits for its build acts at
the next row start is the model's choice (log entry 15). -/
def Obligations.SensorReports : Prop :=
  (∀ (s : State) (c : Int), s.pm.power = .doze ∨ s.pm.power.awake = true ∧ s.hdu.inRow = true →
    exec (.temperatureSample c) s = .next (finish { s with pins := { s.pins with thermistor := c } })) ∧
  (∀ s : State, s.hdu.inRow = true ↔ s.hdu.head = .printing ∧ ∃ a, s.hdu.active = some a ∧ a.phase ≠ .waiting) ∧
  (∀ (j : Jmc) (who : Requester),
    (j.abandon who).req who = ⟨none, 0⟩ ∧ (∀ v, v ≠ who → (j.abandon who).req v = j.req v) ∧
    (j.abandon who).current = j.current.map fun c => if c.who = who then { c with wanted := false } else c) ∧
  (∀ s : State,
    let cause := s.hdu.paper = true ∨ s.hdu.lid = true ∨ s.hdu.hot = true ∨ s.hdu.power = true
    let paused := fun r : Resume => { s with
      hdu := { s.hdu with
        head := .paused, resume := some r, active := none, next := 0, nextDone := [], rowBuf := none, nextBuf := none
        build := none, prev := noDots, pauseTimer := true }
      jmc := if s.hdu.build.isSome = true then s.jmc.abandon .hdu else s.jmc }
    let prints := fun (row : Nat) (groups : List Nat) => { s with hdu := { s.hdu with
      head := .printing, resume := none, next := row, nextDone := groups, pauseTimer := false, suspended := false } }
    (s.pqu.list = [] ∨ s.hdu.head = .printing ∨ s.hdu.head = .paused ∧ cause → headEnter s = s) ∧
    (∀ d rest, s.pqu.list = d :: rest →
      (s.hdu.head = .idle → cause → headEnter s = paused (match d with
        | .feed n => .feed n
        | _ => .text 0 [])) ∧
      (s.hdu.head = .idle → ¬ cause → headEnter s = { s with hdu := { s.hdu with
        head := .printing, next := 0, nextDone := [], suspended := false } }) ∧
      (s.hdu.head = .paused → ¬ cause →
        (∀ r g, s.hdu.resume = some (.text r g) → headEnter s = prints r g) ∧
        (∀ n left, d = .feed n → s.hdu.resume = some (.feed left) → headEnter s = prints (n - left) [])) ∧
      (∀ a, s.hdu.active = some a → s.hdu.power = true → s.hdu.head = .printing → s.hdu.energised = [] →
        a.phase = .waiting ∨ a.phase = .strobing ∧ a.todo ≠ [] → powerPause s = paused (match d with
          | .feed n => .feed (n - a.row)
          | _ => .text a.row a.begun))) ∧
    (s.pqu.list = [] ∨ s.hdu.power = false ∨ s.hdu.head ≠ .printing ∨ s.hdu.energised ≠ [] ∨
        (∀ a, s.hdu.active = some a → a.phase = .feeding ∨ a.phase = .strobing ∧ a.todo = []) → powerPause s = s) ∧
    (∀ a, s.hdu.active = some a →
      let build := a.phase = .waiting ∧ s.hdu.rowBuf = none ∧ s.hdu.build = none ∧ s.hdu.loading = none
      let feed := a.phase = .strobing ∧ a.todo = [] ∧ s.hdu.energised = [] ∧ s.hdu.head = .printing
      let next := a.row + 1 < s.frontRows ∧ s.hdu.rowBuf ≠ none ∧ s.hdu.nextBuf = none ∧ s.hdu.build = none ∧ s.hdu.loading = none
      (build → buildCurrent s = beginBuild a.row s) ∧ (¬ build → buildCurrent s = s) ∧
      (feed → beginFeed s = { s with hdu := { s.hdu with active := some { a with phase := .feeding }, stepping := true } }) ∧
      (¬ feed → beginFeed s = s) ∧ (next → buildNext s = beginBuild (a.row + 1) s) ∧ (¬ next → buildNext s = s)) ∧
    (s.hdu.active = none → buildCurrent s = s ∧ beginFeed s = s ∧ buildNext s = s) ∧
    (∀ d rest, s.pqu.list = d :: rest → s.frontRows = match d with
      | .feed n => n
      | _ => 14) ∧
    (let t := hduRequest (buildNext (beginFeed (powerPause (startStrobes 8 (layOut (buildCurrent (rowStart (headEnter s))))))))
    hduKick s = { s with hdu := t.hdu, jmc := t.jmc, ksu := { s.ksu with scan := t.ksu.scan } }) ∧
    (s.jmc.busy .hdu = true ∨ hduBurst s.hdu = none → hduRequest s = s) ∧
    (∀ b, s.jmc.busy .hdu = false → hduBurst s.hdu = some b → hduRequest s = { s with jmc := s.jmc.request .hdu b }) ∧
    (∀ g a d todo, s.hdu.loading = some g → g.todo = (a, d) :: todo →
      hduBurst s.hdu = some ⟨true, .addr a, d.length, d, .loadGlyphs⟩) ∧
    (s.hdu.loading = none → (s.hdu.build = none → hduBurst s.hdu = none) ∧ ∀ b, s.hdu.build = some b →
      (∀ p n runs, b.runs = (p, n) :: runs → hduBurst s.hdu = some ⟨false, p, n, [], .rowText⟩) ∧
      (∀ i a glyphs, b.runs = [] → b.glyphs = (i, a) :: glyphs → hduBurst s.hdu = some ⟨false, .addr a, 1, [], .glyphRow i⟩))) ∧
  ∀ (s : State) (bad : Bool), s.pm.power.awake = true →
    exec (.sensorChange .paper bad) s = .next (finish { s with
      pins := { s.pins with paperAbsent := bad }, hdu := { s.hdu with paperTiming := bad != s.hdu.paper } }) ∧
    exec (.sensorChange .lid bad) s = .next (finish { s with
      pins := { s.pins with lidOpen := bad }, hdu := { s.hdu with lidTiming := bad != s.hdu.lid } }) ∧
    (s.hdu.paperTiming = true → s.hdu.head = .idle ∨ s.pins.paperAbsent = false → exec (.sensorReportTaken .paper) s =
      .next (finish { s with hdu := { s.hdu with paper := s.pins.paperAbsent, paperTiming := false } })) ∧
    (s.hdu.lidTiming = true → s.hdu.head = .idle ∨ s.pins.lidOpen = false → exec (.sensorReportTaken .lid) s =
      .next (finish { s with hdu := { s.hdu with lid := s.pins.lidOpen, lidTiming := false } })) ∧
    (∀ d rest, s.hdu.head = .printing → s.pqu.list = d :: rest →
      let row := match s.hdu.active with
        | some a => a.row
        | none => s.hdu.next
      let cut : Hdu := { s.hdu with
        head := .paused, active := none, next := 0, nextDone := [], rowBuf := none, nextBuf := none, build := none, prev := noDots
        pauseTimer := true
        resume := some (match d with
          | .feed n => .feed (n - row)
          | _ => .text 0 []) }
      let bus := if s.hdu.build.isSome = true then s.jmc.abandon .hdu else s.jmc
      (s.hdu.paperTiming = true → s.pins.paperAbsent = true → exec (.sensorReportTaken .paper) s =
        .next (finish { s with hdu := { cut with paper := true, paperTiming := false }, jmc := bus })) ∧
      (s.hdu.lidTiming = true → s.pins.lidOpen = true → exec (.sensorReportTaken .lid) s =
        .next (finish { s with hdu := { cut with lid := true, lidTiming := false }, jmc := bus }))) ∧
    (s.hdu.head = .paused →
      let moved : Option Resume := match s.hdu.resume with
        | some (.text _ _) => some (.text 0 [])
        | r => r
      (s.hdu.paperTiming = true → s.pins.paperAbsent = true → exec (.sensorReportTaken .paper) s =
        .next (finish { s with hdu := { s.hdu with paper := true, paperTiming := false, resume := moved } })) ∧
      (s.hdu.lidTiming = true → s.pins.lidOpen = true → exec (.sensorReportTaken .lid) s =
        .next (finish { s with hdu := { s.hdu with lid := true, lidTiming := false, resume := moved } }))) ∧
    (∀ c, s.hdu.inRow = false →
      exec (.temperatureSample c) s = .next (finish { s with
        pins := { s.pins with thermistor := c }
        hdu := { s.hdu with
          reading := c, band := tempBand c
          hot := if s.hdu.hot = true then !decide (c ≤ 50) else decide (60 ≤ c) } }) ∧
      tempBand c = if c < 10 then .cold else if c < 45 then .normal else if c < 60 then .warm else .hot)

/-! ## Power and settings -/

/-- Battery samples: one in the band held clears the candidate, a first one in another band is the candidate, a second in that band
changes the band, with BATTERY LOW on falling to CRITICAL, and the head's limit and POWER cause at once, or in DOZE at the wake for
a line. On EXHAUSTED shutdown begins: the line is ended with the cause POWER, and the journal is secured, what staging holds taken
as a flush or lost, its cursor behind a flush in progress being the model's choice, as is that a second request to secure changes
nothing (log entries 22 and 23). In SHUTDOWN a second sample EXHAUSTED changes the band and the head's limit and cause, and the
shutdown goes on. The bands' thresholds. -/
def Obligations.BatterySamples : Prop :=
  ∀ (s : State) (n : Nat), s.pm.power ≠ .off →
    let b := batteryBand n
    let u : State := { s with pins := { s.pins with battery := n } }
    (b = s.pm.band → exec (.batterySample n) s = .next (finish { u with pm := { s.pm with candidate := none } })) ∧
    (b ≠ s.pm.band → s.pm.candidate ≠ some b → exec (.batterySample n) s =
      .next (finish { u with pm := { s.pm with candidate := some b } })) ∧
    (b ≠ s.pm.band → s.pm.candidate = some b → b ≠ .exhausted → s.pm.power ≠ .doze → exec (.batterySample n) s =
      .next (finish { u with
        pm := { s.pm with band := b, candidate := none }
        hdu := { s.hdu with limit := groupLimit b s.clu.line.txOn, power := b.weak }
        pqu := if b = .critical ∧ s.pm.band.weak = false then s.pqu.raise (ascii "BATTERY LOW") else s.pqu })) ∧
    (b ≠ s.pm.band → s.pm.candidate = some b → b ≠ .exhausted → s.pm.power = .doze → exec (.batterySample n) s =
      .next (finish { u with
        pm := { s.pm with band := b, candidate := none }
        pqu := if b = .critical ∧ s.pm.band.weak = false then s.pqu.raise (ascii "BATTERY LOW") else s.pqu })) ∧
    (s.pm.power = .doze → s.pqu.list ≠ [] → (wakeForLine s).pm.power = .run ∧ (wakeForLine s).hdu.power = s.pm.band.weak ∧
      (wakeForLine s).hdu.limit = groupLimit s.pm.band s.clu.line.txOn) ∧
    (b ≠ s.pm.band → s.pm.candidate = some b → b = .exhausted → s.pm.power = .shutdown → exec (.batterySample n) s =
      .next (finish { u with
        pm := { s.pm with band := .exhausted, candidate := none }, hdu := { s.hdu with limit := 0, power := true } })) ∧
    (b = if 5000 ≤ n then .high else if 4700 ≤ n then .mid else if 4400 ≤ n then .low else if 4200 ≤ n then .critical
      else .exhausted) ∧
    (∀ w : BatteryBand, w.weak = true ↔ w = .critical ∨ w = .exhausted) ∧
    (b ≠ s.pm.band → s.pm.candidate = some b → b = .exhausted → s.pm.power ≠ .shutdown → ∃ l e,
      exec (.batterySample n) s = .next (finish e) ∧ e.pm.power = .shutdown ∧ e.pm.stage = .shutdown ∧ e.pm.band = .exhausted ∧
      e.spu.securing = true ∧ Secured l e ∧ LineEnded { u with
        pm := { s.pm with band := .exhausted, candidate := none, power := .shutdown, stage := .shutdown }
        hdu := if s.pm.power = .doze then s.hdu else { s.hdu with limit := 0, power := true } } l)

/-- Power: start-up acts only on a part with no power, and with the battery EXHAUSTED leaves it without; the removal of the battery
loses every working state and tears a write burst in progress, of which each byte reads its new value or its old one by the
command's bit, while all others stay. The part with no power is the model's own state (log entry 2), and which bytes land when
start-up itself finds the battery EXHAUSTED is free (log entry 4). Start-up sets every counter to 0 and raises its notices in their
order, of which 8 find a place; the default keymap and code table are in force. That an alert that sounds goes on is the model's
choice (log entry 37). That the settings memory stands when a write of it is cut off, and a mark then stands for the failing check,
is the model's choice too (log entry 8). The settings in force after start-up: the stored bytes by their mark and check, each value
out of its range at its default, the memory size and map judged, and then the marks, with SETTINGS DEFAULTED raised. The carrier is
judged from the energy last told (log entry 42).

Start-up's restores: the form slots judged by their check; the journal reset where the header does not pass, where power was lost
before an SR completed (log entry 32), or where the records do not lay out; otherwise the entry list, the rings' ends, the full mark
and the serial counter from the header and the records. Which listed records are good, judged in list order, and the entry each
restores. The spans: a run of DAMAGED slots takes the bytes between its neighbours, 4095 to each slot in order and what is left to
the last; at the end of the list it takes those up to the head, the whole ring where no record is good and the header says it is
full; a distance its slots cannot cover resets the journal. The records due are those of the entries DAMAGED or restored from
SENDING or AWAITING. The composer is set from a restored OPEN entry. The model's choices in this (log entry 10): a list count above
32 taken as 32, slot numbers outside 1 to 32 or named again passed over, ring offsets taken modulo the ring's size, a serial counter
of 0 taken as 1, a full flag of another value than 1 taken as clear, an ORDER with no cursor in its record at field 1 and one above
17 at END, a class byte above 05h as no class, attempts above 15 cut to 15, and which records are due. -/
def Obligations.PowerOnAndOff : Prop :=
  (∀ (s : State) (n : Nat) (c : Int) (p l : Bool) (landed : BitVec 8),
    (s.pm.power ≠ .off → exec (.powerOn n c p l) s = .next s) ∧
    (s.pm.power = .off → batteryBand n ≠ .exhausted → ∃ e, exec (.powerOn n c p l) s = .next (finish e) ∧
      StartedUp { s with pins := ⟨n, c, s.pins.energy, p, l⟩ } e) ∧
    (s.pm.power = .off → batteryBand n = .exhausted → ∃ e torn, exec (.powerOn n c p l) s = .next (finish e) ∧
      PowerLost torn { s with pins := ⟨n, c, s.pins.energy, p, l⟩ } e ∧ e.pm.power = .off) ∧
    (∃ t, exec (.batteryRemoved landed) s = .next t ∧ PowerLost landed s t ∧ t.fresh = s.fresh)) ∧
  (∀ (s : State) (w : Settings),
    let l := s.mem.readAll (addrsFrom 0 64)
    (s.regionsCut = true ∨ headerGood l w = false → s.restored w = ⟨Spu.reset.dueItem .header, 0, [], true⟩) ∧
    (s.regionsCut = false → s.restored w = restoreSpool s.mem w) ∧
    (headerGood l w = true ↔ l[0]? = some 0x5A ∧ l[1]? = some 0xA5 ∧ checkBytes (l.take 59) = (l.drop 59).take 2 ∧
      (l.drop 42).take 9 = stampBytes w.memSize w.map)) ∧
  (∀ (m : Memory) (w : Settings),
    let l := m.readAll (addrsFrom 0 64)
    let size := w.map.spool.size
    let tail := wordAt l 37 % size
    let judged := judgeRecords m tail size (headerSlots l) []
    let whole := judged.all (fun p => p.2.isNone) && byteAt l 41 == 1
    let laid := layEntries size (wordAt l 39 % size) whole judged.reverse [] tail
    let r := restoreSpool m w
    headerGood l w = true →
    (laid = none → r = ⟨Spu.reset.dueItem .header, 0, [], true⟩) ∧
    ∀ es, laid = some es →
      let head := match es.getLast? with
        | some (_, e) => (e.start + e.length) % size
        | none => tail
      let sum := (es.map fun p => p.2.length).sum
      r.spu = { Spu.reset with
        table := r.spu.table, due := r.spu.due, order := es.map Prod.fst
        serialNext := if wordAt l 2 = 0 then 1 else wordAt l 2, ring := ⟨tail, head, decide (sum = size ∧ 0 < sum)⟩ } ∧
      r.spu.order = headerSlots l ∧ (∀ n e, (n, e) ∈ es → r.spu.entry n = e) ∧
      (∀ n, 1 ≤ n → n ∉ r.spu.order → r.spu.entry n = freeEntry) ∧
      (∀ i < 64, r.loaded.getLsbD i = (l.getD (51 + i / 8) 0).getLsbD (i % 8)) ∧
      r.damaged = (es.filter fun p => p.2.state == .damaged).map Prod.fst ∧ r.wiped = false) ∧
  (∀ l : Text,
    let listed := ((l.drop 5).take (min 32 (byteAt l 4))).map BitVec.toNat
    (∀ n ∈ headerSlots l, 1 ≤ n ∧ n ≤ 32) ∧ (headerSlots l).Nodup ∧
    ((∀ n ∈ listed, 1 ≤ n ∧ n ≤ 32) → listed.Nodup → headerSlots l = listed)) ∧
  (∀ (m : Memory) (tail size n : Nat) (rest : List Nat) (e : Entry) (before : Judged),
    judgeRecords m tail size [] before = before ∧
    judgeRecords m tail size (n :: rest) before = judgeRecords m tail size rest
      ((n, recordGood (m.readAll (addrsFrom (64 + 14 * (n - 1)) 14)) tail size before rest.isEmpty) :: before) ∧
    expectedStart tail size [] = some tail ∧ expectedStart tail size ((n, none) :: before) = none ∧
    expectedStart tail size ((n, some e) :: before) =
      if e.state = .damaged then none else some ((e.start + e.length) % size)) ∧
  (∀ (m : Memory) (map : RegionMap) (k : Nat),
    let l := m.readAll (addrsFrom (map.form.base + (k - 1) * 256) 256)
    judgeForm m map k = if formLoadedOk l = true then { emptyForm with status := .loaded, count := byteAt l 1 } else emptyForm) ∧
  (∀ (l : Text) (tail size : Nat) (before : Judged) (last : Bool) (e : Entry),
    recordGood l tail size before last = some e ↔ ∃ st, EntryState.ofCode (byteAt l 0) = some st ∧ e = recordEntry l st ∧
      checkBytes (l.take 12) = (l.drop 12).take 2 ∧ st ≠ .free ∧
      (∀ o, expectedStart tail size before = some o → wordAt l 5 = o) ∧ wordAt l 7 ≤ 4095 ∧
      (st = .opened → last = true) ∧
      (st = .closed ∨ st = .sending ∨ st = .awaiting ∨ st = .sent ∨ st = .rejected → wordAt l 3 ≠ 0) ∧
      (wordAt l 3 ≠ 0 → ∀ n f, (n, some f) ∈ before → f.serial ≠ some (wordAt l 3))) ∧
  (∀ (l : Text) (st : EntryState),
    let e := recordEntry l st
    e.state = (if st = .sending ∨ st = .awaiting then .closed else st) ∧
    e.serial = (if wordAt l 3 = 0 then none else some (wordAt l 3)) ∧ e.start = wordAt l 5 ∧ e.length = wordAt l 7 ∧
    e.attempts = min 15 (byteAt l 9) ∧ (st = .sending → e.interrupted = true) ∧
    e.interrupted = ((l.getD 10 0).getLsbD 0 || st == .sending) ∧ e.sentOnce = (l.getD 10 0).getLsbD 1 ∧
    e.reason = (if st = .rejected then byteAt l 11 else 0) ∧ e.reasonText = [] ∧ e.echoes = 0 ∧ e.acceptTimer = none ∧
    e.recLength = e.length ∧ e.recCursor = e.cursor ∧ e.recorded = true ∧ e.gate = .clear ∧
    (1 ≤ byteAt l 1 → byteAt l 1 ≤ 4 → e.cls = some .order ∧ e.formSlot = byteAt l 1 ∧
      e.cursor = if st ≠ .opened ∨ byteAt l 2 = 0 then none else if byteAt l 2 ≤ 16 then some (.field (byteAt l 2))
        else some .finish) ∧
    (byteAt l 1 = 5 → e.cls = some .note ∧ e.formSlot = 0 ∧ e.cursor = none) ∧
    (byteAt l 1 = 0 ∨ 5 < byteAt l 1 → e.cls = none ∧ e.formSlot = 0 ∧ e.cursor = none)) ∧
  (∀ size head start n, 0 < size → start < size → head < size → (head + size - start) % size ≤ 4095 →
    layEntries size head false [(n, none)] [] start = some [(n, { freeEntry with
      state := .damaged, start := start, length := (head + size - start) % size
      recLength := (head + size - start) % size, recorded := true })]) ∧
  (∀ (size head start : Nat) (whole : Bool) (ns : List Nat),
    let run : List (Nat × Option Entry) := ns.map fun n => (n, none)
    (∀ n e rest,
      let dist := if ns = [] then 0 else (e.start + size - start % size) % size
      layEntries size head whole (run ++ (n, some e) :: rest) [] start =
        if dist ≤ 4095 * ns.length then
          (layEntries size head whole rest [] ((e.start + e.length) % size)).map fun more =>
            damagedRun size ns start dist ++ (n, e) :: more
        else none) ∧
    (ns ≠ [] →
      let short := (head + size - start % size) % size
      let dist := if short = 0 ∧ whole = true then size else short
      layEntries size head whole run [] start =
        if dist ≤ 4095 * ns.length then some (damagedRun size ns start dist) else none) ∧
    layEntries size head whole [] [] start = some []) ∧
  (∀ (size : Nat) (ns : List Nat) (start dist : Nat), start < size →
    (damagedRun size ns start dist).length = ns.length ∧
    ∀ i n, ns[i]? = some n →
      let taken := min (4095 * i) dist
      let length := if i + 1 = ns.length then dist - taken else min 4095 (dist - taken)
      (damagedRun size ns start dist)[i]? = some (n, { freeEntry with
        state := .damaged, start := (start + taken) % size, length := length, recLength := length, recorded := true })) ∧
  (∀ (m : Memory) (w : Settings), (restoreSpool m w).wiped = false → ∀ i, i ∈ (restoreSpool m w).spu.due ↔
    ∃ n ∈ (restoreSpool m w).spu.order, i = .record n ∧
      (n ∈ (restoreSpool m w).damaged ∨ m.read (64 + 14 * (n - 1)) = 3 ∨ m.read (64 + 14 * (n - 1)) = 4)) ∧
  (∀ s : State,
    let stored := settingsOf s.settings
    let passes := s.settingsTorn = false ∧ s.settings[0]? = some 0xA5 ∧ s.settings[1]? = some 0x3C ∧
      checkBytes (s.settings.take 126) = (s.settings.drop 126).take 2
    (passes → readSettings s = stored) ∧ (¬ passes → readSettings s = (defaultSettings, true)) ∧
    let (w, d) := readSettings s
    let (size, map, d') := judgeMap w
    let (hold, res, d'') := judgeMarks w.holdMark w.resumeMark map.inbound.size
    settingsInForce s = ({ w with holdMark := hold, resumeMark := res },
      { w with holdMark := hold, resumeMark := res, memSize := size, map := map }, d || d' || d'')) ∧
  (∀ w : Settings,
    (w.memSize ∉ [8192, 16384, 32768] → judgeMap w = (8192, defaultMap 8192, true)) ∧
    (w.memSize ∈ [8192, 16384, 32768] → w.map.valid w.memSize = true → judgeMap w = (w.memSize, w.map, false)) ∧
    (w.memSize ∈ [8192, 16384, 32768] → w.map.valid w.memSize = false →
      judgeMap w = (w.memSize, defaultMap w.memSize, true))) ∧
  (∀ hold res inbound : Nat,
    let good := fun h r => 64 ≤ h ∧ h < r ∧ r ≤ inbound - 64
    (good hold res → judgeMarks hold res inbound = (hold, res, false)) ∧
    (¬ good hold res → good 256 768 → judgeMarks hold res inbound = (256, 768, true)) ∧
    (¬ good hold res → ¬ good 256 768 → judgeMarks hold res inbound = (64, inbound - 64, true))) ∧
  (∀ l : Text,
    let v := (settingsOf l).1
    let at' := byteAt l
    let inside := fun n lo hi => lo ≤ n ∧ n ≤ hi
    let kept := fun n lo hi d => if lo ≤ n ∧ n ≤ hi then n else d
    let first := kept (at' 2) 0 31 0x1C
    let last := kept (at' 3) 0 31 0x1E
    let region := fun i => (⟨256 * at' i, 256 * at' (i + 1)⟩ : Region)
    v.introducer = byteOf (if first = last then 0x1C else first) ∧ v.terminator = byteOf (if first = last then 0x1E else last) ∧
    v.listen = kept (at' 4) 5 60 30 ∧ v.fadeTime = kept (at' 5) 1 10 4 ∧ v.carrier = kept (at' 6) 1 8 4 ∧
    v.ack = kept (at' 7) 1 10 3 ∧ v.attemptLimit = kept (at' 8) 2 15 6 ∧ v.holdMark = wordAt l 9 ∧ v.resumeMark = wordAt l 11 ∧
    v.accept = kept (at' 13) 5 60 20 ∧ v.autoSend = (at' 14).testBit 0 ∧ v.acceptNotices = (at' 14).testBit 1 ∧
    v.lineIdle = kept (at' 15) 0 10 3 ∧ v.dozeIdle = (if wordAt l 16 = 0 then 0 else kept (wordAt l 16) 30 600 120) ∧
    v.pressDebounce = kept (at' 18) 1 8 3 ∧ v.releaseDebounce = kept (at' 19) 1 8 3 ∧ v.stuck = kept (at' 20) 5 60 20 ∧
    v.offsets = (List.range 48).map (fun i => kept (at' (21 + i)) 8 255 40) ∧
    (at' 69 ≤ 2 → v.memSize = 8192 * 2 ^ at' 69) ∧ (2 < at' 69 → v.memSize ∉ [8192, 16384, 32768]) ∧
    v.map = ⟨region 70, region 72, region 74, region 76⟩ ∧
    v.heat = (List.range 9).map (fun i => kept (at' (78 + i)) 16 255 ([60, 68, 78, 50, 57, 65, 42, 48, 55].getD i 0)) ∧
    v.warm = kept (at' 87) 0 16 11 ∧ v.density = kept (at' 88) 0 8 4 ∧ (∀ i < 6, v.protect.getLsbD i = (at' 89).testBit i) ∧
    ((settingsOf l).2 = false ↔ inside (at' 2) 0 31 ∧ inside (at' 3) 0 31 ∧ at' 2 ≠ at' 3 ∧ inside (at' 4) 5 60 ∧
      inside (at' 5) 1 10 ∧ inside (at' 6) 1 8 ∧ inside (at' 7) 1 10 ∧ inside (at' 8) 2 15 ∧ inside (at' 13) 5 60 ∧
      inside (at' 15) 0 10 ∧ (wordAt l 16 = 0 ∨ inside (wordAt l 16) 30 600) ∧ inside (at' 18) 1 8 ∧ inside (at' 19) 1 8 ∧
      inside (at' 20) 5 60 ∧ (∀ i < 48, inside (at' (21 + i)) 8 255) ∧ (∀ i < 9, inside (at' (78 + i)) 16 255) ∧
      inside (at' 87) 0 16 ∧ inside (at' 88) 0 8)) ∧
  (let digits := (List.range 9).map (fun i => KeyEntry.char (byteOf (0x31 + i)) true) ++ [.char 0x30 true]
    let letters := fun a => (List.range 26).map fun i => KeyEntry.char (byteOf (a + i)) true
    let none' := fun n => List.replicate n KeyEntry.none
    defaultKeymap =
      digits ++ letters 0x61 ++ [.char 0x20 true, .char 0x2E false, .char 0x2D false, .action .rub true, .action .tab false,
        .action .enter false, .action .newOrder false, .modifier .shift, .modifier .func, .action .line false, .char 0x23 false,
        .char 0x3A false] ++
      digits ++ letters 0x41 ++ [.char 0x20 true, .char 0x2C false, .char 0x2F false, .action .rub true, .action .tab false,
        .action .enter false, .action .note false, .modifier .shift, .modifier .func, .action .line false, .char 0x2A false,
        .char 0x3B false] ++
      none' 39 ++ [.action .cancel false, .action .discard false, .action .send false, .action .feed true, .modifier .shift,
        .modifier .func, .action .line false, .action .service false] ++ none' 1) ∧
  (defaultCodes.length = 256 ∧ ∀ c < 256, defaultCodes[c]? = some (
    if 0x20 ≤ c ∧ c ≤ 0x7E ∨ 0x80 ≤ c ∧ c ≤ 0xBF then .glyph c else if c = 0x09 then .tab else if c = 0x0A then .lineEnd
    else if c = 0x0D then .ignored else .substitute)) ∧
  (∀ (k : Nat) (value rest : Text) (i : Byte) (has : List Nat), 0x1F ∉ value →
    fieldItems (k + 1) (value ++ 0x1F :: i :: rest) has = fieldItems k rest (if value = [] then has else has ++ [i.toNat]) ∧
    fieldItems k value has = (has, value)) ∧
  (∀ s : State, s.spu.openSlot = none → restoreComposer s = s) ∧
  ∀ (s : State) (n : Nat), s.spu.openSlot = some n →
    let e := s.spu.entry n
    let text := s.mem.readAll (placeAddrs s.work.map (.ring .spool e.start) e.length)
    (e.cls = some .note → restoreComposer s = { s with kcu := { s.kcu with
      state := .free, line := (text.reverse.takeWhile (· != 0x0A)).reverse, count := e.length } }) ∧
    (∀ image, e.cls = some .order → (s.kcu.formSlotAt e.formSlot).status = .loaded →
      imageOf (s.mem.readAll (addrsFrom (s.work.map.form.base + (e.formSlot - 1) * 256) 256)) = some image →
      restoreComposer s = { s with kcu := { s.kcu with
        state := .form, cursor := e.cursor.getD (.field 1), image := image, formSlot := e.formSlot, count := e.length
        value := (fieldItems (text.length + 1) text []).2
        hasValue := (fieldItems (text.length + 1) text []).1.eraseDups } }) ∧
    (e.cls = some .order → (s.kcu.formSlotAt e.formSlot).status ≠ .loaded → restoreComposer s = closeEntry s) ∧
    (e.cls = some .order →
      imageOf (s.mem.readAll (addrsFrom (s.work.map.form.base + (e.formSlot - 1) * 256) 256)) = none →
      restoreComposer s = closeEntry s) ∧
    (e.cls = none → restoreComposer s = closeEntry s)

/-- The doze conditions. The doze idle timer's expiry in RUN: the part dozes, the pads go to GANGED scan and a blank frame is due.
A descriptor listed in DOZE wakes the part into NORMAL scan with a calibration, its receiver hunting and the carrier judged from
the energy last told (log entry 42). -/
def Obligations.DozeEntered : Prop :=
  (∀ s : State, dozeConditions s = true ↔ s.pm.power = .run ∧ s.pm.restarting = false ∧ s.clu.line = .off ∧ s.pqu.list = [] ∧
    s.kcu.typeahead = [] ∧ (s.kcu.state = .idle ∨ s.kcu.state = .free ∨ s.kcu.state = .form ∨ s.kcu.state = .service) ∧
    s.kcu.closing = false ∧ s.kcu.staging = [] ∧ s.kcu.flush = .none ∧ s.kcu.echo = none ∧ s.kcu.claim = none ∧
    s.spu.due = [] ∧ s.spu.cur = none ∧ s.hdu.head = .idle ∧ s.du.line.state ≠ .executing ∧ s.du.keyed.job = none ∧
    s.pm.writing = none) ∧
  (∀ s : State,
    (s.pm.power = .doze → s.pqu.list ≠ [] →
      let e := wakeForLine s
      e.pm = { s.pm with power := .run } ∧
      e.ksu = { s.ksu with
        before := s.ksu.pads, ganged := false, calibrating := true, cal := List.replicate 48 freshCal, scan := none
        wakeWait := false } ∧
      e.hdu = { s.hdu with
        paper := s.pins.paperAbsent, lid := s.pins.lidOpen, paperTiming := false, lidTiming := false
        reading := s.pins.thermistor, band := tempBand s.pins.thermistor
        hot := if s.hdu.hot = true then !decide (s.pins.thermistor ≤ 50) else decide (60 ≤ s.pins.thermistor)
        limit := groupLimit s.pm.band s.clu.line.txOn, power := s.pm.band.weak } ∧
      e.clu = { s.clu with receiver := .hunting, carrier := decide (30 * s.work.carrier < s.pins.energy) } ∧
      KcuBecame s.kcu { s with pm := e.pm, ksu := e.ksu, hdu := e.hdu, clu := e.clu } e) ∧
    (s.pm.power ≠ .doze ∨ s.pqu.list = [] → wakeForLine s = s)) ∧
  ∀ s : State, s.pm.power = .run → s.pm.dozeTimer.isSome = true → ∃ e, exec .dozeIdleTimerExpiry s = .next (finish e) ∧
    e.pm = { s.pm with power := .doze, dozeTimer := none, dozeHeld := false } ∧
    e.ksu.ganged = true ∧ e.ksu.calibrating = false ∧ e.ksu.scan = none ∧ e.ksu.combined.baseline = none ∧
    e.ksu.combined.offset = leastOffset s.work.offsets ∧
    (s.ksu.calibrating = false → e.ksu.pads.map (·.baseline) = s.ksu.pads.map (·.baseline)) ∧
    (∀ p ∈ e.ksu.pads, p.state = .up ∨ p.state = .fault) ∧
    e.kcu.alert = false ∧ e.kcu.sending = true ∧ (s.kcu.sending = false → e.kcu.frame = 0x02 :: List.replicate 24 0x20) ∧
    e.outside = s.outside ∧ e.clu = s.clu ∧ e.spu = s.spu ∧ e.pqu = s.pqu ∧ e.du = s.du

/-! ## Directives -/

/-- The checks made before a directive's own rule, in their order: the context, the form of the arguments, the protection of the
LINE context, which PS meets whatever the set holds, and an SR executing in the other context, which a local one is until its
outcome line is placed (deduced, log entry 57). A refusal changes nothing but the answer it makes. Then the directive's own
MALFORMED: another number or form of arguments than its rule admits. A directive whose context is not free has no effect (log entry
6). That an argument of more than 5 characters outside a hexadecimal place is MALFORMED whatever it holds, and so before PROTECTED
and BUSY, is the model's choice (log entry 41). -/
def Obligations.DirectiveChecks : Prop :=
  ∀ (d : Dir) (c : Ctx) (tag : Nat) (args : List Text) (s : State),
    (ctxFree c s = false → exec (d.command c tag args) s = .next s) ∧
    (ctxFree c s = true → argsOk d (asRead args) = false →
      exec (d.command c tag args) s = .next (finish (answered d c tag .malformed [] [] s))) ∧
    (ctxFree c s = true → argsOk d (asRead args) = true → c = .service ∨ d.lineAllowed s.work.protect = true →
      s.du.srIn (otherCtx c) = true →
      exec (d.command c tag args) s = .next (finish (answered d c tag .busy [] [] s))) ∧
    (c = .line → ctxFree .line s = true → argsOk d (asRead args) = true → d.lineAllowed s.work.protect = false →
      exec (d.command .line tag args) s = .next (finish (answered d .line tag .prot [] [] s))) ∧
    (d = .ps → d.lineAllowed s.work.protect = false) ∧
    (s.du.srIn c = true ↔ (∃ todo, s.du.job c = some (.regions todo)) ∨ s.du.job c = some (.answering .regions)) ∧
    (admits d c s = true → argsOk d (asRead args) = true → (d = .qe ∨ d = .xs ∨ d = .xh ∨ d = .xd → s.spu.securing = false) →
      d.formed (asRead args) = false → exec (d.command c tag args) s = .next (finish (answered d c tag .malformed [] [] s)))

/-- QS reports, and with the argument 1 clears, the thirteen counters; the report goes on with the line, flow, queue, head,
battery, composer, entry and list values by their codes. That the resume point of a FEED is at no row 0 is the model's choice (log
entry 16). The local answer's wording is the model's (log entry 11). -/
def Obligations.StatusReported : Prop :=
  ∀ (c : Ctx) (tag : Nat) (args : List Text) (s : State), admits .qs c s = true →
    (asRead args = [] ∨ (∃ x, asRead args = [x] ∧ decimal x = some 0) → exec (.qs c tag args) s =
      .next (finish (answered .qs c tag .done (qsData s) ((qsLines s).map .text) s))) ∧
    (∀ x n, asRead args = [x] → decimal x = some n → 1 < n → exec (.qs c tag args) s =
      .next (finish (answered .qs c tag .range [] [] s))) ∧
    (∀ x, asRead args = [x] → decimal x = some 1 → exec (.qs c tag args) s =
      .next (finish (answered .qs c tag .done (qsData s) ((qsLines s).map .text) { s with
        pe := { s.pe with good := 0, bad := 0, duplicates := 0, refused := 0, resends := 0, stray := 0 }
        spu := { s.spu with stray := 0 }
        clu := { s.clu with framingErrors := 0, fades := 0 }
        kcu := { s.kcu with refusals := 0, overflows := 0 }
        ksu := { s.ksu with padFaults := 0 }
        pqu := { s.pqu with dropped := 0 } }))) ∧
    (qsData s).take 13 =
      [s.pe.good, s.pe.bad, s.pe.duplicates, s.pe.refused, s.pe.resends, s.pe.stray, s.spu.stray, s.clu.framingErrors,
        s.clu.fades, s.kcu.refusals, s.kcu.overflows, s.ksu.padFaults, s.pqu.dropped] ∧
    (let bit := fun b : Bool => if b = true then 1 else 0
    (qsData s).drop 13 =
      [s.clu.line.code, s.clu.lastEnd.code, bit s.pe.held, bit s.pe.stationHold,
        bit (s.pe.slot .a).isOutstanding + bit (s.pe.slot .b).isOutstanding, s.pe.reports.length,
        s.pqu.notices.countP (fun n => n.status != .free), s.hdu.head.code,
        bit s.hdu.paper + 2 * bit s.hdu.lid + 4 * bit s.hdu.hot + 8 * bit s.hdu.power].map byteOf ++
      BitVec.ofInt 8 s.hdu.reading ::
      [s.hdu.band.code, (match s.hdu.resume with
          | some (.text 0 _) => 1
          | _ => 0), s.pm.band.code, s.kcu.state.code, bit s.kcu.lock].map byteOf ++
      [EntryState.free, .opened, .closed, .sending, .awaiting, .sent, .rejected, .damaged, .void].map
        (fun st => byteOf (s.spu.table.countP fun e => e.state == st)) ++
      byteOf s.pqu.list.length :: s.pqu.list.map fun d => match d with
        | .inbound .. => 0
        | .echoText .. => 1
        | .echoField .. => 1
        | .notice _ => 2
        | .feed _ => 3) ∧
    [LineState.off, .listen, .detect, .settle, .ready, .fade, .clearing].map LineState.code = [0, 1, 2, 3, 4, 5, 6] ∧
    [EndCause.none, .clear .user, .clear .cleared, .clear .linkFailure, .clear .restart, .clear .power, .carrierLost].map
      EndCause.code = [0, 1, 2, 3, 4, 5, 6] ∧
    [HeadState.idle, .printing, .paused].map HeadState.code = [0, 1, 2] ∧
    [TempBand.cold, .normal, .warm, .hot].map TempBand.code = [0, 1, 2, 3] ∧
    [BatteryBand.high, .mid, .low, .critical, .exhausted].map BatteryBand.code = [0, 1, 2, 3, 4] ∧
    [ComposerState.idle, .formSelect, .free, .form, .service].map ComposerState.code = [0, 1, 2, 3, 4]

/-- QE reports the entries, up to 29 items over the line, or the one a serial names; QT reports table items, each laid out by its
table, and QM begins to read memory, each refused RANGE outside its limits; QM's bursts read on, at most 8 bytes each, and after
the last it reports its bytes. The local answer's wording, when a local QE's reason line is decided, and that QT's count limit
holds the count, are the model's (log entries 11, 39 and 47). -/
def Obligations.QueriesAnswered : Prop :=
  ∀ (c : Ctx) (tag : Nat) (args : List Text) (s : State),
    (admits .qe c s = true → s.spu.securing = false → asRead args = [] → exec (.qe c tag args) s =
      .next (finish (answered .qe c tag .done
        (byteOf s.spu.order.length :: ((s.spu.order.take 29).map fun n => entryItem n (s.spu.entry n)).flatten)
        (if s.spu.order = [] then [.text (ascii "NO ENTRIES")] else s.spu.order.map .entryItem) s))) ∧
    (∀ x n, admits .qe c s = true → s.spu.securing = false → asRead args = [x] → decimal x = some n →
      (n < 1 ∨ 65535 < n ∨ s.spu.slotOf n = none →
        exec (.qe c tag args) s = .next (finish (answered .qe c tag .range [] [] s))) ∧
      (∀ m, 1 ≤ n → n ≤ 65535 → s.spu.slotOf n = some m → exec (.qe c tag args) s = .next (finish (answered .qe c tag .done
        (1 :: entryItem m (s.spu.entry m) ++ byteOf (s.spu.entry m).reasonText.length :: (s.spu.entry m).reasonText)
        (.entryItem m :: (if (s.spu.entry m).state = .rejected ∧ (s.spu.entry m).reasonText ≠ [] then [.entryReason m] else []))
        s)))) ∧
    (∀ x y z t first n lo hi limit, admits .qt c s = true → asRead args = [x, y, z] → decimal x = some t →
      decimal y = some first → decimal z = some n → tableRange t = some (lo, hi, limit) →
      exec (.qt c tag args) s = .next (finish (
        if lo ≤ first ∧ first ≤ hi ∧ 1 ≤ n ∧ first + n - 1 ≤ hi ∧ n ≤ limit then
          answered .qt c tag .done ([byteOf t, byteOf first, byteOf n] ++ ((List.range' first n).map (tableItem s t)).flatten)
            ((qtLines s t first n).map .text) s
        else answered .qt c tag .range [] [] s))) ∧
    (∀ x y z t first n, admits .qt c s = true → asRead args = [x, y, z] → decimal x = some t → decimal y = some first →
      decimal z = some n → t < 1 ∨ 7 < t → exec (.qt c tag args) s = .next (finish (answered .qt c tag .range [] [] s))) ∧
    ((List.range' 1 7).map tableRange = [some (0, 255, 64), some (0, 143, 64), some (1, 48, 24), some (0, 0, 1),
      some (0, 0, 1), some (1, 17, 17), some (1, 4, 4)]) ∧
    (∀ x y a n, admits .qm c s = true → asRead args = [x, y] → decimal x = some a → decimal y = some n →
      exec (.qm c tag args) s = .next (finish (
        if 1 ≤ n ∧ n ≤ 32 ∧ a + n ≤ s.work.memSize then started .qm c tag (.reading a n []) s
        else answered .qm c tag .range [] [] s))) ∧
    (∀ a n got data, s.du.job c = some (.reading a n got) →
      (Job.reading a n got).burst c =
        some ⟨false, .addr (a + got.length), min 8 (n - got.length), [], .directive c⟩ ∧
      ((got ++ data).length < n → deliver (.directive c) data s = goingOn c (.reading a n (got ++ data)) s) ∧
      (n ≤ (got ++ data).length → deliver (.directive c) data s = ended c .done
        (be16 a ++ [byteOf n] ++ (got ++ data)) ((qmLines a (got ++ data)).map .text) s)) ∧
    (∀ n, be16 n = [byteOf (n / 256), byteOf n]) ∧
    (∀ (n : Nat) (e : Entry),
      let cls := match e.cls with
        | none => 0
        | some .order => 16
        | some .note => 32
      entryItem n e = [byteOf n,
          byteOf (e.state.code + cls + (if e.interrupted = true then 64 else 0) + if e.sentOnce = true then 128 else 0)] ++
        be16 (e.serial.getD 0) ++ be16 e.length ++ [byteOf e.attempts, byteOf e.reason]) ∧
    [EntryState.free, .opened, .closed, .sending, .awaiting, .sent, .rejected, .damaged, .void].map EntryState.code =
      [0, 1, 2, 3, 4, 5, 6, 7, 8] ∧
    (∀ i k,
      tableItem s 1 i = (match s.hdu.codes.getD i .substitute with
        | .glyph g => [0, byteOf g]
        | .lineEnd => [1, 0]
        | .tab => [2, 0]
        | .ignored => [3, 0]
        | .substitute => [4, 0]) ∧
      tableItem s 2 i = (match s.kcu.keymap.getD i .none with
        | .none => [0, 0]
        | .char x rep => [if rep = true then 0x81 else 1, x]
        | .action a rep => [if rep = true then 0x82 else 2, byteOf a.number]
        | .modifier .shift => [3, 1]
        | .modifier .func => [3, 2]) ∧
      tableItem s 3 i = be16 (s.ksu.pad i).baseline ++ [byteOf (s.work.offsets.getD (i - 1) 0)] ++ be16 (s.ksu.pad i).last ++
        [byteOf (s.ksu.pad i).state.code, (s.ksu.pad i).stuck] ∧
      tableItem s 4 i = s.work.heat.map byteOf ++ [byteOf s.work.warm, byteOf s.work.density] ∧
      (k < 8 → ∃ x, (tableItem s 5 i)[k]? = some x ∧ ∀ b < 8, x.getLsbD b = s.hdu.loaded.getLsbD (8 * k + b)) ∧
      (tableItem s 5 i).length = 8 ∧ tableItem s 6 i = be16 (s.work.value i) ∧
      tableItem s 7 i = [byteOf (s.kcu.formSlotAt i).status.code, byteOf (s.kcu.formSlotAt i).listed]) ∧
    [KeyAct.enter, .tab, .rub, .cancel, .newOrder, .note, .send, .discard, .feed, .line, .service].map KeyAct.number =
      [1, 2, 3, 4, 5, 6, 7, 8, 9, 10, 11] ∧
    [PadState.up, .pressing, .down, .releasing, .fault].map PadState.code = [0, 1, 2, 3, 4] ∧
    [FormStatus.empty, .building, .loaded].map FormStatus.code = [0, 1, 2]

/-- FD claims a FEED line of 14 rows, or of 1 to 255; the loads of the print tables are taken and wait for a line boundary, or are
refused RANGE outside their limits, an LC also for an unknown kind or a GLYPH index above 191. The entries that an LC's bytes stand
for, two bytes to each. -/
def Obligations.PrintDirectives : Prop :=
  ∀ (c : Ctx) (tag : Nat) (args : List Text) (s : State),
    let loading := fun (d : Dir) (l : Load) =>
      { executing d c tag .load s with hdu := { s.hdu with loads := s.hdu.loads ++ [(c, l)] } }
    let feeding := fun n =>
      { executing .fd c tag .feedClaim s with pqu := { s.pqu with fdClaims := s.pqu.fdClaims ++ [(c, n)] } }
    (admits .fd c s = true → asRead args = [] → exec (.fd c tag args) s = .next (finish (feeding 14))) ∧
    (∀ x n, admits .fd c s = true → asRead args = [x] → decimal x = some n → exec (.fd c tag args) s =
      .next (finish (if 1 ≤ n ∧ n ≤ 255 then feeding n else answered .fd c tag .range [] [] s))) ∧
    (∀ x n, admits .pd c s = true → asRead args = [x] → decimal x = some n → exec (.pd c tag args) s =
      .next (finish (if n ≤ 8 then loading .pd (.density n none) else answered .pd c tag .range [] [] s))) ∧
    (∀ x y n w, admits .pd c s = true → asRead args = [x, y] → decimal x = some n → decimal y = some w →
      exec (.pd c tag args) s =
        .next (finish (if n ≤ 8 ∧ w ≤ 16 then loading .pd (.density n (some w)) else answered .pd c tag .range [] [] s))) ∧
    (admits .lc c s = true → asRead args = [] → exec (.lc c tag args) s = .next (finish (loading .lc .codesDefault))) ∧
    (∀ x y n t ks, admits .lc c s = true → asRead args = [x, y] → decimal x = some n → hexBytes y = some t →
      t.length % 2 = 0 → pairs CodeKind.ofBytes t = some ks → exec (.lc c tag args) s =
        .next (finish (if n ≤ 255 ∧ n + t.length / 2 - 1 ≤ 255 then loading .lc (.codes n ks)
          else answered .lc c tag .range [] [] s))) ∧
    (∀ x y n t i, admits .lc c s = true → asRead args = [x, y] → decimal x = some n → hexBytes y = some t → t.length % 2 = 0 →
      i < t.length / 2 → CodeKind.ofBytes (t.getD (2 * i) 0) (t.getD (2 * i + 1) 0) = none →
      exec (.lc c tag args) s = .next (finish (answered .lc c tag .range [] [] s))) ∧
    (∀ k v : Byte, (CodeKind.ofBytes k v = none ↔ 4 < k.toNat ∨ k = 0 ∧ 191 < v.toNat) ∧
      (v.toNat ≤ 191 → CodeKind.ofBytes 0 v = some (.glyph v.toNat)) ∧ CodeKind.ofBytes 1 v = some .lineEnd ∧
      CodeKind.ofBytes 2 v = some .tab ∧ CodeKind.ofBytes 3 v = some .ignored ∧ CodeKind.ofBytes 4 v = some .substitute) ∧
    (∀ (t : Text) (ks : List CodeKind), t.length % 2 = 0 → (pairs CodeKind.ofBytes t = some ks ↔ ks.length = t.length / 2 ∧
      ∀ i < t.length / 2, ks[i]? = CodeKind.ofBytes (t.getD (2 * i) 0) (t.getD (2 * i + 1) 0))) ∧
    (∀ x y g t, admits .lg c s = true → asRead args = [x, y] → decimal x = some g → hexBytes y = some t → t.length % 12 = 0 →
      exec (.lg c tag args) s =
        .next (finish (if 128 ≤ g ∧ g ≤ 191 ∧ g + t.length / 12 - 1 ≤ 191 then loading .lg (.glyphs g t)
          else answered .lg c tag .range [] [] s))) ∧
    (∀ x y z v r h m l, admits .lh c s = true → asRead args = [x, y, z, v] → decimal x = some r → decimal y = some h →
      decimal z = some m → decimal v = some l → exec (.lh c tag args) s =
        .next (finish (if r ≤ 2 ∧ (16 ≤ h ∧ h ≤ 255) ∧ (16 ≤ m ∧ m ≤ 255) ∧ 16 ≤ l ∧ l ≤ 255 then loading .lh (.heat r h m l)
          else answered .lh c tag .range [] [] s)))

/-- EF and LF: an argument out of its range is refused RANGE, a slot in use IN USE, and one that an LF or EF executing in the other
context works on BUSY, which a local one is until its outcome line is placed (deduced, log entry 57); an EF, and a header LF, begin
the slot's writes; a header LF makes it BUILDING, and a field LF writes the field's bytes and, with the last field defined, makes it
LOADED. Their bursts write on, and after the last the slot has its new status and the directive answers DONE. A header LF writes all
256 bytes (log entry 20), and the check a last field LF writes covers the bytes LF has written (log entry 33). -/
def Obligations.FormDirectives : Prop :=
  ∀ (c : Ctx) (tag : Nat) (args : List Text) (s : State) (k : Nat),
    (∀ x, admits .ef c s = true → asRead args = [x] → decimal x = some k →
      (1 ≤ k → k ≤ 4 → formInUse k s = false → formBusy c k s = false → exec (.ef c tag args) s =
        .next (finish (started .ef c tag (.form [(s.work.map.form.base + (k - 1) * 256, [0])] k (some .empty)) s))) ∧
      (1 ≤ k → k ≤ 4 → formInUse k s = true →
        exec (.ef c tag args) s = .next (finish (answered .ef c tag .inUse [] [] s))) ∧
      (1 ≤ k → k ≤ 4 → formInUse k s = false → formBusy c k s = true →
        exec (.ef c tag args) s = .next (finish (answered .ef c tag .busy [] [] s))) ∧
      (k < 1 ∨ 4 < k → exec (.ef c tag args) s = .next (finish (answered .ef c tag .range [] [] s)))) ∧
    (∀ x z y v name n, admits .lf c s = true → asRead args = [x, z, y, v] → decimal x = some k → decimal z = some 0 →
      hexBytes y = some name → decimal v = some n → 1 ≤ k → k ≤ 4 → labelOk name = true → 1 ≤ n → n ≤ 16 →
      formBusy c k s = false →
      (formInUse k s = true → exec (.lf c tag args) s = .next (finish (answered .lf c tag .inUse [] [] s))) ∧
      (formInUse k s = false → ∃ e, exec (.lf c tag args) s = .next (finish e) ∧
        e.du = (started .lf c tag (.form (writesAt (s.work.map.form.base + (k - 1) * 256)
          (padTo 256 (padTo 238 (formHeader 1 n name)))) k none) s).du ∧
        e.kcu = { s.kcu with forms := s.kcu.forms.set (k - 1) { s.kcu.formSlotAt k with
          status := .building, count := n, defined := [], image := padTo 238 (formHeader 1 n name) } } ∧
        e.outside = s.outside ∧ e.pe = s.pe ∧ e.spu = s.spu ∧ e.pqu = s.pqu ∧ e.hdu = s.hdu)) ∧
    (∀ x w y v q label n width kind, admits .lf c s = true → asRead args = [x, w, y, v, q] → decimal x = some k →
      decimal w = some n → hexBytes y = some label → decimal v = some width → decimal q = some kind →
      1 ≤ k → k ≤ 4 → 1 ≤ n → n ≤ 16 → labelOk label = true → 1 ≤ width → width ≤ 24 → kind ≤ 7 →
      (s.kcu.formSlotAt k).status = .building → n ≤ (s.kcu.formSlotAt k).count →
      formInUse k s = false → formBusy c k s = false →
      ∃ e todo becomes, exec (.lf c tag args) s = .next (finish e) ∧
        e.du = (started .lf c tag (.form (writesAt (s.work.map.form.base + (k - 1) * 256 + 14 + 14 * (n - 1))
          (padTo 12 label ++ [byteOf width, byteOf kind]) ++ todo) k becomes) s).du ∧
        (becomes = some .loaded ↔ ∀ i, 1 ≤ i → i ≤ (s.kcu.formSlotAt k).count → i = n ∨ i ∈ (s.kcu.formSlotAt k).defined) ∧
        (becomes = none → todo = []) ∧ (becomes = none ∨ becomes = some .loaded) ∧
        (let i := 14 + 14 * (n - 1)
        let f := s.kcu.formSlotAt k
        let new := f.image.take i ++ (padTo 12 label ++ [byteOf width, byteOf kind]) ++ f.image.drop (i + 14)
        let whole := 2 :: new.drop 1
        (becomes = some .loaded → todo = [(s.work.map.form.base + (k - 1) * 256, [2]),
          (s.work.map.form.base + (k - 1) * 256 + 238, checkBytes whole)]) ∧
        e.kcu = { s.kcu with forms := s.kcu.forms.set (k - 1) { f with
          defined := if n ∈ f.defined then f.defined else f.defined ++ [n]
          image := if becomes = none then new else whole } }) ∧
        e.outside = s.outside ∧ e.pe = s.pe ∧ e.spu = s.spu ∧ e.pqu = s.pqu ∧ e.hdu = s.hdu) ∧
    (formBusy c k s = true ↔ (∃ todo becomes, s.du.job (otherCtx c) = some (.form todo k becomes)) ∨
      s.du.job (otherCtx c) = some (.answering (.form k))) ∧
    (∀ t : Text, labelOk t = true ↔
      t.length ≤ 12 ∧ ∀ b ∈ t, 0x20 ≤ b.toNat ∧ b.toNat ≤ 0x7E ∨ 0x80 ≤ b.toNat ∧ b.toNat ≤ 0xBF) ∧
    (∀ x z y v name n, admits .lf c s = true → asRead args = [x, z, y, v] → decimal x = some k → decimal z = some 0 →
      hexBytes y = some name → decimal v = some n →
      let inRange := 1 ≤ k ∧ k ≤ 4 ∧ labelOk name = true ∧ 1 ≤ n ∧ n ≤ 16
      (¬ inRange → exec (.lf c tag args) s = .next (finish (answered .lf c tag .range [] [] s))) ∧
      (inRange → formInUse k s = true → exec (.lf c tag args) s = .next (finish (answered .lf c tag .inUse [] [] s))) ∧
      (inRange → formInUse k s = false → formBusy c k s = true →
        exec (.lf c tag args) s = .next (finish (answered .lf c tag .busy [] [] s)))) ∧
    (∀ x w y v q label n width kind, admits .lf c s = true → asRead args = [x, w, y, v, q] → decimal x = some k →
      decimal w = some n → hexBytes y = some label → decimal v = some width → decimal q = some kind →
      let inRange := 1 ≤ k ∧ k ≤ 4 ∧ 1 ≤ n ∧ n ≤ 16 ∧ labelOk label = true ∧ 1 ≤ width ∧ width ≤ 24 ∧ kind ≤ 7 ∧
        (s.kcu.formSlotAt k).status = .building ∧ n ≤ (s.kcu.formSlotAt k).count
      (¬ inRange → exec (.lf c tag args) s = .next (finish (answered .lf c tag .range [] [] s))) ∧
      (inRange → formInUse k s = true → exec (.lf c tag args) s = .next (finish (answered .lf c tag .inUse [] [] s))) ∧
      (inRange → formInUse k s = false → formBusy c k s = true →
        exec (.lf c tag args) s = .next (finish (answered .lf c tag .busy [] [] s)))) ∧
    (∀ a d rest becomes, s.du.job c = some (.form ((a, d) :: rest) k becomes) →
      (Job.form ((a, d) :: rest) k becomes).burst c = some ⟨true, .addr a, d.length, d, .directive c⟩ ∧
      (rest ≠ [] → deliver (.directive c) [] s = goingOn c (.form rest k becomes) s) ∧
      (rest = [] → becomes = none → deliver (.directive c) [] s = ended c .done [] [] s) ∧
      (∀ st, rest = [] → becomes = some st → deliver (.directive c) [] s = ended c .done [] [] { s with
        kcu := { s.kcu with forms := s.kcu.forms.set (k - 1) { s.kcu.formSlotAt k with status := st } } }))

/-- KL sets the keypad lock with the line READY and is refused NOT READY otherwise; KU clears it; LK replaces keymap entries from a
pad of a layer on, or is refused RANGE for a place outside the keymap or an entry that is none. The entries that an LK's bytes stand
for, two bytes to each, a kind of 80h or more marking a repeat. -/
def Obligations.KeyDirectives : Prop :=
  ∀ (c : Ctx) (tag : Nat) (args : List Text) (s : State),
    (admits .kl c s = true → asRead args = [] → exec (.kl c tag args) s = .next (finish (
      if s.clu.line = .ready then answered .kl c tag .done [] [] { s with kcu := { s.kcu with lock := true } }
      else answered .kl c tag .notReady [] [] s))) ∧
    (admits .ku c s = true → asRead args = [] → exec (.ku c tag args) s =
      .next (finish (answered .ku c tag .done [] [] { s with kcu := { s.kcu with lock := false } }))) ∧
    (∀ x xs, asRead args = x :: xs → argsOk .kl (asRead args) = true →
      (admits .kl c s = true → exec (.kl c tag args) s = .next (finish (answered .kl c tag .malformed [] [] s))) ∧
      (admits .ku c s = true → exec (.ku c tag args) s = .next (finish (answered .ku c tag .malformed [] [] s)))) ∧
    (∀ x y z layer p t es, admits .lk c s = true → asRead args = [x, y, z] → decimal x = some layer → decimal y = some p →
      hexBytes z = some t → t.length % 2 = 0 → pairs KeyEntry.ofBytes t = some es →
      exec (.lk c tag args) s = .next (finish (
        if layer ≤ 2 ∧ 1 ≤ p ∧ p ≤ 48 ∧ p + t.length / 2 - 1 ≤ 48 then
          answered .lk c tag .done [] []
            { s with kcu := { s.kcu with keymap := putFrom s.kcu.keymap (layer * 48 + p - 1) es } }
        else answered .lk c tag .range [] [] s))) ∧
    (∀ x y z layer p t i, admits .lk c s = true → asRead args = [x, y, z] → decimal x = some layer → decimal y = some p →
      hexBytes z = some t → t.length % 2 = 0 → i < t.length / 2 →
      KeyEntry.ofBytes (t.getD (2 * i) 0) (t.getD (2 * i + 1) 0) = none →
      exec (.lk c tag args) s = .next (finish (answered .lk c tag .range [] [] s))) ∧
    (∀ k v : Byte,
      let kind := k.toNat % 128
      KeyEntry.ofBytes k v = none ↔ 3 < kind ∨
        kind = 1 ∧ ¬ (0x20 ≤ v.toNat ∧ v.toNat ≤ 0x7E ∨ 0x80 ≤ v.toNat ∧ v.toNat ≤ 0xBF) ∨
        kind = 2 ∧ ¬ (1 ≤ v.toNat ∧ v.toNat ≤ 11) ∨ kind = 3 ∧ v ≠ 1 ∧ v ≠ 2) ∧
    (∀ k v : Byte,
      let kind := k.toNat % 128
      let rep := decide (128 ≤ k.toNat)
      (kind = 0 → KeyEntry.ofBytes k v = some .none) ∧
      (kind = 1 → 0x20 ≤ v.toNat ∧ v.toNat ≤ 0x7E ∨ 0x80 ≤ v.toNat ∧ v.toNat ≤ 0xBF →
        KeyEntry.ofBytes k v = some (.char v rep)) ∧
      (∀ a : KeyAct, kind = 2 → v.toNat = a.number → KeyEntry.ofBytes k v = some (.action a rep)) ∧
      (kind = 3 → v = 1 → KeyEntry.ofBytes k v = some (.modifier .shift)) ∧
      (kind = 3 → v = 2 → KeyEntry.ofBytes k v = some (.modifier .func))) ∧
    (∀ (t : Text) (es : List KeyEntry), t.length % 2 = 0 → (pairs KeyEntry.ofBytes t = some es ↔ es.length = t.length / 2 ∧
      ∀ i < t.length / 2, es[i]? = KeyEntry.ofBytes (t.getD (2 * i) 0) (t.getD (2 * i + 1) 0))) ∧
    ∀ (l es : List KeyEntry) (i j : Nat), (putFrom l i es).length = l.length ∧
      (j < l.length → (putFrom l i es)[j]? = if i ≤ j ∧ j < i + es.length then es[j - i]? else l[j]?)

/-- XS and XH: the checks of a serial in their order, the run and the first choice. XD discards the entry a serial names by its
state, or the DAMAGED entry of a slot. What follows every change of an entry: the reclaim of the oldest entry and of the next, the
stop test, and the selection of the first choice or else of the oldest CLOSED entry. -/
def Obligations.RunDirectives : Prop :=
  (∀ s : State, spoolFollow s = select (stopTest (reclaim 32 s)) ∧
    (∀ n rest k, s.spu.order = n :: rest →
      let e := s.spu.entry n
      let p : Spu := { s.spu with order := rest, ring := s.spu.ring.release s.spoolSize e.length }
      ((e.state = .sent ∨ e.state = .void) → e.echoes = 0 → reclaim (k + 1) s = reclaim k { s with
        spu := ((p.setEntry n { freeEntry with gate := .wait }).dueItem .header).dueItem (.record n) }) ∧
      (¬ (e.state = .sent ∨ e.state = .void) ∨ e.echoes ≠ 0 → reclaim k s = s)) ∧
    (s.spu.countIn .closed = 0 → s.spu.countIn .sending = 0 →
      stopTest s = { s with spu := { s.spu with active := false } }) ∧
    (s.spu.countIn .closed ≠ 0 ∨ s.spu.countIn .sending ≠ 0 → stopTest s = s) ∧
    let keeps := ∃ x n, s.spu.firstChoice = some x ∧ s.spu.slotOf x = some n ∧ (s.spu.entry n).state = .closed
    let selected := fun n => { s with
      spu := (({ s.spu with firstChoice := none } : Spu).setEntry n { s.spu.entry n with
        state := .sending, attempts := min 15 ((s.spu.entry n).attempts + 1), interrupted := false }).dueItem (.record n)
      pe := { s.pe with source := some ⟨(s.spu.entry n).serial.getD 0, (s.spu.entry n).start, (s.spu.entry n).length, 0⟩ } }
    (s.spu.active = false ∨ (s.clu.line ≠ .ready ∧ s.clu.line ≠ .fade) ∨ s.spu.countIn .sending ≠ 0 ∨
        4 ≤ s.spu.countIn .awaiting ∨ (¬ keeps ∧ s.spu.firstIn .closed = none) →
      (keeps → select s = s) ∧ (¬ keeps → select s = { s with spu := { s.spu with firstChoice := none } })) ∧
    (s.spu.active = true → s.clu.line = .ready ∨ s.clu.line = .fade → s.spu.countIn .sending = 0 →
      s.spu.countIn .awaiting < 4 →
      (∀ x n, s.spu.firstChoice = some x → s.spu.slotOf x = some n → (s.spu.entry n).state = .closed →
        select s = selected n) ∧
      (∀ n, ¬ keeps → s.spu.firstIn .closed = some n → select s = selected n))) ∧
  ∀ (c : Ctx) (tag : Nat) (args : List Text) (s : State), s.spu.securing = false →
    (admits .xs c s = true → asRead args = [] → exec (.xs c tag args) s = .next (finish (
      if s.clu.line = .ready then answered .xs c tag .done [] [] { s with spu := { s.spu with active := true } }
      else answered .xs c tag .notReady [] [] s))) ∧
    (∀ x n, admits .xs c s = true → asRead args = [x] → decimal x = some n →
      (n < 1 ∨ 65535 < n ∨ s.spu.slotOf n = none →
        exec (.xs c tag args) s = .next (finish (answered .xs c tag .range [] [] s))) ∧
      (∀ m, 1 ≤ n → n ≤ 65535 → s.spu.slotOf n = some m → exec (.xs c tag args) s = .next (finish (
        if s.clu.line ≠ .ready then answered .xs c tag .notReady [] [] s
        else if (s.spu.entry m).state ≠ .closed then answered .xs c tag .inUse [] [] s
        else answered .xs c tag .done [] [] { s with spu := { s.spu with active := true, firstChoice := some n } })))) ∧
    (∀ x y xs, admits .xs c s = true → asRead args = x :: y :: xs → argsOk .xs (asRead args) = true →
      exec (.xs c tag args) s = .next (finish (answered .xs c tag .malformed [] [] s))) ∧
    (∀ x, admits .xs c s = true → asRead args = [x] → argsOk .xs (asRead args) = true → decimal x = none →
      exec (.xs c tag args) s = .next (finish (answered .xs c tag .malformed [] [] s))) ∧
    (admits .xh c s = true → argsOk .xh (asRead args) = true → exec (.xh c tag args) s = .next (finish (
      if asRead args = [] then
        answered .xh c tag .done [] [] { s with spu := { s.spu with active := false, firstChoice := none } }
      else answered .xh c tag .malformed [] [] s))) ∧
    (∀ x n m, admits .xd c s = true → asRead args = [x] → decimal x = some n → 1 ≤ n → n ≤ 65535 → s.spu.slotOf n = some m →
      exec (.xd c tag args) s = .next (finish (
        match (s.spu.entry m).state with
        | .opened | .sending | .awaiting | .sent => answered .xd c tag .inUse [] [] s
        | .void => answered .xd c tag .done [] [] s
        | _ => answered .xd c tag .done [] [] { s with spu := s.spu.voided m }))) ∧
    (∀ x n, admits .xd c s = true → asRead args = [x] → decimal x = some n → n < 1 ∨ 65535 < n ∨ s.spu.slotOf n = none →
      exec (.xd c tag args) s = .next (finish (answered .xd c tag .range [] [] s))) ∧
    (∀ x y n, admits .xd c s = true → asRead args = [x, y] → decimal x = some 0 → decimal y = some n →
      exec (.xd c tag args) s = .next (finish (
        if 1 ≤ n ∧ n ≤ 32 ∧ (s.spu.entry n).state = .damaged then
          answered .xd c tag .done [] [] { s with spu := s.spu.voided n }
        else answered .xd c tag .range [] [] s)))

/-- LS, SV and PS: working values replaced at once, BUSY for LS and SV while a WS writes, RANGE outside the limits of Table 10.5;
which setting each number of the table names, no other of them changing; and what a new working value does at once. The carrier's
threshold is held against the energy last told (log entry 42). -/
def Obligations.SettingDirectives : Prop :=
  ∀ (c : Ctx) (tag : Nat) (args : List Text) (s : State),
    (∀ p o os, admits .ls c s = true → decimals (asRead args) = some (p :: o :: os) → exec (.ls c tag args) s = .next (finish (
      if ¬ (1 ≤ p ∧ p + os.length ≤ 48 ∧ ∀ v ∈ o :: os, 8 ≤ v ∧ v ≤ 255) then answered .ls c tag .range [] [] s
      else if s.pm.writing.isSome = true then answered .ls c tag .busy [] [] s
      else answered .ls c tag .done [] []
        { s with work := { s.work with offsets := putFrom s.work.offsets (p - 1) (o :: os) } }))) ∧
    (∀ x y n v, admits .sv c s = true → asRead args = [x, y] → decimal x = some n → decimal y = some v →
      (svOutOfRange s.work n v = true → exec (.sv c tag args) s = .next (finish (answered .sv c tag .range [] [] s))) ∧
      (svOutOfRange s.work n v = false → s.pm.writing.isSome = true →
        exec (.sv c tag args) s = .next (finish (answered .sv c tag .busy [] [] s))) ∧
      (svOutOfRange s.work n v = false → s.pm.writing = none → exec (.sv c tag args) s =
        .next (finish (answered .sv c tag .done [] [] (svFollow n (s.work.value n) v { s with work := s.work.withValue n v })))) ∧
      (svOutOfRange s.work n v = true ↔ ∀ lo hi, settingRange n = some (lo, hi) →
        v < lo ∨ hi < v ∨ n = 1 ∧ byteOf v = s.work.terminator ∨ n = 2 ∧ byteOf v = s.work.introducer ∨
          n = 8 ∧ s.work.resumeMark ≤ v ∨ n = 9 ∧ (v ≤ s.work.holdMark ∨ s.work.map.inbound.size - 64 < v) ∨
          n = 11 ∧ v ≠ 0 ∧ v < 30) ∧
      (n ≠ 8 → n ≠ 9 → n ≠ 10 → n ≠ 11 → n ≠ 17 → svFollow n (s.work.value n) v s = s) ∧
      (n = 8 ∨ n = 9 → svFollow n (s.work.value n) v s = flowTest s) ∧
      (svFollow 10 (s.work.value 10) 0 s = { s with pqu := { s.pqu with asm := { s.pqu.asm with idleTimer := none } } }) ∧
      (∀ old, v ≠ 0 → svFollow 10 old v s =
        if old = 0 ∧ s.pqu.asm.complete = false ∧ 1 ≤ s.pqu.asm.length then
          { s with pqu := { s.pqu with asm := { s.pqu.asm with idleTimer := some v } } }
        else s) ∧
      (∀ old, svFollow 17 old v s =
        if decide (30 * s.work.carrier < s.pins.energy) = s.clu.carrier then s
        else if 30 * s.work.carrier < s.pins.energy then carrierPresent s
        else carrierAbsent s) ∧
      ((List.range' 1 17).map settingRange = [some (0, 31), some (0, 31), some (5, 60), some (1, 10), some (1, 10),
        some (5, 60), some (2, 15), some (64, 65535), some (0, 65535), some (0, 10), some (0, 600), some (0, 1), some (0, 1),
        some (1, 8), some (1, 8), some (5, 60), some (1, 8)] ∧ ∀ k, k < 1 ∨ 17 < k → settingRange k = none) ∧
      (svFollow 11 (s.work.value n) 0 s = { s with pm := { s.pm with dozeTimer := none } }) ∧
      (∀ old, v ≠ 0 → svFollow 11 old v s = s) ∧
      (svOutOfRange s.work n v = false → (s.work.withValue n v).value n = v)) ∧
    (∀ (w : Settings) (v n : Nat),
      w.withValue 1 v = { w with introducer := byteOf v } ∧ w.withValue 2 v = { w with terminator := byteOf v } ∧
      w.withValue 3 v = { w with listen := v } ∧ w.withValue 4 v = { w with fadeTime := v } ∧
      w.withValue 5 v = { w with ack := v } ∧ w.withValue 6 v = { w with accept := v } ∧
      w.withValue 7 v = { w with attemptLimit := v } ∧ w.withValue 8 v = { w with holdMark := v } ∧
      w.withValue 9 v = { w with resumeMark := v } ∧ w.withValue 10 v = { w with lineIdle := v } ∧
      w.withValue 11 v = { w with dozeIdle := v } ∧ w.withValue 12 v = { w with autoSend := v == 1 } ∧
      w.withValue 13 v = { w with acceptNotices := v == 1 } ∧ w.withValue 14 v = { w with pressDebounce := v } ∧
      w.withValue 15 v = { w with releaseDebounce := v } ∧ w.withValue 16 v = { w with stuck := v } ∧
      w.withValue 17 v = { w with carrier := v } ∧ (n < 1 ∨ 17 < n → w.withValue n v = w) ∧
      (List.range' 1 17).map w.value = [w.introducer.toNat, w.terminator.toNat, w.listen, w.fadeTime, w.ack, w.accept,
        w.attemptLimit, w.holdMark, w.resumeMark, w.lineIdle, w.dozeIdle, w.autoSend.toNat, w.acceptNotices.toNat,
        w.pressDebounce, w.releaseDebounce, w.stuck, w.carrier]) ∧
    (∀ (l os : List Nat) (i j : Nat), (putFrom l i os).length = l.length ∧
      (j < l.length → (putFrom l i os)[j]? = if i ≤ j ∧ j < i + os.length then os[j - i]? else l[j]?)) ∧
    (∀ x y n v, admits .ps c s = true → asRead args = [x, y] → decimal x = some n → decimal y = some v →
      exec (.ps c tag args) s = .next (finish (
        if 1 ≤ n ∧ n ≤ 6 ∧ v ≤ 1 then
          answered .ps c tag .done [] [] { s with work := { s.work with
            protect := if v = 1 then s.work.protect ||| 1#6 <<< (n - 1) else s.work.protect &&& ~~~(1#6 <<< (n - 1)) } }
        else answered .ps c tag .range [] [] s))) ∧
    (admits .ps c s = true → asRead args = [] →
      exec (.ps c tag args) s = .next (finish (answered .ps c tag .done [] [.text (psLine s.work.protect)] s)))

/-- The valid region maps, the maps an SR names, and the bursts that write bytes: 8 in each but the last, ascending. SR is taken
with the rings, the list and the entries empty and no other directive executing, is refused IN USE otherwise, waits for a header
write that begins after it was taken, and answers DONE when its writes and the header's are done; an unchanged GLYPH keeps the
loaded set and an unchanged FORM its forms; the marks of a changed FORM are written in slot order, which is the model's choice (log
entry 48). WM begins its writes unless its bytes are protected or in use, and answers DONE after the last. -/
def Obligations.MemoryDirectives : Prop :=
  (∀ (m : RegionMap) (size : Nat), m.valid size = true ↔
    (∀ r ∈ [m.glyph, m.form, m.inbound, m.spool], (∃ j, 8 ≤ j ∧ j ≤ 14 ∧ r.size = 2 ^ j) ∧ r.base % r.size = 0 ∧
      r.base + r.size ≤ size ∧ 512 ≤ r.base) ∧
    [m.glyph, m.form, m.inbound, m.spool].Pairwise (fun a b => a.base + a.size ≤ b.base ∨ b.base + b.size ≤ a.base) ∧
    1024 ≤ m.glyph.size ∧ 1024 ≤ m.form.size) ∧
  (defaultMap 8192 = ⟨⟨1024, 1024⟩, ⟨2048, 1024⟩, ⟨3072, 1024⟩, ⟨4096, 4096⟩⟩ ∧
    defaultMap 16384 = ⟨⟨1024, 1024⟩, ⟨2048, 1024⟩, ⟨4096, 4096⟩, ⟨8192, 8192⟩⟩ ∧
    defaultMap 32768 = ⟨⟨1024, 1024⟩, ⟨2048, 1024⟩, ⟨8192, 8192⟩, ⟨16384, 16384⟩⟩ ∧ memSizes = [8192, 16384, 32768] ∧
    (∀ m, srNames [m] = some (m, defaultMap m)) ∧
    (∀ m a b c d e f g h, srNames [m, a, b, c, d, e, f, g, h] = some (m, ⟨⟨a, b⟩, ⟨c, d⟩, ⟨e, f⟩, ⟨g, h⟩⟩)) ∧
    ∀ l, l.length ≠ 1 → l.length ≠ 9 → srNames l = none) ∧
  (∀ a l, writesAt a l = (List.range ((l.length + 7) / 8)).map fun i => (a + 8 * i, (l.drop (8 * i)).take 8)) ∧
  ∀ (c : Ctx) (tag : Nat) (args : List Text) (s : State),
    (∀ l m map, admits .sr c s = true → decimals (asRead args) = some l → srNames l = some (m, map) → m ∈ memSizes →
      map.valid m = true → s.work.resumeMark ≤ map.inbound.size - 64 → s.pqu.ring.fill s.inboundSize = 0 → s.spu.order = [] →
      s.kcu.claim = none → s.pqu.list = [] → s.du.job (otherCtx c) = none → s.du.line.state ≠ .executing →
      ∃ e, exec (.sr c tag args) s = .next (finish e) ∧ e.work = { s.work with memSize := m, map := map } ∧
        e.pqu.ring = ⟨0, 0, false⟩ ∧ e.spu.ring = ⟨0, 0, false⟩ ∧ .header ∈ e.spu.due ∧ e.du.srIn c = true ∧
        e.spu.srGate = .wait ∧ e.spu = { s.spu.dueItem .header with ring := ⟨0, 0, false⟩, srGate := .wait } ∧
        e.hdu = (if map.glyph = s.work.map.glyph then s.hdu else { s.hdu with loaded := 0 }) ∧
        e.kcu = (if map.form = s.work.map.form then s.kcu else { s.kcu with forms := List.replicate 4 emptyForm }) ∧
        e.du.job c = some (.regions (if map.form = s.work.map.form then []
          else [(map.form.base, [0]), (map.form.base + 256, [0]), (map.form.base + 512, [0]), (map.form.base + 768, [0])])) ∧
        e.outside = s.outside ∧ e.clu = s.clu ∧ e.pe = { s.pe with control := e.pe.control } ∧
        e.ksu = s.ksu) ∧
    (∀ l m map, admits .sr c s = true → decimals (asRead args) = some l → srNames l = some (m, map) →
      m ∉ memSizes ∨ map.valid m = false ∨ map.inbound.size - 64 < s.work.resumeMark →
      exec (.sr c tag args) s = .next (finish (answered .sr c tag .range [] [] s))) ∧
    (∀ x y a t, admits .wm c s = true → asRead args = [x, y] → decimal x = some a → hexBytes y = some t →
      exec (.wm c tag args) s = .next (finish (
        if ¬ (1 ≤ t.length ∧ t.length ≤ 32 ∧ a + t.length ≤ s.work.memSize) then answered .wm c tag .range [] [] s
        else match patchRefused a t.length s with
          | some o => answered .wm c tag o [] [] s
          | none => started .wm c tag (.writing (writesAt a t)) s)) ∧
      (t ≠ [] → a < 512 → patchRefused a t.length s = some .prot) ∧
      (t ≠ [] → 512 ≤ a →
        let spool := a < s.work.map.spool.base + s.work.map.spool.size ∧ s.work.map.spool.base < a + t.length ∧ s.spu.order ≠ []
        let form := ∃ k, 1 ≤ k ∧ k ≤ 4 ∧ a < s.work.map.form.base + (k - 1) * 256 + 256 ∧
          s.work.map.form.base + (k - 1) * 256 < a + t.length ∧ formInUse k s = true
        (spool → patchRefused a t.length s = some .prot) ∧
        (¬ spool → form → patchRefused a t.length s = some .inUse) ∧
        (¬ spool → ¬ form → patchRefused a t.length s = none))) ∧
    (∀ k, formInUse k s = true ↔
      (∃ n, s.spu.openSlot = some n ∧ (s.spu.entry n).cls = some .order ∧ (s.spu.entry n).formSlot = k) ∨
      s.kcu.claim = some (.image k) ∨ 0 < (s.kcu.formSlotAt k).listed) ∧
    (∀ a d rest, s.du.job c = some (.writing ((a, d) :: rest)) →
      (Job.writing ((a, d) :: rest)).burst c = some ⟨true, .addr a, d.length, d, .directive c⟩ ∧
      (rest ≠ [] → deliver (.directive c) [] s = goingOn c (.writing rest) s) ∧
      (rest = [] → deliver (.directive c) [] s = ended c .done [] [] s)) ∧
    (∀ l m map, admits .sr c s = true → decimals (asRead args) = some l → srNames l = some (m, map) → m ∈ memSizes →
      map.valid m = true → s.work.resumeMark ≤ map.inbound.size - 64 →
      s.pqu.ring.fill s.inboundSize ≠ 0 ∨ s.spu.order ≠ [] ∨ s.kcu.claim ≠ none ∨ s.pqu.list ≠ [] ∨
        s.du.job (otherCtx c) ≠ none ∨ c = .service ∧ s.du.line.state = .executing →
      exec (.sr c tag args) s = .next (finish (answered .sr c tag .inUse [] [] s))) ∧
    (∀ a d rest, s.du.job c = some (.regions ((a, d) :: rest)) →
      (Job.regions ((a, d) :: rest)).burst c = some ⟨true, .addr a, d.length, d, .directive c⟩ ∧
      (rest ≠ [] → deliver (.directive c) [] s = goingOn c (.regions rest) s) ∧
      (rest = [] → deliver (.directive c) [] s = { s with du := s.du.setJob c (some (.regions [])) })) ∧
    (s.du.job c = some (.regions []) → s.du.job (otherCtx c) = none →
      (s.spu.srGate = .clear → regionsDone s = ended c .done [] [] s) ∧ (s.spu.srGate ≠ .clear → regionsDone s = s)) ∧
    (s.du.job c ≠ some (.regions []) → s.du.job (otherCtx c) ≠ some (.regions []) → regionsDone s = s) ∧
    (s.du.srRunning = true ↔ ∃ x todo, s.du.job x = some (.regions todo))

/-- The bytes of the settings memory that hold the working values. WS begins to write them; a local RT ends the line; both are
refused BUSY while a WS writes. A line RT answers DONE first. That an RT taken during a shutdown lets the shutdown go on is the
model's choice (log entry 22). A settings write completes: the settings memory holds its bytes, the image follows, and the WS that
wrote them, over the line or local, answers DONE. -/
def Obligations.SystemDirectives : Prop :=
  (∀ w : Settings,
    let m := w.map
    let size : Byte := if w.memSize = 8192 then 0 else if w.memSize = 16384 then 1 else 2
    let stamp := [m.glyph.base, m.glyph.size, m.form.base, m.form.size, m.inbound.base, m.inbound.size, m.spool.base,
      m.spool.size].map fun n => byteOf (n / 256)
    let flags := (if w.autoSend = true then 1 else 0) + if w.acceptNotices = true then 2 else 0
    let body := [0xA5, 0x3C, w.introducer, w.terminator, byteOf w.listen, byteOf w.fadeTime, byteOf w.carrier, byteOf w.ack,
      byteOf w.attemptLimit] ++ be16 w.holdMark ++ be16 w.resumeMark ++ [byteOf w.accept, byteOf flags, byteOf w.lineIdle] ++
      be16 w.dozeIdle ++ [byteOf w.pressDebounce, byteOf w.releaseDebounce, byteOf w.stuck] ++ w.offsets.map byteOf ++
      size :: stamp ++ w.heat.map byteOf ++ [byteOf w.warm, byteOf w.density, w.protect.setWidth 8] ++ List.replicate 36 0
    w.bytes = body ++ checkBytes body ∧ (w.offsets.length = 48 → w.heat.length = 9 → w.bytes.length = 128)) ∧
  (∀ (c : Ctx) (tag : Nat) (args : List Text) (s : State), asRead args = [] →
    (admits .ws c s = true → exec (.ws c tag args) s = .next (finish (
      if s.pm.writing.isSome = true then answered .ws c tag .busy [] [] s
      else { executing .ws c tag .settings s with pm := { s.pm with writing := some s.work.bytes } }))) ∧
    (admits .rt c s = true → s.pm.writing.isSome = true →
      exec (.rt c tag args) s = .next (finish (answered .rt c tag .busy [] [] s))) ∧
    (admits .rt c s = true → s.pm.writing = none → s.pm.stage ≠ .shutdown → c = .line → exec (.rt c tag args) s =
      .next (finish (answered .rt .line tag .done [] [] { s with pm := { s.pm with restarting := true, stage := .report } }))) ∧
    (admits .rt c s = true → s.pm.writing = none → s.pm.stage = .shutdown →
      let u : State := { s with pm := { s.pm with restarting := true } }
      (c = .line → exec (.rt c tag args) s = .next (finish (answered .rt .line tag .done [] [] u))) ∧
      (c = .service → exec (.rt c tag args) s = .next (finish (executing .rt .service tag .restart u)))) ∧
    (admits .rt c s = true → s.pm.writing = none → s.pm.stage ≠ .shutdown → c = .service → s.clu.line = .off →
      exec (.rt c tag args) s =
        .next (finish { executing .rt .service tag .restart s with pm := { s.pm with restarting := true, stage := .line } })) ∧
    (admits .rt c s = true → s.pm.writing = none → s.pm.stage ≠ .shutdown → c = .service →
      let u := { executing .rt .service tag .restart s with pm := { s.pm with restarting := true, stage := .line } }
      (s.clu.line = .ready ∨ s.clu.line = .fade → ∃ e, exec (.rt c tag args) s = .next (finish e) ∧
        e.clu = { s.clu.still with
          line := .clearing, clearingTimer := true, clearingCause := some .restart, lastEnd := .clear .restart } ∧
        e.pm = { u.pm with dozeHeld := false } ∧ SessionEnded (.clear .restart) [.clear] u e) ∧
      (s.clu.line = .listen ∨ s.clu.line = .detect → exec (.rt c tag args) s =
        .next (finish { u.onLine { s.clu.still with line := .off, txChar := none } with
          pe := { s.pe with tx := none, control := [] } })) ∧
      (s.clu.line = .settle ∨ s.clu.line = .clearing → exec (.rt c tag args) s =
        .next (finish { (u.onLine { s.clu.still with line := .off, txChar := none }).limited false with
          pe := { s.pe with tx := none, control := [] } })))) ∧
  ∀ (s : State) (bytes : Text), s.pm.power ≠ .off → s.pm.writing = some bytes →
    let u : State := { s with
      settings := bytes, settingsTorn := false, pm := { s.pm with image := (settingsOf bytes).1, writing := none } }
    (s.du.line.job ≠ some .settings → s.du.keyed.job ≠ some .settings → exec .settingsWriteComplete s = .next (finish u)) ∧
    (s.du.line.job = some .settings → s.du.line.orphan = false → s.pe.reports.length < 4 → exec .settingsWriteComplete s =
      .next (finish { u with
        pe := { s.pe with reports := s.pe.reports ++ [⟨s.du.line.tag, [Outcome.done.code], 0⟩] }
        du := { s.du with line := ⟨.idle, [], false, s.du.line.tag, none, false⟩ } })) ∧
    (s.du.line.job = some .settings → exec .settingsWriteComplete s = .next (finish (ended .line .done [] [] u))) ∧
    (s.du.line.job ≠ some .settings → s.du.keyed.job = some .settings →
      exec .settingsWriteComplete s = .next (finish (ended .service .done [] [] u)))
end

