-- ==== Sys2Proof/Laws/State.lean ====
section
/-! SUPPORT. One lemma per field and block setter, true by rfl, so that no proof unfolds a record update. -/

namespace Sys2Proof.Machine

@[simp] theorem State.setPending_pending (s : State) (v : List Instr) : (s.setPending v).pending = v := rfl
@[simp] theorem State.setPending_mem (s : State) (v : List Instr) : (s.setPending v).mem = s.mem := rfl
@[simp] theorem State.setPending_settings (s : State) (v : List Instr) : (s.setPending v).settings = s.settings := rfl
@[simp] theorem State.setPending_settingsTorn (s : State) (v : List Instr) : (s.setPending v).settingsTorn = s.settingsTorn := rfl
@[simp] theorem State.setPending_regionsCut (s : State) (v : List Instr) : (s.setPending v).regionsCut = s.regionsCut := rfl
@[simp] theorem State.setPending_work (s : State) (v : List Instr) : (s.setPending v).work = s.work := rfl
@[simp] theorem State.setPending_jmc (s : State) (v : List Instr) : (s.setPending v).jmc = s.jmc := rfl
@[simp] theorem State.setPending_clu (s : State) (v : List Instr) : (s.setPending v).clu = s.clu := rfl
@[simp] theorem State.setPending_pe (s : State) (v : List Instr) : (s.setPending v).pe = s.pe := rfl
@[simp] theorem State.setPending_du (s : State) (v : List Instr) : (s.setPending v).du = s.du := rfl
@[simp] theorem State.setPending_ksu (s : State) (v : List Instr) : (s.setPending v).ksu = s.ksu := rfl
@[simp] theorem State.setPending_kcu (s : State) (v : List Instr) : (s.setPending v).kcu = s.kcu := rfl
@[simp] theorem State.setPending_spu (s : State) (v : List Instr) : (s.setPending v).spu = s.spu := rfl
@[simp] theorem State.setPending_pqu (s : State) (v : List Instr) : (s.setPending v).pqu = s.pqu := rfl
@[simp] theorem State.setPending_hdu (s : State) (v : List Instr) : (s.setPending v).hdu = s.hdu := rfl
@[simp] theorem State.setPending_pm (s : State) (v : List Instr) : (s.setPending v).pm = s.pm := rfl
@[simp] theorem State.setPending_pins (s : State) (v : List Instr) : (s.setPending v).pins = s.pins := rfl
@[simp] theorem State.setPending_fresh (s : State) (v : List Instr) : (s.setPending v).fresh = s.fresh := rfl

@[simp] theorem State.setMem_pending (s : State) (v : Memory) : (s.setMem v).pending = s.pending := rfl
@[simp] theorem State.setMem_mem (s : State) (v : Memory) : (s.setMem v).mem = v := rfl
@[simp] theorem State.setMem_settings (s : State) (v : Memory) : (s.setMem v).settings = s.settings := rfl
@[simp] theorem State.setMem_settingsTorn (s : State) (v : Memory) : (s.setMem v).settingsTorn = s.settingsTorn := rfl
@[simp] theorem State.setMem_regionsCut (s : State) (v : Memory) : (s.setMem v).regionsCut = s.regionsCut := rfl
@[simp] theorem State.setMem_work (s : State) (v : Memory) : (s.setMem v).work = s.work := rfl
@[simp] theorem State.setMem_jmc (s : State) (v : Memory) : (s.setMem v).jmc = s.jmc := rfl
@[simp] theorem State.setMem_clu (s : State) (v : Memory) : (s.setMem v).clu = s.clu := rfl
@[simp] theorem State.setMem_pe (s : State) (v : Memory) : (s.setMem v).pe = s.pe := rfl
@[simp] theorem State.setMem_du (s : State) (v : Memory) : (s.setMem v).du = s.du := rfl
@[simp] theorem State.setMem_ksu (s : State) (v : Memory) : (s.setMem v).ksu = s.ksu := rfl
@[simp] theorem State.setMem_kcu (s : State) (v : Memory) : (s.setMem v).kcu = s.kcu := rfl
@[simp] theorem State.setMem_spu (s : State) (v : Memory) : (s.setMem v).spu = s.spu := rfl
@[simp] theorem State.setMem_pqu (s : State) (v : Memory) : (s.setMem v).pqu = s.pqu := rfl
@[simp] theorem State.setMem_hdu (s : State) (v : Memory) : (s.setMem v).hdu = s.hdu := rfl
@[simp] theorem State.setMem_pm (s : State) (v : Memory) : (s.setMem v).pm = s.pm := rfl
@[simp] theorem State.setMem_pins (s : State) (v : Memory) : (s.setMem v).pins = s.pins := rfl
@[simp] theorem State.setMem_fresh (s : State) (v : Memory) : (s.setMem v).fresh = s.fresh := rfl

@[simp] theorem State.setSettings_pending (s : State) (v : Text) : (s.setSettings v).pending = s.pending := rfl
@[simp] theorem State.setSettings_mem (s : State) (v : Text) : (s.setSettings v).mem = s.mem := rfl
@[simp] theorem State.setSettings_settings (s : State) (v : Text) : (s.setSettings v).settings = v := rfl
@[simp] theorem State.setSettings_settingsTorn (s : State) (v : Text) : (s.setSettings v).settingsTorn = s.settingsTorn := rfl
@[simp] theorem State.setSettings_regionsCut (s : State) (v : Text) : (s.setSettings v).regionsCut = s.regionsCut := rfl
@[simp] theorem State.setSettings_work (s : State) (v : Text) : (s.setSettings v).work = s.work := rfl
@[simp] theorem State.setSettings_jmc (s : State) (v : Text) : (s.setSettings v).jmc = s.jmc := rfl
@[simp] theorem State.setSettings_clu (s : State) (v : Text) : (s.setSettings v).clu = s.clu := rfl
@[simp] theorem State.setSettings_pe (s : State) (v : Text) : (s.setSettings v).pe = s.pe := rfl
@[simp] theorem State.setSettings_du (s : State) (v : Text) : (s.setSettings v).du = s.du := rfl
@[simp] theorem State.setSettings_ksu (s : State) (v : Text) : (s.setSettings v).ksu = s.ksu := rfl
@[simp] theorem State.setSettings_kcu (s : State) (v : Text) : (s.setSettings v).kcu = s.kcu := rfl
@[simp] theorem State.setSettings_spu (s : State) (v : Text) : (s.setSettings v).spu = s.spu := rfl
@[simp] theorem State.setSettings_pqu (s : State) (v : Text) : (s.setSettings v).pqu = s.pqu := rfl
@[simp] theorem State.setSettings_hdu (s : State) (v : Text) : (s.setSettings v).hdu = s.hdu := rfl
@[simp] theorem State.setSettings_pm (s : State) (v : Text) : (s.setSettings v).pm = s.pm := rfl
@[simp] theorem State.setSettings_pins (s : State) (v : Text) : (s.setSettings v).pins = s.pins := rfl
@[simp] theorem State.setSettings_fresh (s : State) (v : Text) : (s.setSettings v).fresh = s.fresh := rfl

@[simp] theorem State.setSettingsTorn_pending (s : State) (v : Bool) : (s.setSettingsTorn v).pending = s.pending := rfl
@[simp] theorem State.setSettingsTorn_mem (s : State) (v : Bool) : (s.setSettingsTorn v).mem = s.mem := rfl
@[simp] theorem State.setSettingsTorn_settings (s : State) (v : Bool) : (s.setSettingsTorn v).settings = s.settings := rfl
@[simp] theorem State.setSettingsTorn_settingsTorn (s : State) (v : Bool) : (s.setSettingsTorn v).settingsTorn = v := rfl
@[simp] theorem State.setSettingsTorn_regionsCut (s : State) (v : Bool) : (s.setSettingsTorn v).regionsCut = s.regionsCut := rfl
@[simp] theorem State.setSettingsTorn_work (s : State) (v : Bool) : (s.setSettingsTorn v).work = s.work := rfl
@[simp] theorem State.setSettingsTorn_jmc (s : State) (v : Bool) : (s.setSettingsTorn v).jmc = s.jmc := rfl
@[simp] theorem State.setSettingsTorn_clu (s : State) (v : Bool) : (s.setSettingsTorn v).clu = s.clu := rfl
@[simp] theorem State.setSettingsTorn_pe (s : State) (v : Bool) : (s.setSettingsTorn v).pe = s.pe := rfl
@[simp] theorem State.setSettingsTorn_du (s : State) (v : Bool) : (s.setSettingsTorn v).du = s.du := rfl
@[simp] theorem State.setSettingsTorn_ksu (s : State) (v : Bool) : (s.setSettingsTorn v).ksu = s.ksu := rfl
@[simp] theorem State.setSettingsTorn_kcu (s : State) (v : Bool) : (s.setSettingsTorn v).kcu = s.kcu := rfl
@[simp] theorem State.setSettingsTorn_spu (s : State) (v : Bool) : (s.setSettingsTorn v).spu = s.spu := rfl
@[simp] theorem State.setSettingsTorn_pqu (s : State) (v : Bool) : (s.setSettingsTorn v).pqu = s.pqu := rfl
@[simp] theorem State.setSettingsTorn_hdu (s : State) (v : Bool) : (s.setSettingsTorn v).hdu = s.hdu := rfl
@[simp] theorem State.setSettingsTorn_pm (s : State) (v : Bool) : (s.setSettingsTorn v).pm = s.pm := rfl
@[simp] theorem State.setSettingsTorn_pins (s : State) (v : Bool) : (s.setSettingsTorn v).pins = s.pins := rfl
@[simp] theorem State.setSettingsTorn_fresh (s : State) (v : Bool) : (s.setSettingsTorn v).fresh = s.fresh := rfl

@[simp] theorem State.setRegionsCut_pending (s : State) (v : Bool) : (s.setRegionsCut v).pending = s.pending := rfl
@[simp] theorem State.setRegionsCut_mem (s : State) (v : Bool) : (s.setRegionsCut v).mem = s.mem := rfl
@[simp] theorem State.setRegionsCut_settings (s : State) (v : Bool) : (s.setRegionsCut v).settings = s.settings := rfl
@[simp] theorem State.setRegionsCut_settingsTorn (s : State) (v : Bool) : (s.setRegionsCut v).settingsTorn = s.settingsTorn := rfl
@[simp] theorem State.setRegionsCut_regionsCut (s : State) (v : Bool) : (s.setRegionsCut v).regionsCut = v := rfl
@[simp] theorem State.setRegionsCut_work (s : State) (v : Bool) : (s.setRegionsCut v).work = s.work := rfl
@[simp] theorem State.setRegionsCut_jmc (s : State) (v : Bool) : (s.setRegionsCut v).jmc = s.jmc := rfl
@[simp] theorem State.setRegionsCut_clu (s : State) (v : Bool) : (s.setRegionsCut v).clu = s.clu := rfl
@[simp] theorem State.setRegionsCut_pe (s : State) (v : Bool) : (s.setRegionsCut v).pe = s.pe := rfl
@[simp] theorem State.setRegionsCut_du (s : State) (v : Bool) : (s.setRegionsCut v).du = s.du := rfl
@[simp] theorem State.setRegionsCut_ksu (s : State) (v : Bool) : (s.setRegionsCut v).ksu = s.ksu := rfl
@[simp] theorem State.setRegionsCut_kcu (s : State) (v : Bool) : (s.setRegionsCut v).kcu = s.kcu := rfl
@[simp] theorem State.setRegionsCut_spu (s : State) (v : Bool) : (s.setRegionsCut v).spu = s.spu := rfl
@[simp] theorem State.setRegionsCut_pqu (s : State) (v : Bool) : (s.setRegionsCut v).pqu = s.pqu := rfl
@[simp] theorem State.setRegionsCut_hdu (s : State) (v : Bool) : (s.setRegionsCut v).hdu = s.hdu := rfl
@[simp] theorem State.setRegionsCut_pm (s : State) (v : Bool) : (s.setRegionsCut v).pm = s.pm := rfl
@[simp] theorem State.setRegionsCut_pins (s : State) (v : Bool) : (s.setRegionsCut v).pins = s.pins := rfl
@[simp] theorem State.setRegionsCut_fresh (s : State) (v : Bool) : (s.setRegionsCut v).fresh = s.fresh := rfl

@[simp] theorem State.setWork_pending (s : State) (v : Settings) : (s.setWork v).pending = s.pending := rfl
@[simp] theorem State.setWork_mem (s : State) (v : Settings) : (s.setWork v).mem = s.mem := rfl
@[simp] theorem State.setWork_settings (s : State) (v : Settings) : (s.setWork v).settings = s.settings := rfl
@[simp] theorem State.setWork_settingsTorn (s : State) (v : Settings) : (s.setWork v).settingsTorn = s.settingsTorn := rfl
@[simp] theorem State.setWork_regionsCut (s : State) (v : Settings) : (s.setWork v).regionsCut = s.regionsCut := rfl
@[simp] theorem State.setWork_work (s : State) (v : Settings) : (s.setWork v).work = v := rfl
@[simp] theorem State.setWork_jmc (s : State) (v : Settings) : (s.setWork v).jmc = s.jmc := rfl
@[simp] theorem State.setWork_clu (s : State) (v : Settings) : (s.setWork v).clu = s.clu := rfl
@[simp] theorem State.setWork_pe (s : State) (v : Settings) : (s.setWork v).pe = s.pe := rfl
@[simp] theorem State.setWork_du (s : State) (v : Settings) : (s.setWork v).du = s.du := rfl
@[simp] theorem State.setWork_ksu (s : State) (v : Settings) : (s.setWork v).ksu = s.ksu := rfl
@[simp] theorem State.setWork_kcu (s : State) (v : Settings) : (s.setWork v).kcu = s.kcu := rfl
@[simp] theorem State.setWork_spu (s : State) (v : Settings) : (s.setWork v).spu = s.spu := rfl
@[simp] theorem State.setWork_pqu (s : State) (v : Settings) : (s.setWork v).pqu = s.pqu := rfl
@[simp] theorem State.setWork_hdu (s : State) (v : Settings) : (s.setWork v).hdu = s.hdu := rfl
@[simp] theorem State.setWork_pm (s : State) (v : Settings) : (s.setWork v).pm = s.pm := rfl
@[simp] theorem State.setWork_pins (s : State) (v : Settings) : (s.setWork v).pins = s.pins := rfl
@[simp] theorem State.setWork_fresh (s : State) (v : Settings) : (s.setWork v).fresh = s.fresh := rfl

@[simp] theorem State.setJmc_pending (s : State) (v : Jmc) : (s.setJmc v).pending = s.pending := rfl
@[simp] theorem State.setJmc_mem (s : State) (v : Jmc) : (s.setJmc v).mem = s.mem := rfl
@[simp] theorem State.setJmc_settings (s : State) (v : Jmc) : (s.setJmc v).settings = s.settings := rfl
@[simp] theorem State.setJmc_settingsTorn (s : State) (v : Jmc) : (s.setJmc v).settingsTorn = s.settingsTorn := rfl
@[simp] theorem State.setJmc_regionsCut (s : State) (v : Jmc) : (s.setJmc v).regionsCut = s.regionsCut := rfl
@[simp] theorem State.setJmc_work (s : State) (v : Jmc) : (s.setJmc v).work = s.work := rfl
@[simp] theorem State.setJmc_jmc (s : State) (v : Jmc) : (s.setJmc v).jmc = v := rfl
@[simp] theorem State.setJmc_clu (s : State) (v : Jmc) : (s.setJmc v).clu = s.clu := rfl
@[simp] theorem State.setJmc_pe (s : State) (v : Jmc) : (s.setJmc v).pe = s.pe := rfl
@[simp] theorem State.setJmc_du (s : State) (v : Jmc) : (s.setJmc v).du = s.du := rfl
@[simp] theorem State.setJmc_ksu (s : State) (v : Jmc) : (s.setJmc v).ksu = s.ksu := rfl
@[simp] theorem State.setJmc_kcu (s : State) (v : Jmc) : (s.setJmc v).kcu = s.kcu := rfl
@[simp] theorem State.setJmc_spu (s : State) (v : Jmc) : (s.setJmc v).spu = s.spu := rfl
@[simp] theorem State.setJmc_pqu (s : State) (v : Jmc) : (s.setJmc v).pqu = s.pqu := rfl
@[simp] theorem State.setJmc_hdu (s : State) (v : Jmc) : (s.setJmc v).hdu = s.hdu := rfl
@[simp] theorem State.setJmc_pm (s : State) (v : Jmc) : (s.setJmc v).pm = s.pm := rfl
@[simp] theorem State.setJmc_pins (s : State) (v : Jmc) : (s.setJmc v).pins = s.pins := rfl
@[simp] theorem State.setJmc_fresh (s : State) (v : Jmc) : (s.setJmc v).fresh = s.fresh := rfl

@[simp] theorem State.setClu_pending (s : State) (v : Clu) : (s.setClu v).pending = s.pending := rfl
@[simp] theorem State.setClu_mem (s : State) (v : Clu) : (s.setClu v).mem = s.mem := rfl
@[simp] theorem State.setClu_settings (s : State) (v : Clu) : (s.setClu v).settings = s.settings := rfl
@[simp] theorem State.setClu_settingsTorn (s : State) (v : Clu) : (s.setClu v).settingsTorn = s.settingsTorn := rfl
@[simp] theorem State.setClu_regionsCut (s : State) (v : Clu) : (s.setClu v).regionsCut = s.regionsCut := rfl
@[simp] theorem State.setClu_work (s : State) (v : Clu) : (s.setClu v).work = s.work := rfl
@[simp] theorem State.setClu_jmc (s : State) (v : Clu) : (s.setClu v).jmc = s.jmc := rfl
@[simp] theorem State.setClu_clu (s : State) (v : Clu) : (s.setClu v).clu = v := rfl
@[simp] theorem State.setClu_pe (s : State) (v : Clu) : (s.setClu v).pe = s.pe := rfl
@[simp] theorem State.setClu_du (s : State) (v : Clu) : (s.setClu v).du = s.du := rfl
@[simp] theorem State.setClu_ksu (s : State) (v : Clu) : (s.setClu v).ksu = s.ksu := rfl
@[simp] theorem State.setClu_kcu (s : State) (v : Clu) : (s.setClu v).kcu = s.kcu := rfl
@[simp] theorem State.setClu_spu (s : State) (v : Clu) : (s.setClu v).spu = s.spu := rfl
@[simp] theorem State.setClu_pqu (s : State) (v : Clu) : (s.setClu v).pqu = s.pqu := rfl
@[simp] theorem State.setClu_hdu (s : State) (v : Clu) : (s.setClu v).hdu = s.hdu := rfl
@[simp] theorem State.setClu_pm (s : State) (v : Clu) : (s.setClu v).pm = s.pm := rfl
@[simp] theorem State.setClu_pins (s : State) (v : Clu) : (s.setClu v).pins = s.pins := rfl
@[simp] theorem State.setClu_fresh (s : State) (v : Clu) : (s.setClu v).fresh = s.fresh := rfl

@[simp] theorem State.setPe_pending (s : State) (v : Pe) : (s.setPe v).pending = s.pending := rfl
@[simp] theorem State.setPe_mem (s : State) (v : Pe) : (s.setPe v).mem = s.mem := rfl
@[simp] theorem State.setPe_settings (s : State) (v : Pe) : (s.setPe v).settings = s.settings := rfl
@[simp] theorem State.setPe_settingsTorn (s : State) (v : Pe) : (s.setPe v).settingsTorn = s.settingsTorn := rfl
@[simp] theorem State.setPe_regionsCut (s : State) (v : Pe) : (s.setPe v).regionsCut = s.regionsCut := rfl
@[simp] theorem State.setPe_work (s : State) (v : Pe) : (s.setPe v).work = s.work := rfl
@[simp] theorem State.setPe_jmc (s : State) (v : Pe) : (s.setPe v).jmc = s.jmc := rfl
@[simp] theorem State.setPe_clu (s : State) (v : Pe) : (s.setPe v).clu = s.clu := rfl
@[simp] theorem State.setPe_pe (s : State) (v : Pe) : (s.setPe v).pe = v := rfl
@[simp] theorem State.setPe_du (s : State) (v : Pe) : (s.setPe v).du = s.du := rfl
@[simp] theorem State.setPe_ksu (s : State) (v : Pe) : (s.setPe v).ksu = s.ksu := rfl
@[simp] theorem State.setPe_kcu (s : State) (v : Pe) : (s.setPe v).kcu = s.kcu := rfl
@[simp] theorem State.setPe_spu (s : State) (v : Pe) : (s.setPe v).spu = s.spu := rfl
@[simp] theorem State.setPe_pqu (s : State) (v : Pe) : (s.setPe v).pqu = s.pqu := rfl
@[simp] theorem State.setPe_hdu (s : State) (v : Pe) : (s.setPe v).hdu = s.hdu := rfl
@[simp] theorem State.setPe_pm (s : State) (v : Pe) : (s.setPe v).pm = s.pm := rfl
@[simp] theorem State.setPe_pins (s : State) (v : Pe) : (s.setPe v).pins = s.pins := rfl
@[simp] theorem State.setPe_fresh (s : State) (v : Pe) : (s.setPe v).fresh = s.fresh := rfl

@[simp] theorem State.setDu_pending (s : State) (v : Du) : (s.setDu v).pending = s.pending := rfl
@[simp] theorem State.setDu_mem (s : State) (v : Du) : (s.setDu v).mem = s.mem := rfl
@[simp] theorem State.setDu_settings (s : State) (v : Du) : (s.setDu v).settings = s.settings := rfl
@[simp] theorem State.setDu_settingsTorn (s : State) (v : Du) : (s.setDu v).settingsTorn = s.settingsTorn := rfl
@[simp] theorem State.setDu_regionsCut (s : State) (v : Du) : (s.setDu v).regionsCut = s.regionsCut := rfl
@[simp] theorem State.setDu_work (s : State) (v : Du) : (s.setDu v).work = s.work := rfl
@[simp] theorem State.setDu_jmc (s : State) (v : Du) : (s.setDu v).jmc = s.jmc := rfl
@[simp] theorem State.setDu_clu (s : State) (v : Du) : (s.setDu v).clu = s.clu := rfl
@[simp] theorem State.setDu_pe (s : State) (v : Du) : (s.setDu v).pe = s.pe := rfl
@[simp] theorem State.setDu_du (s : State) (v : Du) : (s.setDu v).du = v := rfl
@[simp] theorem State.setDu_ksu (s : State) (v : Du) : (s.setDu v).ksu = s.ksu := rfl
@[simp] theorem State.setDu_kcu (s : State) (v : Du) : (s.setDu v).kcu = s.kcu := rfl
@[simp] theorem State.setDu_spu (s : State) (v : Du) : (s.setDu v).spu = s.spu := rfl
@[simp] theorem State.setDu_pqu (s : State) (v : Du) : (s.setDu v).pqu = s.pqu := rfl
@[simp] theorem State.setDu_hdu (s : State) (v : Du) : (s.setDu v).hdu = s.hdu := rfl
@[simp] theorem State.setDu_pm (s : State) (v : Du) : (s.setDu v).pm = s.pm := rfl
@[simp] theorem State.setDu_pins (s : State) (v : Du) : (s.setDu v).pins = s.pins := rfl
@[simp] theorem State.setDu_fresh (s : State) (v : Du) : (s.setDu v).fresh = s.fresh := rfl

@[simp] theorem State.setKsu_pending (s : State) (v : Ksu) : (s.setKsu v).pending = s.pending := rfl
@[simp] theorem State.setKsu_mem (s : State) (v : Ksu) : (s.setKsu v).mem = s.mem := rfl
@[simp] theorem State.setKsu_settings (s : State) (v : Ksu) : (s.setKsu v).settings = s.settings := rfl
@[simp] theorem State.setKsu_settingsTorn (s : State) (v : Ksu) : (s.setKsu v).settingsTorn = s.settingsTorn := rfl
@[simp] theorem State.setKsu_regionsCut (s : State) (v : Ksu) : (s.setKsu v).regionsCut = s.regionsCut := rfl
@[simp] theorem State.setKsu_work (s : State) (v : Ksu) : (s.setKsu v).work = s.work := rfl
@[simp] theorem State.setKsu_jmc (s : State) (v : Ksu) : (s.setKsu v).jmc = s.jmc := rfl
@[simp] theorem State.setKsu_clu (s : State) (v : Ksu) : (s.setKsu v).clu = s.clu := rfl
@[simp] theorem State.setKsu_pe (s : State) (v : Ksu) : (s.setKsu v).pe = s.pe := rfl
@[simp] theorem State.setKsu_du (s : State) (v : Ksu) : (s.setKsu v).du = s.du := rfl
@[simp] theorem State.setKsu_ksu (s : State) (v : Ksu) : (s.setKsu v).ksu = v := rfl
@[simp] theorem State.setKsu_kcu (s : State) (v : Ksu) : (s.setKsu v).kcu = s.kcu := rfl
@[simp] theorem State.setKsu_spu (s : State) (v : Ksu) : (s.setKsu v).spu = s.spu := rfl
@[simp] theorem State.setKsu_pqu (s : State) (v : Ksu) : (s.setKsu v).pqu = s.pqu := rfl
@[simp] theorem State.setKsu_hdu (s : State) (v : Ksu) : (s.setKsu v).hdu = s.hdu := rfl
@[simp] theorem State.setKsu_pm (s : State) (v : Ksu) : (s.setKsu v).pm = s.pm := rfl
@[simp] theorem State.setKsu_pins (s : State) (v : Ksu) : (s.setKsu v).pins = s.pins := rfl
@[simp] theorem State.setKsu_fresh (s : State) (v : Ksu) : (s.setKsu v).fresh = s.fresh := rfl

@[simp] theorem State.setKcu_pending (s : State) (v : Kcu) : (s.setKcu v).pending = s.pending := rfl
@[simp] theorem State.setKcu_mem (s : State) (v : Kcu) : (s.setKcu v).mem = s.mem := rfl
@[simp] theorem State.setKcu_settings (s : State) (v : Kcu) : (s.setKcu v).settings = s.settings := rfl
@[simp] theorem State.setKcu_settingsTorn (s : State) (v : Kcu) : (s.setKcu v).settingsTorn = s.settingsTorn := rfl
@[simp] theorem State.setKcu_regionsCut (s : State) (v : Kcu) : (s.setKcu v).regionsCut = s.regionsCut := rfl
@[simp] theorem State.setKcu_work (s : State) (v : Kcu) : (s.setKcu v).work = s.work := rfl
@[simp] theorem State.setKcu_jmc (s : State) (v : Kcu) : (s.setKcu v).jmc = s.jmc := rfl
@[simp] theorem State.setKcu_clu (s : State) (v : Kcu) : (s.setKcu v).clu = s.clu := rfl
@[simp] theorem State.setKcu_pe (s : State) (v : Kcu) : (s.setKcu v).pe = s.pe := rfl
@[simp] theorem State.setKcu_du (s : State) (v : Kcu) : (s.setKcu v).du = s.du := rfl
@[simp] theorem State.setKcu_ksu (s : State) (v : Kcu) : (s.setKcu v).ksu = s.ksu := rfl
@[simp] theorem State.setKcu_kcu (s : State) (v : Kcu) : (s.setKcu v).kcu = v := rfl
@[simp] theorem State.setKcu_spu (s : State) (v : Kcu) : (s.setKcu v).spu = s.spu := rfl
@[simp] theorem State.setKcu_pqu (s : State) (v : Kcu) : (s.setKcu v).pqu = s.pqu := rfl
@[simp] theorem State.setKcu_hdu (s : State) (v : Kcu) : (s.setKcu v).hdu = s.hdu := rfl
@[simp] theorem State.setKcu_pm (s : State) (v : Kcu) : (s.setKcu v).pm = s.pm := rfl
@[simp] theorem State.setKcu_pins (s : State) (v : Kcu) : (s.setKcu v).pins = s.pins := rfl
@[simp] theorem State.setKcu_fresh (s : State) (v : Kcu) : (s.setKcu v).fresh = s.fresh := rfl

@[simp] theorem State.setSpu_pending (s : State) (v : Spu) : (s.setSpu v).pending = s.pending := rfl
@[simp] theorem State.setSpu_mem (s : State) (v : Spu) : (s.setSpu v).mem = s.mem := rfl
@[simp] theorem State.setSpu_settings (s : State) (v : Spu) : (s.setSpu v).settings = s.settings := rfl
@[simp] theorem State.setSpu_settingsTorn (s : State) (v : Spu) : (s.setSpu v).settingsTorn = s.settingsTorn := rfl
@[simp] theorem State.setSpu_regionsCut (s : State) (v : Spu) : (s.setSpu v).regionsCut = s.regionsCut := rfl
@[simp] theorem State.setSpu_work (s : State) (v : Spu) : (s.setSpu v).work = s.work := rfl
@[simp] theorem State.setSpu_jmc (s : State) (v : Spu) : (s.setSpu v).jmc = s.jmc := rfl
@[simp] theorem State.setSpu_clu (s : State) (v : Spu) : (s.setSpu v).clu = s.clu := rfl
@[simp] theorem State.setSpu_pe (s : State) (v : Spu) : (s.setSpu v).pe = s.pe := rfl
@[simp] theorem State.setSpu_du (s : State) (v : Spu) : (s.setSpu v).du = s.du := rfl
@[simp] theorem State.setSpu_ksu (s : State) (v : Spu) : (s.setSpu v).ksu = s.ksu := rfl
@[simp] theorem State.setSpu_kcu (s : State) (v : Spu) : (s.setSpu v).kcu = s.kcu := rfl
@[simp] theorem State.setSpu_spu (s : State) (v : Spu) : (s.setSpu v).spu = v := rfl
@[simp] theorem State.setSpu_pqu (s : State) (v : Spu) : (s.setSpu v).pqu = s.pqu := rfl
@[simp] theorem State.setSpu_hdu (s : State) (v : Spu) : (s.setSpu v).hdu = s.hdu := rfl
@[simp] theorem State.setSpu_pm (s : State) (v : Spu) : (s.setSpu v).pm = s.pm := rfl
@[simp] theorem State.setSpu_pins (s : State) (v : Spu) : (s.setSpu v).pins = s.pins := rfl
@[simp] theorem State.setSpu_fresh (s : State) (v : Spu) : (s.setSpu v).fresh = s.fresh := rfl

@[simp] theorem State.setPqu_pending (s : State) (v : Pqu) : (s.setPqu v).pending = s.pending := rfl
@[simp] theorem State.setPqu_mem (s : State) (v : Pqu) : (s.setPqu v).mem = s.mem := rfl
@[simp] theorem State.setPqu_settings (s : State) (v : Pqu) : (s.setPqu v).settings = s.settings := rfl
@[simp] theorem State.setPqu_settingsTorn (s : State) (v : Pqu) : (s.setPqu v).settingsTorn = s.settingsTorn := rfl
@[simp] theorem State.setPqu_regionsCut (s : State) (v : Pqu) : (s.setPqu v).regionsCut = s.regionsCut := rfl
@[simp] theorem State.setPqu_work (s : State) (v : Pqu) : (s.setPqu v).work = s.work := rfl
@[simp] theorem State.setPqu_jmc (s : State) (v : Pqu) : (s.setPqu v).jmc = s.jmc := rfl
@[simp] theorem State.setPqu_clu (s : State) (v : Pqu) : (s.setPqu v).clu = s.clu := rfl
@[simp] theorem State.setPqu_pe (s : State) (v : Pqu) : (s.setPqu v).pe = s.pe := rfl
@[simp] theorem State.setPqu_du (s : State) (v : Pqu) : (s.setPqu v).du = s.du := rfl
@[simp] theorem State.setPqu_ksu (s : State) (v : Pqu) : (s.setPqu v).ksu = s.ksu := rfl
@[simp] theorem State.setPqu_kcu (s : State) (v : Pqu) : (s.setPqu v).kcu = s.kcu := rfl
@[simp] theorem State.setPqu_spu (s : State) (v : Pqu) : (s.setPqu v).spu = s.spu := rfl
@[simp] theorem State.setPqu_pqu (s : State) (v : Pqu) : (s.setPqu v).pqu = v := rfl
@[simp] theorem State.setPqu_hdu (s : State) (v : Pqu) : (s.setPqu v).hdu = s.hdu := rfl
@[simp] theorem State.setPqu_pm (s : State) (v : Pqu) : (s.setPqu v).pm = s.pm := rfl
@[simp] theorem State.setPqu_pins (s : State) (v : Pqu) : (s.setPqu v).pins = s.pins := rfl
@[simp] theorem State.setPqu_fresh (s : State) (v : Pqu) : (s.setPqu v).fresh = s.fresh := rfl

@[simp] theorem State.setHdu_pending (s : State) (v : Hdu) : (s.setHdu v).pending = s.pending := rfl
@[simp] theorem State.setHdu_mem (s : State) (v : Hdu) : (s.setHdu v).mem = s.mem := rfl
@[simp] theorem State.setHdu_settings (s : State) (v : Hdu) : (s.setHdu v).settings = s.settings := rfl
@[simp] theorem State.setHdu_settingsTorn (s : State) (v : Hdu) : (s.setHdu v).settingsTorn = s.settingsTorn := rfl
@[simp] theorem State.setHdu_regionsCut (s : State) (v : Hdu) : (s.setHdu v).regionsCut = s.regionsCut := rfl
@[simp] theorem State.setHdu_work (s : State) (v : Hdu) : (s.setHdu v).work = s.work := rfl
@[simp] theorem State.setHdu_jmc (s : State) (v : Hdu) : (s.setHdu v).jmc = s.jmc := rfl
@[simp] theorem State.setHdu_clu (s : State) (v : Hdu) : (s.setHdu v).clu = s.clu := rfl
@[simp] theorem State.setHdu_pe (s : State) (v : Hdu) : (s.setHdu v).pe = s.pe := rfl
@[simp] theorem State.setHdu_du (s : State) (v : Hdu) : (s.setHdu v).du = s.du := rfl
@[simp] theorem State.setHdu_ksu (s : State) (v : Hdu) : (s.setHdu v).ksu = s.ksu := rfl
@[simp] theorem State.setHdu_kcu (s : State) (v : Hdu) : (s.setHdu v).kcu = s.kcu := rfl
@[simp] theorem State.setHdu_spu (s : State) (v : Hdu) : (s.setHdu v).spu = s.spu := rfl
@[simp] theorem State.setHdu_pqu (s : State) (v : Hdu) : (s.setHdu v).pqu = s.pqu := rfl
@[simp] theorem State.setHdu_hdu (s : State) (v : Hdu) : (s.setHdu v).hdu = v := rfl
@[simp] theorem State.setHdu_pm (s : State) (v : Hdu) : (s.setHdu v).pm = s.pm := rfl
@[simp] theorem State.setHdu_pins (s : State) (v : Hdu) : (s.setHdu v).pins = s.pins := rfl
@[simp] theorem State.setHdu_fresh (s : State) (v : Hdu) : (s.setHdu v).fresh = s.fresh := rfl

@[simp] theorem State.setPm_pending (s : State) (v : Pm) : (s.setPm v).pending = s.pending := rfl
@[simp] theorem State.setPm_mem (s : State) (v : Pm) : (s.setPm v).mem = s.mem := rfl
@[simp] theorem State.setPm_settings (s : State) (v : Pm) : (s.setPm v).settings = s.settings := rfl
@[simp] theorem State.setPm_settingsTorn (s : State) (v : Pm) : (s.setPm v).settingsTorn = s.settingsTorn := rfl
@[simp] theorem State.setPm_regionsCut (s : State) (v : Pm) : (s.setPm v).regionsCut = s.regionsCut := rfl
@[simp] theorem State.setPm_work (s : State) (v : Pm) : (s.setPm v).work = s.work := rfl
@[simp] theorem State.setPm_jmc (s : State) (v : Pm) : (s.setPm v).jmc = s.jmc := rfl
@[simp] theorem State.setPm_clu (s : State) (v : Pm) : (s.setPm v).clu = s.clu := rfl
@[simp] theorem State.setPm_pe (s : State) (v : Pm) : (s.setPm v).pe = s.pe := rfl
@[simp] theorem State.setPm_du (s : State) (v : Pm) : (s.setPm v).du = s.du := rfl
@[simp] theorem State.setPm_ksu (s : State) (v : Pm) : (s.setPm v).ksu = s.ksu := rfl
@[simp] theorem State.setPm_kcu (s : State) (v : Pm) : (s.setPm v).kcu = s.kcu := rfl
@[simp] theorem State.setPm_spu (s : State) (v : Pm) : (s.setPm v).spu = s.spu := rfl
@[simp] theorem State.setPm_pqu (s : State) (v : Pm) : (s.setPm v).pqu = s.pqu := rfl
@[simp] theorem State.setPm_hdu (s : State) (v : Pm) : (s.setPm v).hdu = s.hdu := rfl
@[simp] theorem State.setPm_pm (s : State) (v : Pm) : (s.setPm v).pm = v := rfl
@[simp] theorem State.setPm_pins (s : State) (v : Pm) : (s.setPm v).pins = s.pins := rfl
@[simp] theorem State.setPm_fresh (s : State) (v : Pm) : (s.setPm v).fresh = s.fresh := rfl

@[simp] theorem State.setPins_pending (s : State) (v : Pins) : (s.setPins v).pending = s.pending := rfl
@[simp] theorem State.setPins_mem (s : State) (v : Pins) : (s.setPins v).mem = s.mem := rfl
@[simp] theorem State.setPins_settings (s : State) (v : Pins) : (s.setPins v).settings = s.settings := rfl
@[simp] theorem State.setPins_settingsTorn (s : State) (v : Pins) : (s.setPins v).settingsTorn = s.settingsTorn := rfl
@[simp] theorem State.setPins_regionsCut (s : State) (v : Pins) : (s.setPins v).regionsCut = s.regionsCut := rfl
@[simp] theorem State.setPins_work (s : State) (v : Pins) : (s.setPins v).work = s.work := rfl
@[simp] theorem State.setPins_jmc (s : State) (v : Pins) : (s.setPins v).jmc = s.jmc := rfl
@[simp] theorem State.setPins_clu (s : State) (v : Pins) : (s.setPins v).clu = s.clu := rfl
@[simp] theorem State.setPins_pe (s : State) (v : Pins) : (s.setPins v).pe = s.pe := rfl
@[simp] theorem State.setPins_du (s : State) (v : Pins) : (s.setPins v).du = s.du := rfl
@[simp] theorem State.setPins_ksu (s : State) (v : Pins) : (s.setPins v).ksu = s.ksu := rfl
@[simp] theorem State.setPins_kcu (s : State) (v : Pins) : (s.setPins v).kcu = s.kcu := rfl
@[simp] theorem State.setPins_spu (s : State) (v : Pins) : (s.setPins v).spu = s.spu := rfl
@[simp] theorem State.setPins_pqu (s : State) (v : Pins) : (s.setPins v).pqu = s.pqu := rfl
@[simp] theorem State.setPins_hdu (s : State) (v : Pins) : (s.setPins v).hdu = s.hdu := rfl
@[simp] theorem State.setPins_pm (s : State) (v : Pins) : (s.setPins v).pm = s.pm := rfl
@[simp] theorem State.setPins_pins (s : State) (v : Pins) : (s.setPins v).pins = v := rfl
@[simp] theorem State.setPins_fresh (s : State) (v : Pins) : (s.setPins v).fresh = s.fresh := rfl

@[simp] theorem State.setFresh_pending (s : State) (v : Nat) : (s.setFresh v).pending = s.pending := rfl
@[simp] theorem State.setFresh_mem (s : State) (v : Nat) : (s.setFresh v).mem = s.mem := rfl
@[simp] theorem State.setFresh_settings (s : State) (v : Nat) : (s.setFresh v).settings = s.settings := rfl
@[simp] theorem State.setFresh_settingsTorn (s : State) (v : Nat) : (s.setFresh v).settingsTorn = s.settingsTorn := rfl
@[simp] theorem State.setFresh_regionsCut (s : State) (v : Nat) : (s.setFresh v).regionsCut = s.regionsCut := rfl
@[simp] theorem State.setFresh_work (s : State) (v : Nat) : (s.setFresh v).work = s.work := rfl
@[simp] theorem State.setFresh_jmc (s : State) (v : Nat) : (s.setFresh v).jmc = s.jmc := rfl
@[simp] theorem State.setFresh_clu (s : State) (v : Nat) : (s.setFresh v).clu = s.clu := rfl
@[simp] theorem State.setFresh_pe (s : State) (v : Nat) : (s.setFresh v).pe = s.pe := rfl
@[simp] theorem State.setFresh_du (s : State) (v : Nat) : (s.setFresh v).du = s.du := rfl
@[simp] theorem State.setFresh_ksu (s : State) (v : Nat) : (s.setFresh v).ksu = s.ksu := rfl
@[simp] theorem State.setFresh_kcu (s : State) (v : Nat) : (s.setFresh v).kcu = s.kcu := rfl
@[simp] theorem State.setFresh_spu (s : State) (v : Nat) : (s.setFresh v).spu = s.spu := rfl
@[simp] theorem State.setFresh_pqu (s : State) (v : Nat) : (s.setFresh v).pqu = s.pqu := rfl
@[simp] theorem State.setFresh_hdu (s : State) (v : Nat) : (s.setFresh v).hdu = s.hdu := rfl
@[simp] theorem State.setFresh_pm (s : State) (v : Nat) : (s.setFresh v).pm = s.pm := rfl
@[simp] theorem State.setFresh_pins (s : State) (v : Nat) : (s.setFresh v).pins = s.pins := rfl
@[simp] theorem State.setFresh_fresh (s : State) (v : Nat) : (s.setFresh v).fresh = v := rfl

end Sys2Proof.Machine
end

