-- ==== Sys2Proof/Laws/Operations.lean ====
section
/-! SUPPORT. What the shared operations do, each said once: a proof rewrites with these instead of unfolding the operations. -/

namespace Sys2Proof.Machine

/-! ## Notices, the alert, the line -/

theorem raise_eq (t : Text) (s : State) : raise t s = s.setPqu (s.pqu.raise t) := rfl

/-- An alert outside DOZE. -/
theorem alert_awake {s : State} (h : s.pm.power.awake = true) : alert s = s.setKcu { s.kcu with alert := true } := by
  unfold alert
  rw [if_neg]
  intro e
  rw [e] at h
  contradiction

theorem alert_eq (s : State) : alert s = s.alerted := by
  unfold alert State.alerted
  split <;> rename_i h <;> simp [h, State.setKcu]

/-- A change of the line that leaves the transmitter on or off as it was. -/
theorem lineTo_same {c : Clu} {s : State} (h : c.line.txOn = s.clu.line.txOn) : lineTo c s = s.onLine c := by
  unfold lineTo; dsimp only; rw [if_pos h]; rfl

/-- A change of the line that turns the transmitter on or off. -/
theorem lineTo_turns {c : Clu} {s : State} (h : c.line.txOn ≠ s.clu.line.txOn) :
    lineTo c s = (s.onLine c).limited c.line.txOn := by
  unfold lineTo; dsimp only; rw [if_neg h]; rfl

/-- OFF entered with the transmitter off already. -/
theorem enterOff_same {s : State} (h : s.clu.line.txOn = false) : enterOff s =
    { s.onLine { s.clu.still with line := .off, txChar := none } with pe := { s.pe with tx := none, control := [] } } := by
  unfold enterOff; rw [lineTo_same (by rw [h]; rfl)]; rfl

/-- OFF entered with the transmitter on. -/
theorem enterOff_turns {s : State} (h : s.clu.line.txOn = true) : enterOff s =
    { (s.onLine { s.clu.still with line := .off, txChar := none }).limited false with
      pe := { s.pe with tx := none, control := [] } } := by
  unfold enterOff; rw [lineTo_turns (by rw [h]; simp [LineState.txOn])]; rfl

/-! ## The Parcel Engine -/

/-- Queuing a control parcel touches the control queue alone. -/
theorem Pe.queue_eq (p : Pe) (c : Control) : p.queue c = { p with control := (p.queue c).control } := by
  unfold Pe.queue; (repeat' split) <;> rfl

/-- A queue with no parcel of its kind and with room takes it at its end. -/
theorem Pe.queue_room {p : Pe} {c : Control} (h : p.control.findIdx? (fun q => c.replaces q) = none) (n : p.control.length < 4) :
    p.queue c = { p with control := p.control ++ [c] } := by
  unfold Pe.queue; rw [h]; simp [n]

/-- The flow test touches the control queue alone. -/
theorem flowTest_eq (s : State) : flowTest s = s.setPe { s.pe with control := (flowTest s).pe.control } := by
  unfold flowTest
  dsimp only
  (repeat' split) <;> first | exact congrArg s.setPe (Pe.queue_eq _ _) | rfl

/-- Outside a session there is no flow test. -/
theorem flowTest_noSession {s : State} (h : s.clu.line.inSession = false) : flowTest s = s := by
  unfold flowTest; rw [if_neg (by simp [h])]

/-- In a session, OPEN and with nothing queued, the flow test queues a HOLD where the free space is below the hold mark. -/
theorem flowTest_open {s : State} (h : s.clu.line.inSession = true) (o : s.pe.held = false) (c : s.pe.control = []) :
    flowTest s = if s.pqu.ring.free s.work.map.inbound.size < s.work.holdMark
      then s.setPe { s.pe with control := [.hold] } else s := by
  unfold flowTest
  simp [h, o, c, Pe.queue]

theorem Pe.queue_congr {p p' : Pe} (c : Control) (h : p.control = p'.control) : (p.queue c).control = (p'.queue c).control := by
  unfold Pe.queue
  rw [h]
  (repeat' split) <;> simp [h]

theorem Pe.queueNak_eq (p : Pe) (ack : Nat) : p.queueNak ack = p.nakked ack := by
  unfold Pe.queueNak Pe.nakked
  split
  · rfl
  · rw [Pe.queue_eq]

theorem takeParcel_good {p : Parcel} (h : p.inRange = true) (s : State) :
    takeParcel p s = actOn p { s with pe := { s.pe with good := bump s.pe.good } } := by
  unfold takeParcel; rw [if_pos h]; rfl

theorem takeParcel_bad {p : Parcel} (h : p.inRange = false) (s : State) :
    takeParcel p s = { s with pe := { s.pe with bad := bump s.pe.bad }.nakked s.work.ack } := by
  unfold takeParcel; rw [if_neg (by simp [h])]; unfold parcelBad; rw [Pe.queueNak_eq]; rfl

/-! ## The receiver (R22) -/

/-- A receiver in no character reads the one it hears: the character, flagged where its stop bit is space. -/
theorem Receiver.listen_soundsOf {r : Receiver} (h : r.rests = true) (c : Byte) (flagged : Bool) :
    r.listen (soundsOf c flagged) = (if flagged then .awaitMark else .hunting, some (c, flagged)) := by
  have k : ∀ (c : BitVec 8) (flagged : Bool),
      Receiver.hunting.listen (soundsOf c flagged) = (if flagged then .awaitMark else .hunting, some (c, flagged)) ∧
      Receiver.awaitMark.listen (soundsOf c flagged) = (if flagged then .awaitMark else .hunting, some (c, flagged)) := by
    decide +kernel
  cases r
  · exact (k c flagged).1
  · cases h
  · cases h
  · cases h
  · exact (k c flagged).2

/-- What the receiver makes of a character: it has read it, and stands where the next one finds it. -/
theorem characterReceived_eq {s : State} (h : s.clu.receiver.rests = true) (c : Byte) (flagged : Bool) :
    characterReceived c flagged s =
      characterRead c flagged (s.setClu { s.clu with receiver := if flagged then .awaitMark else .hunting }) := by
  unfold characterReceived; rw [Receiver.listen_soundsOf h]

/-! ## The display -/

/-- Sending a frame touches the frame, and whether one is in progress or due. -/
theorem sendFrame_eq (s : State) : sendFrame s = s.setKcu { s.kcu with
    frame := (sendFrame s).kcu.frame, sending := true, frameDue := (sendFrame s).kcu.frameDue } := by
  unfold sendFrame
  split
  · rename_i h
    simp [State.setKcu, h]
  · rfl

/-- The way to say what an event taken by the composer left. -/
theorem kcuBecame_sendFrame {k : Kcu} {s u : State} (h : u = { s with kcu := k }) : KcuBecame k s (sendFrame u) := by
  unfold KcuBecame
  rw [sendFrame_eq, h]
  rfl

/-- An event the composer refuses, the part awake. -/
theorem refuse_awake {s : State} (h : s.pm.power.awake = true) : refuse s = { s with kcu := s.kcu.refused } := by
  have h' : (s.setKcu { s.kcu with refusals := bump s.kcu.refusals }).pm.power.awake = true := h
  unfold refuse
  rw [alert_awake h']
  rfl

/-- The composer takes events only while the part is awake (R83). -/
theorem canTake_awake {e : KeyEvent} {s : State} (h : canTake e s = true) : s.pm.power.awake = true := by
  simp only [canTake, Bool.and_eq_true] at h
  simp_all

/-! ## The print queue -/

/-- A line completed at session end or by the line idle timer. -/
theorem completePart_eq (s : State) : completePart s =
    if s.pqu.asm.complete || s.pqu.asm.length == 0 then s
    else s.setPqu { s.pqu with asm := { s.pqu.asm with complete := true, part := true, idleTimer := none } } := rfl

end Sys2Proof.Machine
end

