-- ==== Sys2Proof/Laws/Bounds.lean ====
section
/-! SUPPORT. Every operation keeps the bounds the spec puts on a state (`Bounded`). One lemma per shared operation: simp proves the
bounds of a state written as operations on one that has them. -/

namespace Sys2Proof.Machine

/-! ## What a write of a block needs -/

@[simp] theorem Bounded.control_le {s : State} (h : Bounded s) : s.pe.control.length ≤ 4 := h.control
@[simp] theorem Bounded.reports_le {s : State} (h : Bounded s) : s.pe.reports.length ≤ 4 := h.reports
@[simp] theorem Bounded.input_le {s : State} (h : Bounded s) : s.du.input.length ≤ 64 := h.input
@[simp] theorem Bounded.typeahead_le {s : State} (h : Bounded s) : s.kcu.typeahead.length ≤ 16 := h.typeahead
@[simp] theorem Bounded.list_le {s : State} (h : Bounded s) : s.pqu.list.length ≤ 24 := h.list
@[simp] theorem Bounded.size_ok {s : State} (h : Bounded s) : s.work.memSize ∈ memSizes := h.size
@[simp] theorem Bounded.map_ok {s : State} (h : Bounded s) : s.work.map.valid s.work.memSize = true := h.map
@[simp] theorem Bounded.notices_eq {s : State} (h : Bounded s) : s.pqu.notices.length = 8 := h.notices
@[simp] theorem Bounded.receiver_ok {s : State} (h : Bounded s) : s.clu.receiver.rests = true := h.receiver

@[simp] theorem bounded_setPending {s : State} {v : List Instr} (h : Bounded s) :
    Bounded (s.setPending v) := ⟨h.1, h.2, h.3, h.4, h.5, h.6, h.7, h.8, h.9, h.10⟩
@[simp] theorem bounded_setMem {s : State} {v : Memory} (h : Bounded s) :
    Bounded (s.setMem v) := ⟨h.1, h.2, h.3, h.4, h.5, h.6, h.7, h.8, h.9, h.10⟩
@[simp] theorem bounded_setSettings {s : State} {v : Text} (h : Bounded s) :
    Bounded (s.setSettings v) := ⟨h.1, h.2, h.3, h.4, h.5, h.6, h.7, h.8, h.9, h.10⟩
@[simp] theorem bounded_setSettingsTorn {s : State} {v : Bool} (h : Bounded s) :
    Bounded (s.setSettingsTorn v) := ⟨h.1, h.2, h.3, h.4, h.5, h.6, h.7, h.8, h.9, h.10⟩
@[simp] theorem bounded_setRegionsCut {s : State} {v : Bool} (h : Bounded s) :
    Bounded (s.setRegionsCut v) := ⟨h.1, h.2, h.3, h.4, h.5, h.6, h.7, h.8, h.9, h.10⟩
@[simp] theorem bounded_setKsu {s : State} {v : Ksu} (h : Bounded s) :
    Bounded (s.setKsu v) := ⟨h.1, h.2, h.3, h.4, h.5, h.6, h.7, h.8, h.9, h.10⟩
@[simp] theorem bounded_setSpu {s : State} {v : Spu} (h : Bounded s) :
    Bounded (s.setSpu v) := ⟨h.1, h.2, h.3, h.4, h.5, h.6, h.7, h.8, h.9, h.10⟩
@[simp] theorem bounded_setHdu {s : State} {v : Hdu} (h : Bounded s) :
    Bounded (s.setHdu v) := ⟨h.1, h.2, h.3, h.4, h.5, h.6, h.7, h.8, h.9, h.10⟩
@[simp] theorem bounded_setPm {s : State} {v : Pm} (h : Bounded s) :
    Bounded (s.setPm v) := ⟨h.1, h.2, h.3, h.4, h.5, h.6, h.7, h.8, h.9, h.10⟩
@[simp] theorem bounded_setPins {s : State} {v : Pins} (h : Bounded s) :
    Bounded (s.setPins v) := ⟨h.1, h.2, h.3, h.4, h.5, h.6, h.7, h.8, h.9, h.10⟩
@[simp] theorem bounded_setFresh {s : State} {v : Nat} (h : Bounded s) :
    Bounded (s.setFresh v) := ⟨h.1, h.2, h.3, h.4, h.5, h.6, h.7, h.8, h.9, h.10⟩

@[simp] theorem bounded_setWork {s : State} {v : Settings} (h : Bounded s) (m : v.memSize ∈ memSizes)
    (r : v.map.valid v.memSize = true) : Bounded (s.setWork v) :=
  ⟨m, r, h.3, h.4, h.5, h.6, h.7, h.8, h.9, h.10⟩

@[simp] theorem bounded_setJmc {s : State} {v : Jmc} (h : Bounded s) (p : ∀ w, (v.req w).passed ≤ 4) : Bounded (s.setJmc v) :=
  ⟨h.1, h.2, p, h.4, h.5, h.6, h.7, h.8, h.9, h.10⟩

@[simp] theorem bounded_setClu {s : State} {v : Clu} (h : Bounded s) (r : v.receiver.rests = true) : Bounded (s.setClu v) :=
  ⟨h.1, h.2, h.3, h.4, h.5, h.6, h.7, h.8, r, h.10⟩

@[simp] theorem bounded_setPe {s : State} {v : Pe} (h : Bounded s) (c : v.control.length ≤ 4) (r : v.reports.length ≤ 4) :
    Bounded (s.setPe v) := ⟨h.1, h.2, h.3, c, r, h.6, h.7, h.8, h.9, h.10⟩

@[simp] theorem bounded_setDu {s : State} {v : Du} (h : Bounded s) (i : v.input.length ≤ 64) : Bounded (s.setDu v) :=
  ⟨h.1, h.2, h.3, h.4, h.5, i, h.7, h.8, h.9, h.10⟩

@[simp] theorem bounded_setKcu {s : State} {v : Kcu} (h : Bounded s) (t : v.typeahead.length ≤ 16) : Bounded (s.setKcu v) :=
  ⟨h.1, h.2, h.3, h.4, h.5, h.6, t, h.8, h.9, h.10⟩

@[simp] theorem bounded_setPqu {s : State} {v : Pqu} (h : Bounded s) (l : v.list.length ≤ 24) (n : v.notices.length = 8) :
    Bounded (s.setPqu v) :=
  ⟨h.1, h.2, h.3, h.4, h.5, h.6, h.7, l, h.9, n⟩

/-! ## The arbiter and the queues -/

theorem Jmc.passed_setReq {j : Jmc} (h : ∀ w, (j.req w).passed ≤ 4) {who : Requester} {r : BusReq} (p : r.passed ≤ 4) (w : Requester) :
    ((j.setReq who r).req w).passed ≤ 4 := by
  have h := h w
  cases who <;> cases w <;> simp_all [Jmc.setReq, Jmc.req]

theorem BusReq.passed_passOver (r : BusReq) : r.passOver.passed ≤ 4 := by
  unfold BusReq.passOver; dsimp only; split <;> omega

theorem Jmc.passed_grant {j : Jmc} (h : ∀ w, (j.req w).passed ≤ 4) (w : Requester) : (j.grant.req w).passed ≤ 4 := by
  unfold Jmc.grant
  (repeat' split)
  · exact h w
  · exact h w
  · refine Jmc.passed_setReq (fun v => ?_) (Nat.zero_le 4) w
    cases v <;> exact BusReq.passed_passOver _

theorem Jmc.passed_request {j : Jmc} (h : ∀ w, (j.req w).passed ≤ 4) (who : Requester) (b : Burst) (w : Requester) :
    ((j.request who b).req w).passed ≤ 4 := by
  unfold Jmc.request
  split
  · exact h w
  · exact Jmc.passed_setReq h (Nat.zero_le 4) w

theorem Jmc.passed_abandon {j : Jmc} (h : ∀ w, (j.req w).passed ≤ 4) (who : Requester) (w : Requester) :
    ((j.abandon who).req w).passed ≤ 4 := Jmc.passed_setReq h (Nat.zero_le 4) w

theorem Jmc.passed_completed {j : Jmc} (h : ∀ w, (j.req w).passed ≤ 4) (w : Requester) : (j.completed.req w).passed ≤ 4 :=
  Jmc.passed_grant (j := { j with current := none }) (fun w => by have h := h w; cases w <;> exact h) w

@[simp] theorem Pe.queue_le {p : Pe} {c : Control} (h : p.control.length ≤ 4) : (p.queue c).control.length ≤ 4 := by
  unfold Pe.queue; (repeat' split) <;> simp_all <;> omega

@[simp] theorem Pe.queue_reports (p : Pe) (c : Control) : (p.queue c).reports = p.reports := by
  unfold Pe.queue; (repeat' split) <;> rfl

@[simp] theorem Pe.queueNak_le {p : Pe} {n : Nat} (h : p.control.length ≤ 4) : (p.queueNak n).control.length ≤ 4 := by
  unfold Pe.queueNak; split <;> simp [h]

@[simp] theorem Pe.queueNak_reports (p : Pe) (n : Nat) : (p.queueNak n).reports = p.reports := by
  unfold Pe.queueNak; split <;> simp

@[simp] theorem Pe.remind_le {p : Pe} {n : Nat} (h : p.control.length ≤ 4) : (p.remind n).control.length ≤ 4 := by
  unfold Pe.remind; split <;> simp [h]

@[simp] theorem Pe.remind_reports (p : Pe) (n : Nat) : (p.remind n).reports = p.reports := by
  unfold Pe.remind; split <;> simp

@[simp] theorem Pe.setSlot_control (p : Pe) (i : SlotId) (v : SendSlot) : (p.setSlot i v).control = p.control := by cases i <;> rfl
@[simp] theorem Pe.setSlot_reports (p : Pe) (i : SlotId) (v : SendSlot) : (p.setSlot i v).reports = p.reports := by cases i <;> rfl

@[simp] theorem startAckTimer_control (n : Nat) (p : Pe) : (startAckTimer n p).control = p.control := by
  unfold startAckTimer; split <;> rfl
@[simp] theorem startAckTimer_reports (n : Nat) (p : Pe) : (startAckTimer n p).reports = p.reports := by
  unfold startAckTimer; split <;> rfl

@[simp] theorem Pe.resendAll_control (p : Pe) : p.resendAll.control = p.control := (rfl)
@[simp] theorem Pe.resendAll_reports (p : Pe) : p.resendAll.reports = p.reports := (rfl)
@[simp] theorem Pe.resend_control (p : Pe) : p.resend.control = p.control := (rfl)
@[simp] theorem Pe.resend_reports (p : Pe) : p.resend.reports = p.reports := (rfl)

@[simp] theorem endSlot_control (i : SlotId) (n : Nat) (p : Pe) : (endSlot i n p).control = p.control := by
  unfold endSlot; dsimp only; (repeat' split) <;> simp
@[simp] theorem endSlot_reports (i : SlotId) (n : Nat) (p : Pe) : (endSlot i n p).reports = p.reports := by
  unfold endSlot; dsimp only; (repeat' split) <;> simp

@[simp] theorem Kcu.setForm_typeahead (k : Kcu) (n : Nat) (f : FormSlot) : (k.setForm n f).typeahead = k.typeahead := (rfl)
@[simp] theorem Kcu.toIdle_typeahead (k : Kcu) : k.toIdle.typeahead = k.typeahead := (rfl)
@[simp] theorem Clu.still_receiver (c : Clu) : c.still.receiver = c.receiver := (rfl)
@[simp] theorem Du.setJob_input (d : Du) (c : Ctx) (j : Option Job) : (d.setJob c j).input = d.input := by cases c <;> rfl

@[simp] theorem Pqu.raise_list (p : Pqu) (t : Text) : (p.raise t).list = p.list := by
  unfold Pqu.raise Pqu.place; cases p.freeSlot <;> rfl

@[simp] theorem Pqu.setNotice_notices (p : Pqu) (n : Nat) (v : NoticeSlot) : (p.setNotice n v).notices.length = p.notices.length :=
  List.length_set

@[simp] theorem Pqu.raise_notices (p : Pqu) (t : Text) : (p.raise t).notices.length = p.notices.length := by
  unfold Pqu.raise Pqu.place; cases p.freeSlot <;> simp

theorem Pqu.place_notices {p q : Pqu} {t : Text} (h : p.place t = some q) : q.notices.length = p.notices.length := by
  unfold Pqu.place at h
  obtain ⟨n, -, rfl⟩ := Option.map_eq_some_iff.mp h
  exact Pqu.setNotice_notices ..

@[simp] theorem Pqu.listNotice_notices (p : Pqu) (n : Nat) : (p.listNotice n).notices.length = p.notices.length :=
  Pqu.setNotice_notices ..

@[simp] theorem Pqu.listNotices_notices : ∀ (k : Nat) (p : Pqu), (p.listNotices k).notices.length = p.notices.length
  | 0, _ => rfl
  | k + 1, p => by
    unfold Pqu.listNotices
    split
    · rfl
    · split
      · rw [Pqu.listNotices_notices k, Pqu.listNotice_notices]
      · rfl

theorem Pqu.place_list {p q : Pqu} {t : Text} (h : p.place t = some q) : q.list = p.list := by
  unfold Pqu.place at h
  obtain ⟨n, -, rfl⟩ := Option.map_eq_some_iff.mp h
  rfl

@[simp] theorem Pqu.setNotice_list (p : Pqu) (n : Nat) (v : NoticeSlot) : (p.setNotice n v).list = p.list := (rfl)

@[simp] theorem Pqu.listNotices_le : ∀ (k : Nat) {p : Pqu}, p.list.length ≤ 24 → (p.listNotices k).list.length ≤ 24
  | 0, _, h => h
  | k + 1, p, h => by
    unfold Pqu.listNotices
    split
    · exact h
    · split
      · refine Pqu.listNotices_le k ?_
        simp only [Pqu.listNotice, List.length_append, List.length_singleton]; omega
      · exact h

/-- A fold of an operation that keeps the bounds keeps them. -/
theorem bounded_foldl {α : Type} {f : State → α → State} (h : ∀ s a, Bounded s → Bounded (f s a)) :
    ∀ (l : List α) {s : State}, Bounded s → Bounded (l.foldl f s)
  | [], _, b => b
  | a :: l, s, b => bounded_foldl h l (h s a b)

/-! ## Shared operations -/

@[simp] theorem bounded_raise (t : Text) {s : State} (h : Bounded s) : Bounded (raise t s) := by
  unfold raise; simp (maxDischargeDepth := 20) [h]

@[simp] theorem bounded_alert {s : State} (h : Bounded s) : Bounded (alert s) := by
  unfold alert; split <;> simp (maxDischargeDepth := 20) [h]

@[simp] theorem bounded_busRequest {who : Requester} {b : Burst} {s : State} (h : Bounded s) : Bounded (busRequest who b s) :=
  bounded_setJmc h (Jmc.passed_request h.passed who b)

@[simp] theorem bounded_busAbandon {who : Requester} {s : State} (h : Bounded s) : Bounded (busAbandon who s) :=
  bounded_setJmc h (Jmc.passed_abandon h.passed who)

@[simp] theorem bounded_updateEntry (slot : Nat) (f : Entry → Entry) {s : State} (h : Bounded s) :
    Bounded (updateEntry slot f s) := by
  unfold updateEntry; simp (maxDischargeDepth := 20) [h]

@[simp] theorem bounded_spuDue (i : SpuItem) {s : State} (h : Bounded s) : Bounded (spuDue i s) := by
  unfold spuDue; simp (maxDischargeDepth := 20) [h]

@[simp] theorem bounded_changeEntry (slot : Nat) (f : Entry → Entry) {s : State} (h : Bounded s) :
    Bounded (changeEntry slot f s) := by
  unfold changeEntry; simp (maxDischargeDepth := 20) [h]

@[simp] theorem bounded_raiseSpoolFull {s : State} (h : Bounded s) : Bounded (raiseSpoolFull s) := by
  unfold raiseSpoolFull; split <;> simp (maxDischargeDepth := 20) [h]

/-! ## The spool -/

theorem bounded_createEntry {cls : EntryClass} {k n : Nat} {s t : State} (e : createEntry cls k s = some (n, t)) (h : Bounded s) :
    Bounded t := by
  unfold createEntry at e
  dsimp only at e
  (repeat' split at e) <;>
    first | contradiction | (simp only [Option.some.injEq, Prod.mk.injEq] at e; obtain ⟨-, rfl⟩ := e; simp [h])

@[simp] theorem bounded_flushWritten (length : Nat) (cursor : Option Cursor) {s : State} (h : Bounded s) :
    Bounded (flushWritten length cursor s) := by
  unfold flushWritten; split <;> simp (maxDischargeDepth := 20) [h]

@[simp] theorem bounded_retractByte {s : State} (h : Bounded s) : Bounded (retractByte s) := by
  unfold retractByte; split <;> simp (maxDischargeDepth := 20) [h]

@[simp] theorem bounded_closeEntry {s : State} (h : Bounded s) : Bounded (closeEntry s) := by
  unfold closeEntry; split <;> simp (maxDischargeDepth := 20) [h]

@[simp] theorem bounded_voidEntry (slot : Nat) {s : State} (h : Bounded s) : Bounded (voidEntry slot s) := by
  unfold voidEntry; simp (maxDischargeDepth := 20) [h]

@[simp] theorem bounded_cancelEntry {s : State} (h : Bounded s) : Bounded (cancelEntry s) := by
  unfold cancelEntry; split <;> simp (maxDischargeDepth := 20) [h]

@[simp] theorem bounded_lastAck (serial : Nat) {s : State} (h : Bounded s) : Bounded (lastAck serial s) := by
  unfold lastAck; dsimp only; (repeat' split) <;> simp (maxDischargeDepth := 20) [h]

@[simp] theorem bounded_startRun (first : Option Nat) {s : State} (h : Bounded s) : Bounded (startRun first s) := by
  unfold startRun; simp (maxDischargeDepth := 20) [h]

@[simp] theorem bounded_stopTest {s : State} (h : Bounded s) : Bounded (stopTest s) := by
  unfold stopTest; split <;> simp (maxDischargeDepth := 20) [h]

@[simp] theorem bounded_select {s : State} (h : Bounded s) : Bounded (select s) := by
  unfold select; dsimp only; (repeat' split) <;> simp (maxDischargeDepth := 20) [h]

@[simp] theorem bounded_reclaim : ∀ (fuel : Nat) {s : State}, Bounded s → Bounded (reclaim fuel s)
  | 0, _, h => h
  | fuel + 1, s, h => by
    unfold reclaim
    dsimp only
    (repeat' split) <;> first | exact h | exact bounded_reclaim fuel (by simp [h])

@[simp] theorem bounded_spoolFollow {s : State} (h : Bounded s) : Bounded (spoolFollow s) := by
  unfold spoolFollow; simp (maxDischargeDepth := 20) [h]

@[simp] theorem bounded_spuKick {s : State} (h : Bounded s) : Bounded (spuKick s) := by
  unfold spuKick; (repeat' split) <;> simp (maxDischargeDepth := 20) [h]

@[simp] theorem bounded_recordWritten (n : Nat) (live : Bool) {s : State} (h : Bounded s) : Bounded (recordWritten n live s) := by
  unfold recordWritten; dsimp only; (repeat' split) <;> simp (maxDischargeDepth := 20) [h]

/-! ## The Parcel Engine -/

@[simp] theorem bounded_flowTest {s : State} (h : Bounded s) : Bounded (flowTest s) := by
  unfold flowTest; dsimp only; (repeat' split) <;> simp (maxDischargeDepth := 20) [h]

theorem bounded_fillSlot {i : SlotId} {s t : State} (e : fillSlot i s = some t) (h : Bounded s) : Bounded t := by
  unfold fillSlot at e
  dsimp only at e
  split at e
  · simp only [Option.map_eq_some_iff] at e
    obtain ⟨r, _, rfl⟩ := e
    simp [h]
  · split at e
    · contradiction
    · split at e
      · simp only [Option.some.injEq] at e; subst e; simp [h]
      · contradiction

theorem bounded_fillNext {s t : State} (e : fillNext s = some t) (h : Bounded s) : Bounded t := by
  unfold fillNext at e
  (repeat' split at e) <;> first | contradiction | exact bounded_fillSlot e h

@[simp] theorem bounded_peLoad {s : State} (h : Bounded s) : Bounded (peLoad s) := by
  unfold peLoad; (repeat' split) <;> simp (maxDischargeDepth := 20) [h]

@[simp] theorem bounded_bodyRead (i : SlotId) (data : Text) {s : State} (h : Bounded s) : Bounded (bodyRead i data s) := by
  unfold bodyRead; split <;> simp (maxDischargeDepth := 20) [h]

@[simp] theorem bounded_beginParcel (item : TxItem) (p : Parcel) {s : State} (h : Bounded s) : Bounded (beginParcel item p s) := by
  unfold beginParcel; split <;> simp (maxDischargeDepth := 20) [h]

theorem bounded_beginControl {s t : State} (e : beginControl s = some t) (h : Bounded s) : Bounded t := by
  unfold beginControl at e
  split at e
  · contradiction
  · rename_i c cs hc
    have hl : cs.length ≤ 4 := by have := h.control; rw [hc] at this; simp at this; omega
    dsimp only at e
    split at e <;> (simp only [Option.some.injEq] at e; subst e; simp (maxDischargeDepth := 20) [h, hl])

theorem bounded_beginSlot {i : SlotId} {s t : State} (e : beginSlot i s = some t) (h : Bounded s) : Bounded t := by
  unfold beginSlot at e
  (repeat' split at e) <;>
    first | contradiction | (simp only [Option.some.injEq] at e; subst e; simp (maxDischargeDepth := 20) [h])

theorem bounded_beginNext {s t : State} (e : beginNext s = some t) (h : Bounded s) : Bounded t := by
  unfold beginNext at e
  (repeat' split at e) <;> first
    | contradiction
    | exact bounded_beginSlot e h
    | exact bounded_beginControl e h
    | (simp only [Option.some.injEq] at e; subst e; exact bounded_beginControl ‹_› h)

@[simp] theorem bounded_peTurn {s : State} (h : Bounded s) : Bounded (peTurn s) := by
  unfold peTurn
  refine bounded_peLoad ?_
  split
  · exact bounded_beginNext ‹_› h
  · split
    · exact h
    · rename_i t e
      cases e' : beginNext t with
      | none => exact bounded_fillNext e h
      | some u => exact bounded_beginNext e' (bounded_fillNext e h)

@[simp] theorem bounded_peKick {s : State} (h : Bounded s) : Bounded (peKick s) := by
  have t := bounded_peTurn h
  unfold peKick
  refine bounded_setJmc ?_ t.passed
  simp (maxDischargeDepth := 20) [h, t.control, t.reports]

@[simp] theorem bounded_passOn {p : SlotParcel} {s : State} (h : Bounded s) : Bounded (passOn p s) := by
  unfold passOn
  (repeat' split)
  · exact bounded_setPe h h.control (Nat.le_trans (List.length_eraseIdx_le _ _) h.reports)
  · exact h
  · exact bounded_lastAck _ h
  · exact h

@[simp] theorem bounded_ackSlot (i : SlotId) {s : State} (h : Bounded s) : Bounded (ackSlot i s) := by
  unfold ackSlot; split <;> simp (maxDischargeDepth := 20) [h]

@[simp] theorem bounded_ackAll {is : List SlotId} {s : State} (h : Bounded s) : Bounded (ackAll is s) := by
  have t := bounded_foldl (fun s i b => bounded_ackSlot i (s := s) b) is h
  unfold ackAll
  simp (maxDischargeDepth := 20) [t]

@[simp] theorem bounded_strayAck {s : State} (h : Bounded s) : Bounded (strayAck s) := by
  unfold strayAck; simp (maxDischargeDepth := 20) [h]

@[simp] theorem bounded_onAck (q : BitVec 3) {s : State} (h : Bounded s) : Bounded (onAck q s) := by
  unfold onAck; split <;> simp (maxDischargeDepth := 20) [h]

@[simp] theorem bounded_onNak (q : BitVec 3) {s : State} (h : Bounded s) : Bounded (onNak q s) := by
  unfold onNak; (repeat' split) <;> simp (maxDischargeDepth := 20) [h]

@[simp] theorem bounded_dropSource (serial : Nat) {s : State} (h : Bounded s) : Bounded (dropSource serial s) := by
  unfold dropSource; dsimp only; (repeat' split) <;> simp (maxDischargeDepth := 20) [h]

@[simp] theorem bounded_strayVerdict {s : State} (h : Bounded s) : Bounded (strayVerdict s) := by
  unfold strayVerdict; simp (maxDischargeDepth := 20) [h]

@[simp] theorem bounded_verdict (slot : Nat) (f : Entry → Entry) {s : State} (h : Bounded s) : Bounded (verdict slot f s) := by
  unfold verdict; dsimp only; (repeat' split) <;> simp (maxDischargeDepth := 20) [h]

@[simp] theorem bounded_onAccept (serial : Nat) {s : State} (h : Bounded s) : Bounded (onAccept serial s) := by
  unfold onAccept; dsimp only; (repeat' split) <;> simp (maxDischargeDepth := 20) [h]

@[simp] theorem bounded_onReject (serial code : Nat) (reason : Text) {s : State} (h : Bounded s) :
    Bounded (onReject serial code reason s) := by
  unfold onReject; (repeat' split) <;> simp (maxDischargeDepth := 20) [h]

/-! ## The print queue -/

@[simp] theorem bounded_offerLines : ∀ (fuel : Nat) {s : State}, Bounded s → Bounded (offerLines fuel s)
  | 0, _, h => h
  | fuel + 1, s, h => by
    unfold offerLines
    (repeat' split)
    · exact bounded_offerLines fuel (bounded_setDu (bounded_setPqu h (by rw [Pqu.place_list ‹_›]; exact h.list)
        (by rw [Pqu.place_notices ‹_›]; exact h.notices)) h.input)
    · exact h
    · simp [h]
    · exact bounded_offerLines fuel (by simp [h])
    · exact h

@[simp] theorem bounded_offerAll {s : State} (h : Bounded s) : Bounded (offerAll s) := bounded_offerLines 20 h

@[simp] theorem bounded_handReport {tag : Nat} {o : Outcome} {data : Text} {s : State} (h : Bounded s) :
    Bounded (handReport tag o data s) := by
  unfold handReport
  split
  · exact bounded_setPe h h.control (by simp only [List.length_append, List.length_singleton]; omega)
  · exact h

@[simp] theorem bounded_finishLine (o : Outcome) (data : Text) {s : State} (h : Bounded s) : Bounded (finishLine o data s) := by
  unfold finishLine; dsimp only; (repeat' split) <;> simp (maxDischargeDepth := 20) [h]

@[simp] theorem bounded_finishService (o : Outcome) (lines : List AnswerLine) {s : State} (h : Bounded s) :
    Bounded (finishService o lines s) := by
  unfold finishService; simp (maxDischargeDepth := 20) [h]

@[simp] theorem bounded_finishDirective {c : Ctx} {o : Outcome} {data : Text} {lines : List AnswerLine} {s : State} (h : Bounded s) :
    Bounded (finishDirective c o data lines s) := by
  unfold finishDirective; split <;> simp [h]

@[simp] theorem bounded_setJob (c : Ctx) (j : Job) {s : State} (h : Bounded s) : Bounded (setJob c j s) := by
  unfold setJob; simp (maxDischargeDepth := 20) [h]

theorem bounded_offerByte {b : Byte} {s t : State} (e : offerByte b s = some t) (h : Bounded s) : Bounded t := by
  unfold offerByte at e
  dsimp only at e
  (repeat' split at e) <;> first
    | contradiction
    | (simp only [Option.some.injEq] at e; subst e; simp (maxDischargeDepth := 20) [h])

theorem bounded_takeIdleByte {b : Byte} {rest : Text} {s : State} (h : Bounded s) (l : rest.length ≤ 64) :
    Bounded (takeIdleByte b rest s) := by
  unfold takeIdleByte
  (repeat' split)
  · simp [h, l]
  · simp [h, l]
  · simp [bounded_offerByte ‹_› h, l]
  · simp [h]

@[simp] theorem bounded_reoffer {s : State} (h : Bounded s) : Bounded (reoffer s) := by
  unfold reoffer
  (repeat' split)
  · rename_i b rest e
    have l := h.input
    rw [e, List.length_cons] at l
    exact bounded_takeIdleByte h (by omega)
  · simp [h]
  · exact h

@[simp] theorem bounded_inboundDue {s : State} (h : Bounded s) : Bounded (inboundDue s) := by
  unfold inboundDue; simp (maxDischargeDepth := 20) [h]

@[simp] theorem bounded_completePart {s : State} (h : Bounded s) : Bounded (completePart s) := by
  unfold completePart; split <;> simp (maxDischargeDepth := 20) [h]

@[simp] theorem bounded_listed {d : Descriptor} {s : State} (h : Bounded s) (l : s.pqu.list.length < 24) : Bounded (listed d s) :=
  bounded_setPqu h (by simp only [List.length_append, List.length_singleton]; omega) h.notices

theorem bounded_listInbound {s : State} (h : Bounded s) (l : s.pqu.list.length < 24) : Bounded (listInbound s) := by
  unfold listInbound
  refine bounded_inboundDue (bounded_reoffer (bounded_setPqu (bounded_listed h l) ?_ h.notices))
  exact (bounded_listed (d := .inbound s.pqu.asm.part s.pqu.asm.start s.pqu.asm.length s.pqu.asm.cells) h l).list

@[simp] theorem bounded_countEcho (slot : Nat) (f : Nat → Nat) {s : State} (h : Bounded s) : Bounded (countEcho slot f s) := by
  unfold countEcho; split <;> simp (maxDischargeDepth := 20) [h]

@[simp] theorem bounded_echoListed (d : Descriptor) {s : State} (h : Bounded s) : Bounded (echoListed d s) := by
  unfold echoListed; split <;> simp (maxDischargeDepth := 20) [h]

theorem bounded_listComposer {d : Descriptor} {s : State} (h : Bounded s) (l : s.pqu.list.length < 24) :
    Bounded (listComposer d s) := by
  have t : Bounded (listed d (s.setPqu { s.pqu with composerClaim := none })) := bounded_listed (by simp [h]) l
  unfold listComposer
  simp (maxDischargeDepth := 20) [t]

theorem bounded_listFd {c : Ctx} {rows : Nat} {s : State} (h : Bounded s) (l : s.pqu.list.length < 24) :
    Bounded (listFd c rows s) :=
  bounded_finishDirective (bounded_listed (by simp [h]) l)

theorem bounded_grantOne {s t : State} (e : grantOne s = some t) (h : Bounded s) : Bounded t := by
  unfold grantOne at e
  split at e
  · contradiction
  · rename_i l
    have l' : s.pqu.list.length < 24 := by omega
    (repeat' split at e) <;> first | contradiction | (simp only [Option.some.injEq] at e; subst e)
    · exact bounded_listInbound h l'
    · exact bounded_setPqu h (by simp only [Pqu.listNotice, List.length_append, List.length_singleton]; omega) (by simp [h])
    · exact bounded_listComposer h l'
    · exact bounded_listFd h l'

@[simp] theorem bounded_grantSlots : ∀ (fuel : Nat) {s : State}, Bounded s → Bounded (grantSlots fuel s)
  | 0, _, h => h
  | fuel + 1, s, h => by
    unfold grantSlots
    split
    · exact bounded_grantSlots fuel (bounded_grantOne ‹_› h)
    · exact h

@[simp] theorem bounded_pquTurn {s : State} (h : Bounded s) : Bounded (pquTurn s) := by
  unfold pquTurn; simp (maxDischargeDepth := 20) [h]

@[simp] theorem bounded_freeNoticeSlot (n : Nat) {s : State} (h : Bounded s) : Bounded (freeNoticeSlot n s) := by
  unfold freeNoticeSlot; simp (maxDischargeDepth := 20) [h]

@[simp] theorem bounded_echoFinished (slot : Nat) (form : Option Nat) {s : State} (h : Bounded s) :
    Bounded (echoFinished slot form s) := by
  unfold echoFinished; split <;> simp (maxDischargeDepth := 20) [h]

@[simp] theorem bounded_releaseLine (d : Descriptor) {s : State} (h : Bounded s) : Bounded (releaseLine d s) := by
  unfold releaseLine; split <;> simp (maxDischargeDepth := 20) [h]

@[simp] theorem bounded_finishFront {s : State} (h : Bounded s) : Bounded (finishFront s) := by
  unfold finishFront
  split
  · exact h
  · rename_i d rest e
    have l := h.list
    rw [e, List.length_cons] at l
    exact bounded_releaseLine d (bounded_setPqu h (show rest.length ≤ 24 by omega) h.notices)

/-! ## The head -/

@[simp] theorem bounded_beginBuild (row : Nat) {s : State} (h : Bounded s) : Bounded (beginBuild row s) := by
  unfold beginBuild; dsimp only; (repeat' split) <;> simp (maxDischargeDepth := 20) [h]

@[simp] theorem bounded_rowTextRead (data : Text) {s : State} (h : Bounded s) : Bounded (rowTextRead data s) := by
  unfold rowTextRead; dsimp only; (repeat' split) <;> simp (maxDischargeDepth := 20) [h]

@[simp] theorem bounded_glyphRowRead (column : Nat) (data : Text) {s : State} (h : Bounded s) :
    Bounded (glyphRowRead column data s) := by
  unfold glyphRowRead; dsimp only; (repeat' split) <;> simp (maxDischargeDepth := 20) [h]

@[simp] theorem bounded_disturb {s : State} (h : Bounded s) : Bounded (disturb s) := by
  unfold disturb; split <;> simp (maxDischargeDepth := 20) [h]

@[simp] theorem bounded_pauseHead (r : Resume) {s : State} (h : Bounded s) : Bounded (pauseHead r s) := by
  unfold pauseHead; dsimp only; (repeat' split) <;> simp (maxDischargeDepth := 20) [h]

@[simp] theorem bounded_abandonLine {s : State} (h : Bounded s) : Bounded (abandonLine s) := by
  unfold abandonLine; (repeat' split) <;> simp (maxDischargeDepth := 20) [h]

@[simp] theorem bounded_headEnter {s : State} (h : Bounded s) : Bounded (headEnter s) := by
  unfold headEnter; (repeat' split) <;> simp (maxDischargeDepth := 20) [h]

@[simp] theorem bounded_rowStart {s : State} (h : Bounded s) : Bounded (rowStart s) := by
  unfold rowStart; dsimp only; (repeat' split) <;> simp (maxDischargeDepth := 20) [h]

@[simp] theorem bounded_buildCurrent {s : State} (h : Bounded s) : Bounded (buildCurrent s) := by
  unfold buildCurrent; (repeat' split) <;> simp (maxDischargeDepth := 20) [h]

@[simp] theorem bounded_layOut {s : State} (h : Bounded s) : Bounded (layOut s) := by
  unfold layOut; (repeat' split) <;> simp (maxDischargeDepth := 20) [h]

@[simp] theorem bounded_powerPause {s : State} (h : Bounded s) : Bounded (powerPause s) := by
  unfold powerPause; (repeat' split) <;> simp (maxDischargeDepth := 20) [h]

@[simp] theorem bounded_beginFeed {s : State} (h : Bounded s) : Bounded (beginFeed s) := by
  unfold beginFeed; (repeat' split) <;> simp (maxDischargeDepth := 20) [h]

@[simp] theorem bounded_buildNext {s : State} (h : Bounded s) : Bounded (buildNext s) := by
  unfold buildNext; (repeat' split) <;> simp (maxDischargeDepth := 20) [h]

@[simp] theorem bounded_hduRequest {s : State} (h : Bounded s) : Bounded (hduRequest s) := by
  unfold hduRequest; (repeat' split) <;> simp (maxDischargeDepth := 20) [h]

@[simp] theorem bounded_startStrobes : ∀ (fuel : Nat) {s : State}, Bounded s → Bounded (startStrobes fuel s)
  | 0, _, h => h
  | fuel + 1, s, h => by
    unfold startStrobes
    dsimp only
    (repeat' split) <;> first | exact h | exact bounded_startStrobes fuel (by simp (maxDischargeDepth := 20) [h])

@[simp] theorem bounded_hduTurn {s : State} (h : Bounded s) : Bounded (hduTurn s) := by
  unfold hduTurn; simp (maxDischargeDepth := 20) [h]

@[simp] theorem bounded_hduKick {s : State} (h : Bounded s) : Bounded (hduKick s) := by
  have t := bounded_hduTurn h
  unfold hduKick
  exact bounded_setKsu (bounded_setJmc (bounded_setHdu h) t.passed)

@[simp] theorem bounded_lineFinished {s : State} (h : Bounded s) : Bounded (lineFinished s) := by
  unfold lineFinished; dsimp only; (repeat' split) <;> simp (maxDischargeDepth := 20) [h]

@[simp] theorem bounded_stepEnded {s : State} (h : Bounded s) : Bounded (stepEnded s) := by
  unfold stepEnded; dsimp only; (repeat' split) <;> simp (maxDischargeDepth := 20) [h]

@[simp] theorem bounded_rebuild {s : State} (h : Bounded s) : Bounded (rebuild s) := by
  unfold rebuild; dsimp only; (repeat' split) <;> simp (maxDischargeDepth := 20) [h]

@[simp] theorem bounded_applyLoad (c : Ctx) (l : Load) {s : State} (h : Bounded s) : Bounded (applyLoad c l s) := by
  unfold applyLoad; split <;> simp (maxDischargeDepth := 20) [h]

@[simp] theorem bounded_applyLoads : ∀ (fuel : Nat) {s : State}, Bounded s → Bounded (applyLoads fuel s)
  | 0, _, h => h
  | fuel + 1, s, h => by
    unfold applyLoads
    (repeat' split) <;> first | exact h | exact bounded_applyLoads fuel (by simp [h])

@[simp] theorem bounded_glyphsWritten {s : State} (h : Bounded s) : Bounded (glyphsWritten s) := by
  unfold glyphsWritten; (repeat' split) <;> simp (maxDischargeDepth := 20) [h]

@[simp] theorem bounded_recomputeLimit {s : State} (h : Bounded s) : Bounded (recomputeLimit s) := by
  unfold recomputeLimit; simp (maxDischargeDepth := 20) [h]

@[simp] theorem bounded_reportBand {s : State} (h : Bounded s) : Bounded (reportBand s) := by
  unfold reportBand; simp (maxDischargeDepth := 20) [h]

@[simp] theorem bounded_readSensors {s : State} (h : Bounded s) : Bounded (readSensors s) := by
  unfold readSensors; simp (maxDischargeDepth := 20) [h]

/-! ## Staging and the display -/

@[simp] theorem bounded_sendFrame {s : State} (h : Bounded s) : Bounded (sendFrame s) := by
  unfold sendFrame; split <;> simp (maxDischargeDepth := 20) [h]

@[simp] theorem bounded_refuse {s : State} (h : Bounded s) : Bounded (refuse s) := by
  unfold refuse; simp (maxDischargeDepth := 20) [h]

@[simp] theorem bounded_store (bytes : Text) {s : State} (h : Bounded s) : Bounded (store bytes s) := by
  unfold store; simp (maxDischargeDepth := 20) [h]

@[simp] theorem bounded_flushRequest {s : State} (h : Bounded s) : Bounded (flushRequest s) := by
  unfold flushRequest; dsimp only; (repeat' split) <;> simp (maxDischargeDepth := 20) [h]

@[simp] theorem bounded_claimEcho (q : Echo) {s : State} (h : Bounded s) : Bounded (claimEcho q s) := by
  unfold claimEcho; simp (maxDischargeDepth := 20) [h]

@[simp] theorem bounded_flushDone (length : Nat) (cursor : Option Cursor) {s : State} (h : Bounded s) :
    Bounded (flushDone length cursor s) := by
  unfold flushDone; dsimp only; (repeat' split) <;> simp (maxDischargeDepth := 20) [h]

@[simp] theorem bounded_takeFlush {bytes : Text} {cursor : Option Cursor} {s : State} (h : Bounded s) :
    Bounded (takeFlush bytes cursor s).1 := by
  unfold takeFlush; split <;> simp [h]

@[simp] theorem bounded_flushTaken (cursor : Option Cursor) {s : State} (h : Bounded s) : Bounded (flushTaken cursor s) := by
  unfold flushTaken; dsimp only; split <;> simp (maxDischargeDepth := 20) [h]

/-! ## The common end -/

@[simp] theorem bounded_duTurn : ∀ (fuel : Nat) {s : State}, Bounded s → Bounded (duTurn fuel s)
  | 0, _, h => h
  | fuel + 1, s, h => by
    unfold duTurn
    dsimp only
    (repeat' split) <;> first
      | exact h
      | exact bounded_duTurn fuel (by simp (maxDischargeDepth := 20) [h])
      | simp (maxDischargeDepth := 20) [h]

@[simp] theorem bounded_duKick {s : State} (h : Bounded s) : Bounded (duKick s) := bounded_duTurn _ h

@[simp] theorem bounded_directiveDue (c : Ctx) {s : State} (h : Bounded s) : Bounded (directiveDue c s) := by
  unfold directiveDue; simp (maxDischargeDepth := 20) [h]

@[simp] theorem bounded_cluWake {s : State} (h : Bounded s) : Bounded (cluWake s) :=
  ⟨h.1, h.2, h.3, h.4, h.5, h.6, h.7, h.8, rfl, h.10⟩

@[simp] theorem bounded_wake {s : State} (h : Bounded s) : Bounded (wake s) := by
  unfold wake; simp (maxDischargeDepth := 20) [h]

@[simp] theorem bounded_wakeForLine {s : State} (h : Bounded s) : Bounded (wakeForLine s) := by
  unfold wakeForLine; split <;> simp (maxDischargeDepth := 20) [h]

theorem bounded_settleTurn {s : State} (h : Bounded s) : Bounded (settleTurn s) := by
  unfold settleTurn
  simp (maxDischargeDepth := 20) [h]

@[simp] theorem bounded_withdrawAll {s : State} (h : Bounded s) : Bounded (withdrawAll s) :=
  bounded_setJmc h (fun w => by cases w <;> exact Nat.zero_le 4)

theorem bounded_settled {s : State} (h : Bounded s) : Bounded (settled s) := by
  unfold settled
  split
  · split
    · exact h
    · exact bounded_withdrawAll (bounded_settleTurn h)
  · exact bounded_settleTurn h

/-- The common end of a command keeps the bounds. -/
@[simp] theorem bounded_settle {s : State} (h : Bounded s) : Bounded (settle s) := by
  have t := bounded_settled h
  unfold settle
  dsimp only
  generalize settled s = t at *
  refine ⟨h.1, h.2, t.3, t.4, t.5, t.6, h.7, t.8, ?_, t.10⟩
  dsimp only
  split
  · exact t.9
  · exact h.9

/-! ## Line and session -/

@[simp] theorem bounded_dozeAfresh {s : State} (h : Bounded s) : Bounded (dozeAfresh s) := by
  unfold dozeAfresh; simp (maxDischargeDepth := 20) [h]

@[simp] theorem bounded_lineTo {c : Clu} {s : State} (h : Bounded s) (r : c.receiver.rests = true) : Bounded (lineTo c s) := by
  unfold lineTo; dsimp only; (repeat' split) <;> simp (maxDischargeDepth := 20) [h, r]

@[simp] theorem bounded_enterOff {s : State} (h : Bounded s) : Bounded (enterOff s) := by
  unfold enterOff; simp (maxDischargeDepth := 20) [h]

@[simp] theorem bounded_enterListen {s : State} (h : Bounded s) : Bounded (enterListen s) := by
  unfold enterListen; simp (maxDischargeDepth := 20) [h]

@[simp] theorem bounded_peSessionEnd {s : State} (h : Bounded s) : Bounded (peSessionEnd s) := by
  unfold peSessionEnd; simp (maxDischargeDepth := 20) [h]

@[simp] theorem bounded_duSessionEnd {s : State} (h : Bounded s) : Bounded (duSessionEnd s) := by
  unfold duSessionEnd; simp (maxDischargeDepth := 20) [h]

@[simp] theorem bounded_spuSessionEnd {s : State} (h : Bounded s) : Bounded (spuSessionEnd s) :=
  bounded_setSpu (bounded_foldl (fun s n b => bounded_changeEntry n _ (s := s) b) _
    (bounded_foldl (fun s n b => bounded_changeEntry n _ (s := s) b) _ h))

@[simp] theorem bounded_kcuSessionEnd {s : State} (h : Bounded s) : Bounded (kcuSessionEnd s) := by
  unfold kcuSessionEnd; simp (maxDischargeDepth := 20) [h]

@[simp] theorem bounded_pquSessionEnd {s : State} (h : Bounded s) : Bounded (pquSessionEnd s) := by
  unfold pquSessionEnd; simp (maxDischargeDepth := 20) [h]

@[simp] theorem bounded_listNotices {s : State} (h : Bounded s) : Bounded (listNotices s) :=
  bounded_setPqu h (Pqu.listNotices_le 8 h.list) (by simp [h])

@[simp] theorem bounded_sessionEnd (cause : EndCause) {s : State} (h : Bounded s) : Bounded (sessionEnd cause s) := by
  unfold sessionEnd; simp (maxDischargeDepth := 20) [h]

@[simp] theorem bounded_enterClearing (cause : ClearCause) {s : State} (h : Bounded s) : Bounded (enterClearing cause s) := by
  unfold enterClearing; simp (maxDischargeDepth := 20) [h]

@[simp] theorem bounded_fadeOut {s : State} (h : Bounded s) : Bounded (fadeOut s) := by
  unfold fadeOut; simp (maxDischargeDepth := 20) [h]

@[simp] theorem bounded_endLine (cause : ClearCause) {s : State} (h : Bounded s) : Bounded (endLine cause s) := by
  unfold endLine; split <;> simp (maxDischargeDepth := 20) [h]

@[simp] theorem bounded_lineAction {s : State} (h : Bounded s) : Bounded (lineAction s) := by
  unfold lineAction; dsimp only; (repeat' split) <;> simp (maxDischargeDepth := 20) [h]

@[simp] theorem bounded_sessionStart {s : State} (h : Bounded s) : Bounded (sessionStart s) := by
  unfold sessionStart; dsimp only; (repeat' split) <;> simp (maxDischargeDepth := 20) [h]

/-! ## Line and parcels -/

@[simp] theorem bounded_carrierPresent {s : State} (h : Bounded s) : Bounded (carrierPresent s) := by
  unfold carrierPresent; split <;> simp (maxDischargeDepth := 20) [h]

@[simp] theorem bounded_carrierAbsent {s : State} (h : Bounded s) : Bounded (carrierAbsent s) := by
  unfold carrierAbsent; split <;> simp (maxDischargeDepth := 20) [h]

@[simp] theorem bounded_energyTurned (present : Bool) {s : State} (h : Bounded s) : Bounded (energyTurned present s) := by
  unfold energyTurned; simp (maxDischargeDepth := 20) [h]

@[simp] theorem bounded_judgeCarrier {s : State} (h : Bounded s) : Bounded (judgeCarrier s) := by
  unfold judgeCarrier; dsimp only; (repeat' split) <;> simp (maxDischargeDepth := 20) [h]

@[simp] theorem bounded_carrierLost {s : State} (h : Bounded s) : Bounded (carrierLost s) := by
  unfold carrierLost; split <;> simp (maxDischargeDepth := 20) [h]

@[simp] theorem bounded_onText (seq : BitVec 3) (body : Text) {s : State} (h : Bounded s) : Bounded (onText seq body s) := by
  unfold onText
  dsimp only
  (repeat' split)
  · exact bounded_setDu (bounded_setPe h (Pe.queue_le h.control) (by simp [h])) (by rw [List.length_append]; assumption)
  all_goals simp (maxDischargeDepth := 20) [h]

@[simp] theorem bounded_onHold (seconds : Nat) {s : State} (h : Bounded s) : Bounded (onHold seconds s) := by
  unfold onHold; simp (maxDischargeDepth := 20) [h]

@[simp] theorem bounded_onResume {s : State} (h : Bounded s) : Bounded (onResume s) := by
  unfold onResume; simp (maxDischargeDepth := 20) [h]

@[simp] theorem bounded_onClear {s : State} (h : Bounded s) : Bounded (onClear s) := by
  unfold onClear; split <;> simp (maxDischargeDepth := 20) [h]

@[simp] theorem bounded_actOn (p : Parcel) {s : State} (h : Bounded s) : Bounded (actOn p s) := by
  unfold actOn; split <;> simp (maxDischargeDepth := 20) [h]

@[simp] theorem bounded_parcelBad {s : State} (h : Bounded s) : Bounded (parcelBad s) := by
  unfold parcelBad; simp (maxDischargeDepth := 20) [h]

@[simp] theorem bounded_parcelGood (p : Parcel) {s : State} (h : Bounded s) : Bounded (parcelGood p s) := by
  unfold parcelGood; simp (maxDischargeDepth := 20) [h]

@[simp] theorem bounded_takeParcel (p : Parcel) {s : State} (h : Bounded s) : Bounded (takeParcel p s) := by
  unfold takeParcel; split <;> simp (maxDischargeDepth := 20) [h]

@[simp] theorem bounded_closed (a : Assembler) {s : State} (h : Bounded s) : Bounded (closed a s) := by
  unfold closed; split <;> simp (maxDischargeDepth := 20) [h]

@[simp] theorem bounded_assemble (c : Byte) (flagged : Bool) {s : State} (h : Bounded s) : Bounded (assemble c flagged s) := by
  unfold assemble; dsimp only; (repeat' split) <;> simp (maxDischargeDepth := 20) [h]

@[simp] theorem bounded_characterRead (c : Byte) (flagged : Bool) {s : State} (h : Bounded s) :
    Bounded (characterRead c flagged s) := by
  unfold characterRead; (repeat' split) <;> simp (maxDischargeDepth := 20) [h]

@[simp] theorem bounded_characterReceived (c : Byte) (flagged : Bool) {s : State} (h : Bounded s) :
    Bounded (characterReceived c flagged s) := by
  rw [characterReceived_eq h.receiver]
  refine bounded_characterRead c flagged (bounded_setClu h ?_)
  cases flagged <;> rfl

@[simp] theorem bounded_parcelSent (item : TxItem) {s : State} (h : Bounded s) : Bounded (parcelSent item s) := by
  unfold parcelSent; dsimp only; (repeat' split) <;> simp (maxDischargeDepth := 20) [h]

@[simp] theorem bounded_characterSent {s : State} (h : Bounded s) : Bounded (characterSent s) := by
  unfold characterSent; dsimp only; (repeat' split) <;> simp (maxDischargeDepth := 20) [h]

@[simp] theorem bounded_ackExpired {s : State} (h : Bounded s) : Bounded (ackExpired s) := by
  unfold ackExpired; dsimp only; (repeat' split) <;> simp (maxDischargeDepth := 20) [h]

/-! ## Key sensing -/

@[simp] theorem bounded_queueKey (e : KeyEvent) {s : State} (h : Bounded s) : Bounded (queueKey e s) := by
  unfold queueKey
  (repeat' split)
  · exact h
  · exact bounded_setKcu h (by simp only [List.length_append, List.length_singleton]; omega)
  · simp (maxDischargeDepth := 20) [h]

@[simp] theorem bounded_keyEvent (e : KeyEntry) {s : State} (h : Bounded s) : Bounded (keyEvent e s) := by
  unfold keyEvent; split <;> simp (maxDischargeDepth := 20) [h]

@[simp] theorem bounded_setRole (pad : Nat) (r : Role) {s : State} (h : Bounded s) : Bounded (setRole pad r s) := by
  unfold setRole; simp (maxDischargeDepth := 20) [h]

@[simp] theorem bounded_pressEvent (pad : Nat) {s : State} (h : Bounded s) : Bounded (pressEvent pad s) := by
  unfold pressEvent; dsimp only; (repeat' split) <;> simp (maxDischargeDepth := 20) [h]

@[simp] theorem bounded_releaseEvent (pad : Nat) {s : State} (h : Bounded s) : Bounded (releaseEvent pad s) := by
  unfold releaseEvent; simp (maxDischargeDepth := 20) [h]

@[simp] theorem bounded_repeatKey (pad : Nat) {s : State} (h : Bounded s) : Bounded (repeatKey pad s) := by
  unfold repeatKey; (repeat' split) <;> simp (maxDischargeDepth := 20) [h]

@[simp] theorem bounded_padFault (pad : Nat) {s : State} (h : Bounded s) : Bounded (padFault pad s) := by
  unfold padFault; simp (maxDischargeDepth := 20) [h]

@[simp] theorem bounded_scanApplied {rs : List Reading} {s : State} (h : Bounded s) : Bounded (scanApplied rs s) := by
  unfold scanApplied
  dsimp only
  refine bounded_foldl (fun s p b => bounded_repeatKey p (s := s) b) _ (bounded_foldl (fun s p b => bounded_pressEvent p (s := s) b) _
    (bounded_foldl (fun s p b => bounded_releaseEvent p (s := s) b) _ ?_))
  have t := bounded_foldl (fun s p b => bounded_padFault p (s := s) b) (padsWith PadEvent.isFault (applyScan s.work s.ksu.pads rs))
    (s := s.setKsu { s.ksu with pads := (applyScan s.work s.ksu.pads rs).map Prod.fst }) (by simp [h])
  split
  · exact t
  · exact bounded_dozeAfresh t

@[simp] theorem bounded_scanCalibrates {rs : List Reading} {s : State} (h : Bounded s) : Bounded (scanCalibrates rs s) := by
  unfold scanCalibrates
  exact bounded_foldl (fun s p b => bounded_padFault p (s := s) b) _ (bounded_setKsu h)

@[simp] theorem bounded_measurementEnd (counts : List (BitVec 12)) (scan : Scan) {s : State} (h : Bounded s) :
    Bounded (measurementEnd counts scan s) := by
  unfold measurementEnd; dsimp only; (repeat' split) <;> simp (maxDischargeDepth := 20) [h]

@[simp] theorem bounded_ksuDoze {s : State} (h : Bounded s) : Bounded (ksuDoze s) := by
  unfold ksuDoze
  exact bounded_foldl (fun s p b => bounded_releaseEvent p (s := s) b) _ (bounded_setKsu h)

@[simp] theorem bounded_gangedMeasurement (count : Nat) {s : State} (h : Bounded s) : Bounded (gangedMeasurement count s) := by
  unfold gangedMeasurement; dsimp only; (repeat' split) <;> simp (maxDischargeDepth := 20) [h]

/-! ## Directives -/

@[simp] theorem bounded_answer (o : Outcome) (c : Ctx) {s : State} (h : Bounded s) : Bounded (answer o c s) := by
  unfold answer; simp (maxDischargeDepth := 20) [h]

@[simp] theorem bounded_answerDone (c : Ctx) {s : State} (h : Bounded s) : Bounded (answerDone c s) := by
  unfold answerDone; simp (maxDischargeDepth := 20) [h]

@[simp] theorem bounded_occupy (c : Ctx) (tag : Nat) (head : Text) {s : State} (h : Bounded s) : Bounded (occupy c tag head s) := by
  unfold occupy; split <;> simp (maxDischargeDepth := 20) [h]

/-- A directive's rule keeps the bounds. -/
def Bounding (rule : DirRule) : Prop := ∀ c args s, Bounded s → Bounded (rule c args s)

theorem bounded_begin' {rule : DirRule} (b : Bounding rule) (d : Dir) (c : Ctx) (args : List Text) {s : State} (h : Bounded s) :
    Bounded (begin' d rule c args s) := by
  unfold begin'; (repeat' split) <;> simp [h, b c args]

theorem bounding_spoolRule {rule : DirRule} (b : Bounding rule) : Bounding (spoolRule rule) := by
  intro c args s h; unfold spoolRule; split <;> simp [h, b c args s h]

theorem bounding_noArgs {f : Ctx → State → State} (b : ∀ c s, Bounded s → Bounded (f c s)) : Bounding (noArgs f) := by
  intro c args s h; unfold noArgs; split <;> simp [h, b c s h]

@[simp] theorem bounded_clearCounters {s : State} (h : Bounded s) : Bounded (clearCounters s) := by
  unfold clearCounters; simp (maxDischargeDepth := 20) [h]

theorem bounding_ruleQs : Bounding ruleQs := by
  intro c args s h; unfold ruleQs; (repeat' split) <;> simp (maxDischargeDepth := 20) [h]

theorem bounding_ruleQe : Bounding ruleQe := by
  unfold ruleQe; apply bounding_spoolRule; intro c args s h; dsimp only; (repeat' split) <;> simp (maxDischargeDepth := 20) [h]

theorem bounding_ruleXs : Bounding ruleXs := by
  unfold ruleXs; apply bounding_spoolRule; intro c args s h; dsimp only; (repeat' split) <;> simp (maxDischargeDepth := 20) [h]

theorem bounding_ruleXh : Bounding ruleXh := by
  unfold ruleXh; exact bounding_spoolRule (bounding_noArgs fun c s h => by simp (maxDischargeDepth := 20) [h])

@[simp] theorem bounded_discardSlot (c : Ctx) (n : Nat) {s : State} (h : Bounded s) : Bounded (discardSlot c n s) := by
  unfold discardSlot; split <;> simp (maxDischargeDepth := 20) [h]

theorem bounding_ruleXd : Bounding ruleXd := by
  unfold ruleXd; apply bounding_spoolRule; intro c args s h; dsimp only; (repeat' split) <;> simp (maxDischargeDepth := 20) [h]

theorem bounding_ruleQm : Bounding ruleQm := by
  intro c args s h; unfold ruleQm; (repeat' split) <;> simp (maxDischargeDepth := 20) [h]

theorem bounding_ruleWm : Bounding ruleWm := by
  intro c args s h; unfold ruleWm; (repeat' split) <;> simp (maxDischargeDepth := 20) [h]

theorem bounded_takeRegions {c : Ctx} {m : Nat} {map : RegionMap} {s : State} (h : Bounded s) (hm : m ∈ memSizes)
    (hv : map.valid m = true) : Bounded (takeRegions c m map s) := by
  unfold takeRegions
  dsimp only
  (repeat' split) <;> simp (maxDischargeDepth := 20) [h, hm, hv]

theorem bounding_ruleSr : Bounding ruleSr := by
  intro c args s h
  unfold ruleSr
  (repeat' split)
  · simp (maxDischargeDepth := 20) [h]
  · simp (maxDischargeDepth := 20) [h]
  · rename_i m map _ n _
    have hm : m ∈ memSizes := by
      rcases Decidable.em (m ∈ memSizes) with y | y
      · exact y
      · exact absurd (show _ = true by simp [y]) n
    have hv : map.valid m = true := by
      rcases Bool.eq_false_or_eq_true (map.valid m) with y | y
      · exact y
      · exact absurd (show _ = true by simp [y]) n
    exact bounded_takeRegions h hm hv
  · simp (maxDischargeDepth := 20) [h]

theorem bounding_ruleQt : Bounding ruleQt := by
  intro c args s h; unfold ruleQt; (repeat' split) <;> simp (maxDischargeDepth := 20) [h]

theorem bounding_ruleFd : Bounding ruleFd := by
  intro c args s h; unfold ruleFd; (repeat' split) <;> simp (maxDischargeDepth := 20) [h]

@[simp] theorem bounded_takeLoad (c : Ctx) (l : Load) {s : State} (h : Bounded s) : Bounded (takeLoad c l s) := by
  unfold takeLoad; simp (maxDischargeDepth := 20) [h]

theorem bounding_rulePd : Bounding rulePd := by
  intro c args s h; unfold rulePd; (repeat' split) <;> simp (maxDischargeDepth := 20) [h]

theorem bounding_ruleLc : Bounding ruleLc := by
  intro c args s h; unfold ruleLc; (repeat' split) <;> simp (maxDischargeDepth := 20) [h]

theorem bounding_ruleLg : Bounding ruleLg := by
  intro c args s h; unfold ruleLg; (repeat' split) <;> simp (maxDischargeDepth := 20) [h]

theorem bounding_ruleLh : Bounding ruleLh := by
  intro c args s h; unfold ruleLh; (repeat' split) <;> simp (maxDischargeDepth := 20) [h]

theorem bounded_formWrite {c : Ctx} {k : Nat} {todo : List (Nat × Text)} {b : Option FormStatus} {s s' : State} (h : Bounded s)
    (h' : Bounded s') : Bounded (formWrite c k todo b s s') := by
  unfold formWrite; (repeat' split) <;> simp [h, h']

@[simp] theorem bounded_loadHeader (c : Ctx) (k : Nat) (name : Text) (count : Nat) {s : State} (h : Bounded s) :
    Bounded (loadHeader c k name count s) := bounded_formWrite h (bounded_setKcu h h.typeahead)

@[simp] theorem bounded_loadField (c : Ctx) (k n : Nat) (label : Text) (width kind : Nat) {s : State} (h : Bounded s) :
    Bounded (loadField c k n label width kind s) := bounded_formWrite h (bounded_setKcu h h.typeahead)

theorem bounding_ruleLf : Bounding ruleLf := by
  intro c args s h; unfold ruleLf; (repeat' split) <;> simp (maxDischargeDepth := 20) [h]

theorem bounding_ruleEf : Bounding ruleEf := by
  intro c args s h
  unfold ruleEf
  (repeat' split) <;> first | exact bounded_formWrite h h | simp (maxDischargeDepth := 20) [h]

theorem bounding_ruleKl : Bounding ruleKl := by
  unfold ruleKl; apply bounding_noArgs; intro c s h; dsimp only; (repeat' split) <;> simp (maxDischargeDepth := 20) [h]

theorem bounding_ruleKu : Bounding ruleKu := by
  unfold ruleKu; apply bounding_noArgs; intro c s h; dsimp only; simp (maxDischargeDepth := 20) [h]

theorem bounding_ruleLk : Bounding ruleLk := by
  intro c args s h; unfold ruleLk; (repeat' split) <;> simp (maxDischargeDepth := 20) [h]

theorem bounding_ruleLs : Bounding ruleLs := by
  intro c args s h; unfold ruleLs; (repeat' split) <;> simp (maxDischargeDepth := 20) [h]

@[simp] theorem bounded_svFollow (n old v : Nat) {s : State} (h : Bounded s) : Bounded (svFollow n old v s) := by
  unfold svFollow; dsimp only; (repeat' split) <;> simp (maxDischargeDepth := 20) [h]

@[simp] theorem Settings.withValue_memSize (w : Settings) (n v : Nat) : (w.withValue n v).memSize = w.memSize := by
  unfold Settings.withValue; split <;> rfl

@[simp] theorem Settings.withValue_map (w : Settings) (n v : Nat) : (w.withValue n v).map = w.map := by
  unfold Settings.withValue; split <;> rfl

theorem bounding_ruleSv : Bounding ruleSv := by
  intro c args s h; unfold ruleSv; (repeat' split) <;> simp (maxDischargeDepth := 20) [h]

theorem bounding_ruleWs : Bounding ruleWs := by
  unfold ruleWs; apply bounding_noArgs; intro c s h; dsimp only; (repeat' split) <;> simp (maxDischargeDepth := 20) [h]

theorem bounding_ruleRt : Bounding ruleRt := by
  unfold ruleRt; apply bounding_noArgs; intro c s h; dsimp only; (repeat' split) <;> simp (maxDischargeDepth := 20) [h]

theorem bounding_rulePs : Bounding rulePs := by
  intro c args s h; unfold rulePs; (repeat' split) <;> simp (maxDischargeDepth := 20) [h]

theorem bounding_rule (d : Dir) : Bounding d.rule :=
  match d with
  | .qs => bounding_ruleQs | .qe => bounding_ruleQe | .qm => bounding_ruleQm | .qt => bounding_ruleQt
  | .fd => bounding_ruleFd | .pd => bounding_rulePd | .lc => bounding_ruleLc | .lg => bounding_ruleLg
  | .lh => bounding_ruleLh | .lf => bounding_ruleLf | .ef => bounding_ruleEf | .kl => bounding_ruleKl
  | .ku => bounding_ruleKu | .xs => bounding_ruleXs | .xh => bounding_ruleXh | .xd => bounding_ruleXd
  | .lk => bounding_ruleLk | .ls => bounding_ruleLs | .sr => bounding_ruleSr | .sv => bounding_ruleSv
  | .wm => bounding_ruleWm | .ws => bounding_ruleWs | .rt => bounding_ruleRt | .ps => bounding_rulePs

@[simp] theorem bounded_beginText (c : Ctx) (text : Text) {s : State} (h : Bounded s) : Bounded (beginText c text s) := by
  unfold beginText; dsimp only; split <;> simp (maxDischargeDepth := 20) [h, bounded_begin' (bounding_rule _)]

theorem bounded_collectByte {b : Byte} {rest : Text} {s : State} (h : Bounded s) (l : rest.length ≤ 64) :
    Bounded (collectByte b rest s) := by
  unfold collectByte; dsimp only; (repeat' split) <;> simp (maxDischargeDepth := 20) [h, l]

@[simp] theorem bounded_lineInputByte {s : State} (h : Bounded s) : Bounded (lineInputByte s) := by
  have l {b : Byte} {rest : Text} (e : s.du.input = b :: rest) : rest.length ≤ 64 := by
    have l := h.input
    rw [e, List.length_cons] at l
    omega
  unfold lineInputByte
  split
  · exact bounded_takeIdleByte h (l ‹_›)
  · exact bounded_collectByte h (l ‹_›)
  · exact h

theorem bounded_beginCommand {rule : DirRule} (b : Bounding rule) (d : Dir) (c : Ctx) (tag : Nat) (args : List Text) {s : State}
    (h : Bounded s) : Bounded (beginCommand d rule c tag args s) := by
  unfold beginCommand; dsimp only; split <;> simp (maxDischargeDepth := 20) [h, bounded_begin' b]

/-! ## The composer -/

theorem bounded_spoolClaim {t s : State} (h : Bounded s) (h' : Bounded t) : Bounded (spoolClaim t s) := by
  unfold spoolClaim; split <;> simp [h, h']

@[simp] theorem bounded_refuseSelect {s : State} (h : Bounded s) : Bounded (refuseSelect s) := by
  unfold refuseSelect; simp (maxDischargeDepth := 20) [h]

@[simp] theorem bounded_oweEcho (kind : EchoKind) {s : State} (h : Bounded s) : Bounded (oweEcho kind s) := by
  unfold oweEcho; simp (maxDischargeDepth := 20) [h]

@[simp] theorem bounded_completeLine (bytes : Text) (line : Text) {s : State} (h : Bounded s) :
    Bounded (completeLine bytes line s) := by
  unfold completeLine; simp (maxDischargeDepth := 20) [h]

@[simp] theorem bounded_freeChar (c : Byte) {s : State} (h : Bounded s) : Bounded (freeChar c s) := by
  unfold freeChar; (repeat' split) <;> simp (maxDischargeDepth := 20) [h]

@[simp] theorem bounded_formChar (c : Byte) {s : State} (h : Bounded s) : Bounded (formChar c s) := by
  unfold formChar; split <;> simp (maxDischargeDepth := 20) [h]

theorem bounded_openNote {after : State → State} (a : ∀ s, Bounded s → Bounded (after s)) {s : State} (h : Bounded s) :
    Bounded (openNote after s) := by
  unfold openNote
  apply bounded_spoolClaim h
  split
  · have t := bounded_createEntry ‹_› h
    exact a _ (by simp [t, Kcu.toIdle])
  · simp (maxDischargeDepth := 20) [h]

@[simp] theorem bounded_selectForm (c : Byte) {s : State} (h : Bounded s) : Bounded (selectForm c s) := by
  unfold selectForm; dsimp only; split
  · exact bounded_spoolClaim h (by simp (maxDischargeDepth := 20) [h])
  · simp (maxDischargeDepth := 20) [h]

@[simp] theorem bounded_charEffect (c : Byte) {s : State} (h : Bounded s) : Bounded (charEffect c s) := by
  unfold charEffect
  (repeat' split) <;> first
    | exact bounded_openNote (fun s b => bounded_freeChar c b) h
    | simp (maxDischargeDepth := 20) [h]

@[simp] theorem bounded_closeField (n : Nat) {s : State} (h : Bounded s) : Bounded (closeField n s) := by
  unfold closeField; simp (maxDischargeDepth := 20) [h]

@[simp] theorem bounded_cancelEffect {s : State} (h : Bounded s) : Bounded (cancelEffect s) :=
  have t : Bounded (s.setKcu s.kcu.cancelled) := by simp (maxDischargeDepth := 20) [h, Kcu.cancelled]
  bounded_spoolClaim t (by simp (maxDischargeDepth := 20) [t, Kcu.toIdle])

@[simp] theorem bounded_beginClosing {s : State} (h : Bounded s) : Bounded (beginClosing s) := by
  unfold beginClosing; simp (maxDischargeDepth := 20) [h]

@[simp] theorem bounded_enterFree {s : State} (h : Bounded s) : Bounded (enterFree s) := by
  unfold enterFree; (repeat' split) <;> simp (maxDischargeDepth := 20) [h]

@[simp] theorem bounded_enterForm {s : State} (h : Bounded s) : Bounded (enterForm s) := by
  unfold enterForm; dsimp only; (repeat' split) <;> simp (maxDischargeDepth := 20) [h]

@[simp] theorem bounded_enterService {s : State} (h : Bounded s) : Bounded (enterService s) := by
  unfold enterService; split <;> simp (maxDischargeDepth := 20) [h]

@[simp] theorem bounded_enterEffect {s : State} (h : Bounded s) : Bounded (enterEffect s) := by
  unfold enterEffect; split <;> simp (maxDischargeDepth := 20) [h]

@[simp] theorem bounded_tabEffect {s : State} (h : Bounded s) : Bounded (tabEffect s) := by
  unfold tabEffect; (repeat' split) <;> simp (maxDischargeDepth := 20) [h]

@[simp] theorem bounded_removeByte {s : State} (h : Bounded s) : Bounded (removeByte s) := by
  unfold removeByte; dsimp only; split
  · exact bounded_spoolClaim h (by simp (maxDischargeDepth := 20) [h])
  · simp (maxDischargeDepth := 20) [h]

@[simp] theorem bounded_rubEffect {s : State} (h : Bounded s) : Bounded (rubEffect s) := by
  unfold rubEffect; dsimp only; (repeat' split) <;> simp (maxDischargeDepth := 20) [h]

@[simp] theorem bounded_cancelKey {s : State} (h : Bounded s) : Bounded (cancelKey s) := by
  unfold cancelKey; split <;> simp (maxDischargeDepth := 20) [h]

@[simp] theorem bounded_newOrderEffect {s : State} (h : Bounded s) : Bounded (newOrderEffect s) := by
  unfold newOrderEffect; split <;> simp (maxDischargeDepth := 20) [h]

@[simp] theorem bounded_noteEffect {s : State} (h : Bounded s) : Bounded (noteEffect s) := by
  unfold noteEffect
  (repeat' split) <;> first | exact bounded_openNote (fun s b => b) h | simp (maxDischargeDepth := 20) [h]

@[simp] theorem bounded_sendEffect {s : State} (h : Bounded s) : Bounded (sendEffect s) := by
  unfold sendEffect
  (repeat' split) <;> first | exact bounded_spoolClaim h (bounded_startRun none h) | simp (maxDischargeDepth := 20) [h]

@[simp] theorem bounded_discardEffect {s : State} (h : Bounded s) : Bounded (discardEffect s) := by
  unfold discardEffect
  split
  · exact bounded_spoolClaim h (by split <;> simp (maxDischargeDepth := 20) [h])
  · simp (maxDischargeDepth := 20) [h]
  · simp (maxDischargeDepth := 20) [h]

@[simp] theorem bounded_feedEffect {s : State} (h : Bounded s) : Bounded (feedEffect s) := by
  unfold feedEffect; split <;> simp (maxDischargeDepth := 20) [h]

@[simp] theorem bounded_serviceEffect {s : State} (h : Bounded s) : Bounded (serviceEffect s) := by
  unfold serviceEffect; split <;> simp (maxDischargeDepth := 20) [h]

@[simp] theorem bounded_entryClosed {s : State} (h : Bounded s) : Bounded (entryClosed s) := by
  unfold entryClosed; simp (maxDischargeDepth := 20) [h]

@[simp] theorem bounded_imageRead (form : Nat) (bytes : Text) {s : State} (h : Bounded s) : Bounded (imageRead form bytes s) := by
  unfold imageRead
  split
  · exact h
  · refine bounded_spoolClaim (by simp [h]) (bounded_sendFrame ?_)
    (repeat' split)
    · simp (maxDischargeDepth := 20) [h]
    · simp (maxDischargeDepth := 20) [h]
    · have t := bounded_createEntry ‹_› (s := s.setKcu { s.kcu with claim := none }) (by simp [h])
      simp (maxDischargeDepth := 20) [t]

/-! ## Bus, head and power events -/

@[simp] theorem bounded_spoolWorked (data : Text) {s : State} (h : Bounded s) : Bounded (spoolWorked data s) := by
  unfold spoolWorked; (repeat' split) <;> simp (maxDischargeDepth := 20) [h]

@[simp] theorem bounded_regionsDone {s : State} (h : Bounded s) : Bounded (regionsDone s) := by
  unfold regionsDone; dsimp only; (repeat' split) <;> simp (maxDischargeDepth := 20) [h]

@[simp] theorem bounded_directiveWorked (c : Ctx) (data : Text) {s : State} (h : Bounded s) :
    Bounded (directiveWorked c data s) := by
  unfold directiveWorked; dsimp only; (repeat' split) <;> simp (maxDischargeDepth := 20) [h]

@[simp] theorem bounded_deliver (p : Purpose) (data : Text) {s : State} (h : Bounded s) : Bounded (deliver p data s) := by
  unfold deliver; split <;> simp (maxDischargeDepth := 20) [h]

@[simp] theorem bounded_reportTaken (sensor : Sensor) {s : State} (h : Bounded s) : Bounded (reportTaken sensor s) := by
  unfold reportTaken; dsimp only; (repeat' split) <;> simp (maxDischargeDepth := 20) [h]

@[simp] theorem bounded_enterDoze {s : State} (h : Bounded s) : Bounded (enterDoze s) := by
  unfold enterDoze; simp (maxDischargeDepth := 20) [h]

/-! ## Power -/

@[simp] theorem bounded_raiseAll {ts : List Text} {s : State} (h : Bounded s) : Bounded (raiseAll ts s) :=
  bounded_foldl (fun s t b => bounded_raise t (s := s) b) ts h

@[simp] theorem bounded_secureStaging {s : State} (h : Bounded s) : Bounded (secureStaging s) := by
  unfold secureStaging; dsimp only; (repeat' split) <;> simp [h]

@[simp] theorem bounded_secureJournal {s : State} (h : Bounded s) : Bounded (secureJournal s) := by
  unfold secureJournal; split <;> simp (maxDischargeDepth := 20) [h]

@[simp] theorem bounded_abandonDirectives {s : State} (h : Bounded s) : Bounded (abandonDirectives s) :=
  ⟨h.1, h.2, h.3, h.4, h.5, h.6, h.7, h.8, h.9, h.10⟩

@[simp] theorem bounded_beginShutdown {s : State} (h : Bounded s) : Bounded (beginShutdown s) := by
  unfold beginShutdown; simp (maxDischargeDepth := 20) [h]

@[simp] theorem bounded_bandChanged (b : BatteryBand) {s : State} (h : Bounded s) : Bounded (bandChanged b s) := by
  unfold bandChanged; dsimp only; (repeat' split) <;> simp (maxDischargeDepth := 20) [h]

@[simp] theorem bounded_restoreComposer {s : State} (h : Bounded s) : Bounded (restoreComposer s) := by
  unfold restoreComposer; dsimp only; (repeat' split) <;> simp (maxDischargeDepth := 20) [h]

@[simp] theorem bounded_pmTrack {s : State} (h : Bounded s) : Bounded (pmTrack s) := by
  unfold pmTrack; (repeat' split) <;> simp (maxDischargeDepth := 20) [h]

/-- Without power every working value is at its default and everything is empty. -/
theorem bounded_powerLost (landed : BitVec 8) (s : State) : Bounded (powerLost landed s) where
  size := by show (8192 : Nat) ∈ memSizes; decide
  map := by show (defaultMap 8192).valid 8192 = true; decide
  passed := fun w => by cases w <;> exact Nat.zero_le 4
  control := Nat.zero_le 4
  reports := Nat.zero_le 4
  input := Nat.zero_le 64
  typeahead := Nat.zero_le 16
  list := Nat.zero_le 24
  receiver := rfl
  notices := rfl

theorem bounded_releaseLatch (s : State) : Bounded (releaseLatch s) := bounded_powerLost ..

/-- The memory size and the map that start-up puts in force are allowed (R4). -/
theorem judgeMap_ok (w : Settings) : (judgeMap w).1 ∈ memSizes ∧ (judgeMap w).2.1.valid (judgeMap w).1 = true := by
  have d : ∀ m ∈ memSizes, (defaultMap m).valid m = true := by decide
  unfold judgeMap
  split
  · exact ⟨by decide, d 8192 (by decide)⟩
  · rename_i n
    have m : w.memSize ∈ memSizes := by simpa using n
    split
    · exact ⟨m, ‹_›⟩
    · exact ⟨m, d _ m⟩

/-- Start-up leaves a state within the bounds, whatever it starts from. -/
theorem bounded_startState (s : State) : Bounded (startState s) := by
  unfold startState
  apply bounded_reportBand
  apply bounded_readSensors
  exact {
    size := (judgeMap_ok _).1
    map := (judgeMap_ok _).2
    passed := fun w => by cases w <;> exact Nat.zero_le 4
    control := Nat.zero_le 4
    reports := Nat.zero_le 4
    input := Nat.zero_le 64
    typeahead := Nat.zero_le 16
    list := Nat.zero_le 24
    receiver := rfl
    notices := rfl }

theorem bounded_startUp (s : State) : Bounded (startUp s) := by
  unfold startUp
  split
  · exact bounded_releaseLatch s
  · have h := bounded_startState s
    generalize startState s = t at h
    dsimp only
    (repeat' split) <;> simp (maxDischargeDepth := 20) [h]

theorem bounded_pmStage {s t : State} (e : pmStage s = some t) (h : Bounded s) : Bounded t := by
  unfold pmStage at e
  dsimp only at e
  (repeat' split at e) <;> first
    | contradiction
    | (simp only [Option.some.injEq] at e; subst e; first
        | exact bounded_settle (bounded_startUp s)
        | exact bounded_releaseLatch s
        | simp (maxDischargeDepth := 20) [h])

@[simp] theorem bounded_pmAdvance : ∀ (fuel : Nat) {s : State}, Bounded s → Bounded (pmAdvance fuel s)
  | 0, _, h => h
  | fuel + 1, s, h => by
    unfold pmAdvance
    split
    · exact bounded_pmAdvance fuel (bounded_pmStage ‹_› h)
    · exact h

/-! ## Commands -/

/-- The common end of a command keeps the bounds, whatever is on its way. -/
theorem bounded_finish {s : State} (h : Bounded s) : Bounded (finish s) := by
  unfold finish; simp (maxDischargeDepth := 20) [h]

/-- A guarded command keeps the bounds where its effect does. -/
theorem bounded_guarded {c : Bool} {e s t : State} (h : Bounded s) (he : Bounded e) (g : guarded c e s = .next t) : Bounded t := by
  unfold guarded done ignored at g
  split at g <;> (injection g with g; subst g)
  · exact bounded_finish he
  · exact h

theorem bounded_ignored {s t : State} (h : Bounded s) (g : ignored s = .next t) : Bounded t := by
  unfold ignored at g; injection g with g; exact g ▸ h

/-- An event taken from the typeahead queue keeps the bounds where its effect does. -/
theorem bounded_takeKey {k : KeyEvent} {f : State → State} (hf : ∀ s, Bounded s → Bounded (f s)) {s t : State} (h : Bounded s)
    (g : takeKey k f s = .next t) : Bounded t := by
  unfold takeKey at g
  split at g
  · rename_i x rest e
    have l := h.typeahead
    rw [e, List.length_cons] at l
    exact bounded_guarded h (bounded_sendFrame (hf _ (bounded_setKcu h (show rest.length ≤ 16 by omega)))) g
  · exact bounded_ignored h g

theorem bounded_directiveCommand {d : Dir} {rule : DirRule} (b : Bounding rule) {c : Ctx} {tag : Nat} {args : List Text} {s t : State}
    (h : Bounded s) (g : directiveCommand d rule c tag args s = .next t) : Bounded t :=
  bounded_guarded h (bounded_beginCommand b d c tag args h) g

theorem bounded_burstComplete (c : CurrentBurst) {s : State} (h : Bounded s) : Bounded (burstComplete c s) := by
  have hm (m : Memory) : Bounded ((s.setMem m).setJmc s.jmc.completed) :=
    bounded_setJmc (bounded_setMem h) (Jmc.passed_completed h.passed)
  have hs : Bounded (s.setJmc s.jmc.completed) := bounded_setJmc h (Jmc.passed_completed h.passed)
  unfold burstComplete
  dsimp only
  (repeat' split) <;> simp (maxDischargeDepth := 20) [hm, hs]

end Sys2Proof.Machine
end

