-- ==== Sys2Proof/Laws/Answers.lean ====
section
/-! SUPPORT. The lines of a local answer: what each turn of `offerLines` does, and that the turns of `offerAll` leave no line that a
FREE notice slot could take (R137, R173). -/

namespace Sys2Proof.Machine

theorem offerLines_other {k : Nat} {s : State} (h : ∀ a, s.du.keyed.job ≠ some (.answering a)) : offerLines (k + 1) s = s := by
  unfold offerLines
  split
  · exact absurd ‹_› (h _)
  · exact absurd ‹_› (h _)
  · rfl

/-- A line waits while no slot is FREE. -/
theorem offerLines_full {k : Nat} {s : State} {t : Text} (o : s.du.keyed.offered = some t) (f : s.pqu.freeSlot = none) :
    offerLines (k + 1) s = s := by
  have p : s.pqu.place t = none := by unfold Pqu.place; rw [f]; rfl
  unfold offerLines
  split
  · rename_i t' _ o'
    rw [o] at o'; cases o'; rw [p]
  · rename_i o'; rw [o] at o'; cases o'
  · rfl

/-- The line offered takes a FREE slot. -/
theorem offerLines_place {k : Nat} {s : State} {a : Answered} {t : Text} (j : s.du.keyed.job = some (.answering a))
    (o : s.du.keyed.offered = some t) (f : s.pqu.freeSlot ≠ none) :
    offerLines (k + 1) s =
      offerLines k { s with pqu := s.pqu.raise t, du := { s.du with keyed := { s.du.keyed with offered := none } } } := by
  obtain ⟨n, f⟩ := Option.ne_none_iff_exists'.mp f
  have p : s.pqu.place t = some (s.pqu.raise t) := by unfold Pqu.raise Pqu.place; rw [f]; rfl
  conv => lhs; unfold offerLines
  rw [j, o]; dsimp only; rw [p]; rfl

/-- With every line placed the context is IDLE. -/
theorem offerLines_end {k : Nat} {s : State} {a : Answered} (j : s.du.keyed.job = some (.answering a))
    (o : s.du.keyed.offered = none) (w : s.du.keyed.answer = []) :
    offerLines (k + 1) s = { s with du := { s.du with keyed := ⟨none, [], none, []⟩ } } := by
  unfold offerLines
  rw [j, o]; dsimp only; rw [w]; rfl

/-- The next line is offered as it reads then. -/
theorem offerLines_next {k : Nat} {s : State} {a : Answered} {line : AnswerLine} {rest : List AnswerLine}
    (j : s.du.keyed.job = some (.answering a)) (o : s.du.keyed.offered = none) (w : s.du.keyed.answer = line :: rest) :
    offerLines (k + 1) s =
      offerLines k { s with du := { s.du with keyed := { s.du.keyed with offered := some (line.build s), answer := rest } } } := by
  conv => lhs; unfold offerLines
  rw [j, o]; dsimp only; rw [w]; rfl

/-- How many notice slots are FREE. -/
def Pqu.freeCount (p : Pqu) : Nat := p.notices.countP fun n => n.status == .free

theorem Pqu.noticeAt_get {p : Pqu} {n : Nat} (h : n - 1 < p.notices.length) : p.noticeAt n = p.notices[n - 1] := by
  unfold Pqu.noticeAt; rw [List.getD_eq_getElem?_getD, List.getElem?_eq_getElem h]; rfl

/-- A notice raised where a slot is FREE leaves one FREE slot fewer. -/
theorem Pqu.freeCount_raise {p : Pqu} (l : p.notices.length = 8) (f : p.freeSlot ≠ none) (t : Text) :
    (p.raise t).freeCount + 1 = p.freeCount := by
  obtain ⟨n, f⟩ := Option.ne_none_iff_exists'.mp f
  have m := List.mem_range'_1.mp (List.mem_of_find?_eq_some f)
  have st := List.find?_some f
  have i : n - 1 < p.notices.length := by omega
  rw [Pqu.noticeAt_get i] at st
  have e : (p.raise t).notices = p.notices.set (n - 1) ⟨.waiting, t.take 40⟩ := by
    unfold Pqu.raise Pqu.place; rw [f]; rfl
  have pos : 0 < p.freeCount := List.countP_pos_iff.mpr ⟨_, List.getElem_mem i, st⟩
  unfold Pqu.freeCount at pos ⊢
  rw [e, List.countP_set i, if_pos st]
  simp; omega

theorem Pqu.freeSlot_none {p : Pqu} (l : p.notices.length = 8) (h : p.freeCount = 0) : p.freeSlot = none := by
  unfold Pqu.freeCount at h
  rw [List.countP_eq_zero] at h
  unfold Pqu.freeSlot
  rw [List.find?_eq_none]
  intro n m
  rw [List.mem_range'_1] at m
  rw [Pqu.noticeAt_get (by omega)]; exact h _ (List.getElem_mem _)

/-- Enough turns leave no line that a FREE slot could take. -/
theorem offerLines_waits : ∀ (k : Nat) {s : State}, s.pqu.notices.length = 8 →
    2 * s.pqu.freeCount + (if s.du.keyed.offered = none then 1 else 0) ≤ k →
    ∀ a, (offerLines k s).du.keyed.job = some (.answering a) →
      (offerLines k s).du.keyed.offered.isSome = true ∧ (offerLines k s).pqu.freeSlot = none
  | 0, s, l, h, _, _ => by
    have o : s.du.keyed.offered ≠ none := by intro z; rw [if_pos z] at h; omega
    rw [if_neg o] at h
    exact ⟨Option.isSome_iff_ne_none.mpr o, Pqu.freeSlot_none l (show s.pqu.freeCount = 0 by omega)⟩
  | k + 1, s, l, h, a, j => by
    by_cases other : ∀ a, s.du.keyed.job ≠ some (.answering a)
    · rw [offerLines_other other] at j; exact absurd j (other a)
    obtain ⟨b, hb⟩ : ∃ b, s.du.keyed.job = some (.answering b) :=
      Classical.byContradiction fun n => other fun b hb => n ⟨b, hb⟩
    cases o : s.du.keyed.offered with
    | some t =>
      rw [o, if_neg (by simp)] at h
      by_cases f : s.pqu.freeSlot = none
      · rw [offerLines_full o f]; exact ⟨by rw [o]; rfl, f⟩
      · have c := Pqu.freeCount_raise l f t
        rw [offerLines_place hb o f] at j ⊢
        refine offerLines_waits k ((Pqu.raise_notices ..).trans l) ?_ a j
        show 2 * (s.pqu.raise t).freeCount + 1 ≤ k
        omega
    | none =>
      rw [o, if_pos rfl] at h
      cases w : s.du.keyed.answer with
      | nil => rw [offerLines_end hb o w] at j; cases j
      | cons line rest =>
        rw [offerLines_next hb o w] at j ⊢
        refine offerLines_waits k l ?_ a j
        show 2 * s.pqu.freeCount + 0 ≤ k
        omega

/-- After `offerAll` an answer still being placed has a line offered, and no notice slot is FREE. -/
theorem offerAll_waits {s : State} (h : Bounded s) (a : Answered) (j : (offerAll s).du.keyed.job = some (.answering a)) :
    (offerAll s).du.keyed.offered.isSome = true ∧ (offerAll s).pqu.freeSlot = none := by
  refine offerLines_waits 20 h.notices ?_ a j
  have c : s.pqu.freeCount ≤ 8 := Nat.le_trans List.countP_le_length (Nat.le_of_eq h.notices)
  split <;> omega

end Sys2Proof.Machine
end

