-- ==== Sys2Proof/Laws/Outside.lean ====
section
/-! SUPPORT. What the blocks' operations leave alone: the memories, the lines, the counter of free values, and the queue
(`State.outside`). One lemma per shared operation. -/

namespace Sys2Proof.Machine

@[simp] theorem outside_setWork (s : State) (v : Settings) : (s.setWork v).outside = s.outside := rfl
@[simp] theorem outside_setJmc (s : State) (v : Jmc) : (s.setJmc v).outside = s.outside := rfl
@[simp] theorem outside_setClu (s : State) (v : Clu) : (s.setClu v).outside = s.outside := rfl
@[simp] theorem outside_setPe (s : State) (v : Pe) : (s.setPe v).outside = s.outside := rfl
@[simp] theorem outside_setDu (s : State) (v : Du) : (s.setDu v).outside = s.outside := rfl
@[simp] theorem outside_setKsu (s : State) (v : Ksu) : (s.setKsu v).outside = s.outside := rfl
@[simp] theorem outside_setKcu (s : State) (v : Kcu) : (s.setKcu v).outside = s.outside := rfl
@[simp] theorem outside_setSpu (s : State) (v : Spu) : (s.setSpu v).outside = s.outside := rfl
@[simp] theorem outside_setPqu (s : State) (v : Pqu) : (s.setPqu v).outside = s.outside := rfl
@[simp] theorem outside_setHdu (s : State) (v : Hdu) : (s.setHdu v).outside = s.outside := rfl
@[simp] theorem outside_setPm (s : State) (v : Pm) : (s.setPm v).outside = s.outside := rfl

/-! ## Shared operations -/

@[simp] theorem outside_raise (t : Text) (s : State) :
    (raise t s).outside = s.outside := by
  unfold raise; simp

@[simp] theorem outside_alert (s : State) :
    (alert s).outside = s.outside := by
  unfold alert; split <;> simp

@[simp] theorem outside_busRequest (who : Requester) (b : Burst) (s : State) :
    (busRequest who b s).outside = s.outside := by
  unfold busRequest; simp

@[simp] theorem outside_busAbandon (who : Requester) (s : State) :
    (busAbandon who s).outside = s.outside := by
  unfold busAbandon; simp

@[simp] theorem outside_updateEntry (slot : Nat) (f : Entry → Entry) (s : State) :
    (updateEntry slot f s).outside = s.outside := by
  unfold updateEntry; simp

@[simp] theorem outside_spuDue (i : SpuItem) (s : State) :
    (spuDue i s).outside = s.outside := by
  unfold spuDue; simp

@[simp] theorem outside_changeEntry (slot : Nat) (f : Entry → Entry) (s : State) :
    (changeEntry slot f s).outside = s.outside := by
  unfold changeEntry; simp

@[simp] theorem outside_raiseSpoolFull (s : State) :
    (raiseSpoolFull s).outside = s.outside := by
  unfold raiseSpoolFull; split <;> simp

/-! ## The spool -/

theorem outside_createEntry {cls : EntryClass} {k n : Nat} {s t : State} (h : createEntry cls k s = some (n, t)) :
    t.outside = s.outside := by
  unfold createEntry at h
  dsimp only at h
  (repeat' split at h) <;>
    first | contradiction | (simp only [Option.some.injEq, Prod.mk.injEq] at h; obtain ⟨-, rfl⟩ := h; simp)

@[simp] theorem outside_flushWritten (length : Nat) (cursor : Option Cursor) (s : State) :
    (flushWritten length cursor s).outside = s.outside := by
  unfold flushWritten; split <;> simp

@[simp] theorem outside_retractByte (s : State) :
    (retractByte s).outside = s.outside := by
  unfold retractByte; split <;> simp

@[simp] theorem outside_closeEntry (s : State) :
    (closeEntry s).outside = s.outside := by
  unfold closeEntry; split <;> simp

@[simp] theorem outside_voidEntry (slot : Nat) (s : State) :
    (voidEntry slot s).outside = s.outside := by
  unfold voidEntry; simp

@[simp] theorem outside_cancelEntry (s : State) :
    (cancelEntry s).outside = s.outside := by
  unfold cancelEntry; split <;> simp

@[simp] theorem outside_lastAck (serial : Nat) (s : State) :
    (lastAck serial s).outside = s.outside := by
  unfold lastAck; dsimp only; (repeat' split) <;> simp

@[simp] theorem outside_startRun (first : Option Nat) (s : State) :
    (startRun first s).outside = s.outside := by
  unfold startRun; simp

@[simp] theorem outside_stopTest (s : State) :
    (stopTest s).outside = s.outside := by
  unfold stopTest; split <;> simp

@[simp] theorem outside_select (s : State) :
    (select s).outside = s.outside := by
  unfold select; dsimp only; (repeat' split) <;> simp

theorem outside_reclaim : ∀ (fuel : Nat) (s : State), (reclaim fuel s).outside = s.outside
  | 0, _ => rfl
  | fuel + 1, s => by
    unfold reclaim; dsimp only; (repeat' split) <;> simp [outside_reclaim fuel]

@[simp] theorem outside_spoolFollow (s : State) : (spoolFollow s).outside = s.outside := by
  unfold spoolFollow; simp [outside_reclaim]

@[simp] theorem outside_spuKick (s : State) :
    (spuKick s).outside = s.outside := by
  unfold spuKick; (repeat' split) <;> simp

@[simp] theorem outside_recordWritten (n : Nat) (live : Bool) (s : State) :
    (recordWritten n live s).outside = s.outside := by
  unfold recordWritten; dsimp only; (repeat' split) <;> simp

/-! ## The Parcel Engine -/

@[simp] theorem outside_flowTest (s : State) :
    (flowTest s).outside = s.outside := by
  unfold flowTest; dsimp only; (repeat' split) <;> simp

theorem outside_fillSlot {i : SlotId} {s t : State} (h : fillSlot i s = some t) : t.outside = s.outside := by
  unfold fillSlot at h
  dsimp only at h
  split at h
  · simp only [Option.map_eq_some_iff] at h
    obtain ⟨r, _, rfl⟩ := h
    simp
  · split at h
    · contradiction
    · split at h
      · simp only [Option.some.injEq] at h; subst h; simp
      · contradiction

theorem outside_fillNext {s t : State} (h : fillNext s = some t) : t.outside = s.outside := by
  unfold fillNext at h
  (repeat' split at h) <;> first | contradiction | exact outside_fillSlot h

@[simp] theorem outside_peLoad (s : State) :
    (peLoad s).outside = s.outside := by
  unfold peLoad; (repeat' split) <;> simp

@[simp] theorem outside_bodyRead (i : SlotId) (data : Text) (s : State) :
    (bodyRead i data s).outside = s.outside := by
  unfold bodyRead; split <;> simp

@[simp] theorem outside_beginParcel (item : TxItem) (p : Parcel) (s : State) :
    (beginParcel item p s).outside = s.outside := by
  unfold beginParcel; split <;> simp

theorem outside_beginControl {s t : State} (h : beginControl s = some t) : t.outside = s.outside := by
  unfold beginControl at h
  split at h
  · contradiction
  · dsimp only at h
    split at h <;> (simp only [Option.some.injEq] at h; subst h; simp)

theorem outside_beginSlot {i : SlotId} {s t : State} (h : beginSlot i s = some t) : t.outside = s.outside := by
  unfold beginSlot at h
  split at h
  · simp only [Option.some.injEq] at h; subst h; simp
  · simp only [Option.some.injEq] at h; subst h; simp
  · contradiction

theorem outside_beginNext {s t : State} (h : beginNext s = some t) : t.outside = s.outside := by
  unfold beginNext at h
  split at h
  · contradiction
  · split at h
    · split at h
      · exact outside_beginControl h
      · contradiction
    · split at h
      · split at h
        · simp only [Option.some.injEq] at h
          subst h
          exact outside_beginControl ‹_›
        · (repeat' split at h) <;> first | contradiction | exact outside_beginSlot h
      · contradiction

@[simp] theorem outside_peTurn (s : State) : (peTurn s).outside = s.outside := by
  unfold peTurn
  simp only [outside_peLoad]
  split
  · exact outside_beginNext ‹_›
  · split
    · rfl
    · rename_i t h
      cases e : beginNext t with
      | none => simpa using outside_fillNext h
      | some u => simpa using (outside_beginNext e).trans (outside_fillNext h)

@[simp] theorem outside_peKick (s : State) :
    (peKick s).outside = s.outside := by
  unfold peKick; simp

@[simp] theorem outside_passOn (p : SlotParcel) (s : State) :
    (passOn p s).outside = s.outside := by
  unfold passOn; (repeat' split) <;> simp

@[simp] theorem outside_ackSlot (i : SlotId) (s : State) :
    (ackSlot i s).outside = s.outside := by
  unfold ackSlot; split <;> simp

/-- A fold of an operation that leaves the outside alone leaves it alone. -/
theorem outside_foldl {α : Type} {f : State → α → State} (h : ∀ s a, (f s a).outside = s.outside) :
    ∀ (l : List α) (s : State), (l.foldl f s).outside = s.outside
  | [], _ => rfl
  | a :: l, s => by rw [List.foldl_cons, outside_foldl h l, h]

@[simp] theorem outside_ackAll (is : List SlotId) (s : State) : (ackAll is s).outside = s.outside := by
  unfold ackAll
  dsimp only
  rw [outside_setPe, outside_foldl (fun s i => outside_ackSlot i s)]

@[simp] theorem outside_strayAck (s : State) :
    (strayAck s).outside = s.outside := by
  unfold strayAck; simp

@[simp] theorem outside_onAck (q : BitVec 3) (s : State) :
    (onAck q s).outside = s.outside := by
  unfold onAck; split <;> simp

@[simp] theorem outside_onNak (q : BitVec 3) (s : State) :
    (onNak q s).outside = s.outside := by
  unfold onNak; (repeat' split) <;> simp

@[simp] theorem outside_dropSource (serial : Nat) (s : State) :
    (dropSource serial s).outside = s.outside := by
  unfold dropSource; dsimp only; (repeat' split) <;> simp

@[simp] theorem outside_strayVerdict (s : State) :
    (strayVerdict s).outside = s.outside := by
  unfold strayVerdict; simp

@[simp] theorem outside_verdict (slot : Nat) (f : Entry → Entry) (s : State) :
    (verdict slot f s).outside = s.outside := by
  unfold verdict; dsimp only; (repeat' split) <;> simp

@[simp] theorem outside_onAccept (serial : Nat) (s : State) :
    (onAccept serial s).outside = s.outside := by
  unfold onAccept; dsimp only; (repeat' split) <;> simp

@[simp] theorem outside_onReject (serial code : Nat) (reason : Text) (s : State) :
    (onReject serial code reason s).outside = s.outside := by
  unfold onReject; (repeat' split) <;> simp

/-! ## The print queue -/

theorem outside_offerLines : ∀ (fuel : Nat) (s : State), (offerLines fuel s).outside = s.outside
  | 0, _ => rfl
  | fuel + 1, s => by
    unfold offerLines; (repeat' split) <;> simp [outside_offerLines fuel]

@[simp] theorem outside_offerAll (s : State) : (offerAll s).outside = s.outside := outside_offerLines 20 s

@[simp] theorem outside_handReport (tag : Nat) (o : Outcome) (data : Text) (s : State) :
    (handReport tag o data s).outside = s.outside := by
  unfold handReport; split <;> simp

@[simp] theorem outside_finishLine (o : Outcome) (data : Text) (s : State) :
    (finishLine o data s).outside = s.outside := by
  unfold finishLine; dsimp only; (repeat' split) <;> simp

@[simp] theorem outside_finishService (o : Outcome) (lines : List AnswerLine) (s : State) :
    (finishService o lines s).outside = s.outside := by
  unfold finishService; simp

@[simp] theorem outside_finishDirective (c : Ctx) (o : Outcome) (data : Text) (lines : List AnswerLine) (s : State) :
    (finishDirective c o data lines s).outside = s.outside := by
  unfold finishDirective; split <;> simp

@[simp] theorem outside_setJob (c : Ctx) (j : Job) (s : State) :
    (setJob c j s).outside = s.outside := by
  unfold setJob; simp

theorem outside_offerByte {b : Byte} {s t : State} (h : offerByte b s = some t) : t.outside = s.outside := by
  unfold offerByte at h
  dsimp only at h
  (repeat' split at h) <;> first | contradiction | (simp only [Option.some.injEq] at h; subst h; simp)

@[simp] theorem outside_takeIdleByte (b : Byte) (rest : Text) (s : State) : (takeIdleByte b rest s).outside = s.outside := by
  unfold takeIdleByte
  split
  · simp
  · split
    · simp
    · split
      · simpa using outside_offerByte ‹_›
      · simp

@[simp] theorem outside_reoffer (s : State) :
    (reoffer s).outside = s.outside := by
  unfold reoffer; (repeat' split) <;> simp

@[simp] theorem outside_inboundDue (s : State) :
    (inboundDue s).outside = s.outside := by
  unfold inboundDue; simp

@[simp] theorem outside_completePart (s : State) :
    (completePart s).outside = s.outside := by
  unfold completePart; split <;> simp

@[simp] theorem outside_listed (d : Descriptor) (s : State) :
    (listed d s).outside = s.outside := by
  unfold listed; simp

@[simp] theorem outside_listInbound (s : State) :
    (listInbound s).outside = s.outside := by
  unfold listInbound; simp

@[simp] theorem outside_countEcho (slot : Nat) (f : Nat → Nat) (s : State) :
    (countEcho slot f s).outside = s.outside := by
  unfold countEcho; split <;> simp

@[simp] theorem outside_echoListed (d : Descriptor) (s : State) :
    (echoListed d s).outside = s.outside := by
  unfold echoListed; split <;> simp

@[simp] theorem outside_listComposer (d : Descriptor) (s : State) :
    (listComposer d s).outside = s.outside := by
  unfold listComposer; simp

@[simp] theorem outside_listFd (c : Ctx) (rows : Nat) (s : State) :
    (listFd c rows s).outside = s.outside := by
  unfold listFd; simp

theorem outside_grantOne {s t : State} (h : grantOne s = some t) : t.outside = s.outside := by
  unfold grantOne at h
  (repeat' split at h) <;> first | contradiction | (simp only [Option.some.injEq] at h; subst h; simp)

theorem outside_grantSlots : ∀ (fuel : Nat) (s : State), (grantSlots fuel s).outside = s.outside
  | 0, _ => rfl
  | fuel + 1, s => by
    unfold grantSlots
    split
    · rw [outside_grantSlots fuel, outside_grantOne ‹_›]
    · rfl

@[simp] theorem outside_pquTurn (s : State) : (pquTurn s).outside = s.outside := by
  unfold pquTurn; simp [outside_grantSlots]

@[simp] theorem outside_freeNoticeSlot (n : Nat) (s : State) :
    (freeNoticeSlot n s).outside = s.outside := by
  unfold freeNoticeSlot; simp

@[simp] theorem outside_echoFinished (slot : Nat) (form : Option Nat) (s : State) :
    (echoFinished slot form s).outside = s.outside := by
  unfold echoFinished; split <;> simp

@[simp] theorem outside_releaseLine (d : Descriptor) (s : State) :
    (releaseLine d s).outside = s.outside := by
  unfold releaseLine; split <;> simp

@[simp] theorem outside_finishFront (s : State) :
    (finishFront s).outside = s.outside := by
  unfold finishFront; split <;> simp

/-! ## The head -/

@[simp] theorem outside_beginBuild (row : Nat) (s : State) :
    (beginBuild row s).outside = s.outside := by
  unfold beginBuild; dsimp only; (repeat' split) <;> simp

@[simp] theorem outside_rowTextRead (data : Text) (s : State) :
    (rowTextRead data s).outside = s.outside := by
  unfold rowTextRead; dsimp only; (repeat' split) <;> simp

@[simp] theorem outside_glyphRowRead (column : Nat) (data : Text) (s : State) :
    (glyphRowRead column data s).outside = s.outside := by
  unfold glyphRowRead; dsimp only; (repeat' split) <;> simp

@[simp] theorem outside_disturb (s : State) :
    (disturb s).outside = s.outside := by
  unfold disturb; split <;> simp

@[simp] theorem outside_pauseHead (r : Resume) (s : State) :
    (pauseHead r s).outside = s.outside := by
  unfold pauseHead; dsimp only; (repeat' split) <;> simp

@[simp] theorem outside_abandonLine (s : State) :
    (abandonLine s).outside = s.outside := by
  unfold abandonLine; (repeat' split) <;> simp

@[simp] theorem outside_headEnter (s : State) :
    (headEnter s).outside = s.outside := by
  unfold headEnter; (repeat' split) <;> simp

@[simp] theorem outside_rowStart (s : State) :
    (rowStart s).outside = s.outside := by
  unfold rowStart; dsimp only; (repeat' split) <;> simp

@[simp] theorem outside_buildCurrent (s : State) :
    (buildCurrent s).outside = s.outside := by
  unfold buildCurrent; (repeat' split) <;> simp

@[simp] theorem outside_layOut (s : State) :
    (layOut s).outside = s.outside := by
  unfold layOut; (repeat' split) <;> simp

@[simp] theorem outside_powerPause (s : State) :
    (powerPause s).outside = s.outside := by
  unfold powerPause; (repeat' split) <;> simp

@[simp] theorem outside_beginFeed (s : State) :
    (beginFeed s).outside = s.outside := by
  unfold beginFeed; (repeat' split) <;> simp

@[simp] theorem outside_buildNext (s : State) :
    (buildNext s).outside = s.outside := by
  unfold buildNext; (repeat' split) <;> simp

@[simp] theorem outside_hduRequest (s : State) :
    (hduRequest s).outside = s.outside := by
  unfold hduRequest; (repeat' split) <;> simp

theorem outside_startStrobes : ∀ (fuel : Nat) (s : State), (startStrobes fuel s).outside = s.outside
  | 0, _ => rfl
  | fuel + 1, s => by
    unfold startStrobes; dsimp only; (repeat' split) <;> simp [outside_startStrobes fuel]

@[simp] theorem outside_hduTurn (s : State) : (hduTurn s).outside = s.outside := by
  unfold hduTurn; simp [outside_startStrobes]

@[simp] theorem outside_hduKick (s : State) :
    (hduKick s).outside = s.outside := by
  unfold hduKick; simp

@[simp] theorem outside_lineFinished (s : State) :
    (lineFinished s).outside = s.outside := by
  unfold lineFinished; dsimp only; (repeat' split) <;> simp

@[simp] theorem outside_stepEnded (s : State) :
    (stepEnded s).outside = s.outside := by
  unfold stepEnded; dsimp only; (repeat' split) <;> simp

@[simp] theorem outside_rebuild (s : State) :
    (rebuild s).outside = s.outside := by
  unfold rebuild; dsimp only; (repeat' split) <;> simp

@[simp] theorem outside_applyLoad (c : Ctx) (l : Load) (s : State) :
    (applyLoad c l s).outside = s.outside := by
  unfold applyLoad; split <;> simp

@[simp] theorem outside_glyphsWritten (s : State) :
    (glyphsWritten s).outside = s.outside := by
  unfold glyphsWritten; (repeat' split) <;> simp

@[simp] theorem outside_recomputeLimit (s : State) :
    (recomputeLimit s).outside = s.outside := by
  unfold recomputeLimit; simp

@[simp] theorem outside_reportBand (s : State) :
    (reportBand s).outside = s.outside := by
  unfold reportBand; simp

@[simp] theorem outside_readSensors (s : State) :
    (readSensors s).outside = s.outside := by
  unfold readSensors; simp

/-! ## Staging and the display -/

@[simp] theorem outside_sendFrame (s : State) :
    (sendFrame s).outside = s.outside := by
  unfold sendFrame; split <;> simp

@[simp] theorem outside_refuse (s : State) :
    (refuse s).outside = s.outside := by
  unfold refuse; simp

@[simp] theorem outside_store (bytes : Text) (s : State) :
    (store bytes s).outside = s.outside := by
  unfold store; simp

@[simp] theorem outside_flushRequest (s : State) :
    (flushRequest s).outside = s.outside := by
  unfold flushRequest; dsimp only; (repeat' split) <;> simp

@[simp] theorem outside_claimEcho (q : Echo) (s : State) :
    (claimEcho q s).outside = s.outside := by
  unfold claimEcho; simp

@[simp] theorem outside_flushDone (length : Nat) (cursor : Option Cursor) (s : State) :
    (flushDone length cursor s).outside = s.outside := by
  unfold flushDone; dsimp only; (repeat' split) <;> simp

theorem outside_takeFlush (bytes : Text) (cursor : Option Cursor) (s : State) :
    (takeFlush bytes cursor s).1.outside = s.outside := by
  unfold takeFlush; split <;> simp

@[simp] theorem outside_flushTaken (cursor : Option Cursor) (s : State) : (flushTaken cursor s).outside = s.outside := by
  unfold flushTaken; dsimp only; split <;> simp [outside_takeFlush]

/-! ## The common end -/

theorem outside_duTurn : ∀ (fuel : Nat) (s : State), (duTurn fuel s).outside = s.outside
  | 0, _ => rfl
  | fuel + 1, s => by
    unfold duTurn; dsimp only; (repeat' split) <;> simp [outside_duTurn fuel]

@[simp] theorem outside_duKick (s : State) : (duKick s).outside = s.outside := outside_duTurn _ s

@[simp] theorem outside_directiveDue (c : Ctx) (s : State) :
    (directiveDue c s).outside = s.outside := by
  unfold directiveDue; simp

@[simp] theorem outside_cluWake (s : State) : (cluWake s).outside = s.outside := rfl

@[simp] theorem outside_wake (s : State) :
    (wake s).outside = s.outside := by
  unfold wake; simp

@[simp] theorem outside_wakeForLine (s : State) :
    (wakeForLine s).outside = s.outside := by
  unfold wakeForLine; split <;> simp

/-- The common end of a command reaches only the blocks. -/
@[simp] theorem outside_settle (s : State) : (settle s).outside = s.outside := rfl

/-! ## Line and session -/

@[simp] theorem outside_dozeAfresh (s : State) :
    (dozeAfresh s).outside = s.outside := by
  unfold dozeAfresh; simp

@[simp] theorem outside_lineTo (c : Clu) (s : State) :
    (lineTo c s).outside = s.outside := by
  unfold lineTo; dsimp only; (repeat' split) <;> simp

@[simp] theorem outside_enterOff (s : State) :
    (enterOff s).outside = s.outside := by
  unfold enterOff; simp

@[simp] theorem outside_enterListen (s : State) :
    (enterListen s).outside = s.outside := by
  unfold enterListen; simp

@[simp] theorem outside_peSessionEnd (s : State) :
    (peSessionEnd s).outside = s.outside := by
  unfold peSessionEnd; simp

@[simp] theorem outside_duSessionEnd (s : State) :
    (duSessionEnd s).outside = s.outside := by
  unfold duSessionEnd; simp

@[simp] theorem outside_spuSessionEnd (s : State) : (spuSessionEnd s).outside = s.outside := by
  unfold spuSessionEnd
  dsimp only
  rw [outside_setSpu, outside_foldl (fun s n => outside_changeEntry n _ s), outside_foldl (fun s n => outside_changeEntry n _ s)]

@[simp] theorem outside_kcuSessionEnd (s : State) :
    (kcuSessionEnd s).outside = s.outside := by
  unfold kcuSessionEnd; simp

@[simp] theorem outside_pquSessionEnd (s : State) :
    (pquSessionEnd s).outside = s.outside := by
  unfold pquSessionEnd; simp

@[simp] theorem outside_listNotices (s : State) : (listNotices s).outside = s.outside := rfl

@[simp] theorem outside_sessionEnd (cause : EndCause) (s : State) :
    (sessionEnd cause s).outside = s.outside := by
  unfold sessionEnd; simp

@[simp] theorem outside_enterClearing (cause : ClearCause) (s : State) :
    (enterClearing cause s).outside = s.outside := by
  unfold enterClearing; simp

@[simp] theorem outside_fadeOut (s : State) :
    (fadeOut s).outside = s.outside := by
  unfold fadeOut; simp

@[simp] theorem outside_endLine (cause : ClearCause) (s : State) :
    (endLine cause s).outside = s.outside := by
  unfold endLine; split <;> simp

@[simp] theorem outside_lineAction (s : State) :
    (lineAction s).outside = s.outside := by
  unfold lineAction; dsimp only; (repeat' split) <;> simp

@[simp] theorem outside_sessionStart (s : State) :
    (sessionStart s).outside = s.outside := by
  unfold sessionStart; dsimp only; (repeat' split) <;> simp

/-! ## Line and parcels -/

@[simp] theorem outside_carrierPresent (s : State) :
    (carrierPresent s).outside = s.outside := by
  unfold carrierPresent; split <;> simp

@[simp] theorem outside_carrierAbsent (s : State) :
    (carrierAbsent s).outside = s.outside := by
  unfold carrierAbsent; split <;> simp

@[simp] theorem outside_judgeCarrier (s : State) :
    (judgeCarrier s).outside = s.outside := by
  unfold judgeCarrier; dsimp only; (repeat' split) <;> simp

@[simp] theorem outside_carrierLost (s : State) :
    (carrierLost s).outside = s.outside := by
  unfold carrierLost; split <;> simp

@[simp] theorem outside_onText (seq : BitVec 3) (body : Text) (s : State) :
    (onText seq body s).outside = s.outside := by
  unfold onText; dsimp only; (repeat' split) <;> simp

@[simp] theorem outside_onHold (seconds : Nat) (s : State) :
    (onHold seconds s).outside = s.outside := by
  unfold onHold; simp

@[simp] theorem outside_onResume (s : State) :
    (onResume s).outside = s.outside := by
  unfold onResume; simp

@[simp] theorem outside_onClear (s : State) :
    (onClear s).outside = s.outside := by
  unfold onClear; split <;> simp

@[simp] theorem outside_actOn (p : Parcel) (s : State) :
    (actOn p s).outside = s.outside := by
  unfold actOn; split <;> simp

@[simp] theorem outside_parcelBad (s : State) :
    (parcelBad s).outside = s.outside := by
  unfold parcelBad; simp

@[simp] theorem outside_parcelGood (p : Parcel) (s : State) :
    (parcelGood p s).outside = s.outside := by
  unfold parcelGood; simp

@[simp] theorem outside_takeParcel (p : Parcel) (s : State) :
    (takeParcel p s).outside = s.outside := by
  unfold takeParcel; split <;> simp

@[simp] theorem outside_closed (a : Assembler) (s : State) :
    (closed a s).outside = s.outside := by
  unfold closed; split <;> simp

@[simp] theorem outside_assemble (c : Byte) (flagged : Bool) (s : State) :
    (assemble c flagged s).outside = s.outside := by
  unfold assemble; dsimp only; (repeat' split) <;> simp

@[simp] theorem outside_characterRead (c : Byte) (flagged : Bool) (s : State) :
    (characterRead c flagged s).outside = s.outside := by
  unfold characterRead; (repeat' split) <;> simp

@[simp] theorem outside_characterReceived (c : Byte) (flagged : Bool) (s : State) :
    (characterReceived c flagged s).outside = s.outside := by
  unfold characterReceived; dsimp only; split <;> simp

@[simp] theorem outside_parcelSent (item : TxItem) (s : State) :
    (parcelSent item s).outside = s.outside := by
  unfold parcelSent; dsimp only; (repeat' split) <;> simp

@[simp] theorem outside_characterSent (s : State) :
    (characterSent s).outside = s.outside := by
  unfold characterSent; dsimp only; (repeat' split) <;> simp

@[simp] theorem outside_ackExpired (s : State) :
    (ackExpired s).outside = s.outside := by
  unfold ackExpired; dsimp only; (repeat' split) <;> simp

/-! ## Key sensing -/

@[simp] theorem outside_queueKey (e : KeyEvent) (s : State) :
    (queueKey e s).outside = s.outside := by
  unfold queueKey; (repeat' split) <;> simp

@[simp] theorem outside_keyEvent (e : KeyEntry) (s : State) :
    (keyEvent e s).outside = s.outside := by
  unfold keyEvent; split <;> simp

@[simp] theorem outside_setRole (pad : Nat) (r : Role) (s : State) :
    (setRole pad r s).outside = s.outside := by
  unfold setRole; simp

@[simp] theorem outside_pressEvent (pad : Nat) (s : State) :
    (pressEvent pad s).outside = s.outside := by
  unfold pressEvent; dsimp only; (repeat' split) <;> simp

@[simp] theorem outside_releaseEvent (pad : Nat) (s : State) :
    (releaseEvent pad s).outside = s.outside := by
  unfold releaseEvent; simp

@[simp] theorem outside_repeatKey (pad : Nat) (s : State) :
    (repeatKey pad s).outside = s.outside := by
  unfold repeatKey; (repeat' split) <;> simp

@[simp] theorem outside_padFault (pad : Nat) (s : State) :
    (padFault pad s).outside = s.outside := by
  unfold padFault; simp

@[simp] theorem outside_scanApplied (rs : List Reading) (s : State) : (scanApplied rs s).outside = s.outside := by
  unfold scanApplied
  dsimp only
  rw [outside_foldl (fun s p => outside_repeatKey p s), outside_foldl (fun s p => outside_pressEvent p s),
    outside_foldl (fun s p => outside_releaseEvent p s)]
  split <;> simp [outside_foldl (fun s p => outside_padFault p s)]

@[simp] theorem outside_scanCalibrates (rs : List Reading) (s : State) : (scanCalibrates rs s).outside = s.outside := by
  unfold scanCalibrates
  dsimp only
  rw [outside_foldl (fun s p => outside_padFault p s), outside_setKsu]

@[simp] theorem outside_measurementEnd (counts : List (BitVec 12)) (scan : Scan) (s : State) :
    (measurementEnd counts scan s).outside = s.outside := by
  unfold measurementEnd; dsimp only; (repeat' split) <;> simp

@[simp] theorem outside_ksuDoze (s : State) : (ksuDoze s).outside = s.outside := by
  unfold ksuDoze
  dsimp only
  rw [outside_foldl (fun s p => outside_releaseEvent p s), outside_setKsu]

@[simp] theorem outside_gangedMeasurement (count : Nat) (s : State) :
    (gangedMeasurement count s).outside = s.outside := by
  unfold gangedMeasurement; dsimp only; (repeat' split) <;> simp

/-! ## Directives -/

@[simp] theorem outside_answer (o : Outcome) (c : Ctx) (s : State) :
    (answer o c s).outside = s.outside := by
  unfold answer; simp

@[simp] theorem outside_answerDone (c : Ctx) (s : State) :
    (answerDone c s).outside = s.outside := by
  unfold answerDone; simp

@[simp] theorem outside_occupy (c : Ctx) (tag : Nat) (head : Text) (s : State) :
    (occupy c tag head s).outside = s.outside := by
  unfold occupy; split <;> simp

/-- A directive's rule leaves the outside alone. -/
def Tame (rule : DirRule) : Prop := ∀ c args s, (rule c args s).outside = s.outside

theorem outside_begin' {rule : DirRule} (h : Tame rule) (d : Dir) (c : Ctx) (args : List Text) (s : State) :
    (begin' d rule c args s).outside = s.outside := by
  unfold begin'; (repeat' split) <;> simp [h c args s]

theorem tame_spoolRule {rule : DirRule} (h : Tame rule) : Tame (spoolRule rule) := by
  intro c args s; unfold spoolRule; split <;> simp [h c args s]

theorem tame_noArgs {f : Ctx → State → State} (h : ∀ c s, (f c s).outside = s.outside) : Tame (noArgs f) := by
  intro c args s; unfold noArgs; split <;> simp [h c s]

@[simp] theorem outside_clearCounters (s : State) :
    (clearCounters s).outside = s.outside := by
  unfold clearCounters; simp

theorem tame_ruleQs : Tame ruleQs := by
  intro c args s; unfold ruleQs; (repeat' split) <;> simp

theorem tame_ruleQe : Tame ruleQe := by
  unfold ruleQe; apply tame_spoolRule; intro c args s; dsimp only; (repeat' split) <;> simp

theorem tame_ruleXs : Tame ruleXs := by
  unfold ruleXs; apply tame_spoolRule; intro c args s; dsimp only; (repeat' split) <;> simp

theorem tame_ruleXh : Tame ruleXh := by
  unfold ruleXh; exact tame_spoolRule (tame_noArgs fun c s => by simp)

@[simp] theorem outside_discardSlot (c : Ctx) (n : Nat) (s : State) :
    (discardSlot c n s).outside = s.outside := by
  unfold discardSlot; split <;> simp

theorem tame_ruleXd : Tame ruleXd := by
  unfold ruleXd; apply tame_spoolRule; intro c args s; dsimp only; (repeat' split) <;> simp

theorem tame_ruleQm : Tame ruleQm := by
  intro c args s; unfold ruleQm; (repeat' split) <;> simp

theorem tame_ruleWm : Tame ruleWm := by
  intro c args s; unfold ruleWm; (repeat' split) <;> simp

@[simp] theorem outside_takeRegions (c : Ctx) (m : Nat) (map : RegionMap) (s : State) :
    (takeRegions c m map s).outside = s.outside := by
  unfold takeRegions; dsimp only; (repeat' split) <;> simp

theorem tame_ruleSr : Tame ruleSr := by
  intro c args s; unfold ruleSr; (repeat' split) <;> simp

theorem tame_ruleQt : Tame ruleQt := by
  intro c args s; unfold ruleQt; (repeat' split) <;> simp

theorem tame_ruleFd : Tame ruleFd := by
  intro c args s; unfold ruleFd; (repeat' split) <;> simp

@[simp] theorem outside_takeLoad (c : Ctx) (l : Load) (s : State) :
    (takeLoad c l s).outside = s.outside := by
  unfold takeLoad; simp

theorem tame_rulePd : Tame rulePd := by
  intro c args s; unfold rulePd; (repeat' split) <;> simp

theorem tame_ruleLc : Tame ruleLc := by
  intro c args s; unfold ruleLc; (repeat' split) <;> simp

theorem tame_ruleLg : Tame ruleLg := by
  intro c args s; unfold ruleLg; (repeat' split) <;> simp

theorem tame_ruleLh : Tame ruleLh := by
  intro c args s; unfold ruleLh; (repeat' split) <;> simp

theorem outside_formWrite {c : Ctx} {k : Nat} {todo : List (Nat × Text)} {b : Option FormStatus} {s s' : State}
    (h : s'.outside = s.outside) : (formWrite c k todo b s s').outside = s.outside := by
  unfold formWrite; (repeat' split) <;> simp [h]

@[simp] theorem outside_loadHeader (c : Ctx) (k : Nat) (name : Text) (count : Nat) (s : State) :
    (loadHeader c k name count s).outside = s.outside := outside_formWrite rfl

@[simp] theorem outside_loadField (c : Ctx) (k n : Nat) (label : Text) (width kind : Nat) (s : State) :
    (loadField c k n label width kind s).outside = s.outside := outside_formWrite rfl

theorem tame_ruleLf : Tame ruleLf := by
  intro c args s; unfold ruleLf; (repeat' split) <;> simp

theorem tame_ruleEf : Tame ruleEf := by
  intro c args s
  unfold ruleEf
  (repeat' split) <;> first | exact outside_formWrite rfl | simp

theorem tame_ruleKl : Tame ruleKl := by
  unfold ruleKl; apply tame_noArgs; intro c s; dsimp only; (repeat' split) <;> simp

theorem tame_ruleKu : Tame ruleKu := by
  unfold ruleKu; apply tame_noArgs; intro c s; dsimp only; simp

theorem tame_ruleLk : Tame ruleLk := by
  intro c args s; unfold ruleLk; (repeat' split) <;> simp

theorem tame_ruleLs : Tame ruleLs := by
  intro c args s; unfold ruleLs; (repeat' split) <;> simp

@[simp] theorem outside_svFollow (n old v : Nat) (s : State) :
    (svFollow n old v s).outside = s.outside := by
  unfold svFollow; dsimp only; (repeat' split) <;> simp

theorem tame_ruleSv : Tame ruleSv := by
  intro c args s; unfold ruleSv; (repeat' split) <;> simp

theorem tame_ruleWs : Tame ruleWs := by
  unfold ruleWs; apply tame_noArgs; intro c s; dsimp only; (repeat' split) <;> simp

theorem tame_ruleRt : Tame ruleRt := by
  unfold ruleRt; apply tame_noArgs; intro c s; dsimp only; (repeat' split) <;> simp

theorem tame_rulePs : Tame rulePs := by
  intro c args s; unfold rulePs; (repeat' split) <;> simp

theorem tame_rule (d : Dir) : Tame d.rule :=
  match d with
  | .qs => tame_ruleQs | .qe => tame_ruleQe | .qm => tame_ruleQm | .qt => tame_ruleQt
  | .fd => tame_ruleFd | .pd => tame_rulePd | .lc => tame_ruleLc | .lg => tame_ruleLg
  | .lh => tame_ruleLh | .lf => tame_ruleLf | .ef => tame_ruleEf | .kl => tame_ruleKl
  | .ku => tame_ruleKu | .xs => tame_ruleXs | .xh => tame_ruleXh | .xd => tame_ruleXd
  | .lk => tame_ruleLk | .ls => tame_ruleLs | .sr => tame_ruleSr | .sv => tame_ruleSv
  | .wm => tame_ruleWm | .ws => tame_ruleWs | .rt => tame_ruleRt | .ps => tame_rulePs

@[simp] theorem outside_beginText (c : Ctx) (text : Text) (s : State) : (beginText c text s).outside = s.outside := by
  unfold beginText; dsimp only; split <;> simp [outside_begin' (tame_rule _)]

@[simp] theorem outside_collectByte (b : Byte) (rest : Text) (s : State) :
    (collectByte b rest s).outside = s.outside := by
  unfold collectByte; dsimp only; (repeat' split) <;> simp

@[simp] theorem outside_lineInputByte (s : State) :
    (lineInputByte s).outside = s.outside := by
  unfold lineInputByte; split <;> simp

theorem outside_beginCommand {rule : DirRule} (h : Tame rule) (d : Dir) (c : Ctx) (tag : Nat) (args : List Text) (s : State) :
    (beginCommand d rule c tag args s).outside = s.outside := by
  unfold beginCommand; dsimp only; split <;> simp [outside_begin' h]

/-! ## The composer -/

theorem outside_spoolClaim {t s : State} (h : t.outside = s.outside) : (spoolClaim t s).outside = s.outside := by
  unfold spoolClaim; split <;> simp [h]

@[simp] theorem outside_refuseSelect (s : State) :
    (refuseSelect s).outside = s.outside := by
  unfold refuseSelect; simp

@[simp] theorem outside_oweEcho (kind : EchoKind) (s : State) :
    (oweEcho kind s).outside = s.outside := by
  unfold oweEcho; simp

@[simp] theorem outside_completeLine (bytes : Text) (line : Text) (s : State) :
    (completeLine bytes line s).outside = s.outside := by
  unfold completeLine; simp

@[simp] theorem outside_freeChar (c : Byte) (s : State) :
    (freeChar c s).outside = s.outside := by
  unfold freeChar; (repeat' split) <;> simp

@[simp] theorem outside_formChar (c : Byte) (s : State) :
    (formChar c s).outside = s.outside := by
  unfold formChar; split <;> simp

theorem outside_openNote {after : State → State} (h : ∀ s, (after s).outside = s.outside) (s : State) :
    (openNote after s).outside = s.outside := by
  unfold openNote
  apply outside_spoolClaim
  split
  · simpa [h] using outside_createEntry ‹_›
  · simp

@[simp] theorem outside_selectForm (c : Byte) (s : State) : (selectForm c s).outside = s.outside := by
  unfold selectForm; dsimp only; split
  · exact outside_spoolClaim (by simp)
  · simp

@[simp] theorem outside_charEffect (c : Byte) (s : State) : (charEffect c s).outside = s.outside := by
  unfold charEffect; (repeat' split) <;> simp [outside_openNote]

@[simp] theorem outside_closeField (n : Nat) (s : State) :
    (closeField n s).outside = s.outside := by
  unfold closeField; simp

@[simp] theorem outside_cancelEffect (s : State) : (cancelEffect s).outside = s.outside :=
  outside_spoolClaim (by simp)

@[simp] theorem outside_beginClosing (s : State) :
    (beginClosing s).outside = s.outside := by
  unfold beginClosing; simp

@[simp] theorem outside_enterFree (s : State) :
    (enterFree s).outside = s.outside := by
  unfold enterFree; (repeat' split) <;> simp

@[simp] theorem outside_enterForm (s : State) :
    (enterForm s).outside = s.outside := by
  unfold enterForm; dsimp only; (repeat' split) <;> simp

@[simp] theorem outside_enterService (s : State) :
    (enterService s).outside = s.outside := by
  unfold enterService; split <;> simp

@[simp] theorem outside_enterEffect (s : State) :
    (enterEffect s).outside = s.outside := by
  unfold enterEffect; split <;> simp

@[simp] theorem outside_tabEffect (s : State) :
    (tabEffect s).outside = s.outside := by
  unfold tabEffect; (repeat' split) <;> simp

@[simp] theorem outside_removeByte (s : State) : (removeByte s).outside = s.outside := by
  unfold removeByte; dsimp only; split
  · exact outside_spoolClaim (by simp)
  · simp

@[simp] theorem outside_rubEffect (s : State) :
    (rubEffect s).outside = s.outside := by
  unfold rubEffect; dsimp only; (repeat' split) <;> simp

@[simp] theorem outside_cancelKey (s : State) :
    (cancelKey s).outside = s.outside := by
  unfold cancelKey; split <;> simp

@[simp] theorem outside_newOrderEffect (s : State) :
    (newOrderEffect s).outside = s.outside := by
  unfold newOrderEffect; split <;> simp

@[simp] theorem outside_noteEffect (s : State) : (noteEffect s).outside = s.outside := by
  unfold noteEffect; (repeat' split) <;> simp [outside_openNote]

@[simp] theorem outside_sendEffect (s : State) : (sendEffect s).outside = s.outside := by
  unfold sendEffect; (repeat' split) <;> first | exact outside_spoolClaim (by simp) | simp

@[simp] theorem outside_discardEffect (s : State) : (discardEffect s).outside = s.outside := by
  unfold discardEffect
  split
  · exact outside_spoolClaim (by split <;> simp)
  · simp
  · simp

@[simp] theorem outside_feedEffect (s : State) :
    (feedEffect s).outside = s.outside := by
  unfold feedEffect; split <;> simp

@[simp] theorem outside_serviceEffect (s : State) :
    (serviceEffect s).outside = s.outside := by
  unfold serviceEffect; split <;> simp

@[simp] theorem outside_entryClosed (s : State) :
    (entryClosed s).outside = s.outside := by
  unfold entryClosed; simp

@[simp] theorem outside_imageRead (form : Nat) (bytes : Text) (s : State) : (imageRead form bytes s).outside = s.outside := by
  unfold imageRead
  split
  · rfl
  · refine (outside_spoolClaim ?_).trans (outside_setKcu ..)
    rw [outside_sendFrame]
    split
    · simp
    · split
      · simp
      · have h := outside_createEntry ‹_›
        simpa using h

/-! ## Bus, head and power events -/

@[simp] theorem outside_spoolWorked (data : Text) (s : State) :
    (spoolWorked data s).outside = s.outside := by
  unfold spoolWorked; (repeat' split) <;> simp

@[simp] theorem outside_regionsDone (s : State) :
    (regionsDone s).outside = s.outside := by
  unfold regionsDone; dsimp only; (repeat' split) <;> simp

@[simp] theorem outside_directiveWorked (c : Ctx) (data : Text) (s : State) :
    (directiveWorked c data s).outside = s.outside := by
  unfold directiveWorked; dsimp only; (repeat' split) <;> simp

@[simp] theorem outside_deliver (p : Purpose) (data : Text) (s : State) :
    (deliver p data s).outside = s.outside := by
  unfold deliver; split <;> simp

@[simp] theorem outside_reportTaken (sensor : Sensor) (s : State) :
    (reportTaken sensor s).outside = s.outside := by
  unfold reportTaken; dsimp only; (repeat' split) <;> simp

@[simp] theorem outside_enterDoze (s : State) :
    (enterDoze s).outside = s.outside := by
  unfold enterDoze; simp

/-! ## Power -/

@[simp] theorem outside_raiseAll (ts : List Text) (s : State) : (raiseAll ts s).outside = s.outside :=
  outside_foldl (fun s t => outside_raise t s) ts s


@[simp] theorem outside_secureStaging (s : State) : (secureStaging s).outside = s.outside := by
  unfold secureStaging; dsimp only; (repeat' split) <;> simp

@[simp] theorem outside_secureJournal (s : State) : (secureJournal s).outside = s.outside := by
  unfold secureJournal; split <;> simp

@[simp] theorem outside_withdrawAll (s : State) : (withdrawAll s).outside = s.outside := rfl

@[simp] theorem outside_abandonDirectives (s : State) : (abandonDirectives s).outside = s.outside := rfl

@[simp] theorem outside_beginShutdown (s : State) : (beginShutdown s).outside = s.outside := by
  unfold beginShutdown; simp

@[simp] theorem outside_bandChanged (b : BatteryBand) (s : State) : (bandChanged b s).outside = s.outside := by
  unfold bandChanged; dsimp only; (repeat' split) <;> simp

@[simp] theorem outside_restoreComposer (s : State) : (restoreComposer s).outside = s.outside := by
  unfold restoreComposer; dsimp only; (repeat' split) <;> simp

@[simp] theorem outside_pmTrack (s : State) : (pmTrack s).outside = s.outside := by
  unfold pmTrack; (repeat' split) <;> simp

end Sys2Proof.Machine
end

