-- ==== Sys2Proof/Laws/Finish.lean ====
section
/-! SUPPORT. The common end of a command: without a restart or shutdown on its way it is `settle` and the doze idle timer, and it
leaves alone what `settle` does not name. -/

namespace Sys2Proof.Machine

theorem pmStage_of_steady {s : State} (h : s.steady) : pmStage s = none := by
  unfold State.steady at h; unfold pmStage; rw [h]

theorem pmAdvance_of_steady {s : State} (h : s.steady) : ∀ fuel, pmAdvance fuel s = s
  | 0 => rfl
  | fuel + 1 => by unfold pmAdvance; rw [pmStage_of_steady h]

theorem steady_settle {s : State} (h : s.steady) : (settle s).steady := h

/-- Without a restart or shutdown on its way, the common end is `settle` and the doze idle timer. -/
theorem finish_of_steady {s : State} (h : s.steady) : finish s = pmTrack (settle s) := by
  unfold finish; rw [pmAdvance_of_steady (steady_settle h)]

/-- The doze idle timer is all that tracking the doze conditions touches. -/
theorem pmTrack_eq (s : State) :
    pmTrack s = s.setPm { s.pm with dozeTimer := (pmTrack s).pm.dozeTimer, dozeHeld := (pmTrack s).pm.dozeHeld } := by
  unfold pmTrack; (repeat' split) <;> rfl

@[simp] theorem outside_finish {s : State} (h : s.steady) : (finish s).outside = s.outside := by
  rw [finish_of_steady h]; simp

/-- The parts of a state that the common end leaves alone. -/
theorem finish_keeps {s : State} (h : s.steady) :
    (finish s).outside = s.outside ∧
    { (finish s).work with heat := s.work.heat, warm := s.work.warm, density := s.work.density } = s.work ∧
    { (finish s).clu with txChar := s.clu.txChar, receiver := s.clu.receiver, carrier := s.clu.carrier } = s.clu ∧
    (s.pm.power ≠ .doze → (finish s).clu.receiver = s.clu.receiver ∧ (finish s).clu.carrier = s.clu.carrier) := by
  rw [finish_of_steady h, pmTrack_eq]
  refine ⟨rfl, rfl, ?_, fun d => ?_⟩ <;> simp only [settle, State.setPm]
  · split <;> rfl
  · rw [if_neg d]; exact ⟨rfl, rfl⟩

end Sys2Proof.Machine
end

