-- ==== Sys2Proof/Laws/Memory.lean ====
section
/-! SUPPORT. The journal memory: reading after a write, and the canonical form every write keeps. -/

namespace Sys2Proof.Machine

@[simp] theorem Memory.read_nil (x : Nat) : Memory.read [] x = Memory.blank := rfl

theorem Memory.above_weaken {lo lo' : Nat} (h : lo' ≤ lo) : ∀ {m : Memory}, Memory.above lo m = true → Memory.above lo' m = true
  | [], _ => rfl
  | (a, b) :: m, hm => by
    simp only [Memory.above, Bool.and_eq_true, decide_eq_true_eq] at hm ⊢
    exact ⟨by omega, Memory.above_weaken h hm.2⟩

/-- An address below every listed one reads as blank. -/
theorem Memory.read_above : ∀ {m : Memory} {lo x : Nat}, Memory.above lo m = true → x ≤ lo → Memory.read m x = Memory.blank
  | [], _, _, _, _ => rfl
  | (a, b) :: m, lo, x, h, hx => by
    simp only [Memory.above, Bool.and_eq_true, decide_eq_true_eq] at h
    rw [Memory.read, if_neg (by omega)]
    exact Memory.read_above h.2 hx

theorem Memory.above_write {v : Byte} : ∀ {m : Memory} {lo x : Nat}, Memory.above lo m = true → lo < x →
    Memory.above lo (Memory.write m x v) = true
  | [], lo, x, _, hx => by
    simp only [Memory.write]; split <;> simp [Memory.above, hx]
  | (a, b) :: m, lo, x, h, hx => by
    simp only [Memory.above, Bool.and_eq_true, decide_eq_true_eq] at h
    simp only [Memory.write]
    split
    · split <;> simp [Memory.above, h.1, h.2, hx]
    · split
      · split <;> simp [Memory.above, h.1, h.2]
      · simp [Memory.above, h.1, Memory.above_write h.2 hx]

/-- A write keeps the canonical form. -/
theorem Memory.wf_write {v : Byte} : ∀ {m : Memory} {x : Nat}, Memory.wf m = true → Memory.wf (Memory.write m x v) = true
  | [], x, _ => by
    simp only [Memory.write]; split <;> simp [Memory.wf, Memory.above, *]
  | (a, b) :: m, x, h => by
    simp only [Memory.wf, Bool.and_eq_true, decide_eq_true_eq] at h
    obtain ⟨⟨hb, ha⟩, hm⟩ := h
    simp only [Memory.write]
    split
    · rename_i hxa
      split
      · simp [Memory.wf, hb, ha, hm]
      · rename_i hv
        simp [Memory.wf, Memory.above, hb, ha, hm, hv, hxa, Memory.above_weaken (Nat.le_of_lt hxa) ha]
    · rename_i hxa
      split
      · rename_i e
        subst e
        split
        · exact hm
        · rename_i hv
          simp [Memory.wf, hv, ha, hm]
      · rename_i hne
        have : a < x := by omega
        simp [Memory.wf, hb, Memory.above_write ha this, Memory.wf_write hm]

/-- Every write of several bytes keeps the canonical form. -/
theorem Memory.wf_writeAll : ∀ {l : List (Nat × Byte)} {m : Memory}, Memory.wf m = true → Memory.wf (Memory.writeAll m l) = true
  | [], _, h => h
  | (a, b) :: _, _, h => by
    simp only [Memory.writeAll]
    exact Memory.wf_writeAll (Memory.wf_write h)

/-- A written byte reads as written. -/
theorem Memory.read_write_same {v : Byte} : ∀ {m : Memory} {x : Nat}, Memory.wf m = true → Memory.read (Memory.write m x v) x = v
  | [], x, _ => by
    simp only [Memory.write]; split <;> simp [Memory.read, *]
  | (a, b) :: m, x, h => by
    simp only [Memory.wf, Bool.and_eq_true, decide_eq_true_eq] at h
    obtain ⟨⟨_, ha⟩, hm⟩ := h
    simp only [Memory.write]
    split
    · rename_i hxa
      split
      · rename_i hv
        rw [Memory.read, if_neg (by omega), Memory.read_above ha (Nat.le_of_lt hxa), hv]
      · simp [Memory.read]
    · split
      · rename_i e
        subst e
        split
        · rename_i hv
          rw [Memory.read_above ha (Nat.le_refl _), hv]
        · simp [Memory.read]
      · rename_i hne
        rw [Memory.read, if_neg hne]
        exact Memory.read_write_same hm

/-- Every other byte reads as before. -/
theorem Memory.read_write_other {v : Byte} {x y : Nat} (hxy : y ≠ x) : ∀ {m : Memory}, Memory.wf m = true →
    Memory.read (Memory.write m x v) y = Memory.read m y
  | [], _ => by
    simp only [Memory.write]; split <;> simp [Memory.read, hxy]
  | (a, b) :: m, h => by
    simp only [Memory.wf, Bool.and_eq_true, decide_eq_true_eq] at h
    obtain ⟨⟨_, ha⟩, hm⟩ := h
    simp only [Memory.write]
    split
    · split
      · rfl
      · simp [Memory.read, hxy]
    · split
      · rename_i e
        subst e
        split
        · simp [Memory.read, hxy]
        · simp [Memory.read, hxy]
      · simp only [Memory.read]
        split
        · rfl
        · exact Memory.read_write_other hxy hm

/-- A byte that no pair of the list names reads as before. -/
theorem Memory.read_writeAll_other {y : Nat} : ∀ {l : List (Nat × Byte)} {m : Memory}, (∀ p ∈ l, p.1 ≠ y) → Memory.wf m = true →
    Memory.read (Memory.writeAll m l) y = Memory.read m y
  | [], _, _, _ => rfl
  | (a, b) :: l, m, hl, h => by
    simp only [Memory.writeAll]
    rw [Memory.read_writeAll_other (fun p hp => hl p (List.mem_cons_of_mem _ hp)) (Memory.wf_write h)]
    exact Memory.read_write_other (fun e => hl (a, b) (List.mem_cons_self ..) e.symm) h

end Sys2Proof.Machine
end

