-- ==== Sys2Proof/Laws/Power.lean ====
section
/-! SUPPORT. What start-up, the release of the latch and the Power Monitor's sequences leave alone: the settings memory, the queue,
and the canonical form of the journal memory. -/

namespace Sys2Proof.Machine

/-- From `s` to `t` the settings memory and the queue stay, and the journal memory keeps its canonical form. -/
def Safe (s t : State) : Prop :=
  t.settings = s.settings ∧ t.pending = s.pending ∧ (Memory.wf s.mem = true → Memory.wf t.mem = true)

theorem Safe.of_outside {s t : State} (h : t.outside = s.outside) : Safe s t := by
  simp only [State.outside, Prod.mk.injEq] at h
  obtain ⟨hm, hs, -, -, -, -, hp⟩ := h
  exact ⟨hs, hp, fun w => hm ▸ w⟩

theorem Safe.refl (s : State) : Safe s s := ⟨rfl, rfl, id⟩

theorem Safe.trans {s t u : State} (h : Safe s t) (h' : Safe t u) : Safe s u :=
  ⟨h'.1.trans h.1, h'.2.1.trans h.2.1, fun w => h'.2.2 (h.2.2 w)⟩

theorem safe_powerLost (landed : BitVec 8) (s : State) : Safe s (powerLost landed s) := by
  refine ⟨rfl, rfl, fun w => ?_⟩
  unfold powerLost
  dsimp only
  split
  · split
    · exact Memory.wf_writeAll w
    · exact w
  · exact w

theorem safe_releaseLatch (s : State) : Safe s (releaseLatch s) := safe_powerLost _ (s.setFresh (s.fresh + 1))

theorem wf_emptyForms {m : Memory} (map : RegionMap) (h : Memory.wf m = true) : Memory.wf (emptyForms m map) = true := by
  unfold emptyForms
  generalize [1, 2, 3, 4].filter _ = l
  induction l generalizing m with
  | nil => exact h
  | cons k l ih => exact ih (Memory.wf_write h)

theorem outside_startState (s : State) :
    (startState s).outside =
      (emptyForms s.mem (settingsInForce s).2.1.map, s.settings, s.settingsTorn, false, s.pins, s.fresh, s.pending) := by
  unfold startState
  simp only [outside_reportBand, outside_readSensors]
  rfl

theorem safe_startState (s : State) : Safe s (startState s) := by
  have h := outside_startState s
  simp only [State.outside, Prod.mk.injEq] at h
  obtain ⟨hm, hs, -, -, -, -, hp⟩ := h
  exact ⟨hs, hp, fun w => hm ▸ wf_emptyForms _ w⟩

theorem safe_startUp (s : State) : Safe s (startUp s) := by
  unfold startUp
  split
  · exact safe_releaseLatch s
  · refine Safe.trans (safe_startState s) (Safe.of_outside ?_)
    dsimp only
    rw [outside_sendFrame]
    (repeat' split) <;> simp [outside_reclaim]

theorem safe_pmStage {s t : State} (h : pmStage s = some t) : Safe s t := by
  unfold pmStage at h
  dsimp only at h
  (repeat' split at h) <;> first
    | contradiction
    | (simp only [Option.some.injEq] at h; subst h; first
        | exact (safe_startUp s).trans (Safe.of_outside (outside_settle _))
        | exact Safe.of_outside (by simp)
        | exact (Safe.of_outside (by simp)).trans (safe_releaseLatch _))

theorem safe_pmAdvance : ∀ (fuel : Nat) (s : State), Safe s (pmAdvance fuel s)
  | 0, s => Safe.refl s
  | fuel + 1, s => by
    unfold pmAdvance
    split
    · exact (safe_pmStage ‹_›).trans (safe_pmAdvance fuel _)
    · exact Safe.refl s

/-- The common end of a command, whatever is on its way. -/
theorem safe_finish (s : State) : Safe s (finish s) :=
  (Safe.of_outside (outside_settle s)).trans ((safe_pmAdvance 8 _).trans (Safe.of_outside (outside_pmTrack _)))

end Sys2Proof.Machine
end

