-- ==== Sys2Proof/Laws/Commands.lean ====
section
/-! SUPPORT. How the shapes of a command's meaning (`guarded`, `takeKey`, `directiveCommand`, a change of the lines, a burst's
completion) keep the settings memory, the queue and the memory's canonical form. -/

namespace Sys2Proof.Machine

theorem guarded_of {c : Bool} (h : c = true) (e s : State) : guarded c e s = .next (finish e) := by
  unfold guarded; rw [if_pos h]; rfl

theorem guarded_not {c : Bool} (h : c = false) (e s : State) : guarded c e s = .next s := by
  unfold guarded; rw [if_neg (by simp [h])]; rfl

/-- The way to say what a guarded command answers: its condition holds, and its effect is `e`. -/
theorem guarded_eq {c : Bool} {e e' s : State} (h : c = true) (he : e' = e) : guarded c e' s = .next (finish e) := by
  rw [guarded_of h, he]

/-- The same for an event taken from the typeahead queue. -/
theorem takeKey_eq {k : KeyEvent} {rest : List KeyEvent} {f : State → State} {e s : State} (h : s.kcu.typeahead = k :: rest)
    (c : canTake k s = true) (he : sendFrame (f (s.setKcu { s.kcu with typeahead := rest })) = e) :
    takeKey k f s = .next (finish e) := by
  unfold takeKey
  rw [h]
  exact guarded_eq (by simp [c]) he

/-- A guarded command answers the state it had, or its effect and the common end. -/
theorem guarded_cases (c : Bool) (e s : State) : guarded c e s = .next s ∨ guarded c e s = .next (finish e) := by
  cases c
  · exact .inl (guarded_not rfl e s)
  · exact .inr (guarded_of rfl e s)

theorem safe_guarded {c : Bool} {e s t : State} (h : Safe s e) (g : guarded c e s = .next t) : Safe s t := by
  rcases guarded_cases c e s with e1 | e1 <;> (rw [e1] at g; injection g with g; subst g)
  · exact Safe.refl s
  · exact h.trans (safe_finish e)

theorem safe_guarded_of {c : Bool} {e s t : State} (h : e.outside = s.outside) (g : guarded c e s = .next t) : Safe s t :=
  safe_guarded (Safe.of_outside h) g

theorem safe_ignored {s t : State} (g : ignored s = .next t) : Safe s t := by
  unfold ignored at g; injection g with g; subst g; exact Safe.refl s

theorem safe_takeKey {k : KeyEvent} {f : State → State} (h : ∀ s, (f s).outside = s.outside) {s t : State}
    (g : takeKey k f s = .next t) : Safe s t := by
  unfold takeKey at g
  split at g
  · exact safe_guarded_of (by simp [h]) g
  · exact safe_ignored g

theorem safe_directiveCommand {d : Dir} {rule : DirRule} (h : Tame rule) {c : Ctx} {tag : Nat} {args : List Text} {s t : State}
    (g : directiveCommand d rule c tag args s = .next t) : Safe s t :=
  safe_guarded_of (outside_beginCommand h ..) g

theorem safe_setPins (s : State) (v : Pins) : Safe s (s.setPins v) := ⟨rfl, rfl, id⟩

theorem safe_batterySampled (n : Nat) (s : State) : Safe s (batterySampled n s) := by
  have h : (batterySampled n s).outside = (s.setPins { s.pins with battery := n }).outside := by
    unfold batterySampled; dsimp only; (repeat' split) <;> simp
  exact (safe_setPins ..).trans (Safe.of_outside h)

theorem safe_burstComplete (c : CurrentBurst) (s : State) : Safe s (burstComplete c s) := by
  have h : (burstComplete c s).outside = (if c.burst.write
      then s.setMem (s.mem.writeAll ((placeAddrs s.work.map c.burst.place c.burst.count).zip c.burst.data)) else s).outside := by
    unfold burstComplete; dsimp only; (repeat' split) <;> simp
  refine Safe.trans ?_ (Safe.of_outside h)
  split
  · exact ⟨rfl, rfl, fun w => Memory.wf_writeAll w⟩
  · exact Safe.refl s

end Sys2Proof.Machine
end

