-- ==== Sys2Proof/Laws/Composer.lean ====
section
/-! SUPPORT. What each event does in each composer state, on a state from which the event has already been taken. A proof takes
the event with `takeKey_eq`, closes `KcuBecame` with `kcuBecame_sendFrame`, and then rewrites with the lemma of the event. -/

namespace Sys2Proof.Machine

/-! ## Refusals -/

/-- Where FORM SELECT refuses an event, the composer is IDLE (R85). -/
theorem refuseSelect_awake {s : State} (h : s.pm.power.awake = true) :
    refuseSelect s = { s with kcu := s.kcu.toIdle.refused } :=
  refuse_awake (s := s.setKcu s.kcu.toIdle) h

/-- A frame leaves the flush and its timer alone. -/
theorem flush_sendFrame (s : State) :
    (sendFrame s).kcu.flush = s.kcu.flush ∧ (sendFrame s).kcu.flushTimer = s.kcu.flushTimer := by
  rw [sendFrame_eq]; exact ⟨rfl, rfl⟩

/-- Without the journal being secured, a claim on the Spool Unit is taken. -/
theorem spoolClaim_taken {t s : State} (h : s.spu.securing = false) : spoolClaim t s = t := by
  unfold spoolClaim; rw [if_neg (by simp [h])]

/-! ## The field in hand -/

theorem Kcu.field_of {k : Kcu} {n : Nat} {f : FormField} (c : k.cursor = .field n) (h : k.image.field n = some f) :
    k.field = some (n, f) := by
  unfold Kcu.field; rw [c]; simp [h]

theorem Kcu.field_finish {k : Kcu} (c : k.cursor = .finish) : k.field = none := by unfold Kcu.field; rw [c]

/-- A required field without a value keeps the cursor; any other may be closed. -/
theorem Kcu.wants_iff {k : Kcu} {n : Nat} {f : FormField} (h : k.field = some (n, f)) :
    k.wants = true ↔ f.required = true ∧ k.value = [] := by
  unfold Kcu.wants; rw [h]; simp

theorem Kcu.wants_finish {k : Kcu} (c : k.field = none) : k.wants = false := by unfold Kcu.wants; rw [c]

/-- What a field takes (R87, R92, Table 5.5). -/
theorem Kcu.formTakes_iff {k : Kcu} {n : Nat} {f : FormField} (h : k.field = some (n, f)) (c : Byte) :
    k.formTakes c = true ↔ k.value.length < f.width ∧ f.kind.allows k.value c = true ∧ k.count + 1 ≤ 4093 := by
  unfold Kcu.formTakes; rw [h]; simp [and_assoc]

/-- Bytes stored in staging, and what becomes of the flush wait timer (R94). -/
theorem store_eq (bytes : Text) (s : State) : store bytes s = { s with kcu := { s.kcu with
    staging := s.kcu.staging ++ bytes, count := s.kcu.count + bytes.length, flushTimer := s.flushTimerAfter bytes.length } } := by
  unfold store State.flushTimerAfter; simp only [State.setKcu, List.length_append]

/-- Closing a field (R88). -/
theorem closeField_eq (n : Nat) (s : State) :
    closeField n s = { s with kcu := { s.kcu.fieldClosed s.spu.openNumber n with flushTimer := s.flushTimerAfter 2 } } := by
  unfold closeField oweEcho Kcu.fieldClosed Kcu.nextCursor
  simp only [store_eq, State.setKcu]
  rfl

/-! ## TAB (R88) -/

theorem tab_closes {s : State} {n : Nat} {f : FormField} (st : s.kcu.state = .form) (h : s.kcu.field = some (n, f))
    (ok : ¬ (f.required = true ∧ s.kcu.value = [])) (le : s.kcu.count + 2 ≤ 4093) : tabEffect s = closeField n s := by
  have w : s.kcu.wants = false := by
    cases e : s.kcu.wants
    · rfl
    · exact absurd ((Kcu.wants_iff h).mp e) ok
  have t : s.kcu.tabCloses = true := by unfold Kcu.tabCloses; rw [h, w]; simp; omega
  unfold tabEffect
  simp only [st, h, t, if_true]

theorem tab_refused {s : State} (a : s.pm.power.awake = true)
    (h : s.kcu.state = .idle ∨ s.kcu.state = .free ∨ s.kcu.state = .service ∨ s.kcu.state = .form ∧ s.kcu.tabCloses = false) :
    tabEffect s = { s with kcu := s.kcu.refused } := by
  rw [← refuse_awake a]
  unfold tabEffect
  rcases h with h | h | h | ⟨h, t⟩ <;> simp only [h]
  split
  · rw [t]; rfl
  · rfl

/-! ## Events in FREE and in FORM -/

/-- A character that is stored in FREE (R86). -/
theorem freeChar_stored {s : State} (c : Byte) (l : s.kcu.line.length < 39) (n : s.kcu.count + 1 ≤ 4093) :
    freeChar c s = { s with kcu := { s.kcu with
      staging := s.kcu.staging ++ [c], count := s.kcu.count + 1, line := s.kcu.line ++ [c],
      flushTimer := s.flushTimerAfter 1 } } := by
  have h1 : s.kcu.completes = false := by simp [Kcu.completes]; omega
  have h2 : s.kcu.freeTakes = true := by simp [Kcu.freeTakes, Kcu.freeBytes, h1]; omega
  unfold freeChar
  simp only [h1, h2, store_eq, State.setKcu]
  rfl

/-- The fortieth character completes the line (R86). -/
theorem freeChar_completes {s : State} (c : Byte) (l : 39 ≤ s.kcu.line.length) (n : s.kcu.count + 2 ≤ 4093) :
    freeChar c s = { s with kcu := { s.kcu with
      staging := s.kcu.staging ++ [c, 0x0A], count := s.kcu.count + 2, line := [],
      flushTimer := s.flushTimerAfter 2, flushOwed := true,
      echo := some ⟨.line (s.kcu.count - s.kcu.line.length) (s.kcu.line.length + 1), s.spu.openNumber, .owed⟩ } } := by
  have h1 : s.kcu.completes = true := by simp [Kcu.completes]; omega
  have h2 : s.kcu.freeTakes = true := by simp [Kcu.freeTakes, Kcu.freeBytes, h1]; omega
  unfold freeChar
  simp only [h1, h2, completeLine, oweEcho, store_eq, State.setKcu, List.length_append, List.length_cons, List.length_nil]
  simp

/-- The entry reserve refuses a character (R92). -/
theorem freeChar_refused {s : State} (a : s.pm.power.awake = true) (c : Byte)
    (n : 4093 < s.kcu.count + (if 39 ≤ s.kcu.line.length then 2 else 1)) : freeChar c s = { s with kcu := s.kcu.refused } := by
  rw [← refuse_awake a]
  unfold freeChar
  rw [if_pos]
  simp only [Kcu.freeTakes, Kcu.freeBytes, Kcu.completes, decide_eq_true_eq, Bool.not_eq_true', decide_eq_false_iff_not]
  omega

theorem formChar_stored {s : State} {c : Byte} (h : s.kcu.formTakes c = true) :
    formChar c s = { s with kcu := { s.kcu with
      staging := s.kcu.staging ++ [c], count := s.kcu.count + 1, value := s.kcu.value ++ [c],
      flushTimer := s.flushTimerAfter 1 } } := by
  unfold formChar
  rw [if_pos h]
  dsimp only; rw [store_eq]; rfl

theorem formChar_refused {s : State} (a : s.pm.power.awake = true) {c : Byte} (h : s.kcu.formTakes c = false) :
    formChar c s = { s with kcu := s.kcu.refused } := by
  rw [← refuse_awake a]; unfold formChar; rw [if_neg (by simp [h])]

/-- A LINE END that completes a line (R86). -/
theorem completeLine_eq (s : State) : completeLine [0x0A] s.kcu.line s = { s with kcu := { s.kcu with
    staging := s.kcu.staging ++ [0x0A], count := s.kcu.count + 1, line := [],
    flushTimer := s.flushTimerAfter 1, flushOwed := true,
    echo := some ⟨.line (s.kcu.count - s.kcu.line.length) s.kcu.line.length, s.spu.openNumber, .owed⟩ } } := by
  unfold completeLine oweEcho
  simp only [store_eq, State.setKcu, List.length_cons, List.length_nil]
  simp

/-- CANCEL with an OPEN entry (R91, R109). -/
theorem cancelEffect_open {s : State} {m : Nat} (h : s.spu.securing = false) (o : s.spu.openSlot = some m) :
    cancelEffect s = { s with
      kcu := { s.kcu.toIdle with echo := s.kcu.echo.filter fun q => q.stage == .claimed }, spu := s.spu.voided m } := by
  unfold cancelEffect; dsimp only; rw [spoolClaim_taken (by exact h)]
  unfold cancelEntry
  rw [show (s.setKcu s.kcu.cancelled).spu.openSlot = some m from o]; rfl

/-- A byte removed from staging (R90). -/
theorem removeByte_staged {s : State} (h : s.kcu.staging ≠ []) : removeByte s = { s with kcu := { s.kcu with
    staging := s.kcu.staging.dropLast, count := s.kcu.count - 1, flush := (removeByte s).kcu.flush,
    flushTimer := (removeByte s).kcu.flushTimer } } := by
  unfold removeByte; dsimp only; rw [if_neg h]; rfl

/-- A byte taken back from the ring (R90, R106). -/
theorem removeByte_retracts {s : State} {m : Nat} (h : s.kcu.staging = []) (sec : s.spu.securing = false)
    (o : s.spu.openSlot = some m) : removeByte s = { s with
      kcu := { s.kcu with count := s.kcu.count - 1 }
      spu := (({ s.spu with ring := s.spu.ring.retract s.spoolSize 1 } : Spu).setEntry m
        { s.spu.entry m with length := (s.spu.entry m).length - 1, recLength := (s.spu.entry m).length - 1 }).dueItem (.record m) } := by
  unfold removeByte; dsimp only; rw [if_pos h, spoolClaim_taken sec]
  unfold retractByte
  rw [o]
  simp only [changeEntry, spuDue, updateEntry, State.setSpu, State.setKcu]
  rfl

end Sys2Proof.Machine
end

