-- ==== Sys2Proof/Laws/Directives.lean ====
section
/-! SUPPORT. How a directive command begins, and what its answer leaves: a proof about a directive rewrites with
`directive_begins` and `finishDirective_occupy`, and then has only the directive's own rule before it. -/

namespace Sys2Proof.Machine

/-! ## Arguments -/

theorem isSome_hexValue {b : Byte} (h : isDigit b = true) : (hexValue b).isSome = true := by
  unfold hexValue; rw [if_pos h]; rfl

/-- A decimal argument has the form the first check asks for. -/
theorem argOk_of_decimal {a : Text} {n : Nat} (h : decimal a = some n) : argOk a = true ∧ a.length ≤ 5 := by
  unfold decimal at h
  split at h
  · rename_i c
    refine ⟨?_, c.2.1⟩
    unfold argOk
    rw [Bool.and_eq_true]
    refine ⟨?_, ?_⟩
    · cases a with
      | nil => simp at c
      | cons => rfl
    · rw [List.all_eq_true]
      intro b hb
      exact isSome_hexValue (List.all_eq_true.mp c.2.2 b hb)
  · contradiction

/-- A hex string has it too. -/
theorem argOk_of_hexBytes {a : Text} : ∀ {t : Text}, hexBytes a = some t → argOk a = true := by
  induction a using hexBytes.induct <;> intro t h
  · simp [hexBytes] at h
  · simp [hexBytes] at h
  · rename_i x y
    cases hx : hexValue x <;> cases hy : hexValue y <;> simp [hexBytes, hx, hy] at h
    simp [argOk, hx, hy]
  · rename_i x y rest _ ih
    rw [hexBytes] at h
    · cases hx : hexValue x <;> cases hy : hexValue y <;> cases hr : hexBytes rest <;> simp [hx, hy, hr] at h
      have := ih hr
      simp [argOk] at this ⊢
      exact ⟨by simp [hx], by simp [hy], this.2⟩
    · assumption

/-- A hex string's bytes are not none. -/
theorem hexBytes_ne_nil {a : Text} : ∀ {t : Text}, hexBytes a = some t → t ≠ [] := by
  induction a using hexBytes.induct <;> intro t h
  · simp [hexBytes] at h
  · simp [hexBytes] at h
  · rename_i x y
    cases hx : hexValue x <;> cases hy : hexValue y <;> simp [hexBytes, hx, hy] at h
    subst h; simp
  · rename_i x y rest _ ih
    rw [hexBytes] at h
    · cases hx : hexValue x <;> cases hy : hexValue y <;> cases hr : hexBytes rest <;> simp [hx, hy, hr] at h
      subst h; simp
    · assumption

theorem argsOk_iff (d : Dir) (args : List Text) : argsOk d args = true ↔
    (∀ a ∈ args, argOk a = true) ∧ ∀ p ∈ args.zipIdx, d.hexAt = some p.2 ∨ p.1.length ≤ 5 := by
  unfold argsOk
  simp only [Bool.and_eq_true, List.all_eq_true, Bool.or_eq_true, beq_iff_eq, decide_eq_true_iff]

theorem decimals_eq {as : List Text} : ∀ {l : List Nat}, decimals as = some l → as.map decimal = l.map some := by
  induction as with
  | nil => intro l h; simp [decimals] at h; subst h; rfl
  | cons a as ih =>
    intro l h
    cases hx : decimal a <;> cases hr : decimals as <;> simp [decimals, hx, hr] at h
    subst h
    simp [hx, ih hr]

/-- Decimal arguments have the form any directive's arguments must have. -/
theorem argsOk_of_decimals (d : Dir) {as : List Text} {l : List Nat} (h : decimals as = some l) : argsOk d as = true := by
  have key : ∀ a ∈ as, ∃ n, decimal a = some n := by
    intro a ha
    have e := decimals_eq h
    have : decimal a ∈ as.map decimal := List.mem_map_of_mem ha
    rw [e] at this
    obtain ⟨n, -, hn⟩ := List.mem_map.mp this
    exact ⟨n, hn.symm⟩
  rw [argsOk_iff]
  refine ⟨fun a ha => ?_, fun p hp => .inr ?_⟩
  · obtain ⟨n, hn⟩ := key a ha
    exact (argOk_of_decimal hn).1
  · obtain ⟨n, hn⟩ := key p.1 (List.fst_mem_of_mem_zipIdx hp)
    exact (argOk_of_decimal hn).2

/-! ## The counters -/

/-- What clearing the counters sets. Its proof rewrites the updates: left to `rfl`, they take too long to compare. -/
theorem clearCounters_eq (s : State) : clearCounters s = { s with
    pe := { s.pe with good := 0, bad := 0, duplicates := 0, refused := 0, resends := 0, stray := 0 }
    spu := { s.spu with stray := 0 }
    clu := { s.clu with framingErrors := 0, fades := 0 }
    kcu := { s.kcu with refusals := 0, overflows := 0 }
    ksu := { s.ksu with padFaults := 0 }
    pqu := { s.pqu with dropped := 0 } } := by
  simp only [clearCounters, State.setPe, State.setSpu, State.setClu, State.setKcu, State.setKsu, State.setPqu]

/-- Clearing the counters and beginning a directive do not touch each other. -/
theorem clearCounters_occupy (c : Ctx) (tag : Nat) (head : Text) (s : State) :
    clearCounters (occupy c tag head s) = occupy c tag head (clearCounters s) := by cases c <;> rfl

/-! ## Beginning leaves the other blocks alone, and commutes with their updates -/

@[simp] theorem work_occupy (c : Ctx) (tag : Nat) (head : Text) (s : State) : (occupy c tag head s).work = s.work := by cases c <;> rfl

theorem setWork_occupy (c : Ctx) (tag : Nat) (head : Text) (s : State) (v : Settings) :
    (occupy c tag head s).setWork v = occupy c tag head (s.setWork v) := by cases c <;> rfl

@[simp] theorem clu_occupy (c : Ctx) (tag : Nat) (head : Text) (s : State) : (occupy c tag head s).clu = s.clu := by cases c <;> rfl

theorem setClu_occupy (c : Ctx) (tag : Nat) (head : Text) (s : State) (v : Clu) :
    (occupy c tag head s).setClu v = occupy c tag head (s.setClu v) := by cases c <;> rfl

@[simp] theorem pe_occupy (c : Ctx) (tag : Nat) (head : Text) (s : State) : (occupy c tag head s).pe = s.pe := by cases c <;> rfl

theorem setPe_occupy (c : Ctx) (tag : Nat) (head : Text) (s : State) (v : Pe) :
    (occupy c tag head s).setPe v = occupy c tag head (s.setPe v) := by cases c <;> rfl

@[simp] theorem ksu_occupy (c : Ctx) (tag : Nat) (head : Text) (s : State) : (occupy c tag head s).ksu = s.ksu := by cases c <;> rfl

theorem setKsu_occupy (c : Ctx) (tag : Nat) (head : Text) (s : State) (v : Ksu) :
    (occupy c tag head s).setKsu v = occupy c tag head (s.setKsu v) := by cases c <;> rfl

@[simp] theorem kcu_occupy (c : Ctx) (tag : Nat) (head : Text) (s : State) : (occupy c tag head s).kcu = s.kcu := by cases c <;> rfl

theorem setKcu_occupy (c : Ctx) (tag : Nat) (head : Text) (s : State) (v : Kcu) :
    (occupy c tag head s).setKcu v = occupy c tag head (s.setKcu v) := by cases c <;> rfl

@[simp] theorem spu_occupy (c : Ctx) (tag : Nat) (head : Text) (s : State) : (occupy c tag head s).spu = s.spu := by cases c <;> rfl

theorem setSpu_occupy (c : Ctx) (tag : Nat) (head : Text) (s : State) (v : Spu) :
    (occupy c tag head s).setSpu v = occupy c tag head (s.setSpu v) := by cases c <;> rfl

@[simp] theorem pqu_occupy (c : Ctx) (tag : Nat) (head : Text) (s : State) : (occupy c tag head s).pqu = s.pqu := by cases c <;> rfl

theorem setPqu_occupy (c : Ctx) (tag : Nat) (head : Text) (s : State) (v : Pqu) :
    (occupy c tag head s).setPqu v = occupy c tag head (s.setPqu v) := by cases c <;> rfl

@[simp] theorem hdu_occupy (c : Ctx) (tag : Nat) (head : Text) (s : State) : (occupy c tag head s).hdu = s.hdu := by cases c <;> rfl

theorem setHdu_occupy (c : Ctx) (tag : Nat) (head : Text) (s : State) (v : Hdu) :
    (occupy c tag head s).setHdu v = occupy c tag head (s.setHdu v) := by cases c <;> rfl

@[simp] theorem pm_occupy (c : Ctx) (tag : Nat) (head : Text) (s : State) : (occupy c tag head s).pm = s.pm := by cases c <;> rfl

theorem setPm_occupy (c : Ctx) (tag : Nat) (head : Text) (s : State) (v : Pm) :
    (occupy c tag head s).setPm v = occupy c tag head (s.setPm v) := by cases c <;> rfl

/-- What the other context executes is not touched. -/
@[simp] theorem job_occupy (c : Ctx) (tag : Nat) (head : Text) (s : State) :
    (occupy c tag head s).du.job (otherCtx c) = s.du.job (otherCtx c) := by cases c <;> rfl

theorem flowTest_occupy (c : Ctx) (tag : Nat) (head : Text) (s : State) :
    flowTest (occupy c tag head s) = occupy c tag head (flowTest s) := by
  unfold flowTest
  simp only [clu_occupy, pe_occupy, pqu_occupy, work_occupy, setPe_occupy]
  repeat' split
  all_goals rfl

@[simp] theorem pins_occupy (c : Ctx) (tag : Nat) (head : Text) (s : State) : (occupy c tag head s).pins = s.pins := by cases c <;> rfl

theorem lineTo_occupy (k : Clu) (c : Ctx) (tag : Nat) (head : Text) (s : State) :
    lineTo k (occupy c tag head s) = occupy c tag head (lineTo k s) := by
  unfold lineTo
  simp only [clu_occupy, setClu_occupy]
  split <;> cases c <;> rfl

/-- The detector agrees with a turn of the indication, whatever the free value is (R21). -/
theorem carrierHeard_turnedEnergy (present : Bool) (s : State) :
    carrierHeard s.work.carrier (turnedEnergy present s) = present := by
  unfold carrierHeard turnedEnergy
  cases present
  · exact decide_eq_false (by simp only [Bool.false_eq_true, if_false]; omega)
  · exact decide_eq_true (by simp only [if_true]; omega)

theorem judgeCarrier_occupy (c : Ctx) (tag : Nat) (head : Text) (s : State) :
    judgeCarrier (occupy c tag head s) = occupy c tag head (judgeCarrier s) := by
  unfold judgeCarrier carrierPresent carrierAbsent
  simp only [clu_occupy, work_occupy, pins_occupy, setClu_occupy, lineTo_occupy]
  repeat' split
  all_goals rfl

theorem svFollow_occupy (c : Ctx) (tag : Nat) (head : Text) (n old v : Nat) (s : State) :
    svFollow n old v (occupy c tag head s) = occupy c tag head (svFollow n old v s) := by
  unfold svFollow
  simp only [pqu_occupy, setPqu_occupy, setPm_occupy, pm_occupy, flowTest_occupy, judgeCarrier_occupy]
  repeat' split
  all_goals rfl

theorem formInUse_occupy (c : Ctx) (tag : Nat) (head : Text) (k : Nat) (s : State) :
    formInUse k (occupy c tag head s) = formInUse k s := by simp [formInUse]

theorem formBusy_occupy (c : Ctx) (tag : Nat) (head : Text) (k : Nat) (s : State) :
    formBusy c k (occupy c tag head s) = formBusy c k s := by simp [formBusy]

theorem patchRefused_occupy (c : Ctx) (tag : Nat) (head : Text) (a n : Nat) (s : State) :
    patchRefused a n (occupy c tag head s) = patchRefused a n s := by simp [patchRefused, formInUse_occupy]

/-! ## Beginning and answering -/

theorem ctxFree_of_admits {d : Dir} {c : Ctx} {s : State} (h : admits d c s = true) : ctxFree c s = true := by
  simp only [admits, Bool.and_eq_true] at h; exact h.1.1

/-- The LINE context begins a directive only where the report queue has room. -/
theorem room_of_ctxFree {s : State} (h : ctxFree .line s = true) : s.pe.reports.length < 4 := by
  simp [ctxFree] at h; exact h.2.2

/-- A directive's answer, from the state in which its context executes. -/
theorem finishDirective_occupy {d : Dir} {c : Ctx} {tag : Nat} {o : Outcome} {data : Text} {lines : List AnswerLine} {s : State}
    (h : c = .line → s.pe.reports.length < 4) :
    finishDirective c o data lines (occupy c tag (d.letters ++ twoDigits tag) s) = answered d c tag o data lines s := by
  cases c
  · have := h rfl
    simp [finishDirective, finishLine, occupy, handReport, answered, State.setDu, State.setPe, this]
  · rfl

/-- A directive that completes later leaves the state `ended` names. -/
theorem finishDirective_eq (c : Ctx) (o : Outcome) (data : Text) (lines : List AnswerLine) (s : State) :
    finishDirective c o data lines s = ended c o data lines s := by
  cases c
  · by_cases h : s.du.line.orphan = true
    · simp [finishDirective, finishLine, ended, State.setDu, h]
    · by_cases r : s.pe.reports.length < 4
      · simp [finishDirective, finishLine, ended, handReport, State.setDu, State.setPe, h, r, Nat.not_le.mpr r]
      · simp [finishDirective, finishLine, ended, handReport, State.setDu, h, r, Nat.not_lt.mp r]
  · rfl

/-- A job whose next burst is due leaves the state `goingOn` names. -/
theorem directiveDue_eq (c : Ctx) (j : Job) (s : State) : directiveDue c (setJob c j s) = goingOn c j s := by cases c <;> rfl

theorem answer_occupy {d : Dir} {c : Ctx} {tag : Nat} {o : Outcome} {s : State} (h : c = .line → s.pe.reports.length < 4) :
    answer o c (occupy c tag (d.letters ++ twoDigits tag) s) = answered d c tag o [] [] s := finishDirective_occupy h

/-- A directive that goes on as a job. -/
theorem setJob_occupy (d : Dir) (c : Ctx) (tag : Nat) (j : Job) (s : State) :
    setJob c j (occupy c tag (d.letters ++ twoDigits tag) s) = executing d c tag j s := by
  cases c <;> rfl

/-- A directive that goes on as a job whose first burst is due. -/
theorem directiveDue_occupy (d : Dir) (c : Ctx) (tag : Nat) (j : Job) (s : State) :
    directiveDue c (setJob c j (occupy c tag (d.letters ++ twoDigits tag) s)) = started d c tag j s := by
  cases c <;> rfl

/-- A directive command whose context is free, whose arguments have the right form, and that no later check refuses, is its own
rule on the state in which its context executes. -/
theorem directive_begins {d : Dir} {rule : DirRule} {c : Ctx} {tag : Nat} {args : List Text} {s : State}
    (h : admits d c s = true) (ok : argsOk d (asRead args) = true) :
    directiveCommand d rule c tag args s =
      .next (finish (rule c (asRead args) (occupy c tag (d.letters ++ twoDigits tag) s))) := by
  have hf := ctxFree_of_admits h
  unfold directiveCommand beginCommand
  rw [guarded_of hf]
  have : argsOk d (args.map fun t => t.map upper) = true := ok
  simp only [this, if_true]
  simp only [admits, Bool.and_eq_true] at h
  unfold begin'
  have hs : (occupy c tag (d.letters ++ twoDigits tag) s).du.srIn (otherCtx c) = s.du.srIn (otherCtx c) := by cases c <;> rfl
  have hw : (occupy c tag (d.letters ++ twoDigits tag) s).work = s.work := by cases c <;> rfl
  rw [if_neg, if_neg]
  · rfl
  · rw [hs]; simpa using h.2
  · rw [hw]; rintro ⟨rfl, e⟩; simp at h e; rw [e] at h; simp at h

/-! ## Lists of entries -/

/-- Members put into a list from a position on. -/
theorem putFrom_spec {α : Type} : ∀ (es l : List α) (i : Nat), (putFrom l i es).length = l.length ∧
      ∀ j, (j < l.length → (putFrom l i es)[j]? = if i ≤ j ∧ j < i + es.length then es[j - i]? else l[j]?)
  | [], l, i => ⟨rfl, fun j _ => by rw [if_neg (fun z => by have := z.1; have := z.2; simp at this; omega)]; rfl⟩
  | e :: es, l, i => by
    obtain ⟨a, b⟩ := putFrom_spec es (l.set i e) (i + 1)
    refine ⟨a.trans List.length_set, fun j h => ?_⟩
    refine (b j (by simpa using h)).trans ?_
    by_cases c : j = i
    · subst c
      rw [if_neg (by omega), if_pos (by simp)]
      simp [h]
    · by_cases d : i + 1 ≤ j ∧ j < i + 1 + es.length
      · rw [if_pos d, if_pos (by simp; omega)]
        have : j - i = (j - (i + 1)) + 1 := by omega
        rw [this]; rfl
      · rw [if_neg d, if_neg (by simp; omega), List.getElem?_set_ne (Ne.symm c)]

/-- A text read two bytes at a time: every pair must be good. -/
theorem pairs_spec {α : Type} (f : Byte → Byte → Option α) : ∀ (t : Text) (es : List α), t.length % 2 = 0 →
    (pairs f t = some es ↔ es.length = t.length / 2 ∧ ∀ i < t.length / 2, es[i]? = f (t.getD (2 * i) 0) (t.getD (2 * i + 1) 0))
  | [], es, _ => by simp [pairs]
  | [a], _, h => by simp at h
  | a :: b :: t, es, h => by
    have h' : t.length % 2 = 0 := by simp at h; omega
    have len : (a :: b :: t).length / 2 = t.length / 2 + 1 := by rw [List.length_cons, List.length_cons]; omega
    have u : pairs f (a :: b :: t) = (f a b).bind fun x => (pairs f t).bind fun xs => some (x :: xs) := rfl
    rw [u, len]
    constructor
    · intro k
      obtain ⟨x, hx, k⟩ := Option.bind_eq_some_iff.mp k
      obtain ⟨xs, hxs, k⟩ := Option.bind_eq_some_iff.mp k
      cases k
      obtain ⟨l, g⟩ := (pairs_spec f t xs h').mp hxs
      refine ⟨by simp [l], fun i hi => ?_⟩
      cases i with
      | zero => simp [hx]
      | succ i =>
        have := g i (by omega)
        rw [show 2 * (i + 1) = 2 * i + 1 + 1 by omega]
        simpa using this
    · rintro ⟨l, g⟩
      cases es with
      | nil => simp at l
      | cons x xs =>
        have g0 := g 0 (by omega)
        have hxs := (pairs_spec f t xs h').mpr ⟨by simpa using l, fun i hi => by
          have := g (i + 1) (by omega)
          rw [show 2 * (i + 1) = 2 * i + 1 + 1 by omega] at this
          simpa using this⟩
        have hx : f a b = some x := by simpa using g0.symm
        rw [hx, hxs]; rfl

end Sys2Proof.Machine
end

