-- ==== Sys2Proof/Laws/Keys.lean ====
section
/-! SUPPORT. What a scan does, each part said once: the pads of an event in ascending number, the faults counted and noticed, the
readings a measurement adds, and the whole effect outside calibration. -/

namespace Sys2Proof.Machine

/-- The positions of a list whose element satisfies `f`, counted from 1, as the numbers of a range that do. -/
theorem positions_eq {α : Type} (f : α → Bool) : ∀ (l : List α) (n m : Nat), l.length ≤ m →
    ((l.zipIdx n).filter fun p => f p.1).map (fun p => p.2 + 1) =
    (List.range' (n + 1) m).filter fun j => (l[j - 1 - n]?).any f
  | [], n, m, _ => by simp
  | x :: l, n, 0, h => by simp at h
  | x :: l, n, m + 1, h => by
    rw [List.zipIdx_cons, List.range'_succ]
    have ih := positions_eq f l (n + 1) m (by simpa using h)
    have tail : (List.range' (n + 1 + 1) m).filter (fun j => ((x :: l)[j - 1 - n]?).any f) =
        (List.range' (n + 1 + 1) m).filter (fun j => (l[j - 1 - (n + 1)]?).any f) := by
      apply List.filter_congr
      intro j hj
      have : n + 2 ≤ j := by simp at hj; omega
      rw [show j - 1 - n = (j - 1 - (n + 1)) + 1 by omega, List.getElem?_cons_succ]
    have h0 : ((x :: l)[n + 1 - 1 - n]?).any f = f x := by simp
    rw [List.filter_cons, List.filter_cons, h0]
    cases f x <;> simp [ih, tail]

/-- The pads of a scan whose event satisfies `f`, in ascending number. -/
theorem padsWith_eq (f : PadEvent → Bool) {l : List (Pad × PadEvent)} (h : l.length ≤ 48) :
    padsWith f l = (List.range' 1 48).filter fun n => (l[n - 1]?).any fun p => f p.2 := by
  unfold padsWith
  rw [positions_eq (fun p : Pad × PadEvent => f p.2) l 0 48 h]; simp

/-- The pads entering FAULT are counted and noticed, and nothing else changes (R69). -/
theorem padFaults_eq (l : List Nat) : ∀ s : State, l.foldl (fun s p => padFault p s) s = { s with
    ksu := { s.ksu with padFaults := l.foldl (fun c _ => bump c) s.ksu.padFaults }
    pqu := l.foldl (fun p n => p.raise (spaced [ascii "PAD", twoDigits n, ascii "FAULT"])) s.pqu } := by
  induction l with
  | nil => intro s; rfl
  | cons n l ih => intro s; rw [List.foldl_cons, ih]; rfl

/-- A group's eight readings, doubtful where the measurement was disturbed (R62, R71). -/
theorem addGroup_readings {counts : List (BitVec 12)} (h : counts.length = 8) (d : Bool) (sc : Scan) :
    (addGroup counts d sc).readings = sc.readings ++ counts.map (fun n => ⟨n.toNat, sc.disturbed⟩) := by
  unfold addGroup
  match counts, h with
  | [_, _, _, _, _, _, _, _], _ => rfl

end Sys2Proof.Machine
end

