-- ==== Sys2Proof/Laws/Parcel.lean ====
section
/-! SUPPORT. The two send slots: reading one after a change, which parcels an ACK or NAK takes in, and what an acknowledgment
leaves. -/

namespace Sys2Proof.Machine

/-! ## Reading a slot -/

theorem slot_setSlot (p : Pe) (i j : SlotId) (v : SendSlot) : (p.setSlot i v).slot j = if j = i then v else p.slot j := by
  cases i <;> cases j <;> rfl

@[simp] theorem older_setSlot (p : Pe) (i : SlotId) (v : SendSlot) : (p.setSlot i v).older = p.older := by cases i <;> rfl

@[simp] theorem other_ne (i : SlotId) : i.other ≠ i := by cases i <;> simp [SlotId.other]

@[simp] theorem other_other (i : SlotId) : i.other.other = i := by cases i <;> rfl

@[simp] theorem ne_other (i : SlotId) : i ≠ i.other := fun e => other_ne i e.symm

/-! ## Which slot is the oldest OUTSTANDING (R49, R51) -/

theorem oldest_older {e : Pe} (h : (e.slot e.older).isOutstanding = true) : e.oldest = some e.older := by
  unfold Pe.oldest Pe.byAge; simp [List.find?, h]

theorem oldest_other {e : Pe} (h : (e.slot e.older).isOutstanding = false) (h' : (e.slot e.older.other).isOutstanding = true) :
    e.oldest = some e.older.other := by
  unfold Pe.oldest Pe.byAge; simp [List.find?, h, h']

theorem oldest_none {e : Pe} (h : (e.slot e.older).isOutstanding = false) (h' : (e.slot e.older.other).isOutstanding = false) :
    e.oldest = none := by
  unfold Pe.oldest Pe.byAge; simp [List.find?, h, h']

/-- The oldest OUTSTANDING slot is the older one, or the other one with the older not OUTSTANDING. -/
theorem oldest_cases {e : Pe} {i : SlotId} (h : e.oldest = some i) :
    i = e.older ∨ i = e.older.other ∧ (e.slot e.older).isOutstanding = false := by
  cases h1 : (e.slot e.older).isOutstanding with
  | true => rw [oldest_older h1] at h; exact .inl (Option.some.inj h).symm
  | false =>
    cases h2 : (e.slot e.older.other).isOutstanding with
    | true => rw [oldest_other h1 h2] at h; exact .inr ⟨(Option.some.inj h).symm, rfl⟩
    | false => rw [oldest_none h1 h2] at h; cases h

/-! ## What an ACK or NAK takes in (R49, R50) -/

/-- Naming the oldest parcel takes in that one. -/
theorem upTo_oldest {e : Pe} {i : SlotId} {p : SlotParcel} {q : BitVec 3} {n : Nat} {due tx : Bool} (h : e.oldest = some i)
    (o : e.slot i = .outstanding p q n due tx) : e.upTo q = some [i] := by
  have h1 : (e.slot i).isOutstanding = true := by rw [o]; rfl
  have hs : (e.slot i).seq = some q := by rw [o]; rfl
  unfold Pe.upTo Pe.outstanding Pe.byAge
  rcases oldest_cases h with rfl | ⟨rfl, h2⟩
  · cases h2 : (e.slot e.older.other).isOutstanding <;> simp [List.filter, h1, h2, hs]
  · simp [List.filter, h1, h2, hs]

/-- Naming the younger takes in both, the older first. -/
theorem upTo_younger {e : Pe} {i : SlotId} {p p' : SlotParcel} {q q' : BitVec 3} {n n' : Nat} {due due' tx tx' : Bool}
    (h : e.oldest = some i) (o : e.slot i = .outstanding p q n due tx) (o' : e.slot i.other = .outstanding p' q' n' due' tx')
    (ne : q ≠ q') : e.upTo q' = some [i, i.other] := by
  have h1 : (e.slot i).isOutstanding = true := by rw [o]; rfl
  have h2 : (e.slot i.other).isOutstanding = true := by rw [o']; rfl
  have s1 : (e.slot i).seq = some q := by rw [o]; rfl
  have s2 : (e.slot i.other).seq = some q' := by rw [o']; rfl
  rcases oldest_cases h with rfl | ⟨rfl, h3⟩
  · unfold Pe.upTo Pe.outstanding Pe.byAge
    simp [List.filter, h1, h2, s1, s2, ne]
  · rw [other_other] at h2; rw [h2] at h3; cases h3

/-- Naming none takes in nothing. -/
theorem upTo_none {e : Pe} {q : BitVec 3} (a : (e.slot .a).seq ≠ some q) (b : (e.slot .b).seq ≠ some q) : e.upTo q = none := by
  unfold Pe.upTo Pe.outstanding Pe.byAge
  cases ho : e.older <;> cases h1 : (e.slot .a).isOutstanding <;> cases h2 : (e.slot .b).isOutstanding <;>
    simp [SlotId.other, h1, h2, a, b]

/-! ## What an acknowledgment leaves (R49, R51, R52) -/

/-- What an acknowledgment passes on changes the reports and the Spool Unit, and reads no more of the Parcel Engine than the reports. -/
theorem passOn_setPe (p : SlotParcel) (s : State) {e : Pe} (h : e.reports = s.pe.reports) :
    passOn p (s.setPe e) = (passOn p s).setPe { e with reports := (passOn p s).pe.reports } := by
  have same : { e with reports := s.pe.reports } = e := by rw [← h]
  unfold passOn
  by_cases l : p.last = true
  · by_cases r : p.report = true
    · simp only [l, r, if_true, State.setPe, h]
      split <;> simp [same]
    · simp only [l, r, if_true, State.setPe, Bool.false_eq_true, if_false]
      unfold lastAck changeEntry spuDue updateEntry
      dsimp only [State.setSpu]
      (repeat' split) <;> simp [same]
  · simp [l, State.setPe, same]

/-- An acknowledgment passes nothing on to the rest of the Parcel Engine. -/
theorem pe_passOn (p : SlotParcel) (s : State) : (passOn p s).pe = { s.pe with reports := (passOn p s).pe.reports } := by
  have h := passOn_setPe p s (e := s.pe) rfl
  rw [show s.setPe s.pe = s from rfl] at h
  exact congrArg State.pe h

/-- A parcel's acknowledgment changes its slot, and passes on what R52 says. -/
theorem ackSlot_of {i : SlotId} {p : SlotParcel} {q : BitVec 3} {n : Nat} {due tx : Bool} {s : State}
    (o : s.pe.slot i = .outstanding p q n due tx) :
    ackSlot i s = passOn p (s.setPe (s.pe.setSlot i (if tx then .ending else .free))) := by
  unfold ackSlot; rw [o]

/-- With the older slot no longer OUTSTANDING, the ACK timer is the younger one's. -/
theorem startAckTimer_next {e : Pe} {k : Nat} (h : (e.slot e.older).isOutstanding = false) :
    startAckTimer k e = { e with ackTimer := (e.slot e.older.other).timer k } := by
  unfold startAckTimer
  have : e.oldest = if (e.slot e.older.other).isOutstanding then some e.older.other else none := by
    split
    · exact oldest_other h ‹_›
    · exact oldest_none h (Bool.eq_false_iff.mpr ‹_›)
  rw [this]
  cases hs : e.slot e.older.other <;> simp [SendSlot.isOutstanding, SendSlot.timer, hs, SendSlot.inTx, SendSlot.resendDue]

/-- With one slot not OUTSTANDING, the ACK timer is the other one's, whichever was the older. -/
theorem startAckTimer_other {e : Pe} {i : SlotId} {k : Nat} (h : (e.slot i).isOutstanding = false)
    (h' : i = e.older ∨ (e.slot e.older).isOutstanding = false) :
    startAckTimer k e = { e with ackTimer := (e.slot i.other).timer k } := by
  rcases h' with rfl | h'
  · exact startAckTimer_next h
  · rw [startAckTimer_next h']
    have n : ∀ {v : SendSlot}, v.isOutstanding = false → v.timer k = none := fun {v} hv => by cases v <;> first | rfl | cases hv
    by_cases hi : i = e.older
    · rw [hi]
    · have : i.other = e.older := by revert hi; cases i <;> cases e.older <;> simp [SlotId.other]
      have hi' : e.older.other = i := by rw [← this, other_other]
      rw [this, hi', n h, n h']

/-- What an acknowledgment passes on leaves the working values alone. -/
@[simp] theorem work_passOn (p : SlotParcel) (s : State) : (passOn p s).work = s.work := by
  unfold passOn lastAck changeEntry spuDue updateEntry
  dsimp only
  (repeat' split) <;> rfl

/-- The ACK timer after what an acknowledgment passes on is the one before it. -/
theorem startAckTimer_passOn (p : SlotParcel) (k : Nat) (s : State) {t : Option Nat}
    (h : startAckTimer k s.pe = { s.pe with ackTimer := t }) :
    (passOn p s).setPe (startAckTimer k (passOn p s).pe) = passOn p (s.setPe { s.pe with ackTimer := t }) := by
  have r : ∀ r, startAckTimer k { s.pe with reports := r } = { startAckTimer k s.pe with reports := r } := by
    intro r
    unfold startAckTimer
    have o : ({ s.pe with reports := r } : Pe).oldest = s.pe.oldest := rfl
    rw [o]; split <;> rfl
  rw [passOn_setPe p s (e := { s.pe with ackTimer := t }) rfl, pe_passOn, r, h]

/-- The slot an acknowledged parcel leaves is not OUTSTANDING. -/
theorem isOutstanding_left (tx : Bool) : (if tx then SendSlot.ending else .free).isOutstanding = false := by cases tx <;> rfl

/-- The oldest OUTSTANDING parcel alone is acknowledged. -/
theorem ackAll_one {s : State} {i : SlotId} {p : SlotParcel} {q : BitVec 3} {n : Nat} {due tx : Bool} (h : s.pe.oldest = some i)
    (o : s.pe.slot i = .outstanding p q n due tx) :
    ackAll [i] s = passOn p (s.setPe { s.pe.setSlot i (if tx then .ending else .free) with
      ackTimer := (s.pe.slot i.other).timer s.work.ack }) := by
  unfold ackAll
  simp only [List.foldl]
  rw [ackSlot_of o, work_passOn]
  rw [startAckTimer_passOn p _ _ (t := (s.pe.slot i.other).timer s.work.ack)]
  · rfl
  · show startAckTimer s.work.ack (s.pe.setSlot i _) = _
    rw [startAckTimer_other (i := i)]
    · rw [slot_setSlot, if_neg (other_ne i)]; rfl
    · rw [slot_setSlot, if_pos rfl]; exact isOutstanding_left tx
    · rw [older_setSlot, slot_setSlot]
      rcases oldest_cases h with h | ⟨-, h⟩
      · exact .inl h
      · right; split
        · exact isOutstanding_left tx
        · exact h

/-- Both OUTSTANDING parcels are acknowledged, the older one's source told first. -/
theorem ackAll_both {s : State} {i : SlotId} {p p' : SlotParcel} {q q' : BitVec 3} {n n' : Nat} {due due' tx tx' : Bool}
    (o : s.pe.slot i = .outstanding p q n due tx) (o' : s.pe.slot i.other = .outstanding p' q' n' due' tx') :
    ackAll [i, i.other] s = passOn p' (passOn p (s.setPe {
      (s.pe.setSlot i (if tx then .ending else .free)).setSlot i.other (if tx' then .ending else .free) with ackTimer := none })) := by
  unfold ackAll
  simp only [List.foldl]
  rw [ackSlot_of o]
  generalize hX : s.setPe (s.pe.setSlot i (if tx then .ending else .free)) = X
  have hs : (passOn p X).pe.slot i.other = .outstanding p' q' n' due' tx' := by
    rw [pe_passOn, ← hX, ← o']
    exact (slot_setSlot s.pe i i.other _).trans (if_neg (other_ne i))
  rw [ackSlot_of hs]
  have hp : (passOn p X).setPe ((passOn p X).pe.setSlot i.other (if tx' then .ending else .free)) =
      passOn p (X.setPe (X.pe.setSlot i.other (if tx' then .ending else .free))) := by
    rw [passOn_setPe p X (by cases i <;> rfl)]
    congr 1
    rw [pe_passOn]; cases i <;> rfl
  rw [hp, work_passOn, work_passOn]
  generalize hY : X.setPe (X.pe.setSlot i.other (if tx' then .ending else .free)) = Y
  have hn : ∀ k r, startAckTimer k { Y.pe with reports := r } = { Y.pe with reports := r, ackTimer := none } := by
    intro k r
    have h : ({ Y.pe with reports := r } : Pe).oldest = none := by
      have f : ∀ j, (Y.pe.slot j).isOutstanding = false := by
        intro j
        rw [← hY, ← hX]
        show (((s.pe.setSlot i _).setSlot i.other _).slot j).isOutstanding = false
        rw [slot_setSlot, slot_setSlot]
        split
        · exact isOutstanding_left tx'
        · split
          · exact isOutstanding_left tx
          · rename_i h1 h2; exfalso; revert h1 h2; cases i <;> cases j <;> simp [SlotId.other]
      exact oldest_none (f _) (f _)
    unfold startAckTimer; rw [h]
  rw [startAckTimer_passOn p' _ (passOn p Y) (t := none)]
  · congr 1
    rw [pe_passOn, ← passOn_setPe p Y (e := { Y.pe with ackTimer := none }) rfl, ← hY, ← hX]; rfl
  · rw [pe_passOn]; exact hn _ _

/-- The end of an OUTSTANDING parcel's transmission starts the timer where that parcel is the oldest one (R51). -/
theorem endSlot_of {e : Pe} {i : SlotId} {p : SlotParcel} {q : BitVec 3} {n k : Nat} {due tx : Bool}
    (o : e.slot i = .outstanding p q n due tx) :
    endSlot i k e = { e.setSlot i (.outstanding p q n due false) with
      ackTimer := if i = e.older ∨ (e.slot e.older).isOutstanding = false then (if due then none else some k) else e.ackTimer } := by
  unfold endSlot
  rw [o]
  dsimp only
  generalize hr : e.setSlot i (.outstanding p q n due false) = r
  have hi : r.slot i = .outstanding p q n due false := by rw [← hr, slot_setSlot, if_pos rfl]
  have ho : r.older = e.older := by rw [← hr, older_setSlot]
  have hj : i ≠ e.older → r.slot e.older = e.slot e.older := fun ne => by rw [← hr, slot_setSlot, if_neg (Ne.symm ne)]
  have ht : r.ackTimer = e.ackTimer := by rw [← hr]; cases i <;> rfl
  by_cases c : i = e.older
  · have hold : r.oldest = some i := by rw [c, ← ho]; apply oldest_older; rw [ho, ← c, hi]; rfl
    rw [if_pos hold, if_pos (.inl c)]
    unfold startAckTimer; rw [hold]; simp only [hi, SendSlot.inTx, SendSlot.resendDue, Bool.false_or]
  · have ci : i = e.older.other := by revert c; cases i <;> cases e.older <;> simp [SlotId.other]
    cases f : (e.slot e.older).isOutstanding with
    | true =>
      have hold : r.oldest = some e.older := by rw [← ho]; apply oldest_older; rw [ho, hj c, f]
      rw [if_neg (by rw [hold]; exact fun x => c (Option.some.inj x).symm), if_neg (by simp [c]), ← ht]
    | false =>
      have hold : r.oldest = some i := by
        rw [ci, ← ho]; apply oldest_other
        · rw [ho, hj c, f]
        · rw [ho, ← ci, hi]; rfl
      rw [if_pos hold, if_pos (.inr rfl)]
      unfold startAckTimer; rw [hold]; simp only [hi, SendSlot.inTx, SendSlot.resendDue, Bool.false_or]

/-! ## Resends (R50, R51) -/

@[simp] theorem isOutstanding_markResend (v : SendSlot) : v.markResend.isOutstanding = v.isOutstanding := by cases v <;> rfl

@[simp] theorem slot_resendAll (e : Pe) (i : SlotId) : e.resendAll.slot i = (e.slot i).markResend := by cases i <;> rfl

@[simp] theorem oldest_resendAll (e : Pe) : e.resendAll.oldest = e.oldest := by
  unfold Pe.oldest
  simp only [slot_resendAll, isOutstanding_markResend]
  rfl

/-- With the oldest parcel's timer stopped where that parcel is in transmission or resend-due (R51), a resend leaves it stopped. -/
theorem resend_stops {e : Pe} {i : SlotId} {p : SlotParcel} {q : BitVec 3} {n : Nat} {due tx : Bool} (h : e.oldest = some i)
    (o : e.slot i = .outstanding p q n due tx) (t : tx = true ∨ due = true → e.ackTimer = none) :
    e.resend = { e.resendAll with ackTimer := none } := by
  unfold Pe.resend
  simp only [oldest_resendAll, h, Option.any_some, slot_resendAll, o, SendSlot.markResend, SendSlot.resendDue]
  cases due with
  | true => rfl
  | false =>
    cases tx with
    | false => rfl
    | true => exact congrArg (fun t => ({ e.resendAll with ackTimer := t } : Pe)) (t (.inl rfl))

/-! ## A verdict on the SENDING entry (R53) -/

/-- All that an entry's leaving the Parcel Engine does. -/
theorem dropSource_eq (n : Nat) (s : State) : dropSource n s = { s with
    pe := { s.pe with
      slotA := s.pe.slotA.drop n, slotB := s.pe.slotB.drop n, source := none
      older := if (s.pe.slot s.pe.older).drop n = .free then s.pe.older.other else s.pe.older }
    jmc := if s.pe.slotA.isLoading = true ∨ s.pe.slotB.isLoading = true then s.jmc.abandon .pe else s.jmc } := by
  have o : ({ s.pe with slotA := s.pe.slotA.drop n, slotB := s.pe.slotB.drop n, source := none } : Pe).slot s.pe.older =
      (s.pe.slot s.pe.older).drop n := by cases s.pe.older <;> rfl
  unfold dropSource
  simp only [State.setPe_pe, o, Bool.or_eq_true]
  split <;> split <;> rfl

theorem dropSource_dropped (n : Nat) (s : State) : SourceDropped n s (dropSource n s) := by
  have h : ∀ i, (dropSource n s).pe.slot i = (s.pe.slot i).drop n := by
    intro i; rw [dropSource_eq]; cases i <;> rfl
  refine ⟨fun i p o e => by rw [h, e]; rfl, fun i p e => by rw [h, e]; rfl, fun i l f => ?_, ?_⟩
  · rw [h]; cases e : s.pe.slot i <;> simp_all [SendSlot.drop, SendSlot.isLoading, SendSlot.isFilled]
  · rw [h]; rw [dropSource_eq]

/-! ## The judgment of a parcel (R38, R41) -/

theorem Parcel.inRange_iff (p : Parcel) : p.inRange = true ↔ p.kind ≠ .report ∧ p.seq.toNat ≤ 7 ∧
    (p.kind = .text → p.body.length ≤ 48) ∧
    (p.kind = .reject → 1 ≤ p.index.toNat ∧ p.index.toNat ≤ 99 ∧ p.body.length ≤ 24) ∧
    (p.kind ≠ .text → p.kind ≠ .reject → p.body = []) := by
  unfold Parcel.inRange
  cases h : p.kind <;> simp [and_assoc]

theorem ParcelKind.ofCode_code (k : ParcelKind) : ParcelKind.ofCode k.code = some k := by cases k <;> rfl

theorem ParcelKind.code_of_ofCode {b : Byte} {k : ParcelKind} (h : ParcelKind.ofCode b = some k) : b = k.code := by
  unfold ParcelKind.ofCode at h
  split at h <;> first
    | contradiction
    | (simp only [Option.some.injEq] at h; subst h; apply BitVec.eq_of_toNat_eq; simp_all [ParcelKind.code])

theorem parcelCheckOk_iff (l : Text) :
    parcelCheckOk l = true ↔ checkBytes (l.take (7 + byteAt l 6)) = (l.drop (7 + byteAt l 6)).take 2 := by
  unfold parcelCheckOk; simp

end Sys2Proof.Machine
end

