-- ==== Sys2Proof/Laws/Session.lean ====
section
/-! SUPPORT. What the end of a session does, said once: `sessionEnd_eq` gives the state it leaves block by block, and
`sessionEnd_ended` and `enterClearing_ended` say that it is what Table 2.4 asks for. -/

namespace Sys2Proof.Machine

/-! ## The Spool Unit -/

theorem changeEntry_eq (n : Nat) (f : Entry → Entry) (s : State) :
    changeEntry n f s = s.setSpu ((s.spu.setEntry n (f (s.spu.entry n))).dueItem (.record n)) := rfl

/-- Changing entries touches the Spool Unit alone. -/
theorem changeEntries_eq (f : Entry → Entry) (l : List Nat) :
    ∀ s : State, l.foldl (fun s n => changeEntry n f s) s = s.setSpu (l.foldl (fun s n => changeEntry n f s) s).spu := by
  induction l with
  | nil => intro s; rfl
  | cons a l ih => intro s; rw [List.foldl_cons, ih]; rfl

/-- What changing entries makes of the Spool Unit depends on the Spool Unit alone. -/
theorem changeEntries_congr (f : Entry → Entry) (l : List Nat) : ∀ {s t : State}, s.spu = t.spu →
    (l.foldl (fun s n => changeEntry n f s) s).spu = (l.foldl (fun s n => changeEntry n f s) t).spu := by
  induction l with
  | nil => intro s t h; exact h
  | cons a l ih =>
    intro s t h
    rw [List.foldl_cons, List.foldl_cons]
    apply ih
    simp only [changeEntry_eq, State.setSpu_spu, h]

/-- What becomes due joins what was due at its end, once. -/
theorem dueItem_due (p : Spu) (i : SpuItem) :
    (∃ new, (p.dueItem i).due = p.due ++ new) ∧ (p.due.Nodup → (p.dueItem i).due.Nodup) ∧
    ∀ j, j ∈ (p.dueItem i).due ↔ j ∈ p.due ∨ j = i := by
  unfold Spu.dueItem
  split <;> rename_i h
  · refine ⟨⟨[], by simp⟩, id, fun j => ⟨Or.inl, ?_⟩⟩
    rintro (h' | rfl)
    · exact h'
    · simpa using h
  · have hi : i ∉ p.due := by simpa using h
    refine ⟨⟨[i], rfl⟩, fun n => ?_, fun j => by simp⟩
    refine List.nodup_append.mpr ⟨n, by simp, fun a ha b hb e => hi ?_⟩
    rw [← List.mem_singleton.mp hb, ← e]; exact ha

/-- The record of each changed entry is due, and nothing else becomes due. -/
theorem changeEntries_due (f : Entry → Entry) (l : List Nat) : ∀ s : State,
    let t := l.foldl (fun s n => changeEntry n f s) s
    (∃ new, t.spu.due = s.spu.due ++ new) ∧ (s.spu.due.Nodup → t.spu.due.Nodup) ∧
    ∀ j, j ∈ t.spu.due ↔ j ∈ s.spu.due ∨ ∃ n ∈ l, j = .record n := by
  induction l with
  | nil => intro s; exact ⟨⟨[], by simp⟩, id, by simp⟩
  | cons n l ih =>
    intro s
    obtain ⟨⟨w, h1⟩, h2, h3⟩ := ih (changeEntry n f s)
    obtain ⟨⟨w', g1⟩, g2, g3⟩ := dueItem_due (s.spu.setEntry n (f (s.spu.entry n))) (.record n)
    change (changeEntry n f s).spu.due = s.spu.due ++ w' at g1
    refine ⟨⟨w' ++ w, ?_⟩, fun d => h2 (g2 d), fun j => ?_⟩
    · rw [List.foldl_cons, h1, ← List.append_assoc]; exact congrArg (· ++ w) g1
    · have g : j ∈ (changeEntry n f s).spu.due ↔ j ∈ s.spu.due ∨ j = .record n := g3 j
      rw [List.foldl_cons, h3, g]; simp [or_assoc]

theorem spuSessionEnd_eq (s : State) : spuSessionEnd s = s.setSpu (spuSessionEnd s).spu := by
  unfold spuSessionEnd
  dsimp only
  rw [changeEntries_eq _ _ (List.foldl _ _ _), changeEntries_eq _ _ s]
  rfl

theorem spuSessionEnd_congr {s t : State} (h : s.spu = t.spu) : (spuSessionEnd s).spu = (spuSessionEnd t).spu := by
  unfold spuSessionEnd
  simp only [State.setSpu_spu, h]
  rw [changeEntries_congr _ _ (changeEntries_congr _ _ h)]

theorem spuSessionEnd_to {s t : State} (h : t.spu = s.spu) : spuSessionEnd t = t.setSpu (spuSessionEnd s).spu := by
  rw [spuSessionEnd_eq, spuSessionEnd_congr h]

/-! ## The other blocks -/

theorem duSessionEnd_to {s t : State} (h : t.du = s.du) : duSessionEnd t = t.setDu (duSessionEnd s).du := by
  unfold duSessionEnd; simp only [h, State.setDu_du]

theorem pquSessionEnd_eq (s : State) : pquSessionEnd s = s.setPqu (pquSessionEnd s).pqu := by
  unfold pquSessionEnd; rw [completePart_eq]; split <;> rfl

theorem pquSessionEnd_to {s t : State} (h : t.pqu = s.pqu) : pquSessionEnd t = t.setPqu (pquSessionEnd s).pqu := by
  rw [pquSessionEnd_eq]
  unfold pquSessionEnd
  rw [completePart_eq, completePart_eq, h]
  split <;> simp only [State.setPqu_pqu, h]

/-! ## The session's end -/

/-- The Parcel Engine's part of a session's end. -/
theorem peSessionEnd_eq (s : State) : peSessionEnd s = (s.setPe (s.pe.abandoned [])).setJmc (s.jmc.abandon .pe) := rfl

/-- The state a session's end leaves, block by block. -/
theorem sessionEnd_eq (cause : EndCause) (s : State) : sessionEnd cause s = { s with
    clu := { s.clu with lastEnd := cause }
    kcu := { s.alerted.kcu with lock := false }
    pe := s.pe.abandoned []
    jmc := s.jmc.abandon .pe
    du := (duSessionEnd s).du
    spu := (spuSessionEnd s).spu
    pqu := (pquSessionEnd (listNotices (raise (spaced [ascii "LINE DOWN", cause.name]) s))).pqu } := by
  unfold sessionEnd
  dsimp only
  rw [alert_eq]
  generalize hp : (s.pqu.raise (spaced [ascii "LINE DOWN", cause.name])).listNotices 8 = p
  have hr : listNotices (raise (spaced [ascii "LINE DOWN", cause.name]) s) = { s with pqu := p } := by rw [← hp]; rfl
  have ha : (listNotices (raise (spaced [ascii "LINE DOWN", cause.name]) (s.setClu { s.clu with lastEnd := cause }))).alerted =
      { s with clu := { s.clu with lastEnd := cause }, kcu := s.alerted.kcu, pqu := p } := by rw [← hp]; rfl
  rw [ha, hr]
  generalize s.alerted.kcu = k
  rw [peSessionEnd_eq]
  have hd : ∀ t : State, t.du = s.du → duSessionEnd t = t.setDu (duSessionEnd s).du := fun _ => duSessionEnd_to
  have hs : ∀ t : State, t.spu = s.spu → spuSessionEnd t = t.setSpu (spuSessionEnd s).spu := fun _ => spuSessionEnd_to
  have hq : ∀ t : State, t.pqu = p → pquSessionEnd t = t.setPqu (pquSessionEnd { s with pqu := p }).pqu :=
    fun t h => pquSessionEnd_to (s := { s with pqu := p }) h
  generalize (duSessionEnd s).du = d at hd
  generalize (spuSessionEnd s).spu = u at hs
  generalize (pquSessionEnd { s with pqu := p }).pqu = q at hq
  generalize s.pe.abandoned [] = e
  rw [hd, hs, hq]
  · simp only [kcuSessionEnd, State.setPe, State.setJmc, State.setDu, State.setSpu, State.setKcu, State.setPqu]
  · exact rfl
  · exact rfl
  · exact rfl

/-- A raised notice changes only the notice slots and their order, or the count of those dropped. -/
theorem raise_keeps (p : Pqu) (t : Text) : (p.raise t).list = p.list ∧ (p.raise t).ring = p.ring ∧ (p.raise t).asm = p.asm := by
  unfold Pqu.raise Pqu.place; cases p.freeSlot <;> exact ⟨rfl, rfl, rfl⟩

/-- Listing notices changes no line being assembled. -/
theorem listNotices_asm : ∀ (k : Nat) (p : Pqu), (p.listNotices k).asm = p.asm
  | 0, _ => rfl
  | k + 1, p => by
    unfold Pqu.listNotices
    split
    · rfl
    · split
      · exact listNotices_asm k _
      · rfl

theorem noticeAt_setNotice {p : Pqu} {n m : Nat} {v : NoticeSlot} (l : p.notices.length = 8) (n1 : 1 ≤ n) (n8 : n ≤ 8)
    (m1 : 1 ≤ m) : (p.setNotice n v).noticeAt m = if m = n then v else p.noticeAt m := by
  unfold Pqu.noticeAt Pqu.setNotice
  simp only [List.getD_eq_getElem?_getD, List.getElem?_set]
  by_cases h : m = n
  · rw [h, if_pos rfl, if_pos rfl, if_pos (by omega)]; rfl
  · rw [if_neg (by omega), if_neg h]

/-- A notice raised while none waits is listed at once where the list has room (R134). -/
theorem raise_listed {p : Pqu} {t : Text} {n : Nat} (l : p.notices.length = 8) (o : ∀ m ∈ p.noticeOrder, 1 ≤ m)
    (w : p.nextNotice = none) (f : p.freeSlot = some n) (r : p.list.length < 24) :
    ((p.raise t).listNotices 8).list = p.list ++ [.notice n] := by
  have hn : 1 ≤ n ∧ n ≤ 8 := by
    have := List.mem_of_find?_eq_some f
    simp only [List.mem_range'_1] at this; omega
  have w' : ∀ m ∈ p.noticeOrder, (p.noticeAt m).status ≠ .waiting := by
    unfold Pqu.nextNotice at w; rw [List.find?_eq_none] at w
    intro m hm e; exact w m hm (by rw [e]; rfl)
  generalize hq : ({ p.setNotice n ⟨.waiting, t.take 40⟩ with noticeOrder := p.noticeOrder ++ [n] } : Pqu) = q
  have hr : p.raise t = q := by unfold Pqu.raise Pqu.place; rw [f, ← hq]; rfl
  have ql : q.list = p.list := by rw [← hq]; rfl
  have qo : q.noticeOrder = p.noticeOrder ++ [n] := by rw [← hq]
  have qn : q.notices.length = 8 := by rw [← hq]; simp [Pqu.setNotice, l]
  have qa : ∀ m, 1 ≤ m → q.noticeAt m = if m = n then ⟨.waiting, t.take 40⟩ else p.noticeAt m := by
    intro m hm; rw [← hq]; exact noticeAt_setNotice l hn.1 hn.2 hm
  have q1 : q.nextNotice = some n := by
    have hs : (p.noticeOrder ++ [n]).find? (fun m => (q.noticeAt m).status == .waiting) ≠ none := by
      intro e; rw [List.find?_eq_none] at e
      exact e n (by simp) (by rw [qa n hn.1, if_pos rfl]; rfl)
    unfold Pqu.nextNotice
    rw [qo]
    rcases h : (p.noticeOrder ++ [n]).find? (fun m => (q.noticeAt m).status == .waiting) with _ | m
    · exact absurd h hs
    · have hm := List.mem_of_find?_eq_some h
      have hw := List.find?_some h
      by_cases e : m = n
      · rw [e]
      · have hp : m ∈ p.noticeOrder := by simpa [e] using hm
        rw [qa m (o m hp), if_neg e] at hw
        exact absurd (by simpa using hw) (w' m hp)
  have q2 : (q.listNotice n).nextNotice = none := by
    unfold Pqu.nextNotice
    rw [List.find?_eq_none]
    intro m hm
    have hm' : m ∈ p.noticeOrder ++ [n] := by rw [← qo]; exact hm
    have m1 : 1 ≤ m := by
      rcases List.mem_append.mp hm' with h | h
      · exact o m h
      · rw [List.mem_singleton.mp h]; exact hn.1
    have : (q.listNotice n).noticeAt m = if m = n then { q.noticeAt n with status := .listed } else q.noticeAt m :=
      noticeAt_setNotice qn hn.1 hn.2 m1
    rw [this]
    by_cases e : m = n
    · rw [if_pos e]; simp
    · rw [if_neg e, qa m m1, if_neg e]
      have hp : m ∈ p.noticeOrder := by simpa [e] using hm'
      simpa using w' m hp
  rw [hr]
  unfold Pqu.listNotices
  rw [if_neg (by rw [ql]; omega), q1]
  show ((q.listNotice n).listNotices 7).list = _
  unfold Pqu.listNotices
  rw [q2]
  split <;> exact congrArg (· ++ [Descriptor.notice n]) ql

theorem pquSessionEnd_pqu (s : State) : (pquSessionEnd s).pqu = { s.pqu with
    asm := { (if s.pqu.asm.complete || s.pqu.asm.length == 0 then s.pqu.asm
      else { s.pqu.asm with complete := true, part := true, idleTimer := none }) with justWrapped := false } } := by
  unfold pquSessionEnd; rw [completePart_eq]; split <;> rfl

/-- A session's end does what Table 2.4 says. -/
theorem sessionEnd_ended (cause : EndCause) (s : State) : SessionEnded cause [] s (sessionEnd cause s) := by
  rw [sessionEnd_eq]
  have k3 : (listNotices (raise (spaced [ascii "LINE DOWN", cause.name]) s)).pqu.asm = s.pqu.asm :=
    (listNotices_asm 8 _).trans (raise_keeps s.pqu _).2.2
  have hr : (listNotices (raise (spaced [ascii "LINE DOWN", cause.name]) s)).pqu =
      (s.pqu.raise (spaced [ascii "LINE DOWN", cause.name])).listNotices 8 := rfl
  refine ⟨rfl, rfl, rfl, rfl, rfl, rfl, rfl, ?_, ?_, ?_, rfl, ?_, ?_, rfl, rfl, rfl⟩
  · intro h; simp only [duSessionEnd, State.setDu_du, h]
  · intro h; simp only [duSessionEnd, State.setDu_du, h]
  · intro h; simp only [duSessionEnd, State.setDu_du, h]
  all_goals rw [pquSessionEnd_pqu]
  · rw [k3, hr]
    cases h : s.pqu.asm.complete <;> rcases hl : s.pqu.asm.length with _ | n <;> simp
  · intro n l o w f r
    exact raise_listed l o w f r

/-- The same end, from a state that differs only in what a session's end does not read. -/
theorem SessionEnded.of_same {cause : EndCause} {control : List Control} {s t e : State} (h : SessionEnded cause control t e)
    (k : t.kcu = s.kcu) (pw : t.pm.power = s.pm.power) (p : ∀ l, t.pe.abandoned l = s.pe.abandoned l) (j : t.jmc = s.jmc) (d : t.du = s.du)
    (sp : t.spu = s.spu) (pq : t.pqu = s.pqu) (o : t.outside = s.outside) (w : t.work = s.work) (ks : t.ksu = s.ksu) :
    SessionEnded cause control s e := by
  unfold SessionEnded at *
  rw [spuSessionEnd_congr sp] at h
  simp only [State.alerted, k, pw, p, j, d, pq, o, w, ks] at h ⊢
  exact h

/-- A change of the line is a change of the Coupler Line Unit, the doze idle timer's mark, and the head's limit. -/
theorem lineTo_eq (c : Clu) (s : State) :
    lineTo c s = { s with clu := c, pm := { s.pm with dozeHeld := false }, hdu := { s.hdu with limit := (lineTo c s).hdu.limit } } := by
  unfold lineTo; dsimp only; split <;> rfl

/-- From READY or FADE the line enters CLEARING: its state, and the session ended with the CLEAR queued. -/
theorem enterClearing_ended (cause : ClearCause) (s : State) :
    (enterClearing cause s).clu = { s.clu.still with
      line := .clearing, clearingTimer := true, clearingCause := some cause, lastEnd := .clear cause } ∧
    SessionEnded (.clear cause) [.clear] s (enterClearing cause s) := by
  unfold enterClearing
  dsimp only
  generalize hc : ({ s.clu.still with line := .clearing, clearingTimer := true, clearingCause := some cause } : Clu) = c
  have h : SessionEnded (.clear cause) [] s (sessionEnd (.clear cause) (lineTo c s)) := by
    apply (sessionEnd_ended _ _).of_same <;> rw [lineTo_eq]
    · intro l; rfl
    · rfl
  have hl : (sessionEnd (.clear cause) (lineTo c s)).clu = { c with lastEnd := .clear cause } := by
    rw [sessionEnd_eq, lineTo_eq]
  generalize sessionEnd (.clear cause) (lineTo c s) = t at h hl
  have q : t.pe.queue .clear = { t.pe with control := [.clear] } := by rw [h.2.2.1]; rfl
  rw [q]
  refine ⟨?_, ?_⟩
  · show t.clu = _
    rw [hl, ← hc]
  · obtain ⟨a, b, c, d⟩ := h
    refine ⟨a, b, ?_, d⟩
    show { t.pe with control := [.clear] } = _
    rw [c]; rfl

/-- A session's end, and CLEARING entered from READY or FADE, leave the head alone. -/
theorem hdu_enterClearing {cause : ClearCause} {s : State} (h : s.clu.line.txOn = true) : (enterClearing cause s).hdu = s.hdu := by
  unfold enterClearing
  dsimp only
  rw [sessionEnd_eq, lineTo_same (by rw [h]; rfl)]
  rfl

end Sys2Proof.Machine
end

