-- ==== Sys2Proof/Laws/StartUp.lean ====
section
/-! SUPPORT. What the loss of power, the securing of the journal and start-up do, each said once. -/

namespace Sys2Proof.Machine

/-! ## Power gone (R1, R181) -/

theorem tornWrites_mem {m : RegionMap} {b : Burst} {landed : BitVec 8} {p : Nat × Byte} (h : p ∈ tornWrites m b landed) :
    p.1 ∈ placeAddrs m b.place b.count := by
  unfold tornWrites at h
  obtain ⟨q, hq, rfl⟩ := List.mem_map.mp h
  obtain ⟨⟨x, y⟩, i⟩ := q
  have hz : (x, y) ∈ (placeAddrs m b.place b.count).zip b.data := by
    rw [(List.mem_zipIdx' (List.mem_filter.mp hq).1).2]; exact List.getElem_mem _
  exact (List.of_mem_zip hz).1

/-- Of writes at different addresses, those are made whose index is chosen. -/
theorem Memory.read_chosenWrites {f : Nat → Bool} : ∀ {ps : List (Nat × Byte)} {k i a : Nat} {v : Byte} {m : Memory},
    (ps.map Prod.fst).Nodup → ps[i]? = some (a, v) → Memory.wf m = true →
    Memory.read (Memory.writeAll m (((ps.zipIdx k).filter fun p => f p.2).map Prod.fst)) a =
      if f (k + i) = true then v else Memory.read m a
  | [], _, _, _, _, _, _, h, _ => by simp at h
  | (x, y) :: ps, k, i, a, v, m, d, h, w => by
    rw [List.map_cons, List.nodup_cons] at d
    have other : ∀ {m : Memory}, Memory.wf m = true → a ∉ ps.map Prod.fst →
        Memory.read (Memory.writeAll m (((ps.zipIdx (k + 1)).filter fun p => f p.2).map Prod.fst)) a = Memory.read m a := by
      intro m w n
      refine Memory.read_writeAll_other (fun p hp e => n ?_) w
      obtain ⟨⟨q, j⟩, hq, rfl⟩ := List.mem_map.mp hp
      rw [← e]
      refine List.mem_map_of_mem ?_
      have z := List.mem_zipIdx (List.mem_filter.mp hq).1
      rw [z.2.2]; exact List.getElem_mem _
    rw [List.zipIdx_cons, List.filter_cons]
    cases i with
    | zero =>
      simp only [List.getElem?_cons_zero, Option.some.injEq, Prod.mk.injEq] at h
      obtain ⟨rfl, rfl⟩ := h
      by_cases c : f k = true
      · simp only [c, if_true, List.map_cons, Memory.writeAll, Nat.add_zero]
        rw [other (Memory.wf_write w) d.1, Memory.read_write_same w]
      · simp only [c, Nat.add_zero]
        exact other w d.1
    | succ i =>
      rw [List.getElem?_cons_succ] at h
      have ne : a ≠ x := by
        rintro rfl
        exact d.1 (List.mem_map.mpr ⟨_, List.mem_of_getElem? h, rfl⟩)
      have e : k + (i + 1) = k + 1 + i := by omega
      by_cases c : f k = true
      · simp only [c, if_true, List.map_cons, Memory.writeAll]
        rw [Memory.read_chosenWrites d.2 h (Memory.wf_write w), Memory.read_write_other ne w, e]
      · simp only [c]
        rw [e]
        exact Memory.read_chosenWrites d.2 h w

theorem nodup_fst_zip : ∀ {l : List Nat} {d : Text}, l.Nodup → ((l.zip d).map Prod.fst).Nodup
  | [], _, _ => List.nodup_nil
  | _ :: _, [], _ => List.nodup_nil
  | a :: l, b :: d, h => by
    rw [List.nodup_cons] at h
    rw [List.zip_cons_cons, List.map_cons, List.nodup_cons]
    refine ⟨fun m => ?_, nodup_fst_zip h.2⟩
    obtain ⟨p, hp, rfl⟩ := List.mem_map.mp m
    exact h.1 (List.of_mem_zip hp).1

theorem powerLost_lost (landed : BitVec 8) (s : State) : PowerLost landed s (powerLost landed s) := by
  refine ⟨rfl, ?_, ?_⟩
  · rintro (h | h) <;> unfold powerLost <;> dsimp only
    · rw [h]
    · cases hc : s.jmc.current with
      | none => rfl
      | some c => rw [hc] at h; simp only [Option.any_some, Bool.not_eq_true'] at h; simp [h]
  · intro b hb hi
    unfold powerLost; dsimp only; rw [hb]; dsimp only
    refine ⟨fun a ha => ?_, fun hw d i a v ha hv => ?_⟩
    · split
      · exact Memory.read_writeAll_other (fun p hp e => ha (e ▸ tornWrites_mem hp)) hi
      · rfl
    · rw [if_pos hw]
      have z : ((placeAddrs s.work.map b.burst.place b.burst.count).zip b.burst.data)[i]? = some (a, v) := by
        rw [List.getElem?_zip_eq_some]; exact ⟨ha, hv⟩
      have n : (((placeAddrs s.work.map b.burst.place b.burst.count).zip b.burst.data).map Prod.fst).Nodup := by
        exact nodup_fst_zip d
      have r := Memory.read_chosenWrites (f := landed.getLsbD) (k := 0) n z hi
      rw [Nat.zero_add] at r
      exact r

theorem releaseLatch_lost (s : State) :
    PowerLost (Config.latchTear s.fresh) s (releaseLatch s) ∧ (releaseLatch s).fresh = s.fresh + 1 :=
  ⟨powerLost_lost _ (s.setFresh (s.fresh + 1)), rfl⟩

/-! ## The journal secured (R122) -/

/-- Staging that fits the ring is taken as a flush. -/
theorem secureJournal_taken {s : State} (z : s.spu.securing = false) (k : s.kcu.staging ≠ [])
    (f : s.kcu.staging.length ≤ s.spu.ring.free s.spoolSize) (o : s.spu.openSlot.isSome = true) :
    secureJournal s = flushTaken (if s.kcu.flush = .waiting then s.kcu.flushCursor else s.kcu.requestCursor)
      (s.setSpu { s.spu with securing := true }) := by
  unfold secureJournal; rw [if_neg (by simp [z])]; unfold secureStaging
  exact (if_neg k).trans (if_pos ⟨f, o⟩)

/-- Staging that does not is lost. -/
theorem secureJournal_lost {s : State} (z : s.spu.securing = false) (k : s.kcu.staging ≠ [])
    (f : s.spu.ring.free s.spoolSize < s.kcu.staging.length ∨ s.spu.openSlot = none) :
    secureJournal s = (s.setSpu { s.spu with securing := true }).setKcu { s.kcu with
      staging := [], flush := if s.kcu.flush = .running then .running else .none, flushOwed := false, flushTimer := false } := by
  unfold secureJournal; rw [if_neg (by simp [z])]; unfold secureStaging
  refine (if_neg k).trans (if_neg ?_)
  rintro ⟨a, b⟩
  rcases f with f | f
  · exact absurd a (Nat.not_le.mpr f)
  · have : s.spu.openSlot.isSome = true := b
    rw [f] at this; contradiction

/-- The Spool Unit asked to secure the journal. -/
theorem secureJournal_secured (s : State) : Secured s (secureJournal s) := by
  refine ⟨fun z => ?_, fun z => ⟨fun k => ?_, fun k f => secureJournal_taken z k f.1 f.2, fun k f => ?_⟩⟩
  · unfold secureJournal; rw [if_pos z]
  · unfold secureJournal; rw [if_neg (by simp [z])]; unfold secureStaging; exact if_pos k
  · refine (secureJournal_lost z k ?_).trans rfl
    cases o : s.spu.openSlot with
    | none => exact .inr rfl
    | some n => exact .inl (Nat.not_le.mp fun l => f ⟨l, by rw [o]; rfl⟩)

/-- The line ended for a shutdown (R35). -/
theorem endLine_ended (s : State) : LineEnded s (endLine .power s) := by
  unfold LineEnded endLine
  refine ⟨fun l => by rw [l], fun l => ?_, fun l => ?_, fun l => ?_⟩
  · rcases l with l | l <;> rw [l] <;> unfold enterOff <;> rw [lineTo_same (by rw [l]; rfl)] <;> rfl
  · rcases l with l | l <;> rw [l] <;> unfold enterOff lineTo <;> simp only [l] <;> rfl
  · have e := enterClearing_ended .power s
    have h := hdu_enterClearing (cause := .power) (s := s) (by rcases l with l | l <;> rw [l] <;> rfl)
    have p : (enterClearing .power s).pm = { s.pm with dozeHeld := false } := by
      unfold enterClearing; dsimp only; rw [sessionEnd_eq, lineTo_eq]; rfl
    rcases l with l | l <;> rw [l] <;> exact ⟨e.2, p, h, e.1⟩

/-! ## Start-up (R186) -/

/-- The reclaim check touches the Spool Unit alone. -/
theorem reclaim_eq : ∀ (n : Nat) (s : State), reclaim n s = s.setSpu (reclaim n s).spu
  | 0, s => rfl
  | n + 1, s => by
    unfold reclaim
    dsimp only
    split
    · rfl
    · split
      · rw [reclaim_eq n]; rfl
      · rfl

/-- Notices raised touch the print queue alone, and list nothing. -/
theorem raiseAll_eq (ts : List Text) : ∀ s : State,
    raiseAll ts s = s.setPqu (raiseAll ts s).pqu ∧ (raiseAll ts s).pqu.list = s.pqu.list := by
  induction ts with
  | nil => intro s; exact ⟨rfl, rfl⟩
  | cons t ts ih =>
    intro s
    have h : raiseAll (t :: ts) s = raiseAll ts (raise t s) := rfl
    rw [h]
    exact ⟨by rw [(ih _).1]; rfl, by rw [(ih _).2]; exact (raise_keeps _ _).1⟩

/-- Setting the composer touches the Key Code Unit, and the Spool Unit where it closes the entry; with no OPEN entry, nothing. -/
theorem restoreComposer_eq (s : State) :
    (∃ p k, restoreComposer s = { s with spu := p, kcu := k } ∧
      k.typeahead = s.kcu.typeahead ∧ k.lock = s.kcu.lock ∧ k.forms = s.kcu.forms) ∧
    (s.spu.openSlot = none → restoreComposer s = s) := by
  have c : closeEntry s = s.setSpu (closeEntry s).spu := by unfold closeEntry; split <;> rfl
  unfold restoreComposer
  split
  · exact ⟨⟨_, _, rfl, rfl, rfl, rfl⟩, fun _ => rfl⟩
  · rename_i n h
    refine ⟨?_, fun e => by rw [h] at e; cases e⟩
    dsimp only
    split
    · exact ⟨_, _, rfl, rfl, rfl, rfl⟩
    · split
      · exact ⟨_, _, rfl, rfl, rfl, rfl⟩
      · exact ⟨_, _, c, rfl, rfl, rfl⟩
    · exact ⟨_, _, c, rfl, rfl, rfl⟩

/-- A restore that resets the journal. -/
theorem restored_wiped {s : State} {w : Settings} (h : (s.restored w).wiped = true) : s.restored w = journalReset := by
  have k : ∀ m, (restoreSpool m w).wiped = true → restoreSpool m w = journalReset := by
    intro m g
    unfold restoreSpool at g ⊢
    dsimp only at g ⊢
    generalize layEntries _ _ _ _ _ _ = z at g ⊢
    cases hg : headerGood (m.readAll (addrsFrom 0 64)) w <;> cases z <;> simp [hg] at g ⊢
  unfold State.restored at h ⊢
  by_cases c : s.regionsCut = true
  · rw [if_pos c]
  · rw [if_neg c] at h ⊢; exact k _ h

/-- What start-up does after `startState`: the Spool Unit, the composer and the notices. -/
theorem startUp_eq {s : State} (b : batteryBand s.pins.battery ≠ .exhausted) : ∃ (k : Kcu) (p : Spu) (q : Pqu),
    startUp s = { startState s with kcu := k, spu := p, pqu := q } ∧ q.list = (startState s).pqu.list ∧
    k.typeahead = (startState s).kcu.typeahead ∧ k.lock = (startState s).kcu.lock ∧ k.forms = (startState s).kcu.forms ∧
    ((s.restored (settingsInForce s).2.1).wiped = true → p = (startState s).spu ∧ k.state = (startState s).kcu.state) := by
  have noop : (s.restored (settingsInForce s).2.1).wiped = true → (startState s).spu = Spu.reset.dueItem .header := by
    intro w
    have : (startState s).spu = (s.restored (settingsInForce s).2.1).spu := rfl
    rw [this]
    rw [restored_wiped w]; rfl
  unfold startUp
  rw [if_neg b]
  dsimp only
  generalize startState s = t at noop ⊢
  generalize (s.restored (settingsInForce s).2.1) = r at noop ⊢
  generalize (settingsInForce s).2.2 = d
  have h1 : ∃ q : Pqu, (raiseAll (r.damaged.map fun n => spaced [ascii "ENTRY DAMAGED", twoDigits n])
      (if r.wiped = true then raise (ascii "JOURNAL RESET") (if d = true then raise (ascii "SETTINGS DEFAULTED") t else t)
      else if d = true then raise (ascii "SETTINGS DEFAULTED") t else t)) = t.setPqu q ∧ q.list = t.pqu.list := by
    generalize hx : (if r.wiped = true
        then raise (ascii "JOURNAL RESET") (if d = true then raise (ascii "SETTINGS DEFAULTED") t else t)
      else if d = true then raise (ascii "SETTINGS DEFAULTED") t else t) = x
    have hq : ∃ q0 : Pqu, x = t.setPqu q0 ∧ q0.list = t.pqu.list := by
      rw [← hx]
      split <;> split
      · exact ⟨_, rfl, (raise_keeps _ _).1.trans (raise_keeps _ _).1⟩
      · exact ⟨_, rfl, (raise_keeps _ _).1⟩
      · exact ⟨_, rfl, (raise_keeps _ _).1⟩
      · exact ⟨t.pqu, rfl, rfl⟩
    obtain ⟨q0, rfl, l0⟩ := hq
    have e := raiseAll_eq (r.damaged.map fun n => spaced [ascii "ENTRY DAMAGED", twoDigits n]) (t.setPqu q0)
    exact ⟨_, e.1.trans rfl, e.2.trans l0⟩
  obtain ⟨q, h1, l1⟩ := h1
  rw [h1]
  have h2 : ∃ p : Spu, reclaim 32 (t.setPqu q) = { t with pqu := q, spu := p } ∧
      (r.wiped = true → p = t.spu ∧ p.openSlot = none) := by
    refine ⟨_, reclaim_eq _ _, fun w => ?_⟩
    have n := noop w
    have : (t.setPqu q).spu.order = [] := by show t.spu.order = []; rw [n]; rfl
    have e : (reclaim 32 (t.setPqu q)).spu = t.spu := by
      unfold reclaim; dsimp only; rw [this]; rfl
    refine ⟨e, ?_⟩
    rw [e, n]; rfl
  obtain ⟨p, h2, w2⟩ := h2
  rw [h2]
  obtain ⟨⟨p', k, h3, g2, g3, g4⟩, g5⟩ := restoreComposer_eq { t with pqu := q, spu := p }
  have kk : r.wiped = true → p' = t.spu ∧ k.state = t.kcu.state := by
    intro w
    have := g5 (w2 w).2
    rw [h3] at this
    exact ⟨(congrArg State.spu this).trans (w2 w).1, congrArg (fun s : State => s.kcu.state) this⟩
  rw [h3]
  split
  · refine ⟨_, _, (q.raise (ascii "BATTERY LOW")), (sendFrame_eq _).trans rfl, (raise_keeps _ _).1.trans l1, g2, g3, g4, kk⟩
  · refine ⟨_, _, _, (sendFrame_eq _).trans rfl, l1, g2, g3, g4, kk⟩

/-- `s` with another print queue and another display frame: the restores of the spool and of the composer read neither. -/
def restoredBeside (q : Pqu) (f : Text) (b d : Bool) (s : State) : State :=
  { s with pqu := q, kcu := { s.kcu with frame := f, sending := b, frameDue := d } }

theorem reclaim_beside (q : Pqu) (f : Text) (b d : Bool) : ∀ (n : Nat) (s : State),
    reclaim n (restoredBeside q f b d s) = restoredBeside q f b d (reclaim n s)
  | 0, _ => rfl
  | n + 1, s => by
    have p : (restoredBeside q f b d s).spu = s.spu := rfl
    have z : (restoredBeside q f b d s).spoolSize = s.spoolSize := rfl
    conv => lhs; unfold reclaim
    conv => rhs; unfold reclaim
    dsimp only
    rw [p, z]
    cases s.spu.order with
    | nil => rfl
    | cons m rest =>
      dsimp only
      split
      · rw [show ∀ v, (restoredBeside q f b d s).setSpu v = restoredBeside q f b d (s.setSpu v) from fun _ => rfl]
        exact reclaim_beside q f b d n _
      · rfl

theorem restoreComposer_beside (q : Pqu) (f : Text) (b d : Bool) (s : State) :
    restoreComposer (restoredBeside q f b d s) = restoredBeside q f b d (restoreComposer s) := by
  have c : closeEntry (restoredBeside q f b d s) = restoredBeside q f b d (closeEntry s) := by
    have o : (restoredBeside q f b d s).spu.openSlot = s.spu.openSlot := rfl
    unfold closeEntry; rw [o]; split <;> rfl
  have o : (restoredBeside q f b d s).spu.openSlot = s.spu.openSlot := rfl
  unfold restoreComposer
  rw [o]
  split
  · rfl
  · rename_i n _
    have e : (restoredBeside q f b d s).spu.entry n = s.spu.entry n := rfl
    dsimp only
    rw [e]
    split
    · rfl
    · have k : (restoredBeside q f b d s).kcu.formSlotAt (s.spu.entry n).formSlot = s.kcu.formSlotAt (s.spu.entry n).formSlot := rfl
      have m : formBytes (restoredBeside q f b d s).mem (restoredBeside q f b d s).work.map (s.spu.entry n).formSlot =
        formBytes s.mem s.work.map (s.spu.entry n).formSlot := rfl
      rw [k, m]
      split
      · rfl
      · exact c
    · exact c

theorem raiseAll_beside (ts : List Text) : ∀ (q : Pqu) (f : Text) (b d : Bool) (s : State),
    raiseAll ts (restoredBeside q f b d s) = restoredBeside (ts.foldl Pqu.raise q) f b d s := by
  induction ts with
  | nil => intros; rfl
  | cons t ts ih => intro q f b d s; exact ih (q.raise t) f b d s

/-- Start-up is the restore of `startState`, with its notices raised and a frame in progress. -/
theorem startUp_beside {s : State} (b : batteryBand s.pins.battery ≠ .exhausted) : ∃ (q : Pqu) (f : Text) (d : Bool),
    startUp s = restoredBeside q f true d (restoreComposer (reclaim 32 (startState s))) := by
  have self : ∀ t : State, t = restoredBeside t.pqu t.kcu.frame t.kcu.sending t.kcu.frameDue t := fun _ => rfl
  have sent : ∀ (q : Pqu) (f : Text) (b d : Bool) (t : State),
      ∃ f' d', sendFrame (restoredBeside q f b d t) = restoredBeside q f' true d' t := by
    intro q f b d t
    cases b
    · exact ⟨_, _, rfl⟩
    · exact ⟨_, _, rfl⟩
  unfold startUp
  rw [if_neg b]
  dsimp only
  generalize startState s = t
  generalize s.restored (settingsInForce s).2.1 = r
  generalize (settingsInForce s).2.2 = def'
  have h1 : ∃ q, raiseAll (r.damaged.map fun n => spaced [ascii "ENTRY DAMAGED", twoDigits n])
      (if r.wiped = true then raise (ascii "JOURNAL RESET") (if def' = true then raise (ascii "SETTINGS DEFAULTED") t else t)
      else if def' = true then raise (ascii "SETTINGS DEFAULTED") t else t) =
      restoredBeside q t.kcu.frame t.kcu.sending t.kcu.frameDue t := by
    (repeat' split) <;> exact ⟨_, raiseAll_beside _ _ _ _ _ t⟩
  obtain ⟨q, h1⟩ := h1
  rw [h1, reclaim_beside, restoreComposer_beside]
  split
  · obtain ⟨f', d', h⟩ := sent (q.raise (ascii "BATTERY LOW")) t.kcu.frame t.kcu.sending t.kcu.frameDue
      (restoreComposer (reclaim 32 t))
    exact ⟨_, _, _, h⟩
  · obtain ⟨f', d', h⟩ := sent q t.kcu.frame t.kcu.sending t.kcu.frameDue (restoreComposer (reclaim 32 t))
    exact ⟨_, _, _, h⟩

/-- The spool and the composer after start-up are those of the restore. -/
theorem startUp_composer {s : State} (b : batteryBand s.pins.battery ≠ .exhausted) :
    let e := startUp s
    let v := restoreComposer (reclaim 32 { e with
      spu := (s.restored e.work).spu, kcu := { Kcu.reset with forms := e.kcu.forms, alert := s.kcu.alert } })
    KcuBecame v.kcu v e := by
  obtain ⟨k, p, q, h, -, -, -, g, -⟩ := startUp_eq b
  obtain ⟨q', f, d, h'⟩ := startUp_beside b
  have u : ({ startUp s with
      spu := (s.restored (startUp s).work).spu
      kcu := { Kcu.reset with forms := (startUp s).kcu.forms, alert := s.kcu.alert } } : State) =
      restoredBeside (startUp s).pqu Kcu.reset.frame true false (startState s) := by
    rw [h]
    show ({ startState s with spu := _, kcu := { Kcu.reset with forms := k.forms, alert := s.kcu.alert }, pqu := q } : State) = _
    rw [g]; rfl
  dsimp only
  rw [u, reclaim_beside, restoreComposer_beside]
  have hq : (startUp s).pqu = q' := by rw [h']; rfl
  rw [hq]
  generalize startUp s = e at h'
  subst h'
  rfl

/-- The composer's restore leaves the keymap alone. -/
theorem keymap_restoreComposer (s : State) : (restoreComposer s).kcu.keymap = s.kcu.keymap := by
  have c : (closeEntry s).kcu = s.kcu := by unfold closeEntry; split <;> rfl
  unfold restoreComposer
  dsimp only
  (repeat' split) <;> first
    | rfl
    | rw [c]

theorem pqu_raiseAll (ts : List Text) : ∀ s : State, (raiseAll ts s).pqu = ts.foldl Pqu.raise s.pqu := by
  induction ts with
  | nil => intro s; rfl
  | cons t ts ih => intro s; exact ih (raise t s)

/-- The print queue after start-up: the notices it raises, in their order (R136, R186). -/
theorem pqu_startUp {s : State} (b : batteryBand s.pins.battery ≠ .exhausted) :
    (startUp s).pqu = (startNotices s).foldl Pqu.raise Pqu.reset := by
  have band : (startState s).pm.band = batteryBand s.pins.battery := rfl
  have fresh : (startState s).pqu = Pqu.reset := rfl
  have kept : ∀ u : State, (restoreComposer (reclaim 32 u)).pqu = u.pqu ∧ (restoreComposer (reclaim 32 u)).pm = u.pm := by
    intro u
    obtain ⟨⟨p, k, e, _⟩, _⟩ := restoreComposer_eq (reclaim 32 u)
    rw [e, reclaim_eq]; exact ⟨rfl, rfl⟩
  have raised : ∀ (ts : List Text) (u : State), (raiseAll ts u).pm = u.pm := by
    intro ts u; rw [(raiseAll_eq ts u).1]; rfl
  unfold startUp startNotices
  rw [if_neg b]
  dsimp only
  rw [sendFrame_eq]
  dsimp only
  generalize (settingsInForce s).2.2 = d
  generalize s.restored (settingsInForce s).2.1 = r
  generalize startState s = t at band fresh
  cases d <;> cases r.wiped <;> by_cases c : batteryBand s.pins.battery = .critical <;>
    simp [kept, raised, pqu_raiseAll, raise, band, c, fresh, List.foldl_append]

/-- The spool a restore leaves has counted no stray verdict. -/
theorem stray_restored (s : State) (w : Settings) : (s.restored w).spu.stray = 0 := by
  have set : ∀ (es : List (Nat × Entry)) (p : Spu), (es.foldl (fun p q => p.setEntry q.1 q.2) p).stray = p.stray := by
    intro es
    induction es with
    | nil => intro p; rfl
    | cons e es ih => intro p; exact ih _
  have due : ∀ (i : SpuItem) (p : Spu), (p.dueItem i).stray = p.stray := by
    intro i p; unfold Spu.dueItem; split <;> rfl
  have dues : ∀ (ns : List Nat) (p : Spu), (ns.foldl (fun p n => p.dueItem (.record n)) p).stray = p.stray := by
    intro ns
    induction ns with
    | nil => intro p; rfl
    | cons n ns ih => intro p; exact (ih _).trans (due _ _)
  unfold State.restored restoreSpool
  dsimp only
  (repeat' split) <;> first
    | exact due _ _
    | exact (dues _ _).trans (set _ _)

/-- The counters that start-up's restores leave alone. -/
def State.counts (s : State) : List Byte :=
  [s.clu.framingErrors, s.clu.fades, s.spu.stray, s.kcu.refusals, s.kcu.overflows, s.ksu.padFaults]

theorem counts_reclaim : ∀ (n : Nat) (s : State), (reclaim n s).counts = s.counts
  | 0, _ => rfl
  | n + 1, s => by
    have due : ∀ (i : SpuItem) (p : Spu), (p.dueItem i).stray = p.stray := by
      intro i p; unfold Spu.dueItem; split <;> rfl
    unfold reclaim
    dsimp only
    split
    · rfl
    · split
      · rw [counts_reclaim n]; unfold State.counts; dsimp only [State.setSpu]; rw [due, due]; rfl
      · rfl

theorem counts_restoreComposer (s : State) : (restoreComposer s).counts = s.counts := by
  have due : ∀ (i : SpuItem) (p : Spu), (p.dueItem i).stray = p.stray := by
    intro i p; unfold Spu.dueItem; split <;> rfl
  have closed : (closeEntry s).counts = s.counts := by
    unfold closeEntry
    split
    · rfl
    · unfold changeEntry spuDue updateEntry State.counts; dsimp only [State.setSpu]; rw [due]; dsimp only [Spu.setEntry]; rw [due]
  unfold restoreComposer
  split
  · rfl
  · dsimp only
    split
    · rfl
    · split
      · rfl
      · exact closed
    · exact closed

/-- Every counter is 0 after start-up (R186); that of the notices dropped is said by `pqu_startUp`. -/
theorem counts_startUp {s : State} (b : batteryBand s.pins.battery ≠ .exhausted) : (startUp s).counts = List.replicate 6 0 := by
  have start : (startState s).counts = List.replicate 6 0 := by
    have h : (startState s).counts = [0, 0, (s.restored (settingsInForce s).2.1).spu.stray, 0, 0, 0] := rfl
    rw [h, stray_restored]; rfl
  have raised : ∀ (ts : List Text) (u : State), (raiseAll ts u).counts = u.counts := by
    intro ts u; rw [(raiseAll_eq ts u).1]; rfl
  have one : ∀ (t : Text) (u : State), (raise t u).counts = u.counts := fun _ _ => rfl
  have frame : ∀ u : State, (sendFrame u).counts = u.counts := by intro u; rw [sendFrame_eq]; rfl
  unfold startUp
  rw [if_neg b]
  dsimp only
  (repeat' split) <;> simp only [frame, one, counts_restoreComposer, counts_reclaim, raised, start]

/-- A notice raised leaves slot 1 alone where it holds one. -/
theorem raise_first {p : Pqu} (t : Text) (h : (p.noticeAt 1).status ≠ .free) : (p.raise t).noticeAt 1 = p.noticeAt 1 := by
  unfold Pqu.raise Pqu.place
  cases f : p.freeSlot with
  | none => rfl
  | some n =>
    have g := List.find?_some f
    have m := List.mem_of_find?_eq_some f
    have : n ≠ 1 := by rintro rfl; exact h (by simpa using g)
    have : n - 1 ≠ 0 := by simp at m; omega
    show (p.notices.set (n - 1) _).getD 0 _ = p.notices.getD 0 _
    simp [List.getD_eq_getElem?_getD, this]

/-- So do any number of notices. -/
theorem raiseAll_first (ts : List Text) : ∀ {s : State}, (s.pqu.noticeAt 1).status ≠ .free →
    (raiseAll ts s).pqu.noticeAt 1 = s.pqu.noticeAt 1 := by
  induction ts with
  | nil => intro s _; rfl
  | cons t ts ih =>
    intro s h
    have e : (raise t s).pqu.noticeAt 1 = s.pqu.noticeAt 1 := raise_first t h
    exact (ih (by rw [e]; exact h)).trans e

/-- SETTINGS DEFAULTED is the first notice of a start-up that raises it (R184). -/
theorem startUp_defaulted {s : State} (b : batteryBand s.pins.battery ≠ .exhausted) (d : (settingsInForce s).2.2 = true) :
    ((startUp s).pqu.noticeAt 1).text = ascii "SETTINGS DEFAULTED" := by
  unfold startUp
  rw [if_neg b]
  dsimp only
  rw [if_pos d]
  have h0 : (raise (ascii "SETTINGS DEFAULTED") (startState s)).pqu.noticeAt 1 = ⟨.waiting, ascii "SETTINGS DEFAULTED"⟩ := by
    show (Pqu.reset.raise _).noticeAt 1 = _
    decide +kernel
  generalize raise (ascii "SETTINGS DEFAULTED") (startState s) = t at h0
  have h1 : ∀ r : Restored, (raiseAll (r.damaged.map fun n => spaced [ascii "ENTRY DAMAGED", twoDigits n])
      (if r.wiped = true then raise (ascii "JOURNAL RESET") t else t)).pqu.noticeAt 1 = ⟨.waiting, ascii "SETTINGS DEFAULTED"⟩ := by
    intro r
    have e : (if r.wiped = true then raise (ascii "JOURNAL RESET") t else t).pqu.noticeAt 1 = ⟨.waiting, ascii "SETTINGS DEFAULTED"⟩ := by
      split
      · exact (raise_first _ (by rw [h0]; decide)).trans h0
      · exact h0
    exact (raiseAll_first _ (by rw [e]; decide)).trans e
  have h1 := h1 (s.restored (settingsInForce s).2.1)
  generalize raiseAll _ _ = u at h1 ⊢
  have h2 : (restoreComposer (reclaim 32 u)).pqu = u.pqu := by
    obtain ⟨⟨p, k, e, _⟩, _⟩ := restoreComposer_eq (reclaim 32 u)
    rw [e, reclaim_eq]; rfl
  generalize restoreComposer (reclaim 32 u) = v at h2
  rw [sendFrame_eq]
  have h3 : (v.pqu.noticeAt 1) = ⟨.waiting, ascii "SETTINGS DEFAULTED"⟩ := by rw [h2]; exact h1
  split
  · exact congrArg NoticeSlot.text ((raise_first _ (by rw [h3]; decide)).trans h3)
  · exact congrArg NoticeSlot.text h3

end Sys2Proof.Machine
end

