-- ==== Sys2Proof/Laws/Restore.lean ====
section
/-! SUPPORT. The spool restore (R120, R121): how the judged records are laid out, what each slot of a DAMAGED run is given, and the
spool and the loaded set that result. -/

namespace Sys2Proof.Machine

/-- Bit `b` of byte `k` is the flag of glyph 128 + 8k + b (R189). -/
theorem loadedOf_bit (l : Text) (i : Nat) (h : i < 64) : (loadedOf l).getLsbD i = (l.getD (i / 8) 0).getLsbD (i % 8) := by
  let byte := fun k => (l.getD k 0).setWidth 64 <<< (8 * k)
  have u : loadedOf l =
    0#64 ||| byte 0 ||| byte 1 ||| byte 2 ||| byte 3 ||| byte 4 ||| byte 5 ||| byte 6 ||| byte 7 := rfl
  have bit : ∀ k, (byte k).getLsbD i = (decide (i / 8 = k) && (l.getD k 0).getLsbD (i % 8)) := by
    intro k
    dsimp only [byte]
    generalize l.getD k 0 = b
    simp only [BitVec.getLsbD_shiftLeft, BitVec.getLsbD_setWidth, h, decide_true, Bool.true_and]
    by_cases c : i < 8 * k
    · have : i / 8 ≠ k := by omega
      simp [c, this]
    · by_cases d : i / 8 = k
      · have : i - 8 * k = i % 8 := by omega
        have : i % 8 < 64 := by omega
        simp [*]
      · have : 8 ≤ i - 8 * k := by omega
        simp [d, c, BitVec.getLsbD_of_ge b _ this]
  rw [u]
  simp only [BitVec.getLsbD_or, bit, BitVec.getLsbD_zero, Bool.false_or]
  have q : i / 8 < 8 := by omega
  generalize i / 8 = k at q
  rcases k with _ | _ | _ | _ | _ | _ | _ | _ | k <;> first | omega | simp

/-- The DAMAGED slots at the front of a list being laid out join the run. -/
theorem layEntries_gather (size head : Nat) (whole : Bool) (rest : List (Nat × Option Entry)) (start : Nat) :
    ∀ (ns run : List Nat), layEntries size head whole ((ns.map fun n => (n, (none : Option Entry))) ++ rest) run start =
      layEntries size head whole rest (run ++ ns) start
  | [], run => by rw [List.append_nil]; rfl
  | n :: ns, run => by
    rw [List.map_cons, List.cons_append]
    show layEntries size head whole _ (run ++ [n]) start = _
    rw [layEntries_gather size head whole rest start ns, List.append_assoc]; rfl

/-- A run before a good entry (R121). -/
theorem layEntries_run (size head start : Nat) (whole : Bool) (ns : List Nat) (n : Nat) (e : Entry)
    (rest : List (Nat × Option Entry)) :
    let dist := if ns = [] then 0 else (e.start + size - start % size) % size
    layEntries size head whole ((ns.map fun n => (n, (none : Option Entry))) ++ (n, some e) :: rest) [] start =
      if dist ≤ 4095 * ns.length then
        (layEntries size head whole rest [] ((e.start + e.length) % size)).map fun more =>
          damagedRun size ns start dist ++ (n, e) :: more
      else none := by
  intro dist
  rw [layEntries_gather, List.nil_append]
  have u : layEntries size head whole ((n, some e) :: rest) ns start = if dist ≤ 4095 * ns.length then
      (layEntries size head whole rest [] ((e.start + e.length) % size)).bind fun more =>
        some (damagedRun size ns start dist ++ (n, e) :: more) else none := by
    cases ns <;> rfl
  rw [u]
  generalize layEntries size head whole rest [] ((e.start + e.length) % size) = z
  cases z <;> rfl

/-- A run at the end of the list (R121). -/
theorem layEntries_end (size head start : Nat) (whole : Bool) (ns : List Nat) (h : ns ≠ []) :
    let short := (head + size - start % size) % size
    let dist := if short = 0 ∧ whole = true then size else short
    layEntries size head whole (ns.map fun n => (n, (none : Option Entry))) [] start =
      if dist ≤ 4095 * ns.length then some (damagedRun size ns start dist) else none := by
  have g := layEntries_gather size head whole [] start ns []
  rw [List.append_nil, List.nil_append] at g
  dsimp only
  rw [g]
  cases ns with
  | nil => contradiction
  | cons n ns => rfl

theorem damagedRun_length (size : Nat) : ∀ (ns : List Nat) (start dist : Nat), (damagedRun size ns start dist).length = ns.length
  | [], _, _ => rfl
  | [_], _, _ => rfl
  | n :: m :: ns, start, dist => by
    show ((n, _) :: damagedRun size (m :: ns) _ _).length = _
    rw [List.length_cons, damagedRun_length size (m :: ns)]; rfl

/-- The DAMAGED entry of each slot of a run (R121). -/
theorem damagedRun_get (size : Nat) : ∀ (ns : List Nat) (start dist : Nat), start < size → ∀ i n, ns[i]? = some n →
    (damagedRun size ns start dist)[i]? = some (n, damagedEntry ((start + min (4095 * i) dist) % size)
      (if i + 1 = ns.length then dist - min (4095 * i) dist else min 4095 (dist - min (4095 * i) dist)))
  | [], _, _, _, _, _, h => by simp at h
  | [m], start, dist, l, i, n, h => by
    cases i with
    | zero =>
      simp at h; subst h
      simp [damagedRun, Nat.mod_eq_of_lt l]
    | succ i => simp at h
  | m :: m' :: ns, start, dist, l, i, n, h => by
    have z : 0 < size := by omega
    cases i with
    | zero =>
      simp at h; subst h
      simp [damagedRun, Nat.mod_eq_of_lt l]
    | succ i =>
      rw [List.getElem?_cons_succ] at h
      have r := damagedRun_get size (m' :: ns) ((start + min 4095 dist) % size) (dist - min 4095 dist) (Nat.mod_lt _ z) i n h
      show ((m, _) :: damagedRun size (m' :: ns) ((start + min 4095 dist) % size) (dist - min 4095 dist))[i + 1]? = _
      rw [List.getElem?_cons_succ, r]
      have a : ((start + min 4095 dist) % size + min (4095 * i) (dist - min 4095 dist)) % size =
          (start + min (4095 * (i + 1)) dist) % size := by
        rw [Nat.mod_add_mod]; congr 1; omega
      have b : dist - min 4095 dist - min (4095 * i) (dist - min 4095 dist) = dist - min (4095 * (i + 1)) dist := by omega
      rw [a, b]
      simp

theorem damagedRun_slots (size : Nat) : ∀ (ns : List Nat) (start dist : Nat), (damagedRun size ns start dist).map Prod.fst = ns
  | [], _, _ => rfl
  | [_], _, _ => rfl
  | n :: m :: ns, start, dist => by
    show n :: (damagedRun size (m :: ns) _ _).map Prod.fst = _
    rw [damagedRun_slots size (m :: ns)]

/-- The slots laid out are those listed, in their order. -/
theorem layEntries_slots (size head : Nat) (whole : Bool) : ∀ (l : List (Nat × Option Entry)) (run : List Nat) (start : Nat)
    (es : List (Nat × Entry)), layEntries size head whole l run start = some es → es.map Prod.fst = run ++ l.map Prod.fst
  | [], [], _, es, h => by
    have : es = [] := by simpa [layEntries] using h.symm
    subst this; rfl
  | [], a :: run, start, es, h => by
    unfold layEntries at h
    dsimp only at h
    generalize (if (head + size - start % size) % size = 0 ∧ whole = true then size else _) = d at h
    split at h
    · rw [List.map_nil, List.append_nil, ← Option.some.inj h, damagedRun_slots]
    · contradiction
  | (n, none) :: rest, run, start, es, h => by
    have r := layEntries_slots size head whole rest (run ++ [n]) start es h
    rw [r, List.append_assoc]; rfl
  | (n, some e) :: rest, run, start, es, h => by
    unfold layEntries at h
    dsimp only at h
    generalize (if run = [] then 0 else _) = d at h
    split at h
    · obtain ⟨more, h, k⟩ := Option.bind_eq_some_iff.mp h
      rw [← Option.some.inj k, List.map_append, List.map_cons, List.map_cons, damagedRun_slots,
        layEntries_slots size head whole rest _ _ _ h]; rfl
    · contradiction

/-- The records are judged in the list's order, the newest first. -/
theorem judgeRecords_slots (m : Memory) (tail size : Nat) : ∀ (ns : List Nat) (acc : Judged),
    (judgeRecords m tail size ns acc).reverse.map Prod.fst = acc.reverse.map Prod.fst ++ ns
  | [], acc => by simp [judgeRecords]
  | n :: ns, acc => by
    unfold judgeRecords
    rw [judgeRecords_slots m tail size ns]; simp

theorem nodup_eraseDups (l : List Nat) : l.eraseDups.Nodup := by
  induction h : l.length using Nat.strongRecOn generalizing l with
  | _ k ih =>
    cases l with
    | nil => exact List.nodup_nil
    | cons a as =>
      rw [List.eraseDups_cons, List.nodup_cons]
      refine ⟨?_, ih _ ?_ _ rfl⟩
      · rw [List.mem_eraseDups]; simp
      · have := List.length_filter_le (fun b => !b == a) as
        simp at h; omega

theorem eraseDups_nodup : ∀ (l : List Nat), l.Nodup → l.eraseDups = l
  | [], _ => rfl
  | a :: as, h => by
    rw [List.nodup_cons] at h
    have f : as.filter (fun b => !b == a) = as := by
      rw [List.filter_eq_self]; intro b hb; simp; rintro rfl; exact h.1 hb
    rw [List.eraseDups_cons, f, eraseDups_nodup as h.2]

/-- The slots a header lists (R121, log entry 10). -/
theorem headerSlots_listed (l : Text) :
    let listed := ((l.drop 5).take (min 32 (byteAt l 4))).map BitVec.toNat
    (∀ n ∈ headerSlots l, 1 ≤ n ∧ n ≤ 32) ∧ (headerSlots l).Nodup ∧
    ((∀ n ∈ listed, 1 ≤ n ∧ n ≤ 32) → listed.Nodup → headerSlots l = listed) := by
  refine ⟨fun n h => ?_, nodup_eraseDups _, fun h d => ?_⟩
  · unfold headerSlots at h
    rw [List.mem_eraseDups, List.mem_filter] at h
    simpa using h.2
  · unfold headerSlots
    rw [List.filter_eq_self.mpr (by simpa using h)]
    exact eraseDups_nodup _ d

/-- Entries put into different slots of the table. -/
theorem setEntries_entry : ∀ (es : List (Nat × Entry)) (p : Spu), p.table.length = 32 → (∀ q ∈ es, 1 ≤ q.1 ∧ q.1 ≤ 32) →
    (es.map Prod.fst).Nodup → let r := es.foldl (fun p q => p.setEntry q.1 q.2) p
    r = { p with table := r.table } ∧ (∀ n e, (n, e) ∈ es → r.entry n = e) ∧
    (∀ n, 1 ≤ n → n ∉ es.map Prod.fst → r.entry n = p.entry n)
  | [], p, _, _, _ => by
    refine ⟨rfl, ?_, fun _ _ _ => rfl⟩
    intro n e h; cases h
  | (m, f) :: es, p, l, b, d => by
    rw [List.map_cons, List.nodup_cons] at d
    have bm := b _ (List.mem_cons_self ..)
    obtain ⟨a, c, o⟩ := setEntries_entry es (p.setEntry m f) (by simp [Spu.setEntry, l])
      (fun q h => b q (List.mem_cons_of_mem _ h)) d.2
    refine ⟨?_, fun n e h => ?_, fun n h1 h => ?_⟩
    · exact a
    · rcases List.mem_cons.mp h with h | h
      · cases h
        refine (o m bm.1 d.1).trans ?_
        have : m - 1 < 32 := by have := bm.2; have := bm.1; dsimp only at *; omega
        simp [Spu.entry, Spu.setEntry, List.getD_eq_getElem?_getD, l, this]
      · exact c n e h
    · rw [List.map_cons, List.mem_cons] at h
      refine (o n h1 fun k => h (.inr k)).trans ?_
      have : m - 1 ≠ n - 1 := by have := bm.1; dsimp only at this; intro e; exact h (.inl (by dsimp only; omega))
      simp [Spu.entry, Spu.setEntry, List.getD_eq_getElem?_getD, this]

/-- Records made due change nothing but what is due. -/
theorem dueRecords_eq : ∀ (ns : List Nat) (p : Spu), ∃ d, ns.foldl (fun p n => p.dueItem (.record n)) p = { p with due := d }
  | [], p => ⟨p.due, rfl⟩
  | n :: ns, p => by
    obtain ⟨d, r⟩ := dueRecords_eq ns (p.dueItem (.record n))
    have q : ∃ d', p.dueItem (.record n) = { p with due := d' } := by
      unfold Spu.dueItem; split
      · exact ⟨p.due, rfl⟩
      · exact ⟨_, rfl⟩
    obtain ⟨d', q⟩ := q
    exact ⟨d, by rw [List.foldl_cons, r, q]⟩

/-- What the spool restore gives when the header passes (R120, R121). -/
theorem restoreSpool_laid (m : Memory) (w : Settings) :
    let l := m.readAll (addrsFrom 0 64)
    let size := w.map.spool.size
    let tail := wordAt l 37 % size
    let judged := judgeRecords m tail size (headerSlots l) []
    let whole := judged.all (fun p => p.2.isNone) && byteAt l 41 == 1
    let laid := layEntries size (wordAt l 39 % size) whole judged.reverse [] tail
    let r := restoreSpool m w
    headerGood l w = true →
    (laid = none → r = ⟨Spu.reset.dueItem .header, 0, [], true⟩) ∧
    ∀ es, laid = some es →
      let head := match es.getLast? with
        | some (_, e) => (e.start + e.length) % size
        | none => tail
      let sum := (es.map fun p => p.2.length).sum
      r.spu = { Spu.reset with
        table := r.spu.table, due := r.spu.due, order := es.map Prod.fst
        serialNext := if wordAt l 2 = 0 then 1 else wordAt l 2, ring := ⟨tail, head, decide (sum = size ∧ 0 < sum)⟩ } ∧
      r.spu.order = headerSlots l ∧ (∀ n e, (n, e) ∈ es → r.spu.entry n = e) ∧
      (∀ n, 1 ≤ n → n ∉ r.spu.order → r.spu.entry n = freeEntry) ∧
      r.loaded = loadedOf ((l.drop 51).take 8) ∧
      r.damaged = (es.filter fun p => p.2.state == .damaged).map Prod.fst ∧ r.wiped = false := by
  intro l size tail judged whole laid r good
  have e : r = match laid with
    | none => journalReset
    | some es =>
      let damaged := (es.filter fun p => p.2.state == .damaged).map Prod.fst
      let due := (es.filter fun p => rewritten m p.1 p.2).map Prod.fst
      let p := due.foldl (fun p n => p.dueItem (.record n)) (spoolOf l size es)
      ⟨p, loadedOf ((l.drop 51).take 8), damaged, false⟩ := by
    show restoreSpool m w = _
    unfold restoreSpool
    dsimp only
    rw [show headerGood (m.readAll (addrsFrom 0 64)) w = true from good]
    rfl
  refine ⟨fun n => by rw [e, n]; rfl, fun es h => ?_⟩
  have slots := layEntries_slots _ _ _ _ _ _ _ h
  rw [judgeRecords_slots, List.nil_append] at slots
  have slots : es.map Prod.fst = headerSlots l := slots
  obtain ⟨inRange, nodup, -⟩ := headerSlots_listed l
  rw [h] at e
  dsimp only at e
  let head := match es.getLast? with
    | some (_, e) => (e.start + e.length) % size
    | none => tail
  let sum := (es.map fun p => p.2.length).sum
  let base : Spu := { Spu.reset with
    order := es.map Prod.fst, serialNext := if wordAt l 2 = 0 then 1 else wordAt l 2
    ring := ⟨tail, head, decide (sum = size ∧ 0 < sum)⟩ }
  obtain ⟨a, c, o⟩ := setEntries_entry es base (by show (List.replicate 32 freeEntry).length = 32; rfl)
    (fun q hq => inRange _ (slots ▸ List.mem_map_of_mem hq)) (slots ▸ nodup)
  rw [show es.foldl (fun p q => p.setEntry q.1 q.2) base = spoolOf l size es from rfl] at a c o
  obtain ⟨d, due⟩ := dueRecords_eq ((es.filter fun p => rewritten m p.1 p.2).map Prod.fst) (spoolOf l size es)
  have t : r.spu = { spoolOf l size es with due := r.spu.due } := by rw [e]; dsimp only; rw [due]
  have tt : r.spu.table = (spoolOf l size es).table := by rw [t]
  have en : ∀ n, r.spu.entry n = (spoolOf l size es).entry n := by intro n; unfold Spu.entry; rw [tt]
  have full : r.spu = { base with table := r.spu.table, due := r.spu.due } := by
    rw [tt]
    refine t.trans ?_
    conv => lhs; rw [a]
  have ord : r.spu.order = headerSlots l := by rw [full]; exact slots
  refine ⟨full, ord, fun n f k => (en n).trans (c n f k), fun n h1 k => ?_, by rw [e], by rw [e], by rw [e]⟩
  rw [en, o n h1 (by rw [slots, ← ord]; exact k)]
  show (List.replicate 32 freeEntry).getD (n - 1) freeEntry = freeEntry
  rw [List.getD_eq_getElem?_getD, List.getElem?_replicate]
  split <;> rfl

end Sys2Proof.Machine
end

