-- ==== Sys2Proof/Tests/Slice0.lean ====
section
/-! SUPPORT. The model's own tests: an ill-formed command for each check, worked examples of the manual, single commands on small
states, and for every statement with hypotheses a theorem `witness_<statement>` that shows a state and operands meeting them. -/

namespace Sys2Proof.Tests

open Sys2Proof.Machine

-- one theorem at a time: many evaluations side by side would each hold a stack of their own
set_option Elab.async false

/-! ## Small states -/

/-- The state a command leaves. -/
def after (o : Out) : State :=
  match o with
  | .next t => t
  | _ => State.reset

/-- Does a command answer a next state? -/
def answers (o : Out) : Bool :=
  match o with
  | .next _ => true
  | _ => false

/-- The line in this state, nothing timed. -/
def clu (l : LineState) : Clu := { Clu.reset with line := l }

/-- The reset state with this Coupler Line Unit. -/
def withClu (c : Clu) : State := { State.reset with clu := c }

/-- A session running, the Parcel Engine as given. -/
def session (p : Pe) : State := { withClu { clu .ready with carrier := true } with pe := p }

/-- A parcel of an entry. -/
def parcel (last : Bool) : SlotParcel := ⟨false, 7, 0, last, 2, [0x41, 0x42]⟩

/-- A session with these parcels in the slots, slot A filled first. -/
def sending (a b : SendSlot) (ack : Option Nat) : State := session { Pe.reset with slotA := a, slotB := b, ackTimer := ack }

/-- An entry of slot 1 in this state, 4 bytes long, with serial 7. -/
def entry (st : EntryState) : Entry :=
  { freeEntry with state := st, cls := some .note, serial := some 7, length := 4, recLength := 4, recorded := true }

/-- A spool that holds this one entry in slot 1. -/
def spool (e : Entry) : Spu :=
  { Spu.reset with table := e :: List.replicate 31 freeEntry, order := [1], ring := ⟨0, e.length, false⟩ }

/-- An OPEN entry of this length. -/
def opened (n : Nat) : Entry := { entry .opened with serial := none, length := n, recLength := n }

/-- The event is in front, the composer in this state, with an OPEN entry of 4 bytes. -/
def typing (e : KeyEvent) (k : Kcu) : State :=
  { State.reset with kcu := { k with typeahead := [e] }, spu := spool (opened 4) }

/-- The composer in FREE with this line. -/
def free (line : Text) (count : Nat) (staging : Text) : Kcu :=
  { Kcu.reset with state := .free, line := line, count := count, staging := staging }

/-- A form of two fields: digits, required, four wide; and any, five wide. -/
def orderForm : FormImage := ⟨ascii "F", [⟨ascii "QTY", 4, .digits, true⟩, ⟨ascii "ITEM", 5, .any, false⟩]⟩

/-- The composer in FORM at this cursor with this value. -/
def form (c : Cursor) (value : Text) (count : Nat) (staging : Text) : Kcu :=
  { Kcu.reset with
    state := .form, image := orderForm, formSlot := 1, cursor := c, value := value, count := count, staging := staging }

/-- The composer in another state. -/
def inState (st : ComposerState) : Kcu := { Kcu.reset with state := st }

/-- A local directive's arguments. -/
def words (l : List String) : List Text := l.map ascii

/-- A notice in the list. -/
def noticeLine : Descriptor := .notice 1

/-- The state with the paper out, so that the head prints nothing. -/
def quiet (s : State) : State :=
  { s with hdu := { s.hdu with paper := true }, pins := { s.pins with paperAbsent := true } }

/-! ## Well-formed commands -/

theorem test_wf_sequence : (Instr.receiveAck 8).check = .error .sequence := rfl
theorem test_wf_body : (Instr.receiveText 7 (List.replicate 49 0x41)).check = .error .body := rfl
theorem test_wf_reasonCode : (Instr.receiveReject 1 100 []).check = .error .reasonCode := rfl
theorem test_wf_counts : (Instr.measurementEnd [1, 2, 3]).check = .error .counts := rfl
theorem test_wf_slot : (Instr.acceptTimerExpiry 33).check = .error .slot := rfl
theorem test_wf_group : (Instr.strobeEnd 0).check = .error .group := rfl
theorem test_wf_temperature : (Instr.temperatureSample 128).check = .error .temperature := rfl
theorem test_wf_tag : (Instr.qs .line 100 []).check = .error .tag := rfl
theorem test_wf_good : (Instr.receiveText 7 (List.replicate 48 0x41)).wf = true ∧ (Instr.qs .line 99 []).wf = true := by decide
theorem test_no_word (n w : Nat) : decodeTableWord n w = none ∧ State.reset.withFetchWord n w = State.reset := ⟨rfl, rfl⟩

/-! ## The manual's examples -/

/-- Table 1.2. -/
theorem test_inbound_ring :
    let r1 := emptyRing.append 1024 1000
    let r2 := r1.release 1024 600
    let r3 := r2.append 1024 300
    let r4 := r3.append 1024 324
    let r5 := r4.release 1024 1024
    r1 = ⟨0, 1000, false⟩ ∧ r2 = ⟨600, 1000, false⟩ ∧ r3 = ⟨600, 276, false⟩ ∧ r3.fill 1024 = 700 ∧ r4 = ⟨600, 600, true⟩ ∧
      r4.free 1024 = 0 ∧ r5 = ⟨600, 600, false⟩ ∧ r5.fill 1024 = 0 ∧
      placeAddrs (defaultMap 8192) (.ring .inbound 1020) 8 = [4092, 4093, 4094, 4095, 3072, 3073, 3074, 3075] := by decide

/-- Table 1.4, the fifth and sixth rows. -/
theorem test_pass_over :
    let b : Burst := ⟨false, .addr 0, 8, [], .rowText⟩
    let j : Jmc := ⟨none, ⟨none, 0⟩, ⟨some b, 0⟩, ⟨some b, 4⟩, ⟨some b, 4⟩⟩
    let k : Jmc := { j.grant.request .hdu b with current := none }
    j.choice = some .spu ∧ j.grant.pe.passed = 1 ∧ j.grant.du.passed = 4 ∧ k.choice = some .du ∧ k.grant.hdu.passed = 1 ∧
      k.grant.pe.passed = 2 := by decide

/-- The worked example below Table 8.4. -/
theorem test_strobe_durations :
    effectiveBase defaultSettings .normal .high = 50 ∧ warmDuration defaultSettings 50 = 34 ∧
      effectiveBase defaultSettings .normal .mid = 57 ∧ warmDuration defaultSettings 57 = 39 ∧ roundSixteenths 24 = 2 ∧
      roundSixteenths 40 = 2 ∧ groupLimit .high true = 3 ∧ groupLimit .mid true = 2 := by decide

set_option maxRecDepth 100000 in
/-- The worked example below Table 12.8. -/
theorem test_settings_image :
    let l := defaultSettings.bytes
    l.length = 128 ∧ l.take 2 = [0xA5, 0x3C] ∧ (l.drop 2).take 7 = [0x1C, 0x1E, 30, 4, 4, 3, 6] ∧
      (l.drop 9).take 12 = [1, 0, 3, 0, 20, 2, 3, 0, 0x78, 3, 3, 20] ∧ (l.drop 69).take 9 = [0, 4, 4, 8, 4, 12, 4, 16, 16] ∧
      (l.drop 87).take 3 = [11, 4, 0x0F] ∧ settingsOk l = true ∧ settingsOf l = (defaultSettings, false) := by decide +kernel

/-- Escaping (R39): the mark and the escape themselves. -/
theorem test_escape : escapeByte 0xF5 = [0xF6, 0x75] ∧ escapeByte 0xF6 = [0xF6, 0x76] ∧ escapeByte 0x41 = [0x41] := by decide

/-- A parcel sent is a parcel read (Table 12.1). -/
theorem test_parcel_read :
    let p : Parcel := ⟨.text, 3, 0, 0, false, [0x41, 0x0A]⟩
    let l := p.image ++ checkBytes p.image
    parcelCheckOk l = true ∧ parcelOf l = some p ∧ p.inRange = true ∧ p.chars.length = 12 := by decide +kernel

/-- Table 3.2, the first, second, third and sixth rows. -/
theorem test_station_text :
    let t : Text := List.replicate 40 0x41
    let s := session { Pe.reset with expected := 2 }
    let u := session { Pe.reset with expected := 3, nakRecord := some 3, nakTimer := some 3, good := 1, bad := 1 }
    let v := session { Pe.reset with expected := 5, good := 4, bad := 1 }
    (after (exec (.receiveText 2 t) s)).pe.expected = 3 ∧ (after (exec (.receiveText 2 t) s)).du.input = t ∧
      (after (exec (.receiveText 2 t) s)).pe.good = 1 ∧
      (after (exec (.receiveText 4 t) u)).pe.expected = 3 ∧ (after (exec (.receiveText 4 t) u)).pe.good = 2 ∧
      (after (exec (.receiveText 4 t) u)).pe.tx = none ∧
      (after (exec (.receiveText 4 t) v)).pe.duplicates = 1 ∧ (after (exec (.receiveText 4 t) v)).du.input = [] := by
  decide +kernel

/-- The keymap's corners and the code table's (Tables 5.2, 8.2). -/
theorem test_default_tables :
    defaultKeymap.length = 144 ∧ defaultCodes.length = 256 ∧ defaultBase 10 = .char 0x30 true ∧
      defaultShift 43 = .action .note false ∧ defaultFunc 42 = .action .send false ∧ defaultCode 0x7F = .substitute ∧
      defaultCode 0xBF = .glyph 191 ∧ (defaultMap 8192).valid 8192 = true ∧ (defaultMap 16384).valid 16384 = true ∧
      (defaultMap 32768).valid 32768 = true := by decide +kernel

/-- The default protection set's line (R175). -/
theorem test_ps_line : psLine defaultSettings.protect = ascii "Q Y P Y F Y S Y K N X N" := by decide +kernel

/-! ## Single commands -/

set_option maxRecDepth 100000 in
/-- A blank journal and the default settings image: JOURNAL RESET is raised, and no other notice; the working values are the
defaults. -/
theorem test_power_on :
    let s : State := { State.reset with pm := { Pm.reset with power := .off } }
    let t := after (exec (.powerOn 5000 25 true false) s)
    t.work = defaultSettings ∧ t.pm.power = .run ∧ t.pqu.list = [.notice 1] ∧ (t.pqu.noticeAt 1).text = ascii "JOURNAL RESET" ∧
      t.hdu.limit = 4 ∧ t.hdu.head = .paused := by decide +kernel

theorem test_line_up :
    let t := after (exec .settleTimerExpiry (quiet (withClu { clu .settle with settleTimer := true })))
    t.clu.line = .ready ∧ t.kcu.alert = true ∧ t.pqu.list = [.notice 1] ∧ (t.pqu.noticeAt 1).text = ascii "LINE UP" := by
  decide +kernel

theorem test_note_stores :
    let t := after (exec .keyChar (typing (.char 0x41) (free [0x42] 4 [])))
    t.kcu.staging = [0x41] ∧ t.kcu.line = [0x42, 0x41] ∧ t.kcu.count = 5 ∧ t.kcu.typeahead = [] := by decide +kernel

theorem test_flush_writes :
    let s : State := { typing (.char 0x41) (free [0x42] 5 [0x41]) with spu := spool (opened 4) }
    let t := after (exec .flushTake { s with kcu := { s.kcu with flush := .waiting } })
    let u := after (exec .burstComplete t)
    t.jmc.current.isSome = true ∧ (t.spu.entry 1).length = 5 ∧ u.mem.read 4100 = 0x41 ∧ u.kcu.flush = .none := by decide +kernel

theorem test_wm_protects :
    let t := after (exec (.wm .service 5 (words ["100", "00"])) (quiet State.reset))
    (t.pqu.noticeAt 1).text = ascii "WM05 PROTECTED" := by decide +kernel

theorem test_sr_moves :
    let t := after (exec (.sr .service 6 (words ["16384"])) State.reset)
    t.work.memSize = 16384 ∧ t.work.map.spool = ⟨8192, 8192⟩ ∧ t.jmc.current.isSome = true := by decide +kernel

theorem test_line_directive :
    let s := { session Pe.reset with du := { Du.reset with
      input := [0x1E], line := ⟨.collecting, ascii "kl07", false, 0, none, false⟩ } }
    let t := after (exec .lineInputByte s)
    t.kcu.lock = true ∧ t.du.line.state = .idle ∧ t.pe.reports = [⟨7, [0], 1⟩] := by decide +kernel

theorem test_doze :
    let t := after (exec .dozeIdleTimerExpiry State.reset)
    t.pm.power = .doze ∧ t.ksu.ganged = true ∧ t.kcu.frameDue = true := by decide +kernel

/-- A notice claimed while a restart waits for the burst in progress is listed at once (R134), and no burst is asked for. -/
theorem test_listed_while_restarting :
    let c : CurrentBurst := ⟨.du, ⟨true, .addr 512, 1, [1], .directive .line⟩, true⟩
    let s := quiet { State.reset with
      jmc := { Jmc.reset with current := some c }, pm := { Pm.reset with restarting := true, stage := .burst } }
    let t := after (exec .lineIdleTimerExpiry { s with pqu := { s.pqu.raise (ascii "LINE UP") with
      asm := { emptyLine 0 with length := 1, idleTimer := some 3 } } })
    t.pqu.list = [.inbound true 0 1 [], .notice 1] ∧ t.jmc = s.jmc ∧ t.pm.stage = .burst := by decide +kernel

theorem test_no_such_address :
    let c : CurrentBurst := ⟨.du, ⟨false, .addr 8190, 4, [], .inboundText⟩, true⟩
    answers (exec .burstComplete { State.reset with jmc := { Jmc.reset with current := some c } }) = false := by decide +kernel

/-! ## Witnesses: the hypotheses of each statement are met -/

theorem witness_StepRunsFront :
    { State.reset with pending := [.alertEnd, .scanStart] }.pending = .alertEnd :: [.scanStart] ∧ State.reset.pending = [] :=
  ⟨rfl, rfl⟩

theorem witness_StepKeepsMemoryForm : Inv State.reset ∧ Bounded State.reset ∧ step State.reset = .next State.reset := by
  refine ⟨rfl, ⟨by decide, by decide, fun w => ?_, by decide, by decide, by decide, by decide, by decide, by decide,
    by decide⟩, rfl⟩
  cases w <;> decide

theorem witness_MemoriesChange :
    (∃ t, exec .alertEnd State.reset = .next t) ∧
      (∃ t, exec .settingsWriteComplete { State.reset with pm := { Pm.reset with writing := some [] } } = .next t) ∧
      Instr.alertEnd ≠ .burstComplete ∧ Instr.alertEnd ≠ .settingsWriteComplete ∧ (∀ b, Instr.alertEnd ≠ .batteryRemoved b) ∧
      (∀ n x p l, Instr.alertEnd ≠ .powerOn n x p l) ∧ Instr.alertEnd ≠ .carrierPresent ∧ Instr.alertEnd ≠ .carrierAbsent :=
  ⟨⟨_, rfl⟩, ⟨_, rfl⟩, by decide, by decide, fun _ h => (by cases h), fun _ _ _ _ h => (by cases h), by decide, by decide⟩

theorem witness_CommonEndKeeps : State.reset.steady := rfl

/-- Each stage at its wait and past it: a report in the queue and none, the line up and OFF, staging of 8 that fits, that the ring
has 7 bytes for, and that no entry is open for, work due and none, a burst in progress and none, the battery just above EXHAUSTED
and in it, a settings write. -/
theorem witness_CommonEndKeeps_stages :
    let on := fun l st => { withClu (clu l) with pm := { Pm.reset with stage := st } }
    let told := { on .ready .report with pe := { Pe.reset with reports := [⟨1, [0], 1⟩] } }
    let staged := fun r => { on .off .line with
      kcu := { free [] 12 (List.replicate 8 0x41) with flush := .waiting }, spu := { spool (opened 4) with ring := r } }
    let secured := { on .off .line with spu := { Spu.reset with securing := true } }
    let busy := { on .off .burst with
      jmc := { Jmc.reset with current := some ⟨.du, ⟨true, .addr 0, 1, [1], .directive .line⟩, true⟩ } }
    let dying := { on .off .burst with pins := ⟨4199, 25, 0, false, false⟩ }
    let due := fun st => { on .off st with spu := Spu.reset.dueItem .header }
    pmStage State.reset = none ∧ (pmStage (on .off .secure)).isSome = true ∧
      told.pe.reports ≠ [] ∧ told.clu.line = .ready ∧ (on .ready .report).pe.reports = [] ∧ (on .ready .report).clu.line = .ready ∧
      (on .listen .report).clu.line = .listen ∧ (on .clearing .report).clu.line = .clearing ∧ (on .off .report).clu.line = .off ∧
      (on .clearing .line).pm.stage = .line ∧ (on .clearing .line).clu.line ≠ .off ∧ secured.spu.securing = true ∧
      (on .off .line).spu.securing = false ∧ (on .off .line).kcu.staging = [] ∧ (staged ⟨0, 4088, false⟩).kcu.staging ≠ [] ∧
      (staged ⟨0, 4088, false⟩).kcu.staging.length ≤
        (staged ⟨0, 4088, false⟩).spu.ring.free (staged ⟨0, 4088, false⟩).spoolSize ∧
      (staged ⟨0, 4088, false⟩).spu.openSlot.isSome = true ∧
      (staged ⟨0, 4089, false⟩).spu.ring.free (staged ⟨0, 4089, false⟩).spoolSize <
        (staged ⟨0, 4089, false⟩).kcu.staging.length ∧
      (due .secure).spu.due ≠ [] ∧ (on .off .secure).spu.due = [] ∧ (on .off .secure).spu.cur = none ∧
      busy.jmc.current ≠ none ∧ (on .off .burst).jmc.current = none ∧
      batteryBand (on .off .burst).pins.battery ≠ .exhausted ∧ batteryBand dying.pins.battery = .exhausted ∧
      (due .shutdown).spu.due ≠ [] ∧ (on .off .shutdown).pm.stage = .shutdown ∧ (on .off .shutdown).pm.writing = none := by
  decide +kernel

theorem witness_MemoryReadsWhatWasWritten : Memory.wf [(5, 1), (9, 2)] = true ∧ (6 : Nat) ≠ 5 := by decide

/-- A ring that wraps, at both ends of each clause: one byte, all the free space, and all of a full ring. -/
theorem witness_RingArithmetic :
    let r : RingState := ⟨6, 2, false⟩
    let f : RingState := ⟨3, 3, true⟩
    (r.tail < 8 ∧ r.head < 8 ∧ (r.full = true → r.head = r.tail) ∧ 1 ≤ 4 ∧ 4 ≤ r.free 8 ∧ 4 ≤ r.fill 8 ∧ 1 ≤ r.free 8) ∧
      f.tail < 8 ∧ f.head < 8 ∧ (f.full = true → f.head = f.tail) ∧ 8 ≤ f.fill 8 := by decide

/-- The second requester at 4 is granted, ahead of one that waits with less. -/
theorem witness_ArbiterGrants :
    let b : Burst := ⟨false, .addr 0, 8, [], .rowText⟩
    let j : Jmc := ⟨none, ⟨some b, 3⟩, ⟨none, 0⟩, ⟨some b, 4⟩, ⟨some b, 4⟩⟩
    j.choice = some .spu ∧ (j.req .spu).waiting = some b ∧ (j.req .hdu).waiting.isSome = true ∧
      (j.req .spu).passed = 4 ∧ Requester.all.idxOf .hdu < Requester.all.idxOf .spu := by decide

/-- A write of the last eight bytes, and a read that wraps in a ring. -/
theorem witness_BurstCompletes :
    let w : CurrentBurst := ⟨.du, ⟨true, .addr 8184, 8, [1, 2, 3, 4, 5, 6, 7, 8], .directive .line⟩, true⟩
    let r : CurrentBurst := ⟨.hdu, ⟨false, .ring .inbound 1020, 8, [], .rowText⟩, true⟩
    Inv State.reset ∧
      (w.burst.data.length = w.burst.count ∧ (placeAddrs defaultSettings.map w.burst.place w.burst.count).Nodup ∧
        ∀ a ∈ placeAddrs defaultSettings.map w.burst.place w.burst.count, a < defaultSettings.memSize) ∧
      r.burst.write = false ∧ (∀ v, (State.reset.jmc.req v).waiting = none) ∧
        ∀ a ∈ placeAddrs defaultSettings.map r.burst.place r.burst.count, a < defaultSettings.memSize := by
  refine ⟨rfl, by decide +kernel, rfl, fun v => ?_, by decide +kernel⟩
  cases v <;> rfl

/-- A line state with the part awake, and what is timed in it; and DOZE. -/
theorem witness_CarrierDetection :
    State.reset.pm.power.awake = true ∧ State.reset.clu.line = .off ∧
      (withClu { clu .listen with listenTimer := some 30 }).clu.listenTimer.isSome = true ∧
      (withClu { clu .listen with listenTimer := some 30 }).clu.line = .listen ∧
      (withClu { clu .detect with gap := true, confirming := true }).clu.line = .detect ∧
      (withClu { clu .detect with gap := true, confirming := true }).clu.gap = true ∧
      (withClu { clu .detect with gap := true, confirming := true }).clu.confirming = true ∧
      { State.reset with pm := { Pm.reset with power := .doze } }.pm.power = .doze := by decide

theorem witness_SettleEnds :
    let s := withClu { clu .settle with settleTimer := true, lossGap := true }
    s.pm.power.awake = true ∧ s.clu.line = .settle ∧ s.clu.lossGap = true ∧ s.clu.settleTimer = true ∧ s.pe.held = false ∧
      s.pe.control = [] := by decide

/-- The flow test in a session and out of one: the free space one below the hold mark of 256 and at it, at the resume mark of 768
and one above, held and not, its parcel queued and not. -/
theorem witness_SettleEnds_flow :
    let s := fun l used p => { withClu (clu l) with pqu := { Pqu.reset with ring := ⟨0, used, false⟩ }, pe := p }
    let free := fun used => (s .ready used Pe.reset).pqu.ring.free (s .ready used Pe.reset).inboundSize
    (s .ready 0 Pe.reset).clu.line = .ready ∧ (s .fade 0 Pe.reset).clu.line = .fade ∧
      ¬ ((s .off 0 Pe.reset).clu.line = .ready ∨ (s .off 0 Pe.reset).clu.line = .fade) ∧
      free 769 < State.reset.work.holdMark ∧ ¬ free 768 < State.reset.work.holdMark ∧ ¬ State.reset.work.resumeMark < free 256 ∧
      State.reset.work.resumeMark < free 255 ∧ Pe.reset.held = false ∧ { Pe.reset with held := true }.held = true ∧
      Control.hold ∉ Pe.reset.control ∧ ¬ Control.resume ∉ { Pe.reset with control := [.resume] }.control := by decide +kernel

theorem witness_FadeAndRegain :
    let s := withClu { clu .ready with lossGap := true }
    let t := withClu { clu .fade with regain := true }
    s.pm.power.awake = true ∧ s.clu.line = .ready ∧ s.clu.lossGap = true ∧ t.pm.power.awake = true ∧ t.clu.line = .fade ∧
      t.clu.regain = true := by decide

theorem witness_SessionEnds :
    let t := withClu { clu .fade with fadeTimer := some 4 }
    let u := withClu { clu .clearing with clearingTimer := true }
    (session Pe.reset).pm.power.awake = true ∧ (session Pe.reset).clu.line = .ready ∧ t.clu.line = .fade ∧
      t.clu.fadeTimer.isSome = true ∧ u.clu.line = .clearing ∧ u.clu.clearingTimer = true := by decide

theorem witness_SessionEndEntries :
    let s : State := { State.reset with spu := spool (entry .sending) }
    s.spu.table.length = 32 ∧ s.spu.order.Nodup ∧ (∀ m ∈ s.spu.order, 1 ≤ m ∧ m ≤ 32) ∧ 1 ∈ s.spu.order ∧ s.spu.due.Nodup ∧
      (s.spu.entry 1).state = .sending := by decide

theorem witness_LineAction :
    (withClu (clu .off)).clu.line = .off ∧ (withClu (clu .listen)).clu.line = .listen ∧ (withClu (clu .settle)).clu.line = .settle ∧
      (withClu (clu .ready)).clu.line = .ready ∧ (withClu (clu .clearing)).clu.line = .clearing := by decide

theorem witness_CharacterSent :
    let slot : SendSlot := .outstanding (parcel true) 3 1 false true
    let s := fun (p : Pe) (l : LineState) => { State.reset with clu := { clu l with txChar := some 0x41 }, pe := p }
    let p : Pe := { Pe.reset with tx := some ⟨.slot .a, []⟩, slotA := slot }
    let q : Pe := { Pe.reset with tx := some ⟨.slot .b, []⟩, slotB := .ending }
    (s Pe.reset .ready).pm.power.awake = true ∧ (s Pe.reset .ready).clu.txChar.isSome = true ∧
      (s { Pe.reset with tx := some ⟨.slot .a, [0x42]⟩ } .ready).pe.tx = some ⟨.slot .a, 0x42 :: []⟩ ∧
      (s Pe.reset .ready).pe.tx = none ∧
      (s p .ready).pe.tx = some ⟨.slot p.older, []⟩ ∧ (s p .ready).pe.slot p.older = slot ∧
      (let y := { p with tx := some ⟨.slot .b, []⟩, slotB := slot, ackTimer := some 3 };
        y.tx = some ⟨.slot .b, []⟩ ∧ y.slot .b = slot ∧ SlotId.b ≠ y.older ∧ (y.slot y.older).isOutstanding = true) ∧
      (let y := { q with slotB := slot }; y.slot .b = slot ∧ (y.slot y.older).isOutstanding = false) ∧
      (s { Pe.reset with tx := some ⟨.control .clear, []⟩ } .clearing).clu.line = .clearing ∧
      Control.hold ≠ .clear ∧ q.tx = some ⟨.slot .b, []⟩ ∧ q.slot .b = .ending := by
  decide

/-- The transmitter idle, with what may begin next: a control parcel, a station hold, a parcel resend-due in either slot, a FILLED
one, a CLEAR; and what may fill a slot: a report, an entry, a last read. -/
theorem witness_CharacterSent_begins :
    let due : SendSlot := .outstanding (parcel false) 3 1 true false
    let out : SendSlot := .outstanding (parcel false) 3 1 false false
    let p := fun a b => { Pe.reset with slotA := a, slotB := b }
    let q : Pe := { Pe.reset with reports := [⟨1, [0], 1⟩, ⟨2, [0], 0⟩] }
    let z : Pe := { Pe.reset with source := some ⟨7, 0, 49, 1⟩ }
    (session Pe.reset).clu.txChar = none ∧ (session Pe.reset).pe.tx = none ∧ (session Pe.reset).clu.line = .ready ∧
      (session Pe.reset).pe.control = [] ∧ (session Pe.reset).pe.stationHold = false ∧
      { Pe.reset with control := [.hold] }.control = .hold :: [] ∧ { Pe.reset with stationHold := true }.stationHold = true ∧
      (p due .free).slot (p due .free).older = due ∧
      ((p out due).slot (p out due).older).resendDue = false ∧ (p out due).slot (p out due).older.other = due ∧
      (p (.filled (parcel false)) .free).slot .a = .filled (parcel false) ∧
      (withClu (clu .clearing)).clu.line = .clearing ∧ (withClu (clu .off)).clu.line ≠ .ready ∧
      (q.reports[1]? = some ⟨2, [0], 0⟩ ∧ 0 < max 1 ((1 + 47) / 48) ∧ max 1 ((1 + 47) / 48) ≤ 1) ∧
      (z.source = some ⟨7, 0, 49, 1⟩ ∧ 1 < max 1 ((49 + 47) / 48) ∧ ∀ r ∈ z.reports, max 1 ((r.body.length + 47) / 48) ≤ r.filled) ∧
      (p (.loading (parcel false) 0) .free).slot .a = .loading (parcel false) 0 ∧
      (parcel false).length ≤ [(0x41 : Byte), 0x42].length := by
  decide

/-- Each state of the assembler, at the edges: the header's last byte at 0, 48 and 49, the last byte of the body and of the check
and the one before, an escape, and a parcel waiting to close, GOOD and not. -/
theorem witness_CharacterReceived :
    let at' := fun (a : Assembler) => session { Pe.reset with asm := a }
    let six : Text := [1, 0, 0, 0, 0, 0]
    let p : Parcel := ⟨.ack, 3, 0, 0, false, []⟩
    let good : Assembler := ⟨.closeWait, p.image ++ checkBytes p.image, false, false, false, true⟩
    let length := fun (t : Text) => byteAt t 6
    (at' huntingAsm).pm.power.awake = true ∧ (at' huntingAsm).clu.line = .ready ∧ State.reset.clu.line ≠ .ready ∧
      (at' huntingAsm).clu.receiver.rests = true ∧ (at' huntingAsm).pe.asm.state = .hunting ∧
      (let a : Assembler := ⟨.header, six.take 5, false, true, false, false⟩; a.state = .header ∧ a.escape = true) ∧
      (six.take 5 ++ [0x41]).length < 7 ∧ 7 ≤ (six ++ [0]).length ∧ length (six ++ [0]) = 0 ∧
      (1 ≤ length (six ++ [48]) ∧ length (six ++ [48]) ≤ 48) ∧ 48 < length (six ++ [49]) ∧
      (let t := six ++ [2, 0x41, 0x42]; t.dropLast.length < 7 + length t.dropLast ∧ 7 + length t ≤ t.length) ∧
      (let t := six ++ [0, 1, 2]; t.dropLast.length < 9 + length t.dropLast ∧ 9 + length t ≤ t.length) ∧
      (0x41 : Byte) ≠ 0xF5 ∧ (0x41 : Byte) ≠ 0xF6 ∧
      good.state = .closeWait ∧ good.judge = (.good, some p) ∧ { good with framing := true }.judge.1 ≠ .good := by decide +kernel

/-- The mark tone one above the space tone and level with it, at the start bit, the seventh and eighth data bits, and the stop
bit. -/
theorem witness_CharacterReceived_bits :
    let bits := fun n => List.replicate n true
    (bits 6).length < 7 ∧ (bits 7).length = 7 ∧ Receiver.start.hear (.level 1 1) = (.data [], none) ∧
      Receiver.start.hear (.level 2 1) = (.hunting, none) ∧ (Receiver.data (bits 7)).hear (.level 0 0) = (.stop 0x7F, none) ∧
      (Receiver.stop 0x41).hear (.level 1 1) = (.awaitMark, some (0x41, true)) := by decide

theorem witness_CloseTimerExpires :
    let p : Parcel := ⟨.text, 3, 0, 0, false, [0x41]⟩
    let good : Assembler := ⟨.closeWait, p.image ++ checkBytes p.image, false, false, false, true⟩
    let s := fun (a : Assembler) => session { Pe.reset with asm := a }
    (s good).receiving = true ∧ (s good).pe.asm.state = .closeWait ∧ (s good).pe.asm.closeTimer = true ∧
      (s good).pe.asm.judge = (.good, some p) ∧ (s { good with framing := true }).pe.asm.framing = true ∧
      (s { good with bytes := p.image ++ [0, 0] }).pe.asm.judge.1 ≠ .good := by decide +kernel

/-- Parcels at the edges of the range, of a kind that is none, and one whose check does not match, as they are judged. -/
theorem witness_CloseTimerExpires_judged :
    let asm := fun (image : Text) => (⟨.closeWait, image ++ checkBytes image, false, false, false, true⟩ : Assembler)
    let clean := fun (a : Assembler) => a.badEscape = false ∧
      checkBytes (a.bytes.take (7 + byteAt a.bytes 6)) = (a.bytes.drop (7 + byteAt a.bytes 6)).take 2
    let reject := fun (code : Byte) n => (⟨.reject, 7, 1, code, false, List.replicate n 0x41⟩ : Parcel)
    (∀ k, (asm [10, 0, 0, 0, 0, 0, 0]).bytes.getD 0 0 ≠ ParcelKind.code k) ∧
      clean (asm (reject 1 24).image) ∧ (asm (reject 1 24).image).judge = (.good, some (reject 1 24)) ∧
      (asm (reject 99 24).image).judge = (.good, some (reject 99 24)) ∧ (asm (reject 0 24).image).judge.1 = .badCheck ∧
      (asm (reject 100 24).image).judge.1 = .badCheck ∧ (asm (reject 1 25).image).judge.1 = .badCheck ∧
      (asm { reject 1 24 with seq := 8 }.image).judge.1 = .badCheck ∧ (asm { reject 1 0 with kind := .report }.image).judge.1 = .badCheck ∧
      (asm { reject 1 0 with kind := .text }.image).judge.1 = .good ∧ (asm { reject 1 1 with kind := .ack }.image).judge.1 = .badCheck ∧
      clean (asm [10, 0, 0, 0, 0, 0, 0]) ∧ (asm [10, 0, 0, 0, 0, 0, 0]).judge.1 = .badCheck ∧
      ¬ clean { asm (reject 1 24).image with badEscape := true } :=
  ⟨fun k => (by cases k <;> decide), by decide +kernel⟩

/-- The input queue at 16 and 17 bytes for a body of 48, the expected sequence, the one before, another, and out of range. -/
theorem witness_ReceiveText :
    let body : Text := List.replicate 48 0x41
    let s := fun n => { session { Pe.reset with held := true } with du := { Du.reset with input := List.replicate n 0x41 } }
    (s 16).receiving = true ∧ (0 : Byte).toNat ≤ 7 ∧ body.length ≤ 48 ∧ (0 : Byte).setWidth 3 = (s 16).pe.expected ∧
      (s 16).du.input.length + body.length ≤ 64 ∧ 64 < (s 17).du.input.length + body.length ∧
      (s 17).pe.reminderTimer = none ∧ (7 : Byte).toNat ≤ 7 ∧ (7 : Byte).setWidth 3 + 1 = (s 16).pe.expected ∧
      (5 : Byte).setWidth 3 ≠ (s 16).pe.expected ∧ (5 : Byte).setWidth 3 + 1 ≠ (s 16).pe.expected ∧ 7 < (8 : Byte).toNat ∧
      48 < (body ++ [0x41]).length := by decide +kernel

/-- The control queue with one of the same kind, with room, full with one that gives way and with none, as it is then left. -/
theorem witness_ReceiveText_queues :
    let q := fun l c => ({ Pe.reset with control := l } : Pe).queue c
    let full : List Control := [.hold, .reminder, .ack 1, .resume]
    (q [.nak 1, .ack 1, .hold] (.ack 2)).control = [.nak 1] ++ .ack 2 :: [.hold] ∧ (q [.ack 1] (.nak 2)).control = [.ack 1, .nak 2] ∧
      full.length = 4 ∧ (q full .hold).control = [.hold] ++ .hold :: [.ack 1, .resume] ∧ (q full (.nak 1)).control = full ∧
      (q full .reminder).control = full ∧ (q full (.ack 4)).control = [.hold, .reminder, .ack 4, .resume] ∧
      (q [.hold, .resume, .hold] .resume).control = [.hold, .resume, .hold, .resume] ∧
      (q [.hold, .resume, .hold, .resume] .hold).control = [.hold, .resume, .hold, .resume] := by decide +kernel

/-- The oldest OUTSTANDING parcel and the younger one, each in transmission and not; the younger one alone, its older slot FREE, or
ENDING; parcels that are LAST, of an entry and of a report queued first, second and not at all. -/
theorem witness_ReceiveAck :
    let o := fun (q : BitVec 3) (tx : Bool) => SendSlot.outstanding (parcel false) q 1 false tx
    let last := SendSlot.outstanding (parcel true) 4 1 false true
    let s := fun a b => (sending (o 3 a) (o 4 b) (some 3)).pe
    let t := fun a => (sending a last none).pe
    let report : SlotParcel := { parcel true with report := true }
    let reports := fun l => { Pe.reset with reports := l }.reports
    (session (s true false)).receiving = true ∧ (4 : Byte).toNat ≤ 7 ∧ ((s false true).slot .a).seq ≠ some 5 ∧
      ((s false true).slot .b).seq ≠ some 5 ∧
      ((s true false).oldest = some .a ∧ (s true false).slot .a = o ((3 : Byte).setWidth 3) true ∧
        (s true false).slot SlotId.a.other = o ((4 : Byte).setWidth 3) false ∧ (3 : BitVec 3) ≠ (4 : Byte).setWidth 3) ∧
      ((s false true).oldest = some .a ∧ (s false true).slot .a = o ((3 : Byte).setWidth 3) false ∧
        (s false true).slot .b = o ((4 : Byte).setWidth 3) true) ∧
      ((t .free).older = .a ∧ (t .free).oldest = some .b ∧ (t .ending).oldest = some .b ∧ (t .ending).slot .b = last) ∧
      Pe.reset.oldest = none ∧ (parcel true).last = true ∧ (parcel true).report = false ∧ report.report = true ∧
      reports [⟨7, [0], 1⟩] = [] ++ ⟨7, [0], 1⟩ :: [] ∧ (⟨7, [0], 1⟩ : Report).tag = report.serial ∧
      (reports [⟨8, [0], 0⟩, ⟨7, [0], 1⟩] = [⟨8, [0], 0⟩] ++ ⟨7, [0], 1⟩ :: [] ∧ (⟨8, [0], 0⟩ : Report).tag ≠ report.serial) := by
  decide

theorem witness_LastParcelAcknowledged :
    let o := fun p => SendSlot.outstanding p 3 1 false false
    let report : SlotParcel := { parcel true with report := true }
    let s := fun st => { sending (o (parcel true)) .free (some 3) with spu := spool (entry st) }
    let t := session { Pe.reset with slotA := o report, reports := [⟨7, [0], 1⟩] }
    (s .sending).receiving = true ∧ (3 : Byte).toNat ≤ 7 ∧ (s .sending).pe.oldest = some .a ∧
      (sending .free (o (parcel true)) (some 3)).pe.oldest = some .b ∧
      (s .sending).pe.slot .a = .outstanding (parcel true) ((3 : Byte).setWidth 3) 1 false false ∧
      (parcel true).last = true ∧ (parcel true).report = false ∧ (s .sending).spu.securing = false ∧
      (s .sending).spu.slotOf (parcel true).serial = some 1 ∧ ((s .sending).spu.entry 1).state = .sending ∧
      (s .void).spu.slotOf (parcel true).serial = some 1 ∧ ((s .void).spu.entry 1).state ≠ .sending ∧
      (sending (o (parcel true)) .free none).spu.slotOf (parcel true).serial = none ∧ report.report = true ∧
      t.pe.reports = [⟨7, [0], 1⟩] ∧ (⟨7, [0], 1⟩ : Report).tag = report.serial := by decide +kernel

theorem witness_ReceiveNak :
    let o := fun (q : BitVec 3) (tx : Bool) => SendSlot.outstanding (parcel false) q 1 false tx
    let s := sending (o 3 false) (o 4 true) (some 3)
    let t := session { Pe.reset with nextSeq := 5 }
    let alone := fun a => (sending a (o 4 false) (some 3)).pe
    ((alone .free).oldest = some .b ∧ (alone .ending).oldest = some .b ∧ ((alone .free).slot .a).isOutstanding = false) ∧
      s.pe.oldest = some .a ∧ s.receiving = true ∧ (3 : Byte).toNat ≤ 7 ∧ (s.pe.slot .a).seq ≠ some 6 ∧ (s.pe.slot .b).seq ≠ some 6 ∧ 6 ≠ s.pe.nextSeq ∧
      s.pe.slot .a = .outstanding (parcel false) ((3 : Byte).setWidth 3) 1 false false ∧
      s.pe.slot SlotId.a.other = .outstanding (parcel false) 4 1 false true ∧
      (t.pe.slot .a).isOutstanding = false ∧ (t.pe.slot .b).isOutstanding = false ∧ t.pe.ackTimer = none ∧
      (5 : Byte).setWidth 3 = t.pe.nextSeq ∧ t.receiving = true ∧
      (3 : BitVec 3) ≠ (4 : Byte).setWidth 3 ∧ (4 : BitVec 3) ≠ (5 : Byte).setWidth 3 ∧ (parcel false).last = false ∧
      (SendSlot.free).isOutstanding = false := by decide

theorem witness_StationHold :
    let s := session { Pe.reset with stationHold := true, holdTimer := some 65535 }
    s.receiving = true ∧ s.pe.holdTimer.isSome = true := by decide

/-- The attempts one below the limit and at it; and under a station hold. -/
theorem witness_AckTimerExpires :
    let o := fun n => SendSlot.outstanding (parcel false) 3 n false false
    let s := fun n => sending (o n) .free (some 3)
    (s 5).receiving = true ∧ (s 5).pe.ackTimer.isSome = true ∧ (s 5).pe.oldest = some .a ∧ (s 5).pe.slot .a = o 5 ∧
      (s 5).pe.stationHold = false ∧ 5 < (s 5).work.attemptLimit ∧ (s 6).work.attemptLimit ≤ 6 ∧
      { (s 5).pe with stationHold := true }.stationHold = true := by decide

/-- Each state a verdict meets, with reason codes 1 and 99 and a reason of 24 characters. -/
theorem witness_Verdicts :
    let s := fun e => { session Pe.reset with spu := spool e }
    (s (entry .awaiting)).receiving = true ∧ (s (entry .awaiting)).spu.securing = false ∧ 1 ≤ (1 : Byte).toNat ∧
      (99 : Byte).toNat ≤ 99 ∧ (List.replicate 24 (0x41 : Byte)).length ≤ 24 ∧
      (s (entry .awaiting)).spu.slotOf (8 : BitVec 16).toNat = none ∧
      (s (entry .awaiting)).spu.slotOf (7 : BitVec 16).toNat = some 1 ∧ ((s (entry .awaiting)).spu.entry 1).state = .awaiting ∧
      (s { entry .closed with sentOnce := true }).spu.slotOf (7 : BitVec 16).toNat = some 1 ∧
      ((s { entry .closed with sentOnce := true }).spu.entry 1).sentOnce = true ∧
      (s (entry .sending)).spu.slotOf (7 : BitVec 16).toNat = some 1 ∧ ((s (entry .sending)).spu.entry 1).state = .sending ∧
      (s (entry .void)).spu.slotOf (7 : BitVec 16).toNat = some 1 ∧ ((s (entry .void)).spu.entry 1).state = .void ∧
      ((s (entry .closed)).spu.entry 1).state = .closed ∧ ((s (entry .closed)).spu.entry 1).sentOnce = false := by
  decide +kernel

/-- A verdict on the SENDING entry with its older parcel FILLED and its younger LOADING, as it leaves the slots. -/
theorem witness_Verdicts_dropped :
    let s := { sending (.filled (parcel false)) (.loading (parcel true) 0) none with spu := spool (entry .sending) }
    s.receiving = true ∧ s.spu.slotOf (7 : BitVec 16).toNat = some 1 ∧ (s.spu.entry 1).state = .sending ∧
      s.pe.slot .a = .filled (parcel false) ∧ s.pe.slot .b = .loading (parcel true) 0 ∧ (parcel true).serial = 7 ∧
      (after (exec (.receiveAccept 7) (quiet s))).pe.slotA = .free ∧ (after (exec (.receiveAccept 7) (quiet s))).pe.slotB = .free := by
  decide +kernel

/-- Counts at each boundary of the classes, for a baseline of 1000 and an offset of 41, and records at each boundary of a run. -/
theorem witness_PadReadings :
    classify 1000 41 15 = .faulty ∧ classify 1000 41 16 = .clear ∧ classify 1000 41 4095 = .faulty ∧
      classify 1000 41 4094 = .touch ∧ classify 1000 41 1041 = .touch ∧ classify 1000 41 1040 = .neither ∧
      classify 1000 41 1020 = .neither ∧ classify 1000 41 1019 = .clear ∧
      (let p : Pad := { freshPad with state := .pressing, debounce := 1 }; p.debounce + 1 < 3 ∧ p.state = .pressing) ∧
      (let p : Pad := { freshPad with state := .pressing, debounce := 2 }; 3 ≤ p.debounce + 1 ∧ p.state = .pressing) ∧
      (let p : Pad := { freshPad with state := .releasing, debounce := 2 }; 3 ≤ p.debounce + 1 ∧ p.state = .releasing) ∧
      (let p : Pad := { freshPad with faultRun := 2 }; p.faultRun < 3 ∧ p.state = .up) ∧
      (let p : Pad := { freshPad with faultRun := 3, state := .down }; 3 ≤ p.faultRun ∧ p.state ≠ .fault) ∧
      (let p : Pad := { freshPad with faultRun := 14, state := .fault }; p.faultRun < 15 ∧ p.state = .fault) ∧
      (let p : Pad := { freshPad with faultRun := 15, state := .fault }; 15 ≤ p.faultRun ∧ p.state = .fault) ∧
      (let p : Pad := { freshPad with state := .releasing, debounce := 1 }; p.debounce + 1 < 3 ∧ p.state = .releasing) ∧
      (min 4095 (1249 + 1)) * 16 ≤ 20 * 1000 ∧ ¬ (min 4095 (1250 + 1)) * 16 ≤ 20 * 1000 ∧ 14 + 1 < 16 ∧ ¬ 15 + 1 < 16 ∧
      (1 : Nat) < 3 ∧ (1 : Nat) ≤ 1 ∧ freshCal.readings < 8 ∧ 8 ≤ { freshCal with readings := 8 }.readings := by decide

theorem witness_Scanning :
    let counts : List (BitVec 12) := List.replicate 8 1000
    let s := fun n => { State.reset with ksu := { Ksu.reset with
      calibrating := false, scan := some ⟨List.replicate n ⟨1000, false⟩, false⟩ } }
    State.reset.pm.power.awake = true ∧ State.reset.ksu.ganged = false ∧ State.reset.ksu.scan = none ∧ counts.length = 8 ∧
      (List.replicate 32 (⟨1000, false⟩ : Reading)).length < 40 ∧ (List.replicate 40 (⟨1000, false⟩ : Reading)).length = 40 ∧
      (s 40).ksu.scan = some ⟨List.replicate 40 ⟨1000, false⟩, false⟩ ∧ (s 40).ksu.calibrating = false ∧
      State.reset.ksu.calibrating = true ∧ State.reset.ksu.pads.length = 48 ∧ State.reset.ksu.cal.length = 48 := by decide

/-- One scan in which pad 1 is pressed, pad 2 is let go, and pad 3, held, enters FAULT, its notice listed before any other. -/
theorem witness_Scanning_events :
    let at' := fun st n f => { freshPad with baseline := 1000, state := st, debounce := n, faultRun := f }
    let pads := [at' .pressing 2 0, at' .releasing 2 0, at' .down 0 3] ++ List.replicate 45 (at' .up 0 0)
    let rs := [⟨1100, false⟩, ⟨1000, false⟩, ⟨0, false⟩] ++ List.replicate 37 (⟨1000, false⟩ : Reading)
    let e : KeyEntry := .char 0x42 true
    let s := { State.reset with
      ksu := { Ksu.reset with calibrating := false, pads := pads, scan := some ⟨rs, false⟩ }
      kcu := { Kcu.reset with roles := [.free, .delivered e, .delivered e] ++ List.replicate 45 .free } }
    let t := after (exec (.measurementEnd (List.replicate 8 1000)) (quiet s))
    rs.length = 40 ∧ s.ksu.pads[2]? = some (at' .down 0 3) ∧ rs[2]? = some ⟨0, false⟩ ∧
      (applyScan s.work pads rs)[2]?.map Prod.snd = some (.fault true) ∧ t.ksu.padFaults = 1 ∧
      (t.pqu.noticeAt 1).text = ascii "PAD 03 FAULT" ∧ t.kcu.roles.take 3 =
        [.delivered (s.kcu.keymap.getD 0 .none), .free, .free] ∧ t.kcu.typeahead.length = 1 := by decide +kernel

theorem witness_GangedScan :
    let c : Combined := ⟨some 1000, 8, 8000, 40, 0, 1000⟩
    let s := fun (p : Power) => { State.reset with
      ksu := { Ksu.reset with ganged := true, calibrating := false, combined := c, wakeWait := p != Power.doze }
      pm := { Pm.reset with power := p } }
    (s .doze).ksu.ganged = true ∧ (s .doze).pm.power ≠ .off ∧ (s .doze).pm.power = .doze ∧ (c.measure 1040).2 = .touch ∧
      (c.measure 1039).2 ≠ .touch ∧ (s .run).pm.power ≠ .doze ∧ (s .run).ksu.wakeWait = true ∧ (c.measure 1019).2 = .clear ∧
      ¬ ((s .run).ksu.wakeWait = true ∧ (c.measure 1020).2 = .clear) := by decide

/-- Counts at the edges of the fault readings; the seventh and the eighth good count; a drift run at 14 and at 15. -/
theorem witness_GangedScan_measure :
    let c : Combined := ⟨none, 6, 600, 40, 0, 100⟩
    let d : Combined := ⟨some 1000, 8, 8000, 40, 14, 1000⟩
    c.baseline = none ∧ ¬ (16 = 4095 ∨ 16 < 16) ∧ (15 = 4095 ∨ 15 < 16) ∧ c.good + 1 < 8 ∧ ¬ { c with good := 7 }.good + 1 < 8 ∧
      d.baseline = some 1000 ∧ 1000 + d.offset ≤ 1040 ∧ 1039 < 1000 + d.offset ∧ d.drift + 1 < 16 ∧
      (({ d with drift := 15 } : Combined).measure 1019).1.baseline = some 1001 := by decide

theorem witness_KeyEvents :
    let s := fun n => { State.reset with kcu := { Kcu.reset with typeahead := List.replicate n (.char 0x41) } }
    { State.reset with kcu := { Kcu.reset with lock := true } }.kcu.lock = true ∧ (s 15).kcu.lock = false ∧
      (s 15).kcu.typeahead.length < 16 ∧ 16 ≤ (s 16).kcu.typeahead.length ∧ (s 16).pm.power ≠ .doze ∧
      KeyAct.enter ≠ .line := by decide

/-- A pad whose entry is a character, a modifier and none, with one and with two pads DELIVERED, in each layer; and held times at
and beside the repeats. -/
theorem witness_KeyEvents_roles :
    let e : KeyEntry := .char 0x42 true
    let s := fun (roles : List Role) x => { State.reset with
      kcu := { Kcu.reset with
        roles := roles ++ List.replicate (48 - roles.length) .free
        keymap := [x] ++ List.replicate 47 .none ++ [x] ++ List.replicate 47 .none ++ [x] ++ List.replicate 47 .none } }
    let due := fun held => decide (38 ≤ held ∧ (held - 38) % 6 = 0)
    (∀ x, ((s [] x).kcu.keymap.getD (0 * 48 + 1 - 1) .none = x ∧ (s [] x).kcu.keymap.getD (1 * 48 + 1 - 1) .none = x ∧
        (s [] x).kcu.keymap.getD (2 * 48 + 1 - 1) .none = x)) ∧
      .modifier .func ∈ (s [.free, .modifier .func] e).kcu.roles ∧ .modifier .shift ∈ (s [.free, .modifier .shift] e).kcu.roles ∧
      (s [.free, .delivered e] e).kcu.roles.countP Role.isDelivered < 2 ∧
      2 ≤ (s [.free, .delivered e, .delivered e] e).kcu.roles.countP Role.isDelivered ∧
      (pressEvent 1 (s [.free, .delivered e, .delivered e] e)).kcu.roles[0]? = some .blocked ∧
      (s [.delivered e] e).kcu.roles[1 - 1]? = some (.delivered e) ∧ (s [.blocked] e).kcu.roles[1 - 1]? = some .blocked ∧
      due 37 = false ∧ due 38 = true ∧ due 39 = false ∧ due 44 = true :=
  ⟨fun _ => ⟨rfl, rfl, rfl⟩, by decide, by decide, by decide, by decide, by decide, rfl, rfl, rfl, rfl, rfl, rfl⟩

/-- The current line at 38 and 39 characters, the count at the entry reserve, a field's last character, and a service line at 39 and
40. -/
theorem witness_CharactersComposed :
    let c : Byte := 0x35
    let ok := fun (k : Kcu) => (typing (.char c) k).kcu.typeahead = .char c :: [] ∧ canTake (.char c) (typing (.char c) k) = true
    let line := fun n => List.replicate n (0x41 : Byte)
    (ok (free (line 38) 4092 []) ∧ (line 38).length < 39 ∧ 4092 + 1 ≤ 4093) ∧
      (ok (free (line 39) 4091 []) ∧ 39 ≤ (line 39).length ∧ 4091 + 2 ≤ 4093) ∧
      (ok (free (line 38) 4093 []) ∧ 4093 < 4093 + (if 39 ≤ (line 38).length then 2 else 1)) ∧
      (ok (free (line 39) 4092 []) ∧ 4093 < 4092 + (if 39 ≤ (line 39).length then 2 else 1)) ∧
      (ok (form (.field 1) (ascii "123") 4092 []) ∧ (form (.field 1) (ascii "123") 4092 []).formTakes c = true ∧
        orderForm.field 1 = some ⟨ascii "QTY", 4, .digits, true⟩) ∧
      (ok (form (.field 1) (ascii "1234") 10 []) ∧ (form (.field 1) (ascii "1234") 10 []).formTakes c = false) ∧
      (form (.field 1) (ascii "123") 4093 []).formTakes c = false ∧ (form .finish [] 10 []).cursor = .finish ∧
      (ok { inState .service with serviceLine := line 39 } ∧ (line 39).length < 40) ∧
      ok { inState .service with serviceLine := line 40 } ∧ 40 ≤ (line 40).length := by decide +kernel

/-- Each thing that holds an event, and beside it the same event not held: a full staging buffer, a flush in progress, an echo
owed and one claimed, a claim, a closing entry, an SR, a busy LOCAL context. -/
theorem witness_CharactersComposed_acts :
    let s := fun (e : KeyEvent) k => typing e k
    let k := fun n => free [0x41] 12 (List.replicate n 0x41)
    let q := fun st => { free [0x41] 5 [] with echo := some ⟨.line 0 4, 1, st⟩ }
    let busy := fun j => { State.reset with du := { Du.reset with keyed := ⟨some j, [], none, []⟩ }, kcu := inState .idle }
    let can := fun e (t : State) => canTake e t
    let char : KeyEvent := .char 0x41
    can char (s char (k 7)) = true ∧ can char (s char (k 8)) = false ∧ can (.action .rub) (s (.action .rub) (k 1)) = true ∧
      can (.action .rub) (s (.action .rub) { k 1 with flush := .running }) = false ∧
      can (.action .enter) (s (.action .enter) (q .owed)) = false ∧ can (.action .cancel) (s (.action .cancel) (q .owed)) = true ∧
      can (.action .cancel) (s (.action .cancel) (q .claimed)) = false ∧ can char (s char { k 1 with claim := some .untaken }) = false ∧
      can char (s char { k 1 with closing := true }) = false ∧ can (.action .note) (busy (.regions [])) = false ∧
      can (.action .note) (busy .settings) = true ∧
      can (.action .enter) { busy .settings with kcu := inState .service } = false := by decide +kernel

/-- Lines and fields that an event would end or close, and would not; a value before and after its point. -/
theorem witness_CharactersComposed_stores :
    (free [0x41] 5 []).state = .free ∧ (free [0x41] 5 []).line ≠ [] ∧
      (form (.field 1) (ascii "1") 4091 []).cursor = .field 1 ∧ orderForm.field 1 = some ⟨ascii "QTY", 4, .digits, true⟩ ∧
      ¬ (true = true ∧ ascii "1" = []) ∧ 4091 + 2 ≤ 4093 ∧ ¬ 4092 + 2 ≤ 4093 ∧ (0x2E : Byte) ∉ ascii "12" ∧
      ascii "12.3" = ascii "12" ++ 0x2E :: ascii "3" ∧ (ascii "3").length < 2 ∧ ¬ (ascii "34").length < 2 ∧
      KeyAct.rub ≠ .enter ∧ KeyAct.rub ≠ .tab ∧ KeyAct.rub ≠ .feed := by decide

/-- NOTE and a CHAR with a slot free and one byte of room, and with no room; NEW ORDER; a LOADED slot's digit, and another. -/
theorem witness_EntriesOpened :
    let s := fun (e : KeyEvent) (st : ComposerState) (r : RingState) => { State.reset with
      kcu := { inState st with typeahead := [e], forms := { emptyForm with status := .loaded } :: List.replicate 3 emptyForm }
      spu := { Spu.reset with ring := r } }
    let room : RingState := ⟨0, 4095, false⟩
    let ok := fun (e : KeyEvent) (u : State) => u.kcu.typeahead = e :: [] ∧ canTake e u = true ∧ u.spu.securing = false
    (ok (.action .note) (s (.action .note) .idle room) ∧ (s (.action .note) .idle room).spu.freeSlot = some 1 ∧
        (s (.action .note) .idle room).spu.ring.free (s (.action .note) .idle room).spoolSize ≠ 0) ∧
      (s (.action .note) .idle ⟨0, 0, true⟩).spu.ring.free (s (.action .note) .idle ⟨0, 0, true⟩).spoolSize = 0 ∧
      ok (.char 0x41) (s (.char 0x41) .idle room) ∧ ok (.action .newOrder) (s (.action .newOrder) .idle room) ∧
      (ok (.char 0x31) (s (.char 0x31) .formSelect room) ∧ 0x31 ≤ (0x31 : Byte).toNat ∧
        ((s (.char 0x31) .formSelect room).kcu.formSlotAt 1).status = .loaded) ∧
      ok (.char 0x32) (s (.char 0x32) .formSelect room) ∧
        ((s (.char 0x32) .formSelect room).kcu.formSlotAt 2).status ≠ .loaded := by decide +kernel

/-- A CHAR in IDLE with one byte of room and with none, no slot FREE, the last slot alone FREE, and what such a CHAR leaves. -/
theorem witness_EntriesOpened_char :
    let s := fun (used : Nat) (r : RingState) => { State.reset with
      kcu := { Kcu.reset with typeahead := [.char 0x41] }, hdu := { Hdu.reset with paper := true }
      spu := { Spu.reset with ring := r, table := List.replicate used (entry .closed) ++ List.replicate (32 - used) freeEntry } }
    let e := after (exec .keyChar (s 31 ⟨0, 4095, false⟩))
    let f := after (exec .keyChar (s 32 ⟨0, 4095, false⟩))
    (canTake (.char 0x41) (s 31 ⟨0, 4095, false⟩) = true ∧ (s 31 ⟨0, 4095, false⟩).spu.freeSlot = some 32) ∧
      (s 32 ⟨0, 4095, false⟩).spu.freeSlot = none ∧ canTake (.char 0x41) (s 32 ⟨0, 4095, false⟩) = true ∧
      (s 31 ⟨0, 0, true⟩).spu.ring.free (s 31 ⟨0, 0, true⟩).spoolSize = 0 ∧ canTake (.char 0x41) (s 31 ⟨0, 0, true⟩) = true ∧
      (e.spu.entry 32).state = .opened ∧ e.kcu.staging = [0x41] ∧ e.kcu.state = .free ∧
      f.spu.episode = true ∧ f.kcu.refusals = 1 ∧ f.kcu.state = .idle := by decide +kernel

/-- The event in front, taken, in each state where a statement speaks of it. -/
def takes (a : KeyAct) (k : Kcu) : Bool :=
  canTake (.action a) (typing (.action a) k) && (typing (.action a) k).kcu.typeahead == [.action a]

theorem witness_TabComposed :
    (takes .tab (form (.field 1) (ascii "1") 4091 []) = true ∧ 4091 + 2 ≤ 4093 ∧
        orderForm.field 1 = some ⟨ascii "QTY", 4, .digits, true⟩ ∧ ¬ (true = true ∧ ascii "1" = [])) ∧
      takes .tab (form .finish [] 10 []) = true ∧ takes .tab (form (.field 1) [] 10 []) = true ∧
      (takes .tab (form (.field 1) (ascii "1") 4092 []) = true ∧ 4093 < 4092 + 2) ∧ takes .tab (inState .idle) = true ∧
      takes .tab (free [] 0 []) = true ∧ takes .tab (inState .service) = true ∧ takes .tab (inState .formSelect) = true := by
  decide +kernel

theorem witness_EnterComposed :
    let service := fun t => { inState .service with serviceLine := ascii t }
    let done := { form .finish [] 10 [] with hasValue := [1] }
    takes .enter (free [0x41] 5 []) = true ∧ takes .enter (free [] 5 []) = true ∧
      (takes .enter (free [] 0 []) = true ∧ (typing (.action .enter) (free [] 0 [])).spu.openSlot = some 1) ∧
      (takes .enter (form (.field 1) [] 10 []) = true ∧ (form (.field 1) [] 10 []).wants = true) ∧
      (takes .enter (form (.field 1) (ascii "1") 10 []) = true ∧ ((form (.field 1) (ascii "1") 10 []).fieldClosed 1 1).missing = none) ∧
      (takes .enter (form (.field 2) (ascii "1") 10 []) = true ∧
        ((form (.field 2) (ascii "1") 10 []).fieldClosed 1 2).missing = some 1) ∧
      (takes .enter done = true ∧ done.missing = none) ∧
      (takes .enter (form .finish [] 10 []) = true ∧ (form .finish [] 10 []).missing = some 1) ∧
      (takes .enter (service "K101") = true ∧ parseDirective (ascii "K101") = .refused .malformed) ∧
      (takes .enter (service "KU01") = true ∧ parseDirective (ascii "KU01") = .directive .ku []) ∧
      takes .enter (service "") = true ∧ takes .enter (inState .idle) = true ∧ takes .enter (inState .formSelect) = true := by
  decide +kernel

theorem witness_RubComposed :
    takes .rub (free [0x41] 5 [0x41]) = true ∧ takes .rub (form (.field 1) (ascii "1") 5 (ascii "1")) = true ∧
      (form (.field 1) (ascii "1") 5 (ascii "1")).field ≠ none ∧ takes .rub (free [] 5 []) = true ∧
      takes .rub (form (.field 1) [] 5 []) = true ∧ (takes .rub (form .finish [] 5 []) = true ∧ (form .finish [] 5 []).field = none) ∧
      takes .rub { inState .service with serviceLine := [0x41] } = true ∧ takes .rub (inState .service) = true ∧
      takes .rub (inState .idle) = true ∧ takes .rub (inState .formSelect) = true := by decide +kernel

/-- An OPEN entry of one byte, in FREE and in FORM. -/
theorem witness_RetractTaken :
    let s := fun (k : Kcu) => { typing (.action .rub) k with spu := spool (opened 1) }
    canTake (.action .rub) (s (free [0x41] 1 [])) = true ∧ (s (free [0x41] 1 [])).spu.openSlot = some 1 ∧
      1 ≤ ((s (free [0x41] 1 [])).spu.entry 1).length ∧ (s (free [0x41] 1 [])).spu.securing = false ∧
      canTake (.action .rub) (s (form (.field 1) (ascii "1") 1 [])) = true ∧
      (s (form (.field 1) (ascii "1") 1 [])).kcu.field ≠ none ∧ (s (form (.field 1) (ascii "1") 1 [])).kcu.value ≠ [] := by
  decide +kernel

theorem witness_CancelAndDiscard :
    let s := { typing (.action .discard) (inState .idle) with spu := spool (entry .rejected) }
    takes .cancel (free [0x41] 5 []) = true ∧ takes .cancel (form (.field 1) [] 5 []) = true ∧
      (typing (.action .cancel) (free [0x41] 5 [])).spu.openSlot = some 1 ∧ takes .cancel (inState .service) = true ∧
      takes .cancel (inState .idle) = true ∧ takes .cancel (inState .formSelect) = true ∧
      (canTake (.action .discard) s = true ∧ s.kcu.state = .idle ∧ s.spu.discardable = some 1 ∧ s.spu.securing = false) ∧
      (takes .discard (inState .idle) = true ∧ (typing (.action .discard) (inState .idle)).spu.discardable = none) ∧
      takes .discard (free [] 0 []) = true ∧ takes .discard (inState .formSelect) = true := by decide +kernel

/-- CANCEL, and an ENTER that acts as one, while the journal is secured, and what each leaves. -/
theorem witness_CancelAndDiscard_secured :
    let s := fun a (k : Kcu) => { typing (.action a) { k with flush := .waiting } with spu := { spool (opened 4) with securing := true } }
    let t := after (exec .cancel (s .cancel (free [0x41] 5 [0x41])))
    canTake (.action .cancel) (s .cancel (free [0x41] 5 [0x41])) = true ∧ (s .cancel (free [0x41] 5 [0x41])).spu.securing = true ∧
      canTake (.action .enter) (s .enter (free [] 0 [])) = true ∧ t.kcu.staging = [] ∧ t.kcu.flush = .none ∧
      t.kcu.claim = some .untaken ∧ t.kcu.state = .free := by decide +kernel

/-- A REJECTED entry older than a DAMAGED one, behind a CLOSED one; and none of them. -/
theorem witness_CancelAndDiscard_oldest :
    let p := fun a b c : EntryState => { Spu.reset with
      table := [entry a, entry b, entry c] ++ List.replicate 29 freeEntry, order := [1, 2, 3] }
    (p .closed .rejected .damaged).discardable = some 2 ∧ (p .closed .rejected .damaged).order = [1] ++ 2 :: [3] ∧
      (p .closed .sent .void).discardable = none := by decide +kernel

theorem witness_SendFeedService :
    let s := { typing (.action .send) (inState .idle) with clu := clu .ready }
    (canTake (.action .send) s = true ∧ s.kcu.state ≠ .formSelect ∧ s.clu.line = .ready ∧ s.spu.securing = false) ∧
      (takes .send (inState .idle) = true ∧ (typing (.action .send) (inState .idle)).clu.line ≠ .ready) ∧
      takes .send (inState .formSelect) = true ∧ takes .feed (inState .idle) = true ∧ takes .feed (inState .formSelect) = true ∧
      takes .service (inState .idle) = true ∧ takes .service (inState .service) = true ∧ takes .service (free [] 0 []) = true ∧
      takes .service (inState .formSelect) = true ∧ takes .note (free [] 0 []) = true ∧ takes .note (inState .service) = true ∧
      takes .note (inState .formSelect) = true ∧ takes .newOrder (form .finish [] 5 []) = true ∧
      takes .newOrder (inState .formSelect) = true := by decide +kernel

theorem witness_TimersExpire :
    let p := { Pe.reset with nakTimer := some 3, reminderTimer := some 3 }
    let e := { entry .awaiting with acceptTimer := some 20 }
    let line : LineAsm := { emptyLine 0 with length := 1, idleTimer := some 3 }
    State.reset.pm.power.awake = true ∧ (session p).clu.line = .ready ∧ (session p).pe.nakTimer.isSome = true ∧
      (session p).pe.reminderTimer.isSome = true ∧ { Kcu.reset with flushTimer := true }.flushTimer = true ∧
      State.reset.spu.episode = false ∧ { Spu.reset with episode := true }.episode = true ∧
      ((spool e).entry 1).state = .awaiting ∧ ((spool e).entry 1).acceptTimer.isSome = true ∧ State.reset.clu.line ≠ .fade ∧
      (withClu (clu .fade)).clu.line = .fade ∧ line.idleTimer.isSome = true ∧ line.complete = false ∧ 1 ≤ line.length ∧
      (let h := { Hdu.reset with head := .paused, pauseTimer := true }; h.head = .paused ∧ h.pauseTimer = true) ∧
      State.reset.kcu.sending = true ∧ State.reset.kcu.frameDue = false ∧ { Kcu.reset with frameDue := true }.frameDue = true ∧
      { Kcu.reset with alert := true }.alert = true := by decide +kernel

/-- In DOZE a frame ends with the blank one due, and the blank one ends. -/
theorem witness_TimersExpire_doze :
    let s := fun due => { State.reset with pm := { Pm.reset with power := .doze }, kcu := { Kcu.reset with frameDue := due } }
    (s true).pm.power ≠ .off ∧ (s true).pm.power = .doze ∧ (s true).kcu.sending = true ∧ (s true).kcu.frameDue = true ∧
      (s false).kcu.frameDue = false ∧ (after (exec .displayFrameEnd (s true))).kcu.frame = 0x02 :: List.replicate 24 0x20 ∧
      (after (exec .displayFrameEnd (s false))).kcu.sending = false := by decide +kernel

/-- Frames: two LOADED slots, a line of 24, a field and the END of a form, and DOZE. -/
theorem witness_TimersExpire_frames :
    let s := fun k => { State.reset with kcu := k }
    let loaded := { emptyForm with status := FormStatus.loaded }
    let forms := [loaded, loaded, { emptyForm with status := .building }, emptyForm]
    let spaces := fun n => List.replicate n (0x20 : Byte)
    frameNow { State.reset with pm := { Pm.reset with power := .doze } } = 0x02 :: spaces 24 ∧
      frameNow (s { inState .formSelect with forms := forms }) = 0x02 :: ascii "S1 2" ++ spaces 20 ∧
      frameNow (s (free (0x41 :: List.replicate 23 0x42) 24 [])) = 0x02 :: 0x4E :: List.replicate 23 0x42 ∧
      (form (.field 1) (ascii "12") 2 []).field = some (1, ⟨ascii "QTY", 4, .digits, true⟩) ∧
      frameNow (s (form (.field 1) (ascii "12") 2 [])) = 0x02 :: ascii "OQTY:12" ++ spaces 17 ∧
      (form .finish [] 2 []).field = none ∧ frameNow (s (form .finish [] 2 [])) = 0x02 :: ascii "OF" ++ spaces 22 := by
  decide +kernel

/-- Eight bytes that just fit the ring, and bring the entry to 4095. -/
theorem witness_FlushTaken :
    let s := fun n => { typing (.char 0x41) { free [] (n + 8) (List.replicate 8 0x42) with flush := .waiting } with
      spu := { spool (opened n) with ring := ⟨0, 4088, false⟩ } }
    flushReady (s 4087) = true ∧ (s 4087).spu.openSlot = some 1 ∧ (s 4087).kcu.staging ≠ [] ∧
      ((s 4087).spu.entry 1).length + (s 4087).kcu.staging.length ≤ 4095 ∧ flushReady (s 4) = true ∧
      { (s 4) with kcu := { (s 4).kcu with flush := .running } }.spu.openSlot = some 1 := by decide +kernel

/-- A flush requested for each of its three reasons, and not requested. -/
theorem witness_FlushTaken_requests :
    let s := fun n => typing (.char 0x41) (free (List.replicate 39 0x41) 39 (List.replicate n 0x41))
    let owed := { s 1 with kcu := { (s 1).kcu with flushOwed := true } }
    (s 8).kcu.staging.length = 8 ∧ owed.kcu.flushOwed = true ∧ (s 7).kcu.typeahead = .char 0x41 :: [] ∧
      8 < (s 7).kcu.staging.length + (s 7).kcu.stores (.char 0x41) ∧ (flushRequest (s 7)).kcu.flush = .waiting ∧
      (flushRequest (s 6)).kcu.flush = .none ∧ (s 7).kcu.flush = .none ∧ (s 7).kcu.staging ≠ [] := by decide +kernel

theorem witness_EntryCloses :
    let s := typing (.char 0x41) { free [] 4 [] with closing := true }
    closeReady s = true ∧ s.spu.openSlot = some 1 ∧ s.spu.slotOf s.spu.serialNext = none := by decide +kernel

/-- The serial counter at 65535 and at 1, each held by an entry: both are passed over. -/
theorem witness_EntryCloses_serials :
    let e := fun n => { entry .closed with serial := some n }
    let p := { Spu.reset with table := [e 65535, e 1] ++ List.replicate 30 freeEntry, order := [1, 2], serialNext := 65535 }
    1 ≤ p.serialNext ∧ p.serialNext ≤ 65535 ∧ p.order.length ≤ 32 ∧ p.slotOf 65535 = some 1 ∧ p.slotOf 1 = some 2 ∧
      p.serialFrom 33 65535 = 2 := by decide +kernel

/-- A record that waits for the header behind it, a header write and a creation record at their last burst. -/
theorem witness_EntryCloses_writes :
    let b : Burst := ⟨true, .addr 64, 8, List.replicate 8 0, .spoolWork⟩
    let e := { entry .closed with gate := .wait, recorded := false }
    let s := { State.reset with spu := { spool e with due := [.record 1, .header] } }
    let t := fun i => { s with spu := { s.spu with cur := some ⟨i, [b], [], true⟩ } }
    s.jmc.busy .spu = false ∧ s.spu.cur = none ∧ s.spu.due = [.record 1] ++ .header :: [] ∧ (s.spu.entry 1).gate ≠ .clear ∧
      SpuItem.header ≠ .record 1 ∧ (itemBursts s .header).length = 8 ∧
      (t .header).spu.cur = some ⟨.header, [b], [], true⟩ ∧ (t (.record 1)).spu.cur = some ⟨.record 1, [b], [], true⟩ ∧
      (s.spu.entry 1).state ≠ .free ∧ (s.spu.entry 1).recorded = false := by decide +kernel

/-- An SR waits for the header write it made due: the write's beginning moves its gate on. -/
theorem witness_EntryCloses_gate :
    let s := { State.reset with spu := { Spu.reset with due := [.header], srGate := .wait } }
    s.jmc.busy .spu = false ∧ s.spu.cur = none ∧ s.spu.due = [] ++ .header :: [] ∧ (itemBursts s .header).length = 8 ∧
      (spuKick s).spu.srGate = .running ∧ State.reset.spu.openSlot = none := by decide +kernel

/-- A flush and an image read at their last burst, with an echo that the flush carries. -/
theorem witness_FlushTaken_completes :
    let b : Burst := ⟨true, .ring .spool 0, 1, [0x41], .spoolWork⟩
    let q : Echo := ⟨.line 0 3, 1, .flushing⟩
    let s := { typing (.char 0x41) { free [] 4 [] with echo := some q } with
      spu := { spool (opened 4) with cur := some ⟨.flush 3 [0x41] 4 none, [b], [], false⟩ } }
    s.spu.cur = some ⟨.flush 3 [0x41] 4 none, [b], [], false⟩ ∧ s.spu.openSlot = some 1 ∧
      s.spu.due.any SpuItem.isFlush = false ∧ s.kcu.echo = some q ∧ q.stage = .flushing ∧ q.kind = .line 0 3 := by decide +kernel

/-- An image read at its last burst, with a form of one field in the bytes read and a slot FREE. -/
theorem witness_EntriesOpened_image :
    let b : Burst := ⟨false, .addr 0, 8, [], .spoolWork⟩
    let k := { Kcu.reset with state := .formSelect, claim := some (.image 1) }
    let s := { State.reset with kcu := k, spu := { Spu.reset with cur := some ⟨.image 1, [b], [], false⟩ } }
    let image := padTo 14 [2, 1, 0x46] ++ padTo 12 [0x41] ++ [4, 0]
    s.spu.cur = some ⟨.image 1, [b], [], false⟩ ∧ s.kcu.claim = some (.image 1) ∧ s.spu.securing = false ∧
      s.pm.power.awake = true ∧ (imageOf ([] ++ image)).isSome = true ∧ imageOf ([] ++ [2, 0]) = none ∧
      s.spu.freeSlot = some 1 ∧ s.spu.ring.free s.spoolSize ≠ 0 := by decide +kernel

theorem witness_NoticeRaised :
    let full := { Pqu.reset with notices := List.replicate 8 (⟨.listed, []⟩ : NoticeSlot) }
    let last := { Pqu.reset with notices := List.replicate 7 (⟨.listed, []⟩ : NoticeSlot) ++ [freeNotice] }
    Pqu.reset.freeSlot = some 1 ∧ last.freeSlot = some 8 ∧ full.freeSlot = none := by decide

/-- A list with room for one more line and a full one; each claimant in turn; and each line at the front. -/
theorem witness_NoticeRaised_grants :
    let s := fun n (p : Pqu) => { State.reset with pqu := { p with list := List.replicate n (.feed 1) } }
    let whole := { Pqu.reset with asm := { emptyLine 0 with complete := true } }
    let waiting := { Pqu.reset with notices := ⟨.waiting, []⟩ :: List.replicate 7 freeNotice, noticeOrder := [1] }
    let claim := fun d : Descriptor => ({ Pqu.reset with composerClaim := some d } : Pqu)
    let feeds : Pqu := { Pqu.reset with fdClaims := [(.line, 14)] }
    (s 23 Pqu.reset).pqu.list.length < 24 ∧ 24 ≤ (s 24 Pqu.reset).pqu.list.length ∧ (s 23 whole).lineReady = true ∧
      (s 23 whole).du.blocked = false ∧ (s 23 waiting).lineReady = false ∧ (s 23 waiting).pqu.nextNotice = some 1 ∧
      (s 23 Pqu.reset).pqu.nextNotice = none ∧ (s 23 (claim (.feed 14))).pqu.composerClaim = some (.feed 14) ∧
      (claim (.echoText 1 0 2)).composerClaim = some (.echoText 1 0 2) ∧ State.reset.spu.securing = false ∧
      feeds.fdClaims = (.line, 14) :: [] ∧ Pqu.reset.fdClaims = [] ∧
      (s 23 Pqu.reset).pqu.list = .feed 1 :: List.replicate 22 (.feed 1) := by decide

/-- A local answer of three lines with one slot FREE: its first line takes it, and the second waits. -/
theorem witness_NoticeRaised_answers :
    let slots := fun n => List.replicate (8 - n) (⟨.listed, []⟩ : NoticeSlot) ++ List.replicate n freeNotice
    let s := fun n => { State.reset with
      du := { Du.reset with keyed := ⟨some (.answering .other), ascii "QS01", some (ascii "QS01 DONE"), [.text [0x41], .text [0x42]]⟩ }
      pqu := { Pqu.reset with notices := slots n } }
    Bounded (s 1) ∧ (s 1).du.keyed.job = some (.answering .other) ∧ (s 1).du.keyed.offered = some (ascii "QS01 DONE") ∧
      (s 1).pqu.freeSlot ≠ none ∧ (s 0).pqu.freeSlot = none ∧ (s 0).pqu.nextNotice = none ∧
      (offerAll (s 1)).pqu.nextNotice = some 8 ∧
      (offerAll (s 1)).du.keyed = ⟨some (.answering .other), ascii "QS01", some [0x41], [.text [0x42]]⟩ ∧
      (offerAll (s 3)).du.keyed = ⟨none, [], none, []⟩ := by
  refine ⟨⟨by decide, by decide, fun w => ?_, by decide, by decide, by decide, by decide, by decide, by decide, by decide⟩,
    by decide +kernel⟩
  cases w <;> decide

/-- The collection at 119 and 120 characters, and an overlong text's terminator with three reports queued. -/
theorem witness_LineBytes :
    let s := fun (b : Byte) (l : LineContext) => { session { Pe.reset with reports := List.replicate 3 ⟨0, [0], 0⟩ } with
      du := { Du.reset with input := [b], line := l } }
    let c := fun n o => (⟨.collecting, List.replicate n 0x41, o, 0, none, false⟩ : LineContext)
    let i : LineContext := Du.reset.line
    (s 0x1C i).pm.power.awake = true ∧ (s 0x1C i).pm.restarting = false ∧ (s 0x1C i).du.blocked = false ∧
      (s 0x1C i).du.line.state = .idle ∧ (0x1C : Byte) = (s 0x1C i).work.introducer ∧ (0x1E : Byte) ≠ (s 0x1C i).work.introducer ∧
      (0x1E : Byte) = (s 0x1E i).work.terminator ∧ (0x41 : Byte) ≠ (s 0x41 i).work.introducer ∧
      (0x41 : Byte) ≠ (s 0x41 i).work.terminator ∧ (s 0x41 (c 119 false)).du.line.collection.length < 120 ∧
      120 ≤ (s 0x41 (c 120 false)).du.line.collection.length ∧ (s 0x1E (c 120 true)).du.line.overlong = true ∧
      (s 0x1E (c 120 true)).pe.reports.length < 4 ∧ (s 0x1E (c 120 false)).du.line.overlong = false ∧
      (s 0x1E (c 120 false)).clu.line = .ready ∧ parseDirective (ascii "ku07") = .directive .ku [] ∧
      parseDirective (ascii "ZZ07") = .refused .unknown ∧ parseDirective (ascii "K") = .refused .malformed ∧
      4 ≤ (List.replicate 4 (⟨0, [0], 0⟩ : Report)).length := by decide +kernel

/-- A line at 38 and 39 columns with one byte of room; a complete line; a LINE END after a wrap. -/
theorem witness_StationText :
    let s := fun (b : Byte) (a : LineAsm) => { session Pe.reset with
      du := { Du.reset with input := [b] }
      pqu := { Pqu.reset with ring := ⟨0, 1023, false⟩, asm := a } }
    let a := fun n => { emptyLine 0 with column := n, cells := List.replicate n none }
    let wrapped := { emptyLine 0 with justWrapped := true }
    let full := { a 40 with complete := true }
    (s 0x41 (a 38)).pm.power.awake = true ∧ (s 0x41 (a 38)).pm.restarting = false ∧ (s 0x41 (a 38)).du.blocked = false ∧
      (s 0x41 (a 38)).du.line.state = .idle ∧ offerRefused (s 0x41 (a 38)) = false ∧ offerRefused (s 0x41 full) = true ∧
      kindOf defaultCodes 0x41 = .glyph 0x41 ∧ 39 ≤ (a 39).column ∧ kindOf defaultCodes 0x09 = .tab ∧
      kindOf defaultCodes 0x0D = .ignored ∧ kindOf defaultCodes 0x0A = .lineEnd ∧ wrapped.justWrapped = true ∧
      offerRefused (s 0x0A wrapped) = false ∧ ¬ ((a 38).justWrapped = true ∧ kindOf defaultCodes 0x0A = .lineEnd) := by
  decide +kernel

/-- The fortieth column not reached and reached, by a glyph and by a TAB; the ring's last byte; and seven and eight bytes unwritten,
with text still to come and with none. -/
theorem witness_StationText_line :
    let s := fun n (b : Byte) head => { session Pe.reset with
      du := { Du.reset with input := [b] }
      pqu := { Pqu.reset with ring := ⟨0, head, false⟩, asm := { emptyLine 0 with column := n } } }
    let line := fun n b head => (after (exec .lineInputByte (s n b head))).pqu.asm
    let u := fun (n : Nat) (input : Text) => { State.reset with du := { Du.reset with unwritten := List.replicate n 0x41, input := input } }
    let w := { u 9 [] with du := { (u 9 []).du with due := [.inbound] } }
    (line 38 0x41 0).complete = false ∧ (s 39 0x41 0).du.input = 0x41 :: [] ∧ 40 ≤ 39 + 1 ∧ ¬ 40 ≤ 8 * (31 / 8 + 1) ∧ 40 ≤ 8 * (32 / 8 + 1) ∧
      ((s 0 0x41 1023).pqu.ring.append 1024 1).free 1024 = 0 ∧ (line 0 0x0D 1023).part = true ∧
      inboundBursts (u 7 [0x41]) = 0 ∧ inboundBursts (u 8 [0x41]) = 1 ∧ inboundBursts (u 7 []) = 1 ∧
      inboundBursts (u 7 [0x1C]) = 1 ∧ w.jmc.busy .du = false ∧ w.du.due = .inbound :: [] ∧ w.du.unwritten.take 8 ≠ [] := by
  decide +kernel

/-- A byte that was refused, offered again: a text byte, the introducer, the terminator, and none; the assembler still COMPLETE. -/
theorem witness_StationText_again :
    let s := fun (input : Text) (a : LineAsm) => { session Pe.reset with
      du := { Du.reset with input := input, blocked := true }, pqu := { Pqu.reset with asm := a } }
    let t := s [0x41] (emptyLine 0)
    (t.du.blocked = true ∧ t.du.line.state = .idle ∧ t.pm.restarting = false ∧ offerRefused t = false) ∧
      t.du.input = 0x41 :: [] ∧ (0x41 : Byte) ≠ t.work.introducer ∧ (0x41 : Byte) ≠ t.work.terminator ∧
      (0x1C : Byte) = t.work.introducer ∧ (0x1E : Byte) = t.work.terminator ∧ (0x1E : Byte) ≠ t.work.introducer ∧
      offerRefused (s [0x41] { emptyLine 0 with complete := true }) = true ∧ (s [] (emptyLine 0)).du.input = [] ∧
      (reoffer t).pqu.asm.column = 1 ∧ (reoffer t).du.unwritten = [0x41] ∧ (reoffer t).du.blocked = false := by decide +kernel

theorem witness_RowPrinted :
    let t : Strobe := ⟨1, 50, 34, [1, 0, 0, 0, 0], [1, 0, 0, 0, 0], true, true⟩
    let row := fun n => (⟨n, .normal, .feeding, [], []⟩ : ActiveRow)
    let s := fun n (l : List Descriptor) => { State.reset with
      pqu := { Pqu.reset with list := l }
      hdu := { Hdu.reset with head := .printing, active := some (row n), stepping := true } }
    let f := { Hdu.reset with head := .paused, stepping := true, resume := some (.feed 2) }
    (t ∈ [t] ∧ t.inWarm = true ∧ t.hasCold = true) ∧ ¬ ({ t with inWarm := false }.inWarm = true ∧ t.hasCold = true) ∧
      ((s 12 [.notice 1]).hdu.stepping = true ∧ (s 12 [.notice 1]).hdu.active = some (row 12) ∧ (row 12).phase = .feeding ∧
        (row 12).row + 1 < (s 12 [.notice 1]).frontRows) ∧
      (noticeLine.rows ≤ (row 13).row + 1 ∧ (s 13 [.feed 14]).pqu.list = [.feed 14]) ∧
      (Descriptor.inbound false 0 5 []).rows ≤ (row 13).row + 1 ∧ (s 13 []).du.blocked = false ∧
      (s 13 [.echoText 1 0 4, .feed 2]).pqu.list = .echoText 1 0 4 :: .feed 2 :: [] ∧
      { f with resume := some (.feed 1) }.resume = some (.feed 1) ∧ 1 ≤ 1 ∧ (s 13 [.feed 3, .notice 1]).pqu.list = .feed 3 :: [.notice 1] ∧
      f.head = .paused ∧ f.active = none ∧ f.resume = some (.feed 2) ∧ 1 < 2 := by decide +kernel

/-- Cells across the ring's end, with a BLANK between; spans of 40 and 24 bytes across the SPOOL ring's; the columns they make. -/
theorem witness_RowPrinted_text :
    let s := State.reset
    let cells := [some 1022, none, some 1023, some 0, some 5]
    (∀ o ∈ cells.filterMap id, o < s.inboundSize) ∧
      textRuns s (.inbound false 1022 9 cells) = [(.ring .inbound 1022, 3), (.ring .inbound 5, 1)] ∧
      columnCodes s (.inbound false 1022 9 cells) [1, 2, 3, 4] = [some 1, none, some 2, some 3, some 4] ∧
      4090 < s.spoolSize ∧ textRuns s (.echoText 1 4090 40) = [(.ring .spool 4090, 8), (.ring .spool 2, 8), (.ring .spool 10, 8),
        (.ring .spool 18, 8), (.ring .spool 26, 8)] ∧
      textRuns s (.echoField 1 2 1 0 9) = [(.addr 2318, 8), (.addr 2326, 4), (.ring .spool 0, 8), (.ring .spool 8, 1)] ∧
      columnCodes s (.echoField 1 2 1 0 2) (ascii "QTY" ++ List.replicate 9 0 ++ ascii "12") =
        (ascii "QTY: 12").map some := by decide +kernel

/-- A row about to start, one being built at its last text burst and at its last overlay byte, one built, and its groups about to
begin at one below the limit and at it. -/
theorem witness_RowPrinted_starts :
    let row := fun p => (⟨11, .normal, p, [1], []⟩ : ActiveRow)
    let s := fun h => { State.reset with pqu := { Pqu.reset with list := [.echoText 1 0 3] }, hdu := h }
    let h := { Hdu.reset with head := .printing }
    let b : Build := ⟨11, [(.ring .spool 0, 3)], [], false, [], []⟩
    let t : Strobe := ⟨2, 50, 34, [1, 0, 0, 0, 0], [1, 0, 0, 0, 0], true, true⟩
    (s h).pqu.list = .echoText 1 0 3 :: [] ∧ (s h).hdu.head = .printing ∧ (s h).hdu.active = none ∧ (s h).hdu.stepping = false ∧
      (s h).hdu.energised = [] ∧ (s h).hdu.loading = none ∧ 11 < 12 ∧ textRuns (s h) (.echoText 1 0 3) = [(.ring .spool 0, 3)] ∧
      textRuns (s h) (.notice 1) = [] ∧ { h with build := some b }.build = some b ∧ b.runs = [(.ring .spool 0, 3)] ∧
      { b with glyphs := [(0, 1024)] }.glyphs = (0, 1024) :: [] ∧ kindOf defaultCodes 191 = .glyph 191 ∧
      kindOf defaultCodes 0x7F = .substitute ∧ kindOf defaultCodes 0x0A = .lineEnd ∧ kindOf defaultCodes 0x09 = .tab ∧
      kindOf defaultCodes 0x0D = .ignored ∧ (row .waiting).phase = .waiting ∧ (row .strobing).todo = 1 :: [] ∧
      (List.replicate 3 t).length < h.limit ∧ h.limit ≤ (List.replicate 4 t).length := by decide +kernel

/-- A load that waits at a boundary, on an empty list and in row 0 of a text line, and away from one; a glyph load's last write
and the one before. -/
theorem witness_HeatAndPrintTables :
    let l : Ctx × Load := (.service, .density 4 none)
    let s := fun h => { State.reset with hdu := h, pqu := { Pqu.reset with list := [.notice 1] } }
    let h := { Hdu.reset with loads := [l] }
    let row := fun n => { h with head := .printing, active := some ⟨n, .normal, .waiting, [], []⟩ }
    let g := fun n => (⟨.service, 128, 1, List.replicate n (4096, [0])⟩ : GlyphLoad)
    h.loads = l :: [] ∧ h.loading = none ∧ atBoundary { State.reset with hdu := h } = true ∧
      atBoundary (s (row 0)) = true ∧ atBoundary (s (row 1)) = false ∧ { h with loading := some (g 1) }.loading.isSome = true ∧
      (s { h with head := .printing }).hdu.active = none ∧ (s { h with head := .paused }).hdu.head = .paused ∧
      (g 2).todo = (4096, [0]) :: (4096, [0]) :: [] ∧ (g 1).todo = [(4096, [0])] ∧ defaultCodes.length = 256 ∧
      255 + [CodeKind.ignored].length ≤ 256 ∧ 63 < 64 := by decide +kernel

/-- The head with a line listed: IDLE and PAUSED, with a cause and with none; POWER in a row with groups to go and in one with
none; a row to build, a row to feed, and the rows before the last and the last; the bursts of a load and of a build. -/
theorem witness_SensorReports_turns :
    let s := fun (h : Hdu) (d : Descriptor) => { State.reset with hdu := h, pqu := { Pqu.reset with list := [d] } }
    let h := fun (st : HeadState) (lid : Bool) (r : Option Resume) => { Hdu.reset with head := st, lid := lid, resume := r }
    let row := fun (n : Nat) (p : RowPhase) (todo : List Nat) => { h .printing false none with active := some ⟨n, .normal, p, todo, [2]⟩ }
    let low := fun p todo => { row 3 p todo with power := true }
    let b : Build := ⟨4, [(.addr 9, 1)], [], false, [], []⟩
    (headEnter (s (h .idle true none) (.feed 9))).hdu.resume = some (.feed 9) ∧
      (headEnter (s (h .idle false none) (.feed 9))).hdu.head = .printing ∧
      (headEnter (s (h .paused false (some (.text 7 [1]))) (.notice 1))).hdu.next = 7 ∧
      (headEnter (s (h .paused false (some (.feed 4))) (.feed 9))).hdu.next = 5 ∧
      (s (h .paused true none) (.feed 9)).hdu.lid = true ∧
      (powerPause (s (low .waiting []) (.notice 1))).hdu.resume = some (.text 3 [2]) ∧
      (powerPause (s (low .strobing [4]) (.feed 9))).hdu.resume = some (.feed 6) ∧
      (powerPause (s (low .strobing []) (.notice 1))).hdu.head = .printing ∧
      (buildCurrent (s (row 3 .waiting []) (.notice 1))).hdu.rowBuf.isSome = true ∧
      (beginFeed (s (row 3 .strobing []) (.notice 1))).hdu.stepping = true ∧
      (buildNext (s { row 12 .feeding [] with rowBuf := some noDots } (.notice 1))).hdu.nextBuf = some noDots ∧
      ¬ 13 + 1 < (s (row 13 .feeding []) (.notice 1)).frontRows ∧ Jmc.reset.busy .hdu = false ∧
      hduBurst { row 3 .feeding [] with build := some b } = some ⟨false, .addr 9, 1, [], .rowText⟩ ∧
      hduBurst { row 3 .feeding [] with build := some { b with runs := [], glyphs := [(0, 9)] } } =
        some ⟨false, .addr 9, 1, [], .glyphRow 0⟩ ∧
      hduBurst { h .idle false none with loading := some ⟨.line, 128, 1, [(9, [1])]⟩ } =
        some ⟨true, .addr 9, 1, [1], .loadGlyphs⟩ := by decide +kernel

theorem witness_SensorReports :
    let h := { Hdu.reset with paperTiming := true, lidTiming := true, head := .printing }
    let s := { State.reset with
      hdu := h, pins := ⟨5000, 25, 0, true, true⟩, pqu := { Pqu.reset with list := [.notice 1] } }
    State.reset.pm.power.awake = true ∧ s.hdu.paperTiming = true ∧ s.hdu.lidTiming = true ∧ State.reset.hdu.head = .idle ∧
      State.reset.pins.paperAbsent = false ∧ s.hdu.head = .printing ∧ s.pqu.list = .notice 1 :: [] ∧
      (∀ n, Descriptor.notice 1 ≠ .feed n) ∧ s.pins.paperAbsent = true ∧ s.pins.lidOpen = true ∧ s.hdu.inRow = false ∧
      { h with active := some ⟨0, .normal, .strobing, [1], []⟩ }.inRow = true ∧
      { State.reset with pm := { Pm.reset with power := .doze } }.pm.power = .doze ∧
      tempBand 9 = .cold ∧ tempBand 10 = .normal ∧ tempBand 44 = .normal ∧ tempBand 45 = .warm ∧ tempBand 59 = .warm ∧
      tempBand 60 = .hot :=
  ⟨rfl, rfl, rfl, rfl, rfl, rfl, rfl, fun _ h => (by cases h), rfl, rfl, rfl, rfl, rfl, rfl, rfl, rfl, rfl, rfl, rfl⟩

/-- The lid opened inside a FEED of 14 rows after 3, with a row being built and its burst waiting, and while PAUSED in a text
line. -/
theorem witness_SensorReports_pauses :
    let b : Build := ⟨4, [], [], true, [], []⟩
    let wait : BusReq := ⟨some ⟨false, .addr 1024, 1, [], .glyphRow 0⟩, 2⟩
    let s := fun h (l : List Descriptor) => { State.reset with
      hdu := { h with lidTiming := true }, pins := ⟨5000, 25, 0, false, true⟩, pqu := { Pqu.reset with list := l }
      jmc := { Jmc.reset with hdu := wait } }
    let f := s { Hdu.reset with head := .printing, active := some ⟨3, .normal, .strobing, [], []⟩, build := some b } [.feed 14]
    let p := s { Hdu.reset with head := .paused, resume := some (.text 3 [1]) } [.notice 1]
    f.hdu.head = .printing ∧ f.pqu.list = .feed 14 :: [] ∧ f.hdu.build.isSome = true ∧ f.hdu.lidTiming = true ∧
      f.pins.lidOpen = true ∧ (after (exec (.sensorReportTaken .lid) f)).hdu.resume = some (.feed 11) ∧
      (after (exec (.sensorReportTaken .lid) f)).jmc.hdu = ⟨none, 0⟩ ∧ p.hdu.head = .paused ∧
      (after (exec (.sensorReportTaken .lid) p)).hdu.resume = some (.text 0 []) := by decide +kernel

/-- A sample in the band held, a first and a second in CRITICAL, and a second in EXHAUSTED. -/
theorem witness_BatterySamples :
    let s := fun c => { State.reset with pm := { Pm.reset with candidate := c } }
    State.reset.pm.power ≠ .off ∧ batteryBand 5000 = State.reset.pm.band ∧ batteryBand 4399 ≠ State.reset.pm.band ∧
      (s none).pm.candidate ≠ some (batteryBand 4399) ∧ (s (some .critical)).pm.candidate = some (batteryBand 4399) ∧
      batteryBand 4200 ≠ .exhausted ∧ State.reset.pm.power ≠ .doze ∧
      (s (some .exhausted)).pm.candidate = some (batteryBand 4199) ∧ batteryBand 4199 = .exhausted ∧
      State.reset.pm.power ≠ .shutdown := by decide

/-- The same second sample of EXHAUSTED with the line READY, in SETTLE, in LISTEN and OFF, staging of 8 that fits the ring and
that does not, and the journal secured before. -/
theorem witness_BatterySamples_shutdown :
    let s := fun l r => { withClu (clu l) with
      pm := { Pm.reset with candidate := some .exhausted }
      kcu := free [] 12 (List.replicate 8 0x41), spu := { spool (opened 4) with ring := r } }
    let t := after (exec (.batterySample 4199) (quiet (s .ready ⟨0, 4, false⟩)))
    (s .ready ⟨0, 4, false⟩).clu.line = .ready ∧ (s .settle ⟨0, 4, false⟩).clu.line = .settle ∧
      (s .listen ⟨0, 4, false⟩).clu.line = .listen ∧ (s .off ⟨0, 4, false⟩).clu.line = .off ∧
      8 ≤ (⟨0, 4088, false⟩ : RingState).free 4096 ∧ ¬ 8 ≤ (⟨0, 4089, false⟩ : RingState).free 4096 ∧
      (s .off ⟨0, 4, false⟩).spu.openSlot.isSome = true ∧ (s .off ⟨0, 4, false⟩).spu.securing = false ∧
      { Spu.reset with securing := true }.securing = true ∧ t.clu.line = .clearing ∧ t.pm.power = .shutdown ∧
      t.kcu.staging = [] ∧ t.kcu.flush = .running := by decide +kernel

/-- A second sample of CRITICAL in DOZE, which wakes the part, and one of EXHAUSTED in SHUTDOWN. -/
theorem witness_BatterySamples_elsewhere :
    let s := fun p b c => quiet { State.reset with pm := { Pm.reset with power := p, band := b, candidate := some c } }
    let t := after (exec (.batterySample 4399) (s .doze .high .critical))
    let u := after (exec (.batterySample 4199) (s .shutdown .critical .exhausted))
    (s .doze .high .critical).pm.power = .doze ∧ (s .doze .high .critical).pm.candidate = some (batteryBand 4399) ∧
      batteryBand 4399 ≠ .exhausted ∧ t.pm.power = .run ∧ t.pm.band = .critical ∧ t.hdu.limit = 0 ∧ t.hdu.power = true ∧
      (s .shutdown .critical .exhausted).pm.power = .shutdown ∧
      (s .shutdown .critical .exhausted).pm.candidate = some (batteryBand 4199) ∧ u.pm.power = .shutdown ∧
      u.pm.band = .exhausted ∧ u.pm.stage = .none ∧ u.spu.securing = false := by decide +kernel

theorem witness_PowerOnAndOff :
    let s := { State.reset with pm := { Pm.reset with power := .off } }
    let c : CurrentBurst := ⟨.du, ⟨true, .addr 0, 1, [1], .directive .line⟩, true⟩
    let t := { State.reset with jmc := { Jmc.reset with current := some c } }
    State.reset.pm.power ≠ .off ∧ s.pm.power = .off ∧ batteryBand 4200 ≠ .exhausted ∧ batteryBand 4199 = .exhausted ∧
      State.reset.jmc.current = none ∧ t.jmc.current = some c ∧ Memory.wf t.mem = true ∧
      1 ∉ placeAddrs t.work.map c.burst.place c.burst.count := by decide

set_option maxRecDepth 100000 in
/-- The restores: a header that does not pass and one that does, a run of 4095 bytes, and an OPEN entry of either class. -/
theorem witness_PowerOnAndOff_restores :
    let good := headerBytes 1 [] emptyRing defaultSettings.memSize defaultSettings.map 0
    let s := fun e => { State.reset with spu := spool e }
    headerGood [] defaultSettings = false ∧ headerGood good defaultSettings = true ∧ (4095 + 4096 - 0) % 4096 ≤ 4095 ∧
      (s (opened 4)).spu.openSlot = some 1 ∧ ((s (opened 4)).spu.entry 1).cls = some .note ∧
      ((s { opened 4 with cls := some .order, formSlot := 1 }).spu.entry 1).cls = some .order ∧
      (State.reset.kcu.formSlotAt 1).status ≠ .loaded := by decide +kernel

/-- Runs of DAMAGED slots: two between good entries, 5000 bytes for them; one that cannot cover 4096; the whole ring over two; and
an OPEN entry of no class, and an ORDER whose image does not read. -/
theorem witness_PowerOnAndOff_runs :
    let e := { entry .closed with start := 5010, length := 10 }
    let d := fun start length => damagedEntry start length
    let two : List (Nat × Option Entry) := [(3, none), (7, none)]
    layEntries 8192 5020 false (two ++ [(2, some e)]) [] 10 = some [(3, d 10 4095), (7, d 4105 905), (2, e)] ∧
      layEntries 8192 5020 false [(3, none), (2, some e)] [] 10 = none ∧ (5010 + 8192 - 10 % 8192) % 8192 = 5000 ∧
      layEntries 4096 7 true two [] 7 = some [(3, d 7 4095), (7, d 6 1)] ∧ layEntries 4096 7 true [(3, none)] [] 7 = none ∧
      layEntries 4096 7 false two [] 7 = some [(3, d 7 0), (7, d 7 0)] ∧ 10 < 8192 ∧
      { opened 4 with cls := none }.cls = none ∧ imageOf (State.reset.mem.readAll (addrsFrom 2048 256)) = none ∧
      fieldItems 3 [0x41, 0x1F, 2, 0x1F, 3, 0x42] [] = ([2], [0x42]) ∧ 0x1F ∉ [(0x41 : Byte)] := by decide +kernel

/-- Of a burst of two bytes the second alone lands. -/
theorem witness_PowerOnAndOff_torn :
    let c : CurrentBurst := ⟨.du, ⟨true, .addr 600, 2, [1, 2], .directive .line⟩, true⟩
    let t := { State.reset with jmc := { Jmc.reset with current := some c }, mem := [(600, 9)] }
    let u := after (exec (.batteryRemoved 0b10) t)
    t.jmc.current = some c ∧ Memory.wf t.mem = true ∧ c.burst.write = true ∧
      (placeAddrs t.work.map c.burst.place c.burst.count)[1]? = some 601 ∧ c.burst.data[1]? = some 2 ∧
      (placeAddrs t.work.map c.burst.place c.burst.count).Nodup ∧ u.mem.read 600 = 9 ∧ u.mem.read 601 = 2 := by
  decide +kernel

set_option maxRecDepth 100000 in
/-- A directory with one SENDING entry, restored and its record due; settings memories that pass and do not; a size, a map and marks
that stand, and that do not. -/
theorem witness_PowerOnAndOff_settings :
    let w := defaultSettings
    let l := headerBytes 1 [1] ⟨0, 4, false⟩ w.memSize w.map 0
    let m := Memory.writeAll [] (((addrsFrom 0 64).zip l) ++ (addrsFrom 64 14).zip { entry .sending with start := 0 }.record)
    let r := restoreSpool m w
    r.wiped = false ∧ r.spu.order = [1] ∧ m.read 64 = 3 ∧ r.damaged = [] ∧ r.spu.due = [.record 1] ∧
      settingsOk w.bytes = true ∧ settingsOk [] = false ∧ w.memSize ∈ [8192, 16384, 32768] ∧ 0 ∉ [8192, 16384, 32768] ∧
      w.map.valid 8192 = true ∧ (defaultMap 16384).valid 8192 = false ∧ (64 ≤ 64 ∧ 64 < 65 ∧ 65 ≤ 1024 - 64) ∧
      ¬ (64 ≤ 63 ∧ 63 < 768 ∧ 768 ≤ 1024 - 64) ∧ ¬ (64 ≤ 256 ∧ 256 < 768 ∧ 768 ≤ 512 - 64) ∧
      byteAt (List.replicate 90 2) 69 ≤ 2 ∧ 2 < byteAt (List.replicate 90 3) 69 := by decide +kernel

/-- A notice listed in DOZE, and none. -/
theorem witness_DozeEntered_wakes :
    let s := fun l => { State.reset with pm := { Pm.reset with power := .doze }, pqu := { Pqu.reset with list := l } }
    (s [noticeLine]).pm.power = .doze ∧ (s [noticeLine]).pqu.list ≠ [] ∧ (s []).pqu.list = [] ∧ State.reset.pm.power ≠ .doze ∧
      dozeConditions State.reset = true ∧ (wakeForLine (s [noticeLine])).pm.power = .run := by decide +kernel

theorem witness_DozeEntered :
    let s := { State.reset with ksu := { Ksu.reset with calibrating := false }, kcu := { Kcu.reset with sending := false } }
    State.reset.pm.power = .run ∧ State.reset.pm.dozeTimer.isSome = true ∧ s.ksu.calibrating = false ∧
      s.kcu.sending = false := by decide

/-- A session in which every class is open to the line. -/
def openLine : State := { session Pe.reset with work := { defaultSettings with protect := 0b111111 } }

/-- A directive's arguments, read as capitals, are these. -/
def reads (l : List String) : Bool := asRead (words l) == words l

theorem witness_DirectiveChecks :
    let sr := { State.reset with du := { Du.reset with line := ⟨.executing, [], false, 1, some (.regions []), false⟩ } }
    ctxFree .line State.reset = false ∧ ctxFree .service State.reset = true ∧
      argsOk .qs (asRead (words ["G"])) = false ∧ argsOk .qm (asRead (words ["99999", "999999"])) = false ∧
      argsOk .qm (asRead (words ["99999", "1"])) = true ∧ sr.du.srIn (otherCtx .service) = true ∧ ctxFree .service sr = true ∧
      ctxFree .line (session Pe.reset) = true ∧ Dir.ps.lineAllowed 0b111111 = false ∧
      Dir.lk.lineAllowed (session Pe.reset).work.protect = false := by decide +kernel

/-- Arguments of the form check 1 asks for that no rule admits: ten of them for every directive but LS, one for LS, and those at the
edges: half an entry, a first number that is not 0, a header's four arguments with a field that is not 0. -/
theorem witness_DirectiveChecks_formed :
    (∀ d : Dir, admits d .service State.reset = true) ∧ State.reset.spu.securing = false ∧
      (∀ d : Dir, argsOk d (asRead (words (List.replicate 10 "1"))) = true) ∧
      (∀ d : Dir, d ≠ .ls → d.formed (asRead (words (List.replicate 10 "1"))) = false) ∧
      Dir.ls.formed (asRead (words ["1"])) = false ∧ Dir.xd.formed (asRead (words ["1", "1"])) = false ∧
      Dir.lc.formed (asRead (words ["1", "41"])) = false ∧ Dir.lf.formed (asRead (words ["1", "1", "41", "1"])) = false ∧
      Dir.qs.formed (asRead (words ["A"])) = false ∧ Dir.qs.formed (asRead (words ["2"])) = true ∧
      Dir.xd.formed (asRead (words ["0", "1"])) = true := by
  refine ⟨fun d => by cases d <;> decide +kernel, rfl, fun d => by cases d <;> decide +kernel,
    fun d h => by cases d <;> first | decide +kernel | exact absurd rfl h, ?_⟩
  decide +kernel

theorem witness_StatusReported :
    admits .qs .service State.reset = true ∧ admits .qs .line (session Pe.reset) = true ∧ asRead [] = [] ∧
      asRead (words ["0"]) = [ascii "0"] ∧ asRead (words ["1"]) = [ascii "1"] ∧ decimal (ascii "0") = some 0 ∧
      decimal (ascii "1") = some 1 ∧ asRead (words ["2"]) = [ascii "2"] ∧ decimal (ascii "2") = some 2 := by decide +kernel

/-- Serials 0, 1 and 65536, a serial held, and the ends of each table and of memory. -/
theorem witness_QueriesAnswered :
    let s := { State.reset with spu := spool (entry .rejected) }
    (admits .qe .service s = true ∧ s.spu.securing = false ∧ admits .qe .line (session Pe.reset) = true) ∧
      reads ["7"] = true ∧ decimal (ascii "0") = some 0 ∧ decimal (ascii "65536") = some 65536 ∧
      s.spu.slotOf 1 = none ∧ decimal (ascii "7") = some 7 ∧ s.spu.slotOf 7 = some 1 ∧
      (admits .qt .service s = true ∧ tableRange 1 = some (0, 255, 64) ∧ decimal (ascii "192") = some 192 ∧
        192 + 64 - 1 ≤ 255 ∧ ¬ 193 + 64 - 1 ≤ 255 ∧ tableRange 7 = some (1, 4, 4)) ∧
      admits .qm .service s = true ∧ decimal (ascii "8160") = some 8160 ∧ decimal (ascii "32") = some 32 ∧
        8160 + 32 ≤ s.work.memSize ∧ ¬ 8161 + 32 ≤ s.work.memSize ∧ (0 < 1 ∧ 7 < 8) ∧
      (let j := { State.reset with du := { Du.reset with keyed := ⟨some (.reading 0 10 [1, 2]), [], none, []⟩ } }
      j.du.job .service = some (.reading 0 10 [1, 2]) ∧ ([1, 2] ++ List.replicate 7 (0 : Byte)).length < 10 ∧
        10 ≤ ([1, 2] ++ List.replicate 8 (0 : Byte)).length) := by decide +kernel

theorem witness_PrintDirectives :
    (admits .fd .service State.reset = true ∧ admits .fd .line (session Pe.reset) = true ∧ decimal (ascii "255") = some 255 ∧
        decimal (ascii "256") = some 256) ∧
      (admits .pd .service State.reset = true ∧ reads ["8", "16"] = true ∧ decimal (ascii "8") = some 8 ∧
        decimal (ascii "16") = some 16) ∧
      (admits .lc .service State.reset = true ∧ decimal (ascii "254") = some 254 ∧
        hexBytes (ascii "00410100") = some [0, 0x41, 1, 0] ∧
        pairs CodeKind.ofBytes [0, 0x41, 1, 0] = some [.glyph 0x41, .lineEnd] ∧ 254 + 4 / 2 - 1 ≤ 255) ∧
      (admits .lg .service State.reset = true ∧ decimal (ascii "191") = some 191 ∧
        hexBytes (ascii "000000000000000000000000") = some (List.replicate 12 0) ∧ 191 + 12 / 12 - 1 ≤ 191) ∧
      admits .lh .service State.reset = true ∧ decimal (ascii "2") = some 2 := by decide +kernel

/-- An LC and an LK whose second entry is none, and the entries at the edges of what is one. -/
theorem witness_PrintDirectives_none :
    hexBytes (ascii "01000500") = some [1, 0, 5, 0] ∧ 4 % 2 = 0 ∧ 1 < 4 / 2 ∧ CodeKind.ofBytes 5 0 = none ∧
      CodeKind.ofBytes 4 0 = some .substitute ∧ CodeKind.ofBytes 0 191 = some (.glyph 191) ∧ CodeKind.ofBytes 0 192 = none ∧
      KeyEntry.ofBytes 4 0 = none ∧ KeyEntry.ofBytes 1 0x7F = none ∧ KeyEntry.ofBytes 0x81 0xBF = some (.char 0xBF true) ∧
      KeyEntry.ofBytes 2 12 = none ∧ KeyEntry.ofBytes 2 11 = some (.action .service false) ∧ KeyEntry.ofBytes 3 3 = none ∧
      KeyEntry.ofBytes 0x83 2 = some (.modifier .func) ∧
      (after (exec (.lk .service 1 (words ["0", "1", "0400"])) (quiet State.reset))).kcu.keymap = defaultKeymap := by decide +kernel

/-- Slots 1 to 4 and 0 and 5; a slot free, and in use by listed fields; a BUILDING slot's last field. -/
theorem witness_FormDirectives :
    let s := fun (f : FormSlot) => { State.reset with kcu := { Kcu.reset with forms := f :: List.replicate 3 emptyForm } }
    let b := s { emptyForm with status := .building, count := 2, defined := [1] }
    (admits .ef .service State.reset = true ∧ decimal (ascii "1") = some 1 ∧ formInUse 1 State.reset = false ∧
        formBusy .service 1 State.reset = false ∧ formInUse 1 (s { emptyForm with listed := 1 }) = true ∧
        decimal (ascii "5") = some 5 ∧ admits .ef .service (s { emptyForm with listed := 1 }) = true) ∧
      (admits .lf .service State.reset = true ∧ decimal (ascii "0") = some 0 ∧ hexBytes (ascii "41") = some [0x41] ∧
        labelOk [0x41] = true ∧ decimal (ascii "16") = some 16) ∧
      admits .lf .service b = true ∧ (b.kcu.formSlotAt 1).status = .building ∧ 2 ≤ (b.kcu.formSlotAt 1).count ∧
      formInUse 1 b = false ∧ formBusy .service 1 b = false ∧ decimal (ascii "24") = some 24 ∧
      (∀ i, 1 ≤ i → i ≤ (b.kcu.formSlotAt 1).count → i = 2 ∨ i ∈ (b.kcu.formSlotAt 1).defined) := by
  refine ⟨by decide +kernel, by decide +kernel, by decide +kernel, rfl, by decide +kernel, by decide +kernel, by decide +kernel,
    by decide +kernel, fun i h1 h2 => ?_⟩
  have h3 : i ≤ 2 := h2
  rcases Nat.lt_or_ge i 2 with h | h
  · exact .inr (by rw [show i = 1 by omega]; exact List.mem_singleton.mpr rfl)
  · exact .inl (by omega)

/-- A slot that the other context's LF writes; labels of 12 and 13 characters and with a code that no key carries; a field number
above the field count. -/
theorem witness_FormDirectives_refused :
    let s := { State.reset with du := { Du.reset with line := ⟨.executing, [], false, 1, some (.form [] 1 none), false⟩ } }
    let label := fun n => List.replicate n (0x41 : Byte)
    formBusy .service 1 s = true ∧ formBusy .service 2 s = false ∧ formInUse 1 s = false ∧ admits .ef .service s = true ∧
      admits .lf .service s = true ∧ labelOk (label 12) = true ∧ labelOk (label 13) = false ∧ labelOk [0x7F] = false ∧
      labelOk [0xBF] = true ∧ (s.kcu.formSlotAt 1).status ≠ .building ∧ ¬ 3 ≤ { emptyForm with count := 2 }.count := by decide +kernel

/-- A local EF whose writes are done while no notice slot is FREE: slot 1 is BUSY for the line till the outcome line is placed; and
a local SR, behind which the line's directives are BUSY so long. -/
theorem witness_FormDirectives_answering :
    let s := fun j => { State.reset with
      du := { Du.reset with keyed := ⟨some j, ascii "EF01", none, []⟩ }
      pqu := { Pqu.reset with notices := List.replicate 8 ⟨.listed, []⟩ } }
    let t := deliver (.directive .service) [] (s (.form [(2048, [0])] 1 (some .empty)))
    let r := regionsDone (s (.regions []))
    t.du.job (otherCtx .line) = some (.answering (.form 1)) ∧ formBusy .line 1 t = true ∧ formBusy .line 2 t = false ∧
      (freeNoticeSlot 1 t).du.keyed.job = none ∧ formBusy .line 1 (freeNoticeSlot 1 t) = false ∧
      r.du.job .service = some (.answering .regions) ∧ r.du.srIn .service = true ∧ r.du.srRunning = false ∧
      (freeNoticeSlot 1 r).du.srIn .service = false := by decide +kernel

/-- A form's writes before the last and at the last, with and without a status to take. -/
theorem witness_FormDirectives_writes :
    let s := fun j => { State.reset with du := { Du.reset with keyed := ⟨some j, [], none, []⟩ } }
    let j := fun n st => Job.form (List.replicate n (4096, [0])) 1 st
    (s (j 2 none)).du.job .service = some (.form ((4096, [0]) :: [(4096, [0])]) 1 none) ∧
      (s (j 1 none)).du.job .service = some (.form ((4096, [0]) :: []) 1 none) ∧
      (s (j 1 (some .loaded))).du.job .service = some (.form ((4096, [0]) :: []) 1 (some .loaded)) := by decide +kernel

theorem witness_KeyDirectives :
    admits .kl .service State.reset = true ∧ admits .kl .line (session Pe.reset) = true ∧ admits .ku .service State.reset = true ∧
      argsOk .kl (asRead (words ["1"])) = true ∧
      (admits .lk .service State.reset = true ∧ decimal (ascii "2") = some 2 ∧ decimal (ascii "48") = some 48 ∧
        hexBytes (ascii "0141") = some [1, 0x41] ∧ pairs KeyEntry.ofBytes [1, 0x41] = some [.char 0x41 false] ∧
        48 + 2 / 2 - 1 ≤ 48) := by decide +kernel

/-- Entries of each kind, two of them put in at the keymap's end, and settings by their numbers. -/
theorem witness_KeyDirectives_entries :
    (0x82 : Byte).toNat % 128 = 2 ∧ (9 : Byte).toNat = KeyAct.feed.number ∧
      pairs KeyEntry.ofBytes [0, 0, 0x82, 9] = some [.none, .action .feed true] ∧
      (putFrom defaultKeymap 142 [.none, .action .feed true])[143]? = some (.action .feed true) ∧ 143 < defaultKeymap.length ∧
      (defaultSettings.withValue 12 1).autoSend = true ∧ (defaultSettings.withValue 18 1) = defaultSettings := by decide +kernel

/-- The oldest entry SENT with no echo listed, with one listed, and CLOSED; a first choice that is still CLOSED and one that is
not; three and four entries AWAITING. -/
theorem witness_RunDirectives_follow :
    let s := fun e => { session Pe.reset with spu := { spool e with active := true, firstChoice := some 7 } }
    let sent := s (entry .sent)
    let many := fun n => List.replicate n (entry .awaiting) ++ List.replicate (32 - n) freeEntry
    let p := fun n => { Spu.reset with table := many n, order := List.range' 1 n }
    sent.spu.order = 1 :: [] ∧ (sent.spu.entry 1).state = .sent ∧ (sent.spu.entry 1).echoes = 0 ∧
      ((s { entry .sent with echoes := 1 }).spu.entry 1).echoes ≠ 0 ∧ (s (entry .closed)).spu.countIn .closed ≠ 0 ∧
      sent.spu.countIn .closed = 0 ∧ sent.spu.countIn .sending = 0 ∧ sent.clu.line = .ready ∧ sent.spu.active = true ∧
      (s (entry .closed)).spu.firstChoice = some 7 ∧ (s (entry .closed)).spu.slotOf 7 = some 1 ∧
      ((s (entry .closed)).spu.entry 1).state = .closed ∧ (sent.spu.entry 1).state ≠ .closed ∧
      (s (entry .closed)).spu.firstIn .closed = some 1 ∧ sent.spu.firstIn .closed = none ∧
      (p 3).countIn .awaiting < 4 ∧ 4 ≤ (p 4).countIn .awaiting := by decide +kernel

theorem witness_RunDirectives :
    let s := fun st => { session Pe.reset with spu := spool (entry st) }
    let d := { State.reset with spu := spool { entry .damaged with serial := none } }
    (s .closed).spu.securing = false ∧ admits .xs .line (s .closed) = true ∧ admits .xs .service State.reset = true ∧
      decimal (ascii "7") = some 7 ∧ (s .closed).spu.slotOf 7 = some 1 ∧ decimal (ascii "65536") = some 65536 ∧
      ((s .closed).spu.entry 1).state = .closed ∧ ((s .sent).spu.entry 1).state ≠ .closed ∧
      argsOk .xs (asRead (words ["1", "2"])) = true ∧ (argsOk .xs (asRead (words ["A"])) = true ∧ decimal (ascii "A") = none) ∧
      admits .xh .service State.reset = true ∧ argsOk .xh (asRead []) = true ∧ admits .xd .service d = true ∧
      decimal (ascii "0") = some 0 ∧ decimal (ascii "1") = some 1 ∧ (d.spu.entry 1).state = .damaged ∧
      admits .xd .service (s .sent) = true ∧ (s .sent).spu.slotOf 7 = some 1 := by decide +kernel

/-- Offsets 8 and 255 for the last pads, settings at their limits, and the classes. -/
theorem witness_SettingDirectives :
    let w := { State.reset with pm := { Pm.reset with writing := some [] } }
    (admits .ls .service State.reset = true ∧ decimals (asRead (words ["47", "8", "255"])) = some (47 :: 8 :: [255]) ∧
        admits .ls .service w = true ∧ w.pm.writing.isSome = true ∧
        decimals (asRead (words ["47", "8", "256"])) = some (47 :: 8 :: [256])) ∧
      (admits .sv .service State.reset = true ∧ admits .sv .service w = true ∧ decimal (ascii "11") = some 11 ∧
        decimal (ascii "600") = some 600 ∧ svOutOfRange defaultSettings 11 600 = false ∧ svOutOfRange defaultSettings 11 29 = true ∧
        svOutOfRange defaultSettings 9 960 = false ∧ svOutOfRange defaultSettings 9 961 = true ∧
        State.reset.pm.writing = none) ∧
      admits .ps .service State.reset = true ∧ decimal (ascii "6") = some 6 ∧ decimal (ascii "1") = some 1 ∧
      (settingRange 1).isSome = true ∧ (settingRange 17).isSome = true ∧ settingRange 0 = none ∧ settingRange 18 = none := by
  decide +kernel

/-- WM over the SPOOL region with an entry held, over a form slot in use, and over neither; the writes of a WM and of an SR; and
an SR with each thing that holds it back. -/
theorem witness_MemoryDirectives_more :
    let map := defaultSettings.map
    let s := { State.reset with spu := spool (entry .closed) }
    let f := { State.reset with
      kcu := { Kcu.reset with forms := { emptyForm with listed := 1 } :: List.replicate 3 emptyForm } }
    let j := fun k => { State.reset with du := { Du.reset with keyed := ⟨some k, [], none, []⟩ } }
    let o : LineContext := ⟨.executing, [], false, 1, some .load, false⟩
    let a := map.form.base
    let w := List.replicate 2 (512, [(0 : Byte)])
    (map.spool.base < map.spool.base + map.spool.size ∧ map.spool.base < map.spool.base + 1 ∧ s.spu.order ≠ []) ∧
      (512 ≤ a ∧ a < a + (1 - 1) * 256 + 256 ∧ a + (1 - 1) * 256 < a + 1 ∧ formInUse 1 f = true ∧ f.spu.order = []) ∧
      (j (.writing w)).du.job .service = some (.writing ((512, [0]) :: [(512, [0])])) ∧
      (j (.regions w)).du.job .service = some (.regions ((512, [0]) :: [(512, [0])])) ∧
      ((j (.regions [])).du.job .service = some (.regions []) ∧ (j (.regions [])).du.job (otherCtx .service) = none ∧
        (j (.regions [])).spu.srGate = .clear ∧ { Spu.reset with srGate := .running }.srGate ≠ .clear) ∧
      { Du.reset with line := o }.job (otherCtx .service) ≠ none ∧ o.state = .executing ∧
      (admits .sr .service s = true ∧ s.spu.order ≠ []) ∧
      { Pqu.reset with ring := ⟨0, 1, false⟩ }.ring.fill State.reset.inboundSize ≠ 0 ∧
      State.reset.du.job .service ≠ some (.regions []) ∧ State.reset.du.job .line ≠ some (.regions []) := by decide +kernel

theorem witness_MemoryDirectives :
    let m := defaultMap 16384
    (admits .sr .service State.reset = true ∧ decimals (asRead (words ["16384"])) = some [16384] ∧
        srNames [16384] = some (16384, m) ∧ 16384 ∈ memSizes ∧ m.valid 16384 = true ∧
        State.reset.work.resumeMark ≤ m.inbound.size - 64 ∧ State.reset.pqu.ring.fill State.reset.inboundSize = 0 ∧
        State.reset.spu.order = [] ∧ State.reset.kcu.claim = none ∧ State.reset.pqu.list = [] ∧
        State.reset.du.job (otherCtx .service) = none ∧ State.reset.du.line.state ≠ .executing ∧ admits .sr .line openLine = true) ∧
      (let s := { State.reset with du := { Du.reset with line := ⟨.collecting, [], false, 1, none, false⟩ } }
      admits .sr .service s = true ∧ s.du.line.state ≠ .executing ∧ s.du.job (otherCtx .service) = none) ∧
      (srNames [4096] = some (4096, defaultMap 4096) ∧ 4096 ∉ memSizes) ∧ srNames [8192, 1024] = none ∧
      ({ m with form := ⟨16384, 1024⟩ }.valid 32768 = true ∧ { m with form := ⟨1024, 1024⟩ }.valid 32768 = false) ∧
      writesAt 512 (List.replicate 9 0) = [(512, List.replicate 8 0), (520, [0])] ∧
      admits .wm .service State.reset = true ∧ decimal (ascii "511") = some 511 ∧ hexBytes (ascii "00") = some [0] ∧
      511 < 512 ∧ [(0 : Byte)] ≠ [] := by decide +kernel

/-- A local RT with the line READY, LISTENING and in SETTLE. -/
theorem witness_SystemDirectives_line :
    admits .rt .service (session Pe.reset) = true ∧ (session Pe.reset).clu.line = .ready ∧
      (session Pe.reset).pm.writing = none ∧ (session Pe.reset).pm.stage ≠ .shutdown ∧
      admits .rt .service (withClu (clu .listen)) = true ∧ (withClu (clu .listen)).clu.line = .listen ∧
      admits .rt .service (withClu (clu .settle)) = true ∧ (withClu (clu .settle)).clu.line = .settle := by decide +kernel

theorem witness_SystemDirectives :
    let w := { State.reset with pm := { Pm.reset with writing := some [] } }
    let line := { w with du := { Du.reset with line := ⟨.executing, [], false, 1, some .settings, false⟩ } }
    asRead [] = [] ∧ admits .ws .service State.reset = true ∧ admits .ws .service w = true ∧ admits .rt .service w = true ∧
      w.pm.writing.isSome = true ∧ admits .rt .service State.reset = true ∧ State.reset.pm.writing = none ∧
      State.reset.pm.stage ≠ .shutdown ∧ State.reset.clu.line = .off ∧ admits .rt .line openLine = true ∧
      w.pm.power ≠ .off ∧ w.pm.writing = some [] ∧ w.du.line.job ≠ some .settings ∧ w.du.keyed.job ≠ some .settings ∧
      line.du.line.job = some .settings ∧ line.du.line.orphan = false ∧ line.pe.reports.length < 4 ∧
      { w with du := { Du.reset with keyed := ⟨some .settings, [], none, []⟩ } }.du.keyed.job = some .settings := by decide +kernel

end Sys2Proof.Tests
end

