-- ==== Sys2Proof/Proofs/Commands.lean ====
section
/-! SUPPORT. What a command can answer, said once for all of them (`exec_answers`), and what the four commands answer whose effect
is not made of the blocks' operations alone. -/

namespace Sys2Proof.Machine

/-! ## What an answer is -/

/-- From `s` to `e` the memories stand, with the marks of what was cut off, and so does the queue. -/
structure Kept (s e : State) : Prop where
  mem : e.mem = s.mem
  settings : e.settings = s.settings
  torn : e.settingsTorn = s.settingsTorn
  cut : e.regionsCut = s.regionsCut
  pending : e.pending = s.pending

theorem Kept.of_outside {s e : State} (h : e.outside = s.outside) : Kept s e ∧ e.fresh = s.fresh := by
  simp only [State.outside, Prod.mk.injEq] at h
  obtain ⟨mem, settings, torn, cut, -, fresh, pending⟩ := h
  exact ⟨⟨mem, settings, torn, cut, pending⟩, fresh⟩

theorem Kept.safe {s e : State} (h : Kept s e) : Safe s e := ⟨h.settings, h.pending, fun w => h.mem ▸ w⟩

/-- A command answers the state it had, or the common end of an effect that keeps the bounds and the memories, and that draws a free
value only where `draws` holds. -/
def Answers (draws : Prop) (s : State) (o : Out) : Prop :=
  o = .next s ∨ ∃ e, o = .next (finish e) ∧ (Bounded s → Bounded e) ∧ Kept s e ∧ (¬ draws → e.fresh = s.fresh)

theorem answers_ignored (draws : Prop) (s : State) : Answers draws s (ignored s) := .inl rfl

theorem answers_guarded_kept {draws : Prop} {c : Bool} {e s : State} (b : Bounded s → Bounded e) (k : Kept s e)
    (f : ¬ draws → e.fresh = s.fresh) : Answers draws s (guarded c e s) :=
  (guarded_cases c e s).imp id fun h => ⟨e, h, b, k, f⟩

theorem answers_guarded {draws : Prop} {c : Bool} {e s : State} (b : Bounded s → Bounded e) (o : e.outside = s.outside) :
    Answers draws s (guarded c e s) :=
  answers_guarded_kept b (Kept.of_outside o).1 fun _ => (Kept.of_outside o).2

/-- An effect that also sets the part's lines. -/
theorem answers_guarded_pins {draws : Prop} {c : Bool} {e s : State} (v : Pins) (b : Bounded s → Bounded e)
    (o : e.outside = (s.setPins v).outside) : Answers draws s (guarded c e s) :=
  have ⟨k, f⟩ := Kept.of_outside o
  answers_guarded_kept b ⟨k.mem, k.settings, k.torn, k.cut, k.pending⟩ fun _ => f

theorem answers_takeKey {draws : Prop} {k : KeyEvent} {f : State → State} (b : ∀ s, Bounded s → Bounded (f s))
    (o : ∀ s, (f s).outside = s.outside) (s : State) : Answers draws s (takeKey k f s) := by
  unfold takeKey
  split
  · rename_i x rest e
    refine answers_guarded (fun h => bounded_sendFrame (b _ (bounded_setKcu h ?_))) (by simp [o])
    have := h.typeahead
    rw [e, List.length_cons] at this
    exact show rest.length ≤ 16 by omega
  · exact answers_ignored ..

theorem answers_directive {draws : Prop} (d : Dir) (c : Ctx) (tag : Nat) (args : List Text) (s : State) :
    Answers draws s (directiveCommand d d.rule c tag args s) :=
  answers_guarded (bounded_beginCommand (bounding_rule d) d c tag args) (outside_beginCommand (tame_rule d) ..)

/-! ## Effects that set the lines or draw a free value -/

/-- A turn of the carrier indication, which the line acts on while the part is awake. -/
theorem answers_carrier {draws : Prop} {c awake present : Bool} {f : State → State} {s : State} (d : draws)
    (b : ∀ s, Bounded s → Bounded (f s)) (o : ∀ s, (f s).outside = s.outside) :
    Answers draws s (guarded c (if awake then f (energyTurned present s) else energyTurned present s) s) := by
  have turned : Kept s (energyTurned present s) := ⟨rfl, rfl, rfl, rfl, rfl⟩
  refine answers_guarded_kept (fun h => ?_) ?_ fun n => absurd d n
  · split
    · exact b _ (bounded_energyTurned present h)
    · exact bounded_energyTurned present h
  · split
    · have k := (Kept.of_outside (o (energyTurned present s))).1
      exact ⟨k.mem, k.settings, k.torn, k.cut, k.pending⟩
    · exact turned

theorem bounded_temperatureSample (celsius : Int) {s : State} (h : Bounded s) : Bounded (temperatureSample celsius s) := by
  unfold temperatureSample
  dsimp only
  split <;> simp [h]

theorem outside_temperatureSample (celsius : Int) (s : State) :
    (temperatureSample celsius s).outside = (s.setPins { s.pins with thermistor := celsius }).outside := by
  unfold temperatureSample
  dsimp only
  split <;> rfl

theorem bounded_batterySampled (millivolts : Nat) {s : State} (h : Bounded s) : Bounded (batterySampled millivolts s) := by
  unfold batterySampled
  dsimp only
  (repeat' split) <;> simp [h]

theorem outside_batterySampled (millivolts : Nat) (s : State) :
    (batterySampled millivolts s).outside = (s.setPins { s.pins with battery := millivolts }).outside := by
  unfold batterySampled
  dsimp only
  (repeat' split) <;> simp

theorem answers_sensorChange {draws : Prop} (sensor : Sensor) (bad : Bool) (s : State) :
    Answers draws s (execSensorChange sensor bad s) := by
  cases sensor
  · exact answers_guarded_pins { s.pins with paperAbsent := bad } (fun h => bounded_setHdu (bounded_setPins h)) rfl
  · exact answers_guarded_pins { s.pins with lidOpen := bad } (fun h => bounded_setHdu (bounded_setPins h)) rfl

/-! ## Effects with a case of their own -/

theorem answers_keyChar {draws : Prop} (s : State) : Answers draws s (execKeyChar s) := by
  unfold execKeyChar
  split
  · exact answers_takeKey (fun s h => by simp [h]) (fun s => by simp) s
  · exact answers_ignored ..

theorem answers_measurementEnd {draws : Prop} (counts : List (BitVec 12)) (s : State) :
    Answers draws s (execMeasurementEnd counts s) := by
  unfold execMeasurementEnd
  split
  · exact answers_guarded (fun h => by simp [h]) (by simp)
  · exact answers_ignored ..

theorem answers_displayFrameEnd {draws : Prop} (s : State) : Answers draws s (execDisplayFrameEnd s) := by
  refine answers_guarded (fun h => ?_) ?_ <;> split
  · exact bounded_sendFrame (bounded_setKcu h h.typeahead)
  · exact bounded_setKcu h h.typeahead
  · simp
  · simp

/-! ## All commands -/

/-- The commands that turn the carrier indication. -/
def turnsCarrier (c : Instr) : Prop := c = .carrierPresent ∨ c = .carrierAbsent

/-- The commands whose effect is not made of the blocks' operations alone: those that complete a burst or a settings write, and those
that give or take the power. -/
def hasOwnEffect : Instr → Bool
  | .burstComplete | .settingsWriteComplete | .batteryRemoved _ | .powerOn .. => true
  | _ => false

/-- Every other command answers the state it had, or the common end of an effect that keeps the bounds and the memories. -/
theorem exec_answers (c : Instr) (s : State) (own : hasOwnEffect c = false) : Answers (turnsCarrier c) s (exec c s) := by
  cases c with
  | burstComplete | settingsWriteComplete | batteryRemoved | powerOn => cases own
  | qs | qe | qm | qt | fd | pd | lc | lg | lh | lf | ef | kl | ku | xs | xh | xd | lk | ls | sr | sv | wm | ws | rt | ps =>
    exact answers_directive ..
  | enter | tab | rub | cancel | newOrder | note | send | discard | feed | service =>
    exact answers_takeKey (fun s h => by simp [h]) (fun s => by simp) s
  | carrierPresent =>
    exact answers_carrier (.inl rfl) (fun s h => by simp [h]) fun s => by simp
  | carrierAbsent =>
    exact answers_carrier (.inr rfl) (fun s h => by simp [h]) fun s => by simp
  | measurementEnd counts => exact answers_measurementEnd counts s
  | keyChar => exact answers_keyChar s
  | displayFrameEnd => exact answers_displayFrameEnd s
  | sensorChange sensor bad => exact answers_sensorChange sensor bad s
  | feedStepEnd celsius => exact answers_guarded_pins { s.pins with thermistor := celsius } (fun h => by simp [h]) (by simp)
  | temperatureSample celsius =>
    exact answers_guarded_pins _ (bounded_temperatureSample celsius) (outside_temperatureSample celsius s)
  | batterySample millivolts =>
    exact answers_guarded_pins _ (bounded_batterySampled millivolts) (outside_batterySampled millivolts s)
  | _ => exact answers_guarded (fun h => by simp (maxDischargeDepth := 20) [h]) (by simp)

/-! ## The commands with an effect of their own -/

/-- BURST_COMPLETE stops at an address the memory does not have (log entry 30). -/
theorem burstComplete_cases (s : State) :
    s.jmc.current = none ∧ exec .burstComplete s = .next s ∨
    ∃ c, s.jmc.current = some c ∧
      ((∀ a ∈ placeAddrs s.work.map c.burst.place c.burst.count, a < s.work.memSize) ∧
          exec .burstComplete s = .next (finish (burstComplete c s)) ∨
        ∃ a ∈ placeAddrs s.work.map c.burst.place c.burst.count, s.work.memSize ≤ a ∧
          exec .burstComplete s = .fault (.noSuchAddress a)) := by
  show _ ∧ execBurstComplete s = _ ∨ _
  simp only [show exec .burstComplete s = execBurstComplete s from rfl]
  unfold execBurstComplete
  cases s.jmc.current with
  | none => exact .inl ⟨rfl, rfl⟩
  | some c =>
    refine .inr ⟨c, rfl, ?_⟩
    dsimp only
    split
    · rename_i a found
      exact .inr ⟨a, List.mem_of_find?_eq_some found, by simpa using List.find?_some found, rfl⟩
    · rename_i found
      exact .inl ⟨fun a ha => by simpa using List.find?_eq_none.mp found a ha, rfl⟩

theorem settingsWriteComplete_cases (s : State) : exec .settingsWriteComplete s = .next s ∨
    ∃ bytes, s.pm.writing = some bytes ∧ exec .settingsWriteComplete s = .next (finish (settingsWritten bytes s)) := by
  simp only [show exec .settingsWriteComplete s = execSettingsWriteComplete s from rfl]
  unfold execSettingsWriteComplete
  cases s.pm.writing with
  | none => exact .inl rfl
  | some bytes => exact (guarded_cases _ _ s).imp id fun h => ⟨bytes, rfl, h⟩

theorem bounded_settingsWritten (bytes : Text) {s : State} (h : Bounded s) : Bounded (settingsWritten bytes s) := by
  unfold settingsWritten
  dsimp only
  split
  · exact bounded_answerDone _ (bounded_setPm (bounded_setSettingsTorn (bounded_setSettings h)))
  · exact bounded_setPm (bounded_setSettingsTorn (bounded_setSettings h))

theorem outside_settingsWritten (bytes : Text) (s : State) :
    (settingsWritten bytes s).outside = ((s.setSettings bytes).setSettingsTorn false).outside := by
  unfold settingsWritten
  dsimp only
  split <;> simp

/-! ## What every answered command keeps -/

/-- From `s` to `t` the bounds are kept, with the settings memory, the queue and the memory's canonical form. -/
def Upholds (s t : State) : Prop := (Bounded s → Bounded t) ∧ Safe s t

theorem Upholds.refl (s : State) : Upholds s s := ⟨id, Safe.refl s⟩

/-- The common end adds nothing to what an effect keeps. -/
theorem Upholds.finish {s e : State} (b : Bounded s → Bounded e) (k : Safe s e) : Upholds s (finish e) :=
  ⟨fun h => bounded_finish (b h), k.trans (safe_finish e)⟩

theorem upholds_of_answers {draws : Prop} {s t : State} {o : Out} (a : Answers draws s o) (h : o = .next t) : Upholds s t := by
  rcases a with rfl | ⟨e, rfl, b, k, -⟩ <;> cases h
  · exact Upholds.refl s
  · exact Upholds.finish b k.safe

/-- Every command that answers a next state upholds these, but for the completion of a settings write. -/
theorem exec_upholds {c : Instr} {s t : State} (w : c ≠ .settingsWriteComplete) (h : exec c s = .next t) : Upholds s t := by
  cases own : hasOwnEffect c with
  | false => exact upholds_of_answers (exec_answers c s own) h
  | true =>
    cases c with
    | settingsWriteComplete => exact absurd rfl w
    | batteryRemoved landed => cases h; exact ⟨fun _ => bounded_powerLost .., safe_powerLost ..⟩
    | powerOn millivolts celsius paper lid =>
      rcases guarded_cases _ _ s with e | e <;> cases e.symm.trans h
      · exact Upholds.refl s
      · exact Upholds.finish (fun _ => bounded_startUp _) ((safe_setPins ..).trans (safe_startUp _))
    | burstComplete =>
      rcases burstComplete_cases s with ⟨-, e⟩ | ⟨c, -, ⟨-, e⟩ | ⟨a, -, -, e⟩⟩ <;> cases e.symm.trans h
      · exact Upholds.refl s
      · exact Upholds.finish (bounded_burstComplete c) (safe_burstComplete c s)
    | _ => cases own

/-- The completion of a settings write: the settings memory holds the bytes written. -/
theorem settingsWriteComplete_next {s t : State} (h : exec .settingsWriteComplete s = .next t) :
    t = s ∨ (Bounded s → Bounded t) ∧ t.pending = s.pending ∧ (Inv s → Inv t) ∧ s.pm.writing = some t.settings := by
  rcases settingsWriteComplete_cases s with e | ⟨bytes, writing, e⟩ <;> cases e.symm.trans h
  · exact .inl rfl
  · have ⟨settings, pending, wf⟩ := (Safe.of_outside (outside_settingsWritten bytes s)).trans (safe_finish _)
    exact .inr ⟨fun b => bounded_finish (bounded_settingsWritten bytes b), pending, wf, by rw [writing, settings]; rfl⟩

theorem exec_bounded {c : Instr} {s t : State} (h : exec c s = .next t) (b : Bounded s) : Bounded t := by
  by_cases w : c = .settingsWriteComplete
  · subst w
    rcases settingsWriteComplete_next h with rfl | ⟨keeps, -⟩
    · exact b
    · exact keeps b
  · exact (exec_upholds w h).1 b

theorem exec_inv {c : Instr} {s t : State} (h : exec c s = .next t) (i : Inv s) : Inv t := by
  by_cases w : c = .settingsWriteComplete
  · subst w
    rcases settingsWriteComplete_next h with rfl | ⟨-, -, keeps, -⟩
    · exact i
    · exact keeps i
  · exact (exec_upholds w h).2.2.2 i

/-- A step is the command at the front of the queue, run with the queue's rest, or idles. -/
theorem step_cases {s t : State} (h : step s = .next t) :
    t = s ∨ ∃ c rest, s.pending = c :: rest ∧ exec c (s.setPending rest) = .next t := by
  unfold step at h
  split at h
  · cases h; exact .inl rfl
  · exact .inr ⟨_, _, ‹_›, h⟩

/-! ## The obligations about all commands -/

/-- Settles O4: a step is a command, and each command's effect and the common end keep the bounds and the memory's form. -/
theorem stepKeepsMemoryForm : Obligations.StepKeepsMemoryForm := by
  refine ⟨fun s t i h => ?_, fun s t b h => ?_⟩
  · rcases step_cases h with rfl | ⟨c, rest, -, h⟩
    · exact i
    · exact exec_inv h i
  · rcases step_cases h with rfl | ⟨c, rest, -, h⟩
    · exact b
    · exact exec_bounded h (bounded_setPending b)

/-- Settles O3: only the completion of a burst can stop, at an address beyond the memory. -/
theorem everyCommandAnswers : Obligations.EveryCommandAnswers := by
  intro c s
  cases own : hasOwnEffect c with
  | false =>
    rcases exec_answers c s own with h | ⟨e, h, -⟩
    · exact .inl ⟨_, h⟩
    · exact .inl ⟨_, h⟩
  | true =>
    cases c with
    | settingsWriteComplete =>
      rcases settingsWriteComplete_cases s with h | ⟨bytes, -, h⟩
      · exact .inl ⟨_, h⟩
      · exact .inl ⟨_, h⟩
    | batteryRemoved landed => exact .inl ⟨_, rfl⟩
    | powerOn millivolts celsius paper lid =>
      rcases guarded_cases _ _ s with h | h
      · exact .inl ⟨_, h⟩
      · exact .inl ⟨_, h⟩
    | burstComplete =>
      rcases burstComplete_cases s with ⟨-, h⟩ | ⟨c, current, ⟨-, h⟩ | ⟨a, reached, beyond, h⟩⟩
      · exact .inl ⟨_, h⟩
      · exact .inl ⟨_, h⟩
      · exact .inr ⟨rfl, c, a, current, reached, beyond, h⟩
    | _ => cases own

/-- Settles O5: the queue and the settings memory by what every answered command keeps, the rest by what a command can answer. -/
theorem memoriesChange : Obligations.MemoriesChange := by
  refine ⟨fun c s t h => ?_, fun c s burst write removed on => ?_⟩
  · by_cases w : c = .settingsWriteComplete
    · subst w
      rcases settingsWriteComplete_next h with rfl | ⟨-, pending, -, writing⟩
      · exact ⟨rfl, .inl rfl⟩
      · exact ⟨pending, .inr ⟨rfl, writing⟩⟩
    · obtain ⟨-, settings, pending, -⟩ := exec_upholds w h
      exact ⟨pending, .inl settings⟩
  · have own : hasOwnEffect c = false := by
      cases c with
      | burstComplete => exact absurd rfl burst
      | settingsWriteComplete => exact absurd rfl write
      | batteryRemoved landed => exact absurd rfl (removed landed)
      | powerOn n x p l => exact absurd rfl (on n x p l)
      | _ => rfl
    rcases exec_answers c s own with h | ⟨e, h, -, k, fresh⟩
    · exact .inl h
    · exact .inr ⟨e, h, k.mem, k.settings, k.torn, k.cut, fun p a => fresh fun turns => turns.elim p a⟩

end Sys2Proof.Machine
end

