-- ==== Sys2Proof/Proofs/JournalMemory.lean ====
section
/-! SUPPORT. The journal memory controller: the state after reset, the rings' arithmetic, the arbiter's grant, and a burst's
completion. -/

namespace Sys2Proof.Machine

/-! ## Reset and the memory -/

theorem bounded_reset : Bounded State.reset where
  size := by decide
  map := by decide
  passed := fun w => by cases w <;> decide
  control := by decide
  reports := by decide
  input := by decide
  typeahead := by decide
  list := by decide
  receiver := rfl
  notices := rfl

/-- Settles O2: every value is the one State.reset writes out. -/
theorem resetValues : Obligations.ResetValues := by
  refine ⟨rfl, bounded_reset, rfl, ?_⟩
  repeat' constructor

/-- Settles O7, by the memory's two reading rules. -/
theorem memoryReadsWhatWasWritten : Obligations.MemoryReadsWhatWasWritten :=
  fun _ _ _ _ wf => ⟨Memory.read_write_same wf, fun other => Memory.read_write_other other wf⟩

/-! ## Rings (R6–R8) -/

/-- A sum of two offsets, taken around the ring once. -/
theorem mod_around {x size : Nat} (h : x < 2 * size) : x % size = if x < size then x else x - size := by
  split
  · exact Nat.mod_eq_of_lt ‹_›
  · rw [Nat.mod_eq_sub_mod (by omega), Nat.mod_eq_of_lt (by omega)]

/-- The fill, without the modulus. -/
theorem RingState.fill_mk {tail head size : Nat} (full : Bool) (t : tail < size) (h : head < size) :
    (RingState.mk tail head full).fill size = if head = tail then (if full = true then size else 0)
      else if tail < head then head - tail else head + size - tail := by
  unfold RingState.fill
  rw [mod_around (x := head + size - tail) (by omega)]
  grind

theorem RingState.fill_eq {r : RingState} {size : Nat} (t : r.tail < size) (h : r.head < size) :
    r.fill size = if r.head = r.tail then (if r.full = true then size else 0)
      else if r.tail < r.head then r.head - r.tail else r.head + size - r.tail := fill_mk r.full t h

theorem RingState.fill_le {r : RingState} {size : Nat} (t : r.tail < size) (h : r.head < size) : r.fill size ≤ size := by
  rw [fill_eq t h]; grind

theorem RingState.append_of_pos (r : RingState) (size : Nat) {n : Nat} (p : 1 ≤ n) :
    r.append size n = { r with head := (r.head + n) % size, full := (r.head + n) % size == r.tail } :=
  if_neg (by omega)

theorem RingState.release_of_pos (r : RingState) (size : Nat) {n : Nat} (p : 1 ≤ n) :
    r.release size n = { r with tail := (r.tail + n) % size, full := false } := if_neg (by omega)

theorem RingState.retract_of_pos (r : RingState) (size : Nat) {n : Nat} (p : 1 ≤ n) :
    r.retract size n = { r with head := (r.head + size - n) % size, full := false } := if_neg (by omega)

variable {r : RingState} {size n : Nat} 

theorem RingState.fill_append (t : r.tail < size) (h : r.head < size) (p : 1 ≤ n)
    (room : n ≤ r.free size) : (r.append size n).fill size = r.fill size + n := by
  have z : 0 < size := by omega
  unfold RingState.free at room
  rw [append_of_pos r size p, fill_mk _ t (Nat.mod_lt _ z)]
  rw [fill_eq t h] at room ⊢
  rw [mod_around (by omega)]
  grind

theorem RingState.fill_release (t : r.tail < size) (h : r.head < size) (p : 1 ≤ n) (held : n ≤ r.fill size) :
    (r.release size n).fill size + n = r.fill size := by
  have z : 0 < size := by omega
  have le := Nat.le_trans held (fill_le t h)
  rw [release_of_pos r size p, fill_mk _ (Nat.mod_lt _ z) h]
  rw [fill_eq t h] at held ⊢
  rw [mod_around (by omega)]
  grind

theorem RingState.fill_retract (t : r.tail < size) (h : r.head < size) (p : 1 ≤ n) (held : n ≤ r.fill size) :
    (r.retract size n).fill size + n = r.fill size := by
  have z : 0 < size := by omega
  have le := Nat.le_trans held (fill_le t h)
  rw [retract_of_pos r size p, fill_mk _ t (Nat.mod_lt _ z)]
  rw [fill_eq t h] at held ⊢
  rw [mod_around (by omega)]
  grind

/-- Settles O8: the fill without its modulus, before and after each operation. -/
theorem ringArithmetic : Obligations.RingArithmetic := by
  intro r size n t h _ p
  have le := RingState.fill_le t h
  refine ⟨Nat.add_sub_of_le le, fun room => ⟨RingState.fill_append t h p room, ?_, ?_⟩,
    fun held => ⟨RingState.fill_release t h p held, ?_⟩, fun held => ⟨RingState.fill_retract t h p held, ?_⟩⟩
  · rw [RingState.append_of_pos r size p]
  · rw [RingState.append_of_pos r size p]
  · rw [RingState.release_of_pos r size p]; exact ⟨rfl, rfl, rfl⟩
  · rw [RingState.retract_of_pos r size p]
    refine ⟨?_, rfl, rfl⟩
    show ((r.head + size - n) % size + n) % size = r.head
    rw [Nat.mod_add_mod, show r.head + size - n + n = r.head + size by omega, Nat.add_mod_right, Nat.mod_eq_of_lt h]

/-! ## The arbiter (R11) -/

theorem Jmc.req_setReq_same (j : Jmc) (w : Requester) (r : BusReq) : (j.setReq w r).req w = r := by cases w <;> rfl

theorem Jmc.req_setReq_other (j : Jmc) {v w : Requester} (r : BusReq) (h : v ≠ w) : (j.setReq w r).req v = j.req v := by
  cases v <;> cases w <;> first | rfl | contradiction

theorem Jmc.req_setCurrent (j : Jmc) (c : Option CurrentBurst) (w : Requester) :
    ({ j with current := c } : Jmc).req w = j.req w := by cases w <;> rfl

/-- A granted request leaves the waiting ones, each passed over. -/
theorem Jmc.grant_eq {j : Jmc} {w : Requester} {b : Burst} (choice : j.choice = some w) (waits : (j.req w).waiting = some b) :
    j.grant.current = some ⟨w, b, true⟩ ∧ j.grant.req w = ⟨none, 0⟩ ∧ ∀ v, v ≠ w → j.grant.req v = (j.req v).passOver := by
  unfold Jmc.grant
  rw [choice]
  dsimp only
  rw [waits]
  refine ⟨rfl, Jmc.req_setReq_same .., fun v h => (Jmc.req_setReq_other _ _ h).trans ?_⟩
  cases v <;> rfl

/-- No requester before the one a search finds meets its condition. -/
theorem find?_first {f : Requester → Bool} {w : Requester} (h : Requester.all.find? f = some w) {v : Requester}
    (b : Requester.all.idxOf v < Requester.all.idxOf w) : f v = false := by
  obtain ⟨-, i, inside, e, none⟩ := List.find?_eq_some_iff_getElem.mp h
  have at_w : Requester.all.idxOf w = i := e ▸ List.Nodup.idxOf_getElem (by decide) i inside
  have at_v : Requester.all[Requester.all.idxOf v]'(by omega) = v := List.getElem_idxOf (by omega)
  have no := none _ (at_w ▸ b)
  rw [at_v] at no
  simpa using no

/-- The one granted was passed over 4 times, or no waiting requester was and it is the first to wait (R11). -/
theorem Jmc.choice_cases {j : Jmc} {w : Requester} (h : j.choice = some w) :
    ((j.req w).passed = 4 ∧ ∀ v, Requester.all.idxOf v < Requester.all.idxOf w → (j.req v).waiting.isSome = true →
      (j.req v).passed ≠ 4) ∨
    (∀ v, (j.req v).waiting.isSome = true → (j.req v).passed ≠ 4) ∧
      ∀ v, Requester.all.idxOf v < Requester.all.idxOf w → (j.req v).waiting.isSome = false := by
  unfold Jmc.choice at h
  split at h
  · rename_i x found
    cases h
    refine .inl ⟨?_, fun v b waits => ?_⟩
    · have met := List.find?_some found
      simp only [Bool.and_eq_true, beq_iff_eq] at met
      exact met.2
    · simpa [waits] using find?_first found b
  · rename_i none4
    refine .inr ⟨fun v waits => ?_, fun v b => find?_first h b⟩
    have := List.find?_eq_none.mp none4 v (by cases v <;> decide)
    simpa [waits] using this

/-- Settles O9: what a grant leaves, and why the one granted was chosen. -/
theorem arbiterGrants : Obligations.ArbiterGrants := by
  intro j w b choice waits
  obtain ⟨current, granted, others⟩ := Jmc.grant_eq choice waits
  refine ⟨current, granted, fun v h => by rw [others v h]; exact ⟨rfl, rfl⟩, fun ⟨v, vw, v4⟩ => ?_, fun v b vw => ?_⟩
  · rcases Jmc.choice_cases choice with ⟨w4, -⟩ | ⟨none4, -⟩
    · exact w4
    · exact absurd v4 (none4 v vw)
  · rcases Jmc.choice_cases choice with ⟨w4, first4⟩ | ⟨-, first⟩
    · exact ⟨w4, first4 v b vw⟩
    · rw [first v b] at vw; cases vw

/-- An idle bus with nothing waiting is granted to no one. -/
theorem Jmc.grant_idle {j : Jmc} (h : ∀ w, (j.req w).waiting = none) : j.grant = j := by
  have none' : j.choice = none := by
    unfold Jmc.choice
    rw [List.find?_eq_none.mpr (fun w _ => by simp [h w]), List.find?_eq_none.mpr (fun w _ => by simp [h w])]
  unfold Jmc.grant
  rw [none']

/-! ## Bursts (R9, R10) -/

theorem getElem?_map_range {α : Type} {f : Nat → α} {n i : Nat} (h : i < n) : ((List.range n).map f)[i]? = some (f i) := by
  simp [h]

theorem length_placeAddrs (m : RegionMap) (p : Place) (n : Nat) : (placeAddrs m p n).length = n := by
  cases p <;> simp [placeAddrs, addrsFrom]

/-- Bytes written at different addresses read back, in their order. -/
theorem Memory.readAll_writeAll : ∀ {as : List Nat} {d : Text} {m : Memory}, as.Nodup → d.length = as.length →
    Memory.wf m = true → (Memory.writeAll m (as.zip d)).readAll as = d
  | [], [], _, _, _, _ => rfl
  | a :: as, b :: d, m, distinct, len, wf => by
    rw [List.nodup_cons] at distinct
    rw [List.zip_cons_cons]
    simp only [Memory.writeAll]
    have first : Memory.read (Memory.writeAll (Memory.write m a b) (as.zip d)) a = b := by
      rw [Memory.read_writeAll_other (by rintro p hp rfl; exact distinct.1 (List.of_mem_zip hp).1) (Memory.wf_write wf)]
      exact Memory.read_write_same wf
    have rest := Memory.readAll_writeAll (d := d) distinct.2 (by simpa using len) (Memory.wf_write (x := a) (v := b) wf)
    exact List.cons_eq_cons.mpr ⟨first, rest⟩

/-- The journal memory after a burst. -/
def Burst.result (b : Burst) (addrs : List Nat) (m : Memory) : Memory :=
  if b.write = true then m.writeAll (addrs.zip b.data) else m

theorem burstComplete_eq (c : CurrentBurst) (s : State) :
    let addrs := placeAddrs s.work.map c.burst.place c.burst.count
    let u := { s with mem := c.burst.result addrs s.mem, jmc := ({ s.jmc with current := none } : Jmc).grant }
    burstComplete c s = regionsDone (if c.wanted = true then
      deliver c.burst.purpose (if c.burst.write = true then [] else s.mem.readAll addrs) u else u) := by
  intro addrs u
  have e : (if c.burst.write = true then s.setMem (s.mem.writeAll (addrs.zip c.burst.data)) else s).setJmc s.jmc.completed = u := by
    dsimp only [u, Burst.result]
    split <;> rfl
  rw [← e]
  unfold burstComplete
  dsimp only
  cases c.burst.write <;> rfl

/-- Settles O10: a burst inside the memory completes as `burstComplete_eq` says, and what it does for its requester leaves what lies
outside the blocks alone. -/
theorem burstCompletes : Obligations.BurstCompletes := by
  refine ⟨fun m a o n i => ⟨length_placeAddrs .., length_placeAddrs .., length_placeAddrs .., fun h =>
    ⟨getElem?_map_range h, getElem?_map_range h, getElem?_map_range h⟩⟩, ?_⟩
  intro s c current addrs inv inside whole
  refine ⟨c.burst.result addrs s.mem, ({ s.jmc with current := none } : Jmc).grant, burstComplete c s, ?_, fun r => ?_, fun w => ?_,
    rfl, fun idle => ?_, burstComplete_eq c s, ?_⟩
  · rcases burstComplete_cases s with ⟨none, -⟩ | ⟨c', same, ⟨-, h⟩ | ⟨a, reached, beyond, -⟩⟩
    · rw [current] at none; cases none
    · cases current.symm.trans same; exact h
    · cases current.symm.trans same; exact absurd (inside a reached) (by omega)
  · exact if_neg (by simp [r])
  · obtain ⟨len, distinct⟩ := whole w
    rw [Burst.result, if_pos w]
    exact ⟨Memory.readAll_writeAll distinct (len.trans (length_placeAddrs ..).symm) inv,
      fun a no => Memory.read_writeAll_other (by rintro p hp rfl; exact no (List.of_mem_zip hp).1) inv⟩
  · exact Jmc.grant_idle fun w => by rw [Jmc.req_setCurrent]; exact idle w
  · have o : (burstComplete c s).outside =
        ({ s with mem := c.burst.result addrs s.mem, jmc := ({ s.jmc with current := none } : Jmc).grant } : State).outside := by
      rw [burstComplete_eq, outside_regionsDone]
      split
      · exact outside_deliver ..
      · rfl
    simp only [State.outside, Prod.mk.injEq] at o
    obtain ⟨mem, settings, -, -, pins, -, pending⟩ := o
    exact ⟨mem, settings, pending, pins⟩

end Sys2Proof.Machine
end

