-- ==== Sys2Proof/Proofs/DirectiveChecks.lean ====
section
/-! SUPPORT. The checks before a directive's own rule, and the rules' own MALFORMED: what each rule answers to a list of arguments
that is not `Dir.formed`. -/

namespace Sys2Proof.Machine

/-! ## The command of a directive -/

theorem exec_command (d : Dir) (c : Ctx) (tag : Nat) (args : List Text) (s : State) :
    exec (d.command c tag args) s = directiveCommand d d.rule c tag args s := by
  cases d <;> rfl

/-- A directive in a free context, its first check made. -/
theorem exec_command_free {d : Dir} {c : Ctx} {tag : Nat} {args : List Text} {s : State} (free : ctxFree c s = true) :
    exec (d.command c tag args) s = .next (finish (
      let u := occupy c tag (d.letters ++ twoDigits tag) s
      if argsOk d (asRead args) = true then begin' d d.rule c (asRead args) u else answer .malformed c u)) := by
  rw [exec_command]
  exact guarded_of free _ s

/-- A refusal of a directive that has just begun. -/
theorem refused_eq {d : Dir} {c : Ctx} {tag : Nat} {o : Outcome} {s : State} (free : ctxFree c s = true) :
    answer o c (occupy c tag (d.letters ++ twoDigits tag) s) = answered d c tag o [] [] s :=
  answer_occupy fun line => room_of_ctxFree (line ▸ free)

theorem srIn_occupy_other (c : Ctx) (tag : Nat) (head : Text) (s : State) :
    (occupy c tag head s).du.srIn (otherCtx c) = s.du.srIn (otherCtx c) := by
  unfold Du.srIn
  rw [job_occupy]

theorem srIn_iff (d : Du) (c : Ctx) :
    d.srIn c = true ↔ (∃ todo, d.job c = some (.regions todo)) ∨ d.job c = some (.answering .regions) := by
  unfold Du.srIn
  split
  · rename_i todo e
    exact ⟨fun _ => .inl ⟨todo, e⟩, fun _ => rfl⟩
  · rename_i e
    exact ⟨fun _ => .inr e, fun _ => rfl⟩
  · rename_i regions answering
    exact ⟨fun h => absurd h (by decide), fun h => h.elim (fun ⟨todo, e⟩ => absurd e (regions todo)) fun e => absurd e answering⟩

/-! ## Lists of arguments that are none of a rule's -/

/-- Arguments read as decimal numbers, one by one. -/
theorem numbers_of_map {args : List Text} {l : List Nat} (e : args.map decimal = l.map some) :
    args.length = l.length ∧ args.all (fun a => (decimal a).isSome) = true := by
  refine ⟨by simpa using congrArg List.length e, List.all_eq_true.mpr fun a ha => ?_⟩
  have : decimal a ∈ l.map some := e ▸ List.mem_map_of_mem ha
  obtain ⟨n, -, hn⟩ := List.mem_map.mp this
  rw [← hn]; rfl

section
variable {args : List Text} {c : Ctx} {s : State}

theorem ruleQs_malformed (h : Dir.qs.formed args = false) : ruleQs c args s = answer .malformed c s := by
  match args with
  | [] => simp [Dir.formed] at h
  | [a] =>
    have none' : decimal a = none := by simpa [Dir.formed] using h
    simp [ruleQs, none']
  | _ :: _ :: _ => rfl

theorem ruleFd_malformed (h : Dir.fd.formed args = false) : ruleFd c args s = answer .malformed c s := by
  match args with
  | [] => simp [Dir.formed] at h
  | [a] =>
    have none' : decimal a = none := by simpa [Dir.formed] using h
    simp [ruleFd, none']
  | _ :: _ :: _ => rfl

theorem serialArg_malformed {a : Text} (h : decimal a = none) : serialArg a s = .error .malformed := by
  unfold serialArg; rw [h]

theorem spoolRule_taken {rule : DirRule} (z : s.spu.securing = false) : spoolRule rule c args s = rule c args s := by
  unfold spoolRule; rw [if_neg (by simp [z])]

theorem ruleQe_malformed (z : s.spu.securing = false) (h : Dir.qe.formed args = false) :
    ruleQe c args s = answer .malformed c s := by
  refine (spoolRule_taken z).trans ?_
  match args with
  | [] => simp [Dir.formed] at h
  | [a] => simp [serialArg_malformed (s := s) (a := a) (by simpa [Dir.formed] using h)]
  | _ :: _ :: _ => rfl

theorem ruleXs_malformed (z : s.spu.securing = false) (h : Dir.xs.formed args = false) :
    ruleXs c args s = answer .malformed c s := by
  refine (spoolRule_taken z).trans ?_
  match args with
  | [] => simp [Dir.formed] at h
  | [a] => simp [serialArg_malformed (s := s) (a := a) (by simpa [Dir.formed] using h)]
  | _ :: _ :: _ => rfl

theorem ruleXd_malformed (z : s.spu.securing = false) (h : Dir.xd.formed args = false) :
    ruleXd c args s = answer .malformed c s := by
  refine (spoolRule_taken z).trans ?_
  match args with
  | [] => rfl
  | [a] => simp [serialArg_malformed (s := s) (a := a) (by simpa [Dir.formed] using h)]
  | [a, b] =>
    dsimp only
    split
    · rename_i n ea eb
      simp [Dir.formed, ea, eb] at h
    · rfl
  | _ :: _ :: _ :: _ => rfl

theorem noArgs_malformed {f : Ctx → State → State} (h : (args == []) = false) : noArgs f c args s = answer .malformed c s :=
  if_neg (by simpa using h)

theorem ruleQm_malformed (h : Dir.qm.formed args = false) : ruleQm c args s = answer .malformed c s := by
  unfold ruleQm
  split
  · rename_i a n e
    have ⟨len, numbers⟩ := numbers_of_map (l := [a, n]) e
    simp [Dir.formed, len, numbers] at h
  · rfl

theorem ruleQt_malformed (h : Dir.qt.formed args = false) : ruleQt c args s = answer .malformed c s := by
  unfold ruleQt
  split
  · rename_i t first n e
    have ⟨len, numbers⟩ := numbers_of_map (l := [t, first, n]) e
    simp [Dir.formed, len, numbers] at h
  · rfl

theorem rulePd_malformed (h : Dir.pd.formed args = false) : rulePd c args s = answer .malformed c s := by
  unfold rulePd
  split
  · rename_i d e
    have ⟨len, numbers⟩ := numbers_of_map (l := [d]) e
    simp [Dir.formed, len, numbers] at h
  · rename_i d w e
    have ⟨len, numbers⟩ := numbers_of_map (l := [d, w]) e
    simp [Dir.formed, len, numbers] at h
  · rfl

theorem ruleLh_malformed (h : Dir.lh.formed args = false) : ruleLh c args s = answer .malformed c s := by
  unfold ruleLh
  split
  · rename_i row x m l e
    have ⟨len, numbers⟩ := numbers_of_map (l := [row, x, m, l]) e
    simp [Dir.formed, len, numbers] at h
  · rfl

theorem ruleEf_malformed (h : Dir.ef.formed args = false) : ruleEf c args s = answer .malformed c s := by
  unfold ruleEf
  split
  · rename_i k e
    have ⟨len, numbers⟩ := numbers_of_map (l := [k]) e
    simp [Dir.formed, len, numbers] at h
  · rfl

theorem ruleSv_malformed (h : Dir.sv.formed args = false) : ruleSv c args s = answer .malformed c s := by
  unfold ruleSv
  split
  · rename_i n v e
    have ⟨len, numbers⟩ := numbers_of_map (l := [n, v]) e
    simp [Dir.formed, len, numbers] at h
  · rfl

theorem ruleLs_malformed (h : Dir.ls.formed args = false) : ruleLs c args s = answer .malformed c s := by
  unfold ruleLs
  split
  · rename_i p o os e
    have ⟨len, numbers⟩ := numbers_of_map (decimals_eq e)
    simp [Dir.formed, len, numbers] at h
  · rfl

theorem srNames_counts {l : List Nat} {x : Nat × RegionMap} (h : srNames l = some x) : l.length = 1 ∨ l.length = 9 := by
  unfold srNames at h
  split at h
  · exact .inl rfl
  · exact .inr rfl
  · cases h

theorem ruleSr_malformed (h : Dir.sr.formed args = false) : ruleSr c args s = answer .malformed c s := by
  unfold ruleSr
  cases e : (decimals args).bind srNames with
  | none => rfl
  | some x =>
    obtain ⟨l, read, names⟩ := Option.bind_eq_some_iff.mp e
    have ⟨len, numbers⟩ := numbers_of_map (decimals_eq read)
    rcases srNames_counts names with n | n <;> simp [Dir.formed, len, n, numbers] at h

theorem rulePs_malformed (h : Dir.ps.formed args = false) : rulePs c args s = answer .malformed c s := by
  match args with
  | [] => simp [Dir.formed] at h
  | [_] => rfl
  | [x, y] =>
    unfold rulePs
    dsimp only
    split
    · rename_i n v ex ey
      simp [Dir.formed, ex, ey] at h
    · rfl
  | _ :: _ :: _ :: _ => rfl

theorem ruleLc_malformed (h : Dir.lc.formed args = false) : ruleLc c args s = answer .malformed c s := by
  match args with
  | [] => simp [Dir.formed] at h
  | [_] => rfl
  | [x, y] =>
    unfold ruleLc
    dsimp only
    split
    · rename_i first t ex ey
      exact if_pos (by simpa [Dir.formed, ex, ey] using h)
    · rfl
  | _ :: _ :: _ :: _ => rfl

theorem ruleLg_malformed (h : Dir.lg.formed args = false) : ruleLg c args s = answer .malformed c s := by
  match args with
  | [] => rfl
  | [_] => rfl
  | [x, y] =>
    unfold ruleLg
    dsimp only
    split
    · rename_i g t ex ey
      exact if_pos (by simpa [Dir.formed, ex, ey] using h)
    · rfl
  | _ :: _ :: _ :: _ => rfl

theorem ruleWm_malformed (h : Dir.wm.formed args = false) : ruleWm c args s = answer .malformed c s := by
  match args with
  | [] => rfl
  | [_] => rfl
  | [x, y] =>
    unfold ruleWm
    dsimp only
    split
    · rename_i a t ex ey
      simp [Dir.formed, ex, ey, Nat.mod_one] at h
    · rfl
  | _ :: _ :: _ :: _ => rfl

theorem ruleLk_malformed (h : Dir.lk.formed args = false) : ruleLk c args s = answer .malformed c s := by
  match args with
  | [] => rfl
  | [_] => rfl
  | [_, _] => rfl
  | [x, y, z] =>
    unfold ruleLk
    dsimp only
    split
    · rename_i layer p t ex ey ez
      exact if_pos (by simpa [Dir.formed, ex, ey, ez] using h)
    · rfl
  | _ :: _ :: _ :: _ :: _ => rfl

theorem ruleLf_malformed (h : Dir.lf.formed args = false) : ruleLf c args s = answer .malformed c s := by
  match args with
  | [] => rfl
  | [_] => rfl
  | [_, _] => rfl
  | [_, _, _] => rfl
  | [x, z, y, n] =>
    unfold ruleLf
    dsimp only
    split
    · rename_i k name count ex ez ey en
      simp [Dir.formed, ex, ez, ey, en, Nat.mod_one] at h
    · rfl
  | [x, m, y, w, q] =>
    unfold ruleLf
    dsimp only
    split
    · rename_i k n label width kind ex em ey ew eq
      simp [Dir.formed, ex, em, ey, ew, eq, Nat.mod_one] at h
    · rfl
  | _ :: _ :: _ :: _ :: _ :: _ :: _ => rfl

/-- Every rule answers MALFORMED to arguments of a number or a form not its own; a claim that the Spool Unit does not take
while it secures the journal is not answered at all (R122). -/
theorem rule_malformed (d : Dir) (taken : d = .qe ∨ d = .xs ∨ d = .xh ∨ d = .xd → s.spu.securing = false)
    (h : d.formed args = false) : d.rule c args s = answer .malformed c s := by
  cases d with
  | qs => exact ruleQs_malformed h
  | qe => exact ruleQe_malformed (taken (by decide)) h
  | qm => exact ruleQm_malformed h
  | qt => exact ruleQt_malformed h
  | fd => exact ruleFd_malformed h
  | pd => exact rulePd_malformed h
  | lc => exact ruleLc_malformed h
  | lg => exact ruleLg_malformed h
  | lh => exact ruleLh_malformed h
  | lf => exact ruleLf_malformed h
  | ef => exact ruleEf_malformed h
  | xs => exact ruleXs_malformed (taken (by decide)) h
  | xh => exact (spoolRule_taken (taken (by decide))).trans (noArgs_malformed h)
  | xd => exact ruleXd_malformed (taken (by decide)) h
  | lk => exact ruleLk_malformed h
  | ls => exact ruleLs_malformed h
  | sr => exact ruleSr_malformed h
  | sv => exact ruleSv_malformed h
  | wm => exact ruleWm_malformed h
  | ps => exact rulePs_malformed h
  | kl | ku | ws | rt => exact if_neg (by simpa [Dir.formed] using h)

end

/-! ## The checks -/

/-- Settles O51: the checks in their order, then the rules' own MALFORMED. -/
theorem directiveChecks : Obligations.DirectiveChecks := by
  intro d c tag args s
  refine ⟨fun held => ?_, fun free bad => ?_, fun free ok allowed sr => ?_, fun line free ok refused => ?_, ?_, srIn_iff s.du c,
    fun may ok taken unformed => ?_⟩
  · rw [exec_command]
    exact guarded_not held _ s
  · rw [exec_command_free free]
    simp only [bad, Bool.false_eq_true, if_false, refused_eq free]
  · rw [exec_command_free free]
    simp only [ok, if_true]
    unfold begin'
    rw [work_occupy, if_neg, if_pos (by rw [srIn_occupy_other]; exact sr), refused_eq free]
    rintro ⟨rfl, no⟩
    rcases allowed with service | yes
    · cases service
    · rw [yes] at no; cases no
  · subst line
    rw [exec_command_free free]
    simp only [ok, if_true]
    unfold begin'
    rw [work_occupy, if_pos (by simp [refused]), refused_eq free]
  · rintro rfl
    rfl
  · rw [exec_command, directive_begins may ok, rule_malformed d (by rw [spu_occupy]; exact taken) unformed,
      refused_eq (ctxFree_of_admits may)]

end Sys2Proof.Machine
end

