-- ==== Sys2Proof/Proofs/Queries.lean ====
section
/-! SUPPORT. The directives that the line and the service lines may begin, from their arguments to their answers; then the queries QE,
QT and QM. -/

namespace Sys2Proof.Machine

/-! ## A directive taken, its arguments and its answer -/

section
variable {d : Dir} {c : Ctx} {tag : Nat} {args : List Text} {s : State}

/-- The state in which a directive's own rule runs. -/
def begun (d : Dir) (c : Ctx) (tag : Nat) (s : State) : State := occupy c tag (d.letters ++ twoDigits tag) s

theorem exec_admitted {e : State} (may : admits d c s = true) (ok : argsOk d (asRead args) = true)
    (rule : d.rule c (asRead args) (begun d c tag s) = e) : exec (d.command c tag args) s = .next (finish e) := by
  subst rule
  rw [exec_command]
  exact directive_begins may ok

/-- A directive whose arguments are decimal numbers. -/
theorem exec_numbers {e : State} {as : List Text} {l : List Nat} (may : admits d c s = true) (read : asRead args = as)
    (numbers : decimals as = some l) (rule : d.rule c as (begun d c tag s) = e) :
    exec (d.command c tag args) s = .next (finish e) := by
  subst read
  exact exec_admitted may (argsOk_of_decimals d numbers) rule

theorem finish_begun (may : admits d c s = true) (o : Outcome) (data : Text) (lines : List AnswerLine) :
    finishDirective c o data lines (begun d c tag s) = answered d c tag o data lines s :=
  finishDirective_occupy fun line => room_of_ctxFree (line ▸ ctxFree_of_admits may)

theorem answer_begun (may : admits d c s = true) (o : Outcome) : answer o c (begun d c tag s) = answered d c tag o [] [] s :=
  finish_begun may o [] []

@[simp] theorem work_begun : (begun d c tag s).work = s.work := work_occupy ..
@[simp] theorem clu_begun : (begun d c tag s).clu = s.clu := clu_occupy ..
@[simp] theorem pe_begun : (begun d c tag s).pe = s.pe := pe_occupy ..
@[simp] theorem ksu_begun : (begun d c tag s).ksu = s.ksu := ksu_occupy ..
@[simp] theorem kcu_begun : (begun d c tag s).kcu = s.kcu := kcu_occupy ..
@[simp] theorem spu_begun : (begun d c tag s).spu = s.spu := spu_occupy ..
@[simp] theorem pqu_begun : (begun d c tag s).pqu = s.pqu := pqu_occupy ..
@[simp] theorem hdu_begun : (begun d c tag s).hdu = s.hdu := hdu_occupy ..
@[simp] theorem job_begun : (begun d c tag s).du.job (otherCtx c) = s.du.job (otherCtx c) := job_occupy ..

end

/-! ## QE (R125) -/

theorem serialArg_range {x : Text} {n : Nat} {s : State} (hx : decimal x = some n)
    (h : n < 1 ∨ 65535 < n ∨ s.spu.slotOf n = none) : serialArg x s = .error .range := by
  unfold serialArg
  rw [hx]
  by_cases outside : n < 1 ∨ 65535 < n
  · exact if_pos outside
  · refine (if_neg outside).trans ?_
    rw [(or_assoc.mpr h).resolve_left outside]

theorem serialArg_ok {x : Text} {n m : Nat} {s : State} (hx : decimal x = some n) (lo : 1 ≤ n) (hi : n ≤ 65535)
    (h : s.spu.slotOf n = some m) : serialArg x s = .ok m := by
  unfold serialArg
  rw [hx]
  refine (if_neg (by omega)).trans ?_
  rw [h]

theorem ruleQe_begun_all {c : Ctx} {tag : Nat} {s : State} (may : admits .qe c s = true) (z : s.spu.securing = false) :
    ruleQe c [] (begun .qe c tag s) = answered .qe c tag .done
      (byteOf s.spu.order.length :: ((s.spu.order.take 29).map fun n => entryItem n (s.spu.entry n)).flatten)
      (if s.spu.order = [] then [.text (ascii "NO ENTRIES")] else s.spu.order.map .entryItem) s := by
  unfold ruleQe
  rw [spoolRule_taken (by rw [spu_begun]; exact z)]
  simp only [spu_begun, finish_begun may]

theorem ruleQe_begun {c : Ctx} {tag : Nat} {s : State} {x : Text} {n : Nat} (may : admits .qe c s = true)
    (z : s.spu.securing = false) (hx : decimal x = some n) :
    (n < 1 ∨ 65535 < n ∨ s.spu.slotOf n = none →
      ruleQe c [x] (begun .qe c tag s) = answered .qe c tag .range [] [] s) ∧
    ∀ m, 1 ≤ n → n ≤ 65535 → s.spu.slotOf n = some m → ruleQe c [x] (begun .qe c tag s) = answered .qe c tag .done
      (1 :: entryItem m (s.spu.entry m) ++ byteOf (s.spu.entry m).reasonText.length :: (s.spu.entry m).reasonText)
      (.entryItem m :: (if (s.spu.entry m).state = .rejected ∧ (s.spu.entry m).reasonText ≠ [] then [.entryReason m] else []))
      s := by
  unfold ruleQe
  rw [spoolRule_taken (by rw [spu_begun]; exact z)]
  refine ⟨fun h => ?_, fun m lo hi h => ?_⟩
  · simp only [serialArg_range hx (s := begun .qe c tag s) (by rw [spu_begun]; exact h), answer_begun may]
  · simp only [serialArg_ok hx lo hi (s := begun .qe c tag s) (by rw [spu_begun]; exact h), spu_begun, finish_begun may]

theorem entryItem_eq (n : Nat) (e : Entry) :
    let cls := match e.cls with
      | none => 0
      | some .order => 16
      | some .note => 32
    entryItem n e = [byteOf n,
        byteOf (e.state.code + cls + (if e.interrupted = true then 64 else 0) + if e.sentOnce = true then 128 else 0)] ++
      be16 (e.serial.getD 0) ++ be16 e.length ++ [byteOf e.attempts, byteOf e.reason] := by
  unfold entryItem boolCode
  cases e.interrupted <;> cases e.sentOnce <;> rcases e.cls with _ | _ | _ <;> rfl

/-! ## QT (R178) -/

theorem tableItem_begun (d : Dir) (c : Ctx) (tag : Nat) (s : State) : tableItem (begun d c tag s) = tableItem s := by
  funext t i
  unfold tableItem
  simp only [work_begun, ksu_begun, kcu_begun, hdu_begun]

theorem sixToALine_congr {s u : State} (h : tableItem u = tableItem s) (t : Nat) : ∀ fuel i n,
    sixToALine u t fuel i n = sixToALine s t fuel i n
  | 0, _, _ => rfl
  | fuel + 1, i, n => by
    unfold sixToALine
    rw [h, sixToALine_congr h t fuel]

theorem qtLines_begun (d : Dir) (c : Ctx) (tag : Nat) (s : State) : qtLines (begun d c tag s) = qtLines s := by
  funext t first n
  unfold qtLines
  simp only [work_begun, ksu_begun, kcu_begun, hdu_begun, sixToALine_congr (tableItem_begun d c tag s)]

theorem tableRange_none {t : Nat} (h : t < 1 ∨ 7 < t) : tableRange t = none := by
  unfold tableRange
  split <;> first
    | omega
    | rfl

/-- Bit `b` of byte `k` is the flag of glyph 128 + 8k + b (R189). -/
theorem loadedBytes_bit (f : BitVec 64) {k : Nat} (h : k < 8) :
    ∃ x, (loadedBytes f)[k]? = some x ∧ ∀ b < 8, x.getLsbD b = f.getLsbD (8 * k + b) := by
  refine ⟨_, getElem?_map_range h, fun b hb => ?_⟩
  simp [hb]

/-! ## QM (R17) -/

/-- A QM's burst has completed: it goes on with fewer bytes than asked for, and reports with all of them. -/
theorem deliver_reading {c : Ctx} {s : State} {a n : Nat} {got : Text} (data : Text)
    (h : s.du.job c = some (.reading a n got)) :
    deliver (.directive c) data s = if (got ++ data).length < n then goingOn c (.reading a n (got ++ data)) s
      else ended c .done (be16 a ++ [byteOf n] ++ (got ++ data)) ((qmLines a (got ++ data)).map .text) s := by
  show directiveWorked c data s = _
  unfold directiveWorked
  rw [h]
  dsimp only
  rw [directiveDue_eq, finishDirective_eq]

theorem ruleQm_begun {c : Ctx} {tag : Nat} {s : State} {x y : Text} {a n : Nat} (may : admits .qm c s = true)
    (hx : decimal x = some a) (hy : decimal y = some n) :
    ruleQm c [x, y] (begun .qm c tag s) = if 1 ≤ n ∧ n ≤ 32 ∧ a + n ≤ s.work.memSize then started .qm c tag (.reading a n []) s
      else answered .qm c tag .range [] [] s := by
  unfold ruleQm
  simp only [List.map_cons, List.map_nil, hx, hy, work_begun, answer_begun may]
  rw [show directiveDue c (setJob c (.reading a n []) (begun .qm c tag s)) = _ from directiveDue_occupy ..]

theorem ruleQt_begun {c : Ctx} {tag : Nat} {s : State} {x y z : Text} {t first n : Nat} (may : admits .qt c s = true)
    (hx : decimal x = some t) (hy : decimal y = some first) (hz : decimal z = some n) :
    (tableRange t = none → ruleQt c [x, y, z] (begun .qt c tag s) = answered .qt c tag .range [] [] s) ∧
    ∀ lo hi limit, tableRange t = some (lo, hi, limit) → ruleQt c [x, y, z] (begun .qt c tag s) =
      if lo ≤ first ∧ first ≤ hi ∧ 1 ≤ n ∧ first + n - 1 ≤ hi ∧ n ≤ limit then
        answered .qt c tag .done ([byteOf t, byteOf first, byteOf n] ++ ((List.range' first n).map (tableItem s t)).flatten)
          ((qtLines s t first n).map .text) s
      else answered .qt c tag .range [] [] s := by
  unfold ruleQt
  simp only [List.map_cons, List.map_nil, hx, hy, hz, tableItem_begun, qtLines_begun, finish_begun may, answer_begun may]
  exact ⟨fun none' => by rw [none'], fun lo hi limit range => by rw [range]⟩

/-- Settles O53: QE, QT and QM as their rules answer on the state in which the context executes, which shows the same tables. -/
theorem queriesAnswered : Obligations.QueriesAnswered := by
  intro c tag args s
  refine ⟨fun may z read => ?_, fun x n may z read hx => ⟨fun h => ?_, fun m lo hi h => ?_⟩,
    fun x y z t first n lo hi limit may read hx hy hz range => ?_, fun x y z t first n may read hx hy hz out => ?_, rfl,
    fun x y a n may read hx hy => ?_, fun a n got data job => ⟨rfl, fun h => ?_, fun h => ?_⟩, fun n => rfl, entryItem_eq, rfl,
    fun i k => ⟨?_, ?_, rfl, rfl, fun h => loadedBytes_bit _ h, ?_, rfl, rfl⟩, rfl, rfl, rfl⟩
  · exact exec_numbers (d := .qe) may read (l := []) rfl (ruleQe_begun_all may z)
  · exact exec_numbers (d := .qe) may read (l := [n]) (by simp [decimals, hx]) ((ruleQe_begun may z hx).1 h)
  · exact exec_numbers (d := .qe) may read (l := [n]) (by simp [decimals, hx]) ((ruleQe_begun may z hx).2 m lo hi h)
  · exact exec_numbers (d := .qt) may read (l := [t, first, n]) (by simp [decimals, hx, hy, hz])
      ((ruleQt_begun may hx hy hz).2 lo hi limit range)
  · exact exec_numbers (d := .qt) may read (l := [t, first, n]) (by simp [decimals, hx, hy, hz])
      ((ruleQt_begun may hx hy hz).1 (tableRange_none out))
  · exact exec_numbers (d := .qm) may read (l := [a, n]) (by simp [decimals, hx, hy]) (ruleQm_begun may hx hy)
  · rw [deliver_reading data job, if_pos h]
  · rw [deliver_reading data job, if_neg (by omega)]
  · show (s.hdu.codes.getD i .substitute).bytes = _
    cases s.hdu.codes.getD i .substitute <;> rfl
  · show (s.kcu.keymap.getD i .none).bytes = _
    rcases s.kcu.keymap.getD i .none with _ | _ | (_ | _) | _ <;> rfl
  · simp [tableItem, loadedBytes]

end Sys2Proof.Machine
end

