-- ==== Sys2Proof/Proofs/Forms.lean ====
section
/-! SUPPORT. The form directives EF and LF: the slot's checks, its writes, and what each completed burst of them does. -/

namespace Sys2Proof.Machine

/-! ## Arguments with a hex string -/

/-- Arguments of which one, at its directive's place, is a hex string, and the others decimal numbers. -/
theorem argsOk_of_hex {d : Dir} {i : Nat} (place : d.hexAt = some i) {args : List Text}
    (h : ∀ p ∈ args.zipIdx, (p.2 = i ∧ ∃ t, hexBytes p.1 = some t) ∨ ∃ n, decimal p.1 = some n) : argsOk d args = true := by
  refine (argsOk_iff d args).mpr ⟨fun a ha => ?_, fun p hp => ?_⟩
  · obtain ⟨j, hj⟩ := List.mem_iff_getElem?.mp ha
    rcases h (a, j) (List.mem_zipIdx_iff_getElem?.mpr hj) with ⟨-, t, ht⟩ | ⟨n, hn⟩
    · exact argOk_of_hexBytes ht
    · exact (argOk_of_decimal hn).1
  · rcases h p hp with ⟨e, -⟩ | ⟨n, hn⟩
    · exact .inl (e ▸ place)
    · exact .inr (argOk_of_decimal hn).2

/-! ## A directive that goes on as a job -/

/-- What a directive does to the Key Code Unit as it begins commutes with its beginning, and touches nothing else. -/
theorem started_setKcu (d : Dir) (c : Ctx) (tag : Nat) (j : Job) (k : Kcu) (s : State) :
    let e := started d c tag j (s.setKcu k)
    e.du = (started d c tag j s).du ∧ e.kcu = k ∧ e.outside = s.outside ∧ e.pe = s.pe ∧ e.spu = s.spu ∧ e.pqu = s.pqu ∧
      e.hdu = s.hdu := by
  cases c <;> exact ⟨rfl, rfl, rfl, rfl, rfl, rfl, rfl⟩

/-! ## The slot's checks (R97, R98) -/

theorem formBusy_iff (c : Ctx) (k : Nat) (s : State) : formBusy c k s = true ↔
    (∃ todo becomes, s.du.job (otherCtx c) = some (.form todo k becomes)) ∨
      s.du.job (otherCtx c) = some (.answering (.form k)) := by
  unfold formBusy
  split
  · rename_i todo j becomes e
    simp [e]
  · rename_i j e
    simp [e]
  · rename_i form answering
    exact ⟨fun h => absurd h (by decide), fun h => h.elim (fun ⟨todo, becomes, e⟩ => absurd e (form todo k becomes))
      fun e => absurd e (answering k)⟩

theorem labelOk_iff (t : Text) : labelOk t = true ↔
    t.length ≤ 12 ∧ ∀ b ∈ t, 0x20 ≤ b.toNat ∧ b.toNat ≤ 0x7E ∨ 0x80 ≤ b.toNat ∧ b.toNat ≤ 0xBF := by
  simp [labelOk, charCodeOk]

/-- The slot's checks, and its writes begun in a state `s.setKcu k'`. -/
theorem formWrite_begun {d : Dir} {c : Ctx} {tag : Nat} {s : State} (may : admits d c s = true) (k : Nat) (todo : List (Nat × Text))
    (becomes : Option FormStatus) (k' : Kcu) :
    formWrite c k todo becomes (begun d c tag s) ((begun d c tag s).setKcu k') =
      if formInUse k s = true then answered d c tag .inUse [] [] s
      else if formBusy c k s = true then answered d c tag .busy [] [] s
      else started d c tag (.form todo k becomes) (s.setKcu k') := by
  have inUse : formInUse k (begun d c tag s) = formInUse k s := formInUse_occupy ..
  have busy : formBusy c k (begun d c tag s) = formBusy c k s := formBusy_occupy ..
  have starts : directiveDue c (setJob c (.form todo k becomes) ((begun d c tag s).setKcu k')) =
      started d c tag (.form todo k becomes) (s.setKcu k') := by
    rw [show (begun d c tag s).setKcu k' = begun d c tag (s.setKcu k') from setKcu_occupy ..]
    exact directiveDue_occupy ..
  unfold formWrite
  rw [inUse, busy, starts, answer_begun may, answer_begun may]

/-! ## EF (R98) -/

theorem ruleEf_begun {c : Ctx} {tag : Nat} {s : State} {x : Text} {k : Nat} (may : admits .ef c s = true) (hx : decimal x = some k) :
    ruleEf c [x] (begun .ef c tag s) =
      if 1 ≤ k ∧ k ≤ 4 then
        if formInUse k s = true then answered .ef c tag .inUse [] [] s
        else if formBusy c k s = true then answered .ef c tag .busy [] [] s
        else started .ef c tag (.form [(s.work.map.form.base + (k - 1) * 256, [0])] k (some .empty)) s
      else answered .ef c tag .range [] [] s := by
  have writes := formWrite_begun (tag := tag) may k [(formAddr s.work.map k, [0])] (some .empty) s.kcu
  rw [show (begun .ef c tag s).setKcu s.kcu = begun .ef c tag s by cases c <;> rfl] at writes
  unfold ruleEf
  simp only [List.map_cons, List.map_nil, hx, work_begun, writes, answer_begun may]
  rfl

/-! ## LF (R97) -/

/-- What a header LF leaves of the Key Code Unit. -/
def Kcu.headerLoaded (u : Kcu) (k count : Nat) (name : Text) : Kcu :=
  u.setForm k { u.formSlotAt k with
    status := .building, count := count, defined := [], image := padTo 238 (formHeader 1 count name) }

/-- May a header LF name this slot, name and count? -/
def headerRange (k count : Nat) (name : Text) : Prop := 1 ≤ k ∧ k ≤ 4 ∧ labelOk name = true ∧ 1 ≤ count ∧ count ≤ 16

theorem ruleLf_header {c : Ctx} {tag : Nat} {s : State} {x z y v name : Text} {k n : Nat} (may : admits .lf c s = true)
    (hx : decimal x = some k) (hz : decimal z = some 0) (hy : hexBytes y = some name) (hv : decimal v = some n) :
    (¬ headerRange k n name → ruleLf c [x, z, y, v] (begun .lf c tag s) = answered .lf c tag .range [] [] s) ∧
    (headerRange k n name → ruleLf c [x, z, y, v] (begun .lf c tag s) =
      if formInUse k s = true then answered .lf c tag .inUse [] [] s
      else if formBusy c k s = true then answered .lf c tag .busy [] [] s
      else started .lf c tag (.form (writesAt (s.work.map.form.base + (k - 1) * 256)
        (padTo 256 (padTo 238 (formHeader 1 n name)))) k none) (s.setKcu (s.kcu.headerLoaded k n name))) := by
  unfold ruleLf loadHeader
  simp only [hx, hz, hy, hv, work_begun, kcu_begun, answer_begun may, formWrite_begun may]
  exact ⟨fun out => if_neg out, fun inside => if_pos inside⟩

/-- The fields of a slot that count as defined once field `n` is. -/
def FormSlot.definedWith (f : FormSlot) (n : Nat) : List Nat := if n ∈ f.defined then f.defined else f.defined ++ [n]

/-- Does field `n` define the last field that was not? -/
def FormSlot.completedBy (f : FormSlot) (n : Nat) : Bool := (List.range' 1 f.count).all (f.definedWith n).contains

/-- A slot's image with the 14 bytes of field `n` in it. -/
def FormSlot.patched (f : FormSlot) (n : Nat) (bytes : Text) : Text :=
  f.image.take (14 + 14 * (n - 1)) ++ bytes ++ f.image.drop (14 + 14 * (n - 1) + 14)

/-- The slot a field LF leaves: the field defined, its bytes in the image, and LOADED there with the last field. -/
def FormSlot.fieldLoaded (f : FormSlot) (n : Nat) (bytes : Text) : FormSlot :=
  { f with
    defined := f.definedWith n
    image := if f.completedBy n = true then 2 :: (f.patched n bytes).drop 1 else f.patched n bytes }

/-- What a field LF writes after the field's bytes: with the last field, the LOADED status and the check. -/
def FormSlot.lastWrites (f : FormSlot) (a n : Nat) (bytes : Text) : List (Nat × Text) :=
  if f.completedBy n = true then [(a, [2]), (a + 238, checkBytes (2 :: (f.patched n bytes).drop 1))] else []

theorem FormSlot.completedBy_iff (f : FormSlot) (n : Nat) :
    f.completedBy n = true ↔ ∀ i, 1 ≤ i → i ≤ f.count → i = n ∨ i ∈ f.defined := by
  have member : ∀ i, i ∈ f.definedWith n ↔ i = n ∨ i ∈ f.defined := by
    intro i
    unfold FormSlot.definedWith
    split
    · exact ⟨.inr, fun h => h.elim (fun e => e ▸ ‹n ∈ f.defined›) id⟩
    · simp [or_comm]
  simp only [FormSlot.completedBy, List.all_eq_true, List.contains_iff_mem, List.mem_range'_1, member]
  exact ⟨fun h i lo hi => h i ⟨lo, by omega⟩, fun h i b => h i b.1 (by omega)⟩

theorem length_formFieldBytes (label : Text) (width kind : Nat) : (formFieldBytes label width kind).length = 14 := by
  simp [formFieldBytes, padTo]

/-- A field LF's writes and the slot it leaves. -/
theorem loadField_eq (c : Ctx) (k n : Nat) (label : Text) (width kind : Nat) (s : State) :
    let f := s.kcu.formSlotAt k
    let a := formAddr s.work.map k
    let bytes := formFieldBytes label width kind
    loadField c k n label width kind s =
      formWrite c k (writesAt (a + 14 + 14 * (n - 1)) bytes ++ f.lastWrites a n bytes)
        (if f.completedBy n = true then some .loaded else none) s (s.setKcu (s.kcu.setForm k (f.fieldLoaded n bytes))) := by
  have len := length_formFieldBytes label width kind
  unfold loadField patch FormSlot.fieldLoaded FormSlot.lastWrites FormSlot.completedBy FormSlot.patched FormSlot.definedWith
  simp only [len, List.contains_iff_mem]
  rfl

/-- May a field LF name this slot, field, label, width and kind? -/
def fieldRange (k n width kind : Nat) (label : Text) (f : FormSlot) : Prop :=
  1 ≤ k ∧ k ≤ 4 ∧ 1 ≤ n ∧ n ≤ 16 ∧ labelOk label = true ∧ 1 ≤ width ∧ width ≤ 24 ∧ kind ≤ 7 ∧ f.status = .building ∧ n ≤ f.count

theorem ruleLf_field {c : Ctx} {tag : Nat} {s : State} {x w y v q label : Text} {k n width kind : Nat}
    (may : admits .lf c s = true) (hx : decimal x = some k) (hw : decimal w = some n) (hy : hexBytes y = some label)
    (hv : decimal v = some width) (hq : decimal q = some kind) :
    let f := s.kcu.formSlotAt k
    let a := s.work.map.form.base + (k - 1) * 256
    let bytes := formFieldBytes label width kind
    (¬ fieldRange k n width kind label f →
      ruleLf c [x, w, y, v, q] (begun .lf c tag s) = answered .lf c tag .range [] [] s) ∧
    (fieldRange k n width kind label f → ruleLf c [x, w, y, v, q] (begun .lf c tag s) =
      if formInUse k s = true then answered .lf c tag .inUse [] [] s
      else if formBusy c k s = true then answered .lf c tag .busy [] [] s
      else started .lf c tag (.form (writesAt (a + 14 + 14 * (n - 1)) bytes ++ f.lastWrites a n bytes) k
        (if f.completedBy n = true then some .loaded else none)) (s.setKcu (s.kcu.setForm k (f.fieldLoaded n bytes)))) := by
  unfold ruleLf
  simp only [hx, hw, hy, hv, hq, loadField_eq, work_begun, kcu_begun, answer_begun may, formWrite_begun may]
  exact ⟨fun out => if_neg out, fun inside => if_pos inside⟩

/-! ## The bursts of an EF or LF -/

theorem deliver_form {c : Ctx} {s : State} {k : Nat} {becomes : Option FormStatus} {first : Nat × Text} {rest : List (Nat × Text)}
    (job : s.du.job c = some (.form (first :: rest) k becomes)) :
    (rest ≠ [] → deliver (.directive c) [] s = goingOn c (.form rest k becomes) s) ∧
    (rest = [] → becomes = none → deliver (.directive c) [] s = ended c .done [] [] s) ∧
    (∀ st, rest = [] → becomes = some st → deliver (.directive c) [] s = ended c .done [] [] { s with
      kcu := { s.kcu with forms := s.kcu.forms.set (k - 1) { s.kcu.formSlotAt k with status := st } } }) := by
  have worked : deliver (.directive c) [] s = directiveWorked c [] s := rfl
  rw [worked]
  unfold directiveWorked
  rw [job]
  dsimp only [List.drop_succ_cons, List.drop_zero]
  refine ⟨fun more => ?_, fun last none' => ?_, fun st last some' => ?_⟩
  · cases rest with
    | nil => contradiction
    | cons b bs => exact directiveDue_eq ..
  · subst last none'
    exact finishDirective_eq ..
  · subst last some'
    exact finishDirective_eq ..

/-! ## The obligation -/

theorem argsOk_header {x z y v name : Text} {k n : Nat} (hx : decimal x = some k) (hz : decimal z = some 0)
    (hy : hexBytes y = some name) (hv : decimal v = some n) : argsOk .lf [x, z, y, v] = true :=
  argsOk_of_hex rfl (by simp [List.zipIdx, hx, hz, hy, hv])

theorem argsOk_field {x w y v q label : Text} {k n width kind : Nat} (hx : decimal x = some k) (hw : decimal w = some n)
    (hy : hexBytes y = some label) (hv : decimal v = some width) (hq : decimal q = some kind) :
    argsOk .lf [x, w, y, v, q] = true :=
  argsOk_of_hex rfl (by simp [List.zipIdx, hx, hw, hy, hv, hq])

/-- Settles O55: EF, the header LF and the field LF as their rules answer, and the bursts of their writes. -/
theorem formDirectives : Obligations.FormDirectives := by
  intro c tag args s k
  have lf : ∀ {as : List Text} {e : State}, admits .lf c s = true → asRead args = as → argsOk .lf as = true →
      ruleLf c as (begun .lf c tag s) = e → exec (.lf c tag args) s = .next (finish e) := by
    rintro as e may rfl ok rule
    exact exec_admitted (d := .lf) may ok rule
  refine ⟨fun x may read hx => ?_, fun x z y v name n may read hx hz hy hv k1 k4 label n1 n16 free => ?_,
    fun x w y v q label n width kind may read hx hw hy hv hq k1 k4 n1 n16 ok w1 w24 kind7 building count unused free => ?_,
    formBusy_iff c k s, labelOk_iff, fun x z y v name n may read hx hz hy hv => ?_,
    fun x w y v q label n width kind may read hx hw hy hv hq => ?_, fun a d rest becomes job => ⟨rfl, deliver_form job⟩⟩
  · have ef : ∀ {e : State}, ruleEf c [x] (begun .ef c tag s) = e → exec (.ef c tag args) s = .next (finish e) :=
      exec_numbers (d := .ef) may read (l := [k]) (by simp [decimals, hx])
    rw [ruleEf_begun may hx] at ef
    refine ⟨fun k1 k4 unused free => ef ?_, fun k1 k4 used => ef ?_, fun k1 k4 unused busy => ef ?_, fun out => ef ?_⟩
    · simp [k1, k4, unused, free]
    · simp [k1, k4, used]
    · simp [k1, k4, unused, busy]
    · exact if_neg (by omega)
  · have rule := (ruleLf_header (tag := tag) may hx hz hy hv).2 ⟨k1, k4, label, n1, n16⟩
    refine ⟨fun used => lf may read (argsOk_header hx hz hy hv) (rule.trans (if_pos used)), fun unused => ?_⟩
    rw [if_neg (by simp [unused]), if_neg (by simp [free])] at rule
    exact ⟨_, lf may read (argsOk_header hx hz hy hv) rule, started_setKcu ..⟩
  · have rule := (ruleLf_field (tag := tag) may hx hw hy hv hq).2 ⟨k1, k4, n1, n16, ok, w1, w24, kind7, building, count⟩
    rw [if_neg (by simp [unused]), if_neg (by simp [free])] at rule
    obtain ⟨du, kcu, outside⟩ := started_setKcu .lf c tag (.form (writesAt _ _ ++ FormSlot.lastWrites _ _ n _) k _) _ s
    have complete := (s.kcu.formSlotAt k).completedBy_iff n
    refine ⟨_, _, _, lf may read (argsOk_field hx hw hy hv hq) rule, du, ?_, ?_, ?_, ⟨?_, kcu.trans ?_⟩, outside⟩
    · rw [← complete]
      split <;> simp_all
    · unfold FormSlot.lastWrites
      split <;> simp
    · split <;> simp
    · unfold FormSlot.lastWrites
      split
      · exact fun _ => rfl
      · exact fun loaded => by cases loaded
    · unfold Kcu.setForm FormSlot.fieldLoaded
      split <;> rfl
  · obtain ⟨out, inside⟩ := ruleLf_header (tag := tag) may hx hz hy hv
    refine ⟨fun o => lf may read (argsOk_header hx hz hy hv) (out o), fun i used => ?_, fun i unused busy => ?_⟩
    · exact lf may read (argsOk_header hx hz hy hv) ((inside i).trans (if_pos used))
    · exact lf may read (argsOk_header hx hz hy hv) ((inside i).trans (by simp [unused, busy]))
  · obtain ⟨out, inside⟩ := ruleLf_field (tag := tag) may hx hw hy hv hq
    refine ⟨fun o => lf may read (argsOk_field hx hw hy hv hq) (out o), fun i used => ?_, fun i unused busy => ?_⟩
    · exact lf may read (argsOk_field hx hw hy hv hq) ((inside i).trans (if_pos used))
    · exact lf may read (argsOk_field hx hw hy hv hq) ((inside i).trans (by simp [unused, busy]))

end Sys2Proof.Machine
end

