-- ==== Sys2Proof/Proofs/Memory.lean ====
section
/-! SUPPORT. The memory directives SR and WM: valid region maps, the bursts that write bytes, the checks, and what each completed
burst does. -/

namespace Sys2Proof.Machine

/-! ## Region maps (R3) -/

theorem mem_regionSizes (n : Nat) : n ∈ regionSizes ↔ ∃ j, 8 ≤ j ∧ j ≤ 14 ∧ n = 2 ^ j := by
  constructor
  · intro h
    have : ∀ x ∈ regionSizes, ∃ j ≤ 14, 8 ≤ j ∧ x = 2 ^ j := by decide
    obtain ⟨j, hi, lo, e⟩ := this n h
    exact ⟨j, lo, hi, e⟩
  · rintro ⟨j, lo, hi, rfl⟩
    have : ∀ j ≤ 14, 8 ≤ j → 2 ^ j ∈ regionSizes := by decide
    exact this j hi lo

theorem overlaps_false {a n b m : Nat} : overlaps a n b m = false ↔ a + n ≤ b ∨ b + m ≤ a := by
  simp only [overlaps, decide_eq_false_iff_not]
  omega

theorem Region.ok_iff (r : Region) (size : Nat) : r.ok size = true ↔
    (∃ j, 8 ≤ j ∧ j ≤ 14 ∧ r.size = 2 ^ j) ∧ r.base % r.size = 0 ∧ r.base + r.size ≤ size ∧ 512 ≤ r.base := by
  have sizes : ∀ x ∈ regionSizes, 0 < x := by decide
  have low (pos : 0 < r.size) : overlaps r.base r.size 0 512 = false ↔ 512 ≤ r.base := by
    rw [overlaps_false]; omega
  rw [← mem_regionSizes]
  simp only [Region.ok, Bool.and_eq_true, List.contains_iff_mem, beq_iff_eq, decide_eq_true_eq, Bool.not_eq_true', and_assoc]
  exact and_congr_right fun m => and_congr_right fun _ => and_congr_right fun _ => low (sizes _ m)

theorem RegionMap.valid_iff (m : RegionMap) (size : Nat) : m.valid size = true ↔
    (∀ r ∈ [m.glyph, m.form, m.inbound, m.spool], r.ok size = true) ∧
    [m.glyph, m.form, m.inbound, m.spool].Pairwise (fun a b => a.base + a.size ≤ b.base ∨ b.base + b.size ≤ a.base) ∧
    1024 ≤ m.glyph.size ∧ 1024 ≤ m.form.size := by
  by_cases ok : ∀ r ∈ [m.glyph, m.form, m.inbound, m.spool], r.ok size = true
  · have all := ok
    simp only [List.forall_mem_cons] at all
    obtain ⟨g, f, i, p, -⟩ := all
    simp only [RegionMap.valid, g, f, i, p, overlaps_false, Bool.and_eq_true, Bool.not_eq_true', decide_eq_true_eq,
      List.pairwise_cons, List.forall_mem_cons]
    simp [and_assoc]
  · refine ⟨fun v => absurd ?_ ok, fun h => absurd h.1 ok⟩
    simp only [RegionMap.valid, Bool.and_eq_true] at v
    simp [v]

theorem srNames_none {l : List Nat} (one : l.length ≠ 1) (nine : l.length ≠ 9) : srNames l = none := by
  cases h : srNames l with
  | none => rfl
  | some x => exact (srNames_counts h).elim (absurd · one) (absurd · nine)

/-! ## The bursts of a write (R9) -/

/-- Bytes are cut into bursts of 8, the last the remainder. -/
theorem chunks_eq : ∀ (fuel a : Nat) (l : Text), l.length ≤ fuel →
    chunks fuel a l = (List.range ((l.length + 7) / 8)).map fun i => (a + 8 * i, (l.drop (8 * i)).take 8)
  | 0, a, l, h => by
    have : l = [] := by simpa using h
    subst this; rfl
  | fuel + 1, a, [], _ => rfl
  | fuel + 1, a, b :: l, h => by
    have rest := chunks_eq fuel (a + 8) ((b :: l).drop 8) (by simp at h ⊢; omega)
    have count : ((b :: l).length + 7) / 8 = (((b :: l).drop 8).length + 7) / 8 + 1 := by
      simp only [List.length_drop, List.length_cons]
      omega
    rw [count, List.range_succ_eq_map, List.map_cons, List.map_map]
    show (a, (b :: l).take 8) :: chunks fuel (a + 8) ((b :: l).drop 8) = _
    rw [rest]
    refine List.cons_eq_cons.mpr ⟨rfl, List.map_congr_left fun i _ => ?_⟩
    simp only [Function.comp, List.drop_drop]
    rw [show a + 8 + 8 * i = a + 8 * i.succ by omega, show 8 + 8 * i = 8 * i.succ by omega]

theorem writesAt_eq (a : Nat) (l : Text) :
    writesAt a l = (List.range ((l.length + 7) / 8)).map fun i => (a + 8 * i, (l.drop (8 * i)).take 8) :=
  chunks_eq l.length a l (Nat.le_refl _)

/-! ## What each completed burst does -/

theorem deliver_writing {c : Ctx} {s : State} {first : Nat × Text} {rest : List (Nat × Text)}
    (job : s.du.job c = some (.writing (first :: rest))) :
    (rest ≠ [] → deliver (.directive c) [] s = goingOn c (.writing rest) s) ∧
    (rest = [] → deliver (.directive c) [] s = ended c .done [] [] s) := by
  have worked : deliver (.directive c) [] s = directiveWorked c [] s := rfl
  rw [worked]
  unfold directiveWorked
  rw [job]
  dsimp only [List.drop_succ_cons, List.drop_zero]
  refine ⟨fun more => ?_, fun last => ?_⟩
  · cases rest with
    | nil => contradiction
    | cons b bs => exact directiveDue_eq ..
  · subst last
    exact finishDirective_eq ..

theorem deliver_regions {c : Ctx} {s : State} {first : Nat × Text} {rest : List (Nat × Text)}
    (job : s.du.job c = some (.regions (first :: rest))) :
    (rest ≠ [] → deliver (.directive c) [] s = goingOn c (.regions rest) s) ∧
    (rest = [] → deliver (.directive c) [] s = { s with du := s.du.setJob c (some (.regions [])) }) := by
  have worked : deliver (.directive c) [] s = directiveWorked c [] s := rfl
  rw [worked]
  unfold directiveWorked
  rw [job]
  dsimp only [List.drop_succ_cons, List.drop_zero]
  refine ⟨fun more => ?_, fun last => ?_⟩
  · cases rest with
    | nil => contradiction
    | cons b bs => exact directiveDue_eq ..
  · subst last
    rfl

/-- One context's part in `regionsDone`. -/
def regionsCheck (c : Ctx) (s : State) : State :=
  match s.du.job c with
  | some (.regions []) => if s.spu.srGate = .clear then answerDone c s else s
  | _ => s

theorem regionsDone_eq (s : State) : regionsDone s = regionsCheck .service (regionsCheck .line s) := rfl

theorem regionsCheck_other {c : Ctx} {s : State} (h : s.du.job c ≠ some (.regions [])) : regionsCheck c s = s := by
  unfold regionsCheck
  split
  · exact absurd ‹_› h
  · rfl

theorem regionsCheck_waits {c : Ctx} {s : State} (h : s.spu.srGate ≠ .clear) : regionsCheck c s = s := by
  unfold regionsCheck
  split
  · exact if_neg h
  · rfl

theorem regionsCheck_done {c : Ctx} {s : State} (h : s.du.job c = some (.regions [])) (g : s.spu.srGate = .clear) :
    regionsCheck c s = ended c .done [] [] s := by
  unfold regionsCheck
  rw [h]
  exact (if_pos g).trans (finishDirective_eq ..)

/-- A line directive that ends leaves what the LOCAL context executes. -/
theorem job_ended_line (o : Outcome) (data : Text) (lines : List AnswerLine) (s : State) :
    (ended .line o data lines s).du.job .service = s.du.job .service := rfl

theorem regionsDone_only {c : Ctx} {s : State} (own : s.du.job c = some (.regions [])) (other : s.du.job (otherCtx c) = none) :
    (s.spu.srGate = .clear → regionsDone s = ended c .done [] [] s) ∧ (s.spu.srGate ≠ .clear → regionsDone s = s) := by
  rw [regionsDone_eq]
  refine ⟨fun g => ?_, fun g => ?_⟩
  · cases c with
    | line =>
      rw [regionsCheck_done own g]
      exact regionsCheck_other (by rw [job_ended_line]; exact fun e => by rw [show s.du.job .service = none from other] at e; cases e)
    | service =>
      rw [regionsCheck_other (c := .line) (fun e => by rw [show s.du.job .line = none from other] at e; cases e)]
      exact regionsCheck_done own g
  · rw [regionsCheck_waits (c := .line) g, regionsCheck_waits g]

theorem regionsDone_none {c : Ctx} {s : State} (own : s.du.job c ≠ some (.regions []))
    (other : s.du.job (otherCtx c) ≠ some (.regions [])) : regionsDone s = s := by
  rw [regionsDone_eq]
  cases c
  · rw [regionsCheck_other (c := .line) own, regionsCheck_other (c := .service) other]
  · rw [regionsCheck_other (c := .line) other, regionsCheck_other (c := .service) own]

theorem srRunning_iff (d : Du) : d.srRunning = true ↔ ∃ x todo, d.job x = some (.regions todo) := by
  unfold Du.srRunning
  split
  · rename_i todo e
    exact ⟨fun _ => ⟨.line, todo, e⟩, fun _ => rfl⟩
  · rename_i todo e _
    exact ⟨fun _ => ⟨.service, todo, e⟩, fun _ => rfl⟩
  · rename_i line service
    refine ⟨fun h => absurd h (by decide), fun ⟨x, todo, e⟩ => ?_⟩
    cases x
    · exact absurd e (line todo)
    · exact absurd e (service todo)

/-! ## WM (R18, R19) -/

theorem formInUse_iff (k : Nat) (s : State) : formInUse k s = true ↔
    (∃ n, s.spu.openSlot = some n ∧ (s.spu.entry n).cls = some .order ∧ (s.spu.entry n).formSlot = k) ∨
    s.kcu.claim = some (.image k) ∨ 0 < (s.kcu.formSlotAt k).listed := by
  unfold formInUse
  cases s.spu.openSlot <;> simp [or_assoc]

theorem patchRefused_low {a n : Nat} {s : State} (some' : 0 < n) (low : a < 512) : patchRefused a n s = some .prot := by
  unfold patchRefused
  rw [if_pos (by simp [overlaps]; omega)]

theorem patchRefused_high {a n : Nat} {s : State} (high : 512 ≤ a) :
    let spool := a < s.work.map.spool.base + s.work.map.spool.size ∧ s.work.map.spool.base < a + n ∧ s.spu.order ≠ []
    let form := ∃ k, 1 ≤ k ∧ k ≤ 4 ∧ a < s.work.map.form.base + (k - 1) * 256 + 256 ∧
      s.work.map.form.base + (k - 1) * 256 < a + n ∧ formInUse k s = true
    (spool → patchRefused a n s = some .prot) ∧ (¬ spool → form → patchRefused a n s = some .inUse) ∧
      (¬ spool → ¬ form → patchRefused a n s = none) := by
  intro spool form
  have directory : ¬ overlaps a n 0 512 = true := by simp [overlaps]; omega
  have spools : (overlaps a n s.work.map.spool.base s.work.map.spool.size && s.spu.order != []) = true ↔ spool := by
    simp [overlaps, spool, and_assoc]
  have forms : ([1, 2, 3, 4].any fun k => overlaps a n (formAddr s.work.map k) 256 && formInUse k s) = true ↔ form := by
    rw [List.any_eq_true]
    constructor
    · rintro ⟨k, mem, h⟩
      obtain ⟨shared, used⟩ := Bool.and_eq_true_iff.mp h
      obtain ⟨below, above⟩ := of_decide_eq_true shared
      have range : 1 ≤ k ∧ k ≤ 4 := by simp at mem; omega
      exact ⟨k, range.1, range.2, below, above, used⟩
    · rintro ⟨k, lo, hi, below, above, used⟩
      exact ⟨k, by simp; omega, by simp [overlaps, formAddr, below, above, used]⟩
  unfold patchRefused
  rw [if_neg directory]
  exact ⟨fun h => if_pos (spools.mpr h), fun n h => (if_neg (mt spools.mp n)).trans (if_pos (forms.mpr h)),
    fun n h => (if_neg (mt spools.mp n)).trans (if_neg (mt forms.mp h))⟩

theorem ruleWm_begun {c : Ctx} {tag : Nat} {s : State} {x y t : Text} {a : Nat} (may : admits .wm c s = true)
    (hx : decimal x = some a) (hy : hexBytes y = some t) :
    ruleWm c [x, y] (begun .wm c tag s) =
      if ¬ (1 ≤ t.length ∧ t.length ≤ 32 ∧ a + t.length ≤ s.work.memSize) then answered .wm c tag .range [] [] s
      else match patchRefused a t.length s with
        | some o => answered .wm c tag o [] [] s
        | none => started .wm c tag (.writing (writesAt a t)) s := by
  have refused : patchRefused a t.length (begun .wm c tag s) = patchRefused a t.length s := patchRefused_occupy ..
  have starts : directiveDue c (setJob c (.writing (writesAt a t)) (begun .wm c tag s)) =
      started .wm c tag (.writing (writesAt a t)) s := directiveDue_occupy ..
  unfold ruleWm
  simp only [hx, hy, work_begun, refused, starts, answer_begun may] <;> rfl

/-! ## SR (R13–R15) -/

theorem srFree_iff (c : Ctx) (s : State) : srFree c s = true ↔ s.pqu.ring.fill s.inboundSize = 0 ∧ s.spu.order = [] ∧
    s.kcu.claim = none ∧ s.pqu.list = [] ∧ s.du.job (otherCtx c) = none ∧ (c = .line ∨ s.du.line.state ≠ .executing) := by
  simp [srFree, and_assoc]

/-- The empty-slot marks an SR writes where FORM moves, in ascending slot order (log entry 48). -/
def srMarks (old map : RegionMap) : List (Nat × Text) :=
  if map.form = old.form then []
  else [(map.form.base, [0]), (map.form.base + 256, [0]), (map.form.base + 512, [0]), (map.form.base + 768, [0])]

theorem takeRegions_eq (c : Ctx) (m : Nat) (map : RegionMap) (s : State) : ∃ control due,
    takeRegions c m map s = { s with
      work := { s.work with memSize := m, map := map }
      hdu := if map.glyph = s.work.map.glyph then s.hdu else { s.hdu with loaded := 0 }
      kcu := if map.form = s.work.map.form then s.kcu else { s.kcu with forms := List.replicate 4 emptyForm }
      pqu := { s.pqu with ring := emptyRing, asm := emptyLine 0 }
      pe := { s.pe with control := control }
      spu := { s.spu.dueItem .header with ring := emptyRing, srGate := .wait }
      du := { s.du.setJob c (some (.regions (srMarks s.work.map map))) with due := due } } := by
  unfold takeRegions srMarks
  dsimp only
  rw [flowTest_eq]
  generalize (flowTest _).pe.control = control
  refine ⟨control, if map.form = s.work.map.form then s.du.due else s.du.due ++ [.directive c], ?_⟩
  by_cases glyph : map.glyph = s.work.map.glyph <;> by_cases form : map.form = s.work.map.form <;>
    simp only [glyph, form, ne_eq, not_true_eq_false, not_false_eq_true, decide_true, decide_false, Bool.false_eq_true, if_true,
      if_false, State.setWork, State.setHdu, State.setKcu, State.setPqu, State.setPe, State.setSpu, State.setDu, setJob, directiveDue]
  all_goals cases c <;> simp [Du.setJob, formAddr]

theorem mem_dueItem (p : Spu) (i : SpuItem) : i ∈ (p.dueItem i).due := by
  unfold Spu.dueItem
  split
  · exact List.contains_iff_mem.mp ‹_›
  · simp

/-- What an SR that is taken leaves, block by block. -/
theorem takeRegions_begun (c : Ctx) (m : Nat) (map : RegionMap) (tag : Nat) (s : State) :
    let e := takeRegions c m map (begun .sr c tag s)
    e.work = { s.work with memSize := m, map := map } ∧ e.pqu = { s.pqu with ring := emptyRing, asm := emptyLine 0 } ∧
    e.spu = { s.spu.dueItem .header with ring := ⟨0, 0, false⟩, srGate := .wait } ∧
    e.hdu = (if map.glyph = s.work.map.glyph then s.hdu else { s.hdu with loaded := 0 }) ∧
    e.kcu = (if map.form = s.work.map.form then s.kcu else { s.kcu with forms := List.replicate 4 emptyForm }) ∧
    e.du.job c = some (.regions (srMarks s.work.map map)) ∧ e.outside = s.outside ∧ e.clu = s.clu ∧
    e.pe = { s.pe with control := e.pe.control } ∧ e.ksu = s.ksu := by
  intro e
  obtain ⟨control, due, eq⟩ := takeRegions_eq c m map (begun .sr c tag s)
  rw [show e = _ from eq]
  cases c <;> exact ⟨rfl, rfl, rfl, rfl, rfl, rfl, rfl, rfl, rfl, rfl⟩

/-- May an SR name this memory size and map (R13)? -/
def srRange (m : Nat) (map : RegionMap) (s : State) : Prop :=
  m ∈ memSizes ∧ map.valid m = true ∧ s.work.resumeMark ≤ map.inbound.size - 64

theorem srFree_begun (c : Ctx) (tag : Nat) (s : State) : srFree c (begun .sr c tag s) = srFree c s := by
  have size : (begun .sr c tag s).inboundSize = s.inboundSize := by cases c <;> rfl
  rw [Bool.eq_iff_iff, srFree_iff, srFree_iff, size, pqu_begun, spu_begun, kcu_begun, job_begun]
  cases c
  · simp
  · rfl

theorem ruleSr_begun {c : Ctx} {tag : Nat} {s : State} {as : List Text} {l : List Nat} {m : Nat} {map : RegionMap}
    (may : admits .sr c s = true) (read : decimals as = some l) (names : srNames l = some (m, map)) :
    (¬ srRange m map s → ruleSr c as (begun .sr c tag s) = answered .sr c tag .range [] [] s) ∧
    (srRange m map s → ruleSr c as (begun .sr c tag s) =
      if srFree c s = true then takeRegions c m map (begun .sr c tag s) else answered .sr c tag .inUse [] [] s) := by
  have refused : (!memSizes.contains m || !map.valid m || decide (map.inbound.size - 64 < s.work.resumeMark)) = true ↔
      ¬ srRange m map s := by
    simp only [srRange, Bool.or_eq_true, Bool.not_eq_true', List.contains_eq_mem, decide_eq_true_eq, decide_eq_false_iff_not]
    grind
  unfold ruleSr
  simp only [read, Option.bind_some, names, work_begun, srFree_begun, answer_begun may]
  exact ⟨fun out => if_pos (refused.mpr out), fun inside => if_neg fun h => refused.mp h inside⟩

/-- Settles O59: maps, names and bursts by their lemmas; SR and WM as their rules answer, and the bursts of their writes. -/
theorem memoryDirectives : Obligations.MemoryDirectives := by
  refine ⟨fun m size => ?_, ⟨rfl, rfl, rfl, rfl, fun _ => rfl, fun _ _ _ _ _ _ _ _ _ => rfl, fun l => srNames_none⟩, writesAt_eq,
    fun c tag args s => ?_⟩
  · simp only [RegionMap.valid_iff, Region.ok_iff]
  have sr : ∀ {l e}, admits .sr c s = true → decimals (asRead args) = some l →
      ruleSr c (asRead args) (begun .sr c tag s) = e → exec (.sr c tag args) s = .next (finish e) :=
    fun may read => exec_numbers (d := .sr) may rfl read
  refine ⟨fun l m map may read names size valid mark ring order claim list job line => ?_, fun l m map may read names out => ?_,
    fun x y a t may read hx hy => ⟨?_, fun some' low => ?_, fun _ high => patchRefused_high high⟩, fun k => formInUse_iff k s,
    fun a d rest job => ⟨rfl, deliver_writing job⟩, fun l m map may read names size valid mark held => ?_,
    fun a d rest job => ⟨rfl, deliver_regions job⟩, regionsDone_only, regionsDone_none, srRunning_iff s.du⟩
  · have free : srFree c s = true := (srFree_iff c s).mpr ⟨ring, order, claim, list, job, .inr line⟩
    have rule := (ruleSr_begun (tag := tag) may read names).2 ⟨size, valid, mark⟩
    obtain ⟨work, pqu, spu, hdu, kcu, job, outside, clu, pe, ksu⟩ := takeRegions_begun c m map tag s
    refine ⟨_, sr may read (rule.trans (if_pos free)), work, by rw [pqu]; rfl, by rw [spu], ?_, ?_, by rw [spu], spu, hdu, kcu, job,
      outside, clu, pe, ksu⟩
    · rw [spu]
      exact mem_dueItem ..
    · exact (srIn_iff _ c).mpr (.inl ⟨_, job⟩)
  · refine sr may read ((ruleSr_begun may read names).1 fun ⟨size, valid, mark⟩ => ?_)
    rcases out with no | no | no
    · exact no size
    · rw [valid] at no; cases no
    · omega
  · exact exec_admitted (d := .wm) may (read ▸ argsOk_of_hex rfl (by simp [List.zipIdx, hx, hy])) (read ▸ ruleWm_begun may hx hy)
  · exact patchRefused_low (List.length_pos_iff.mpr some') low
  · refine sr may read (((ruleSr_begun may read names).2 ⟨size, valid, mark⟩).trans (if_neg fun free => ?_))
    obtain ⟨ring, order, claim, list, job, line⟩ := (srFree_iff c s).mp free
    rcases held with h | h | h | h | h | ⟨rfl, h⟩
    · exact h ring
    · exact h order
    · exact h claim
    · exact h list
    · exact h job
    · exact line.elim (fun e => by cases e) fun n => n h

end Sys2Proof.Machine
end

