-- ==== Sys2Proof/Proofs/Sensors.lean ====
section
/-! SUPPORT. The head's conditions and its own turns: pauses and resumption, the row in hand, the bursts it asks for, and what the
sensors and the thermistor do to it. -/

namespace Sys2Proof.Machine

/-! ## Causes, and the resume point of a descriptor -/

theorem anyCause_iff (h : Hdu) :
    h.anyCause = true ↔ h.paper = true ∨ h.lid = true ∨ h.hot = true ∨ h.power = true := by
  simp [Hdu.anyCause, or_assoc]

theorem inRow_iff (h : Hdu) : h.inRow = true ↔ h.head = .printing ∧ ∃ a, h.active = some a ∧ a.phase ≠ .waiting := by
  simp only [Hdu.inRow, Bool.and_eq_true, beq_iff_eq, Option.any_eq_true, bne_iff_ne]

theorem resumeAt_eq (d : Descriptor) (row : Nat) (groups : List Nat) : resumeAt d row groups = match d with
    | .feed n => .feed (n - row)
    | _ => .text row groups := by
  cases d <;> rfl

theorem Descriptor.rows_eq (d : Descriptor) : d.rows = match d with
    | .feed n => n
    | _ => 14 := by
  cases d <;> rfl

theorem frontRows_eq {s : State} {d : Descriptor} {rest : List Descriptor} (h : s.pqu.list = d :: rest) : s.frontRows = d.rows := by
  unfold State.frontRows
  rw [h]

/-! ## A request withdrawn (R10) -/

theorem Jmc.abandon_eq (j : Jmc) (who : Requester) :
    (j.abandon who).req who = ⟨none, 0⟩ ∧ (∀ v, v ≠ who → (j.abandon who).req v = j.req v) ∧
    (j.abandon who).current = j.current.map fun c => if c.who = who then { c with wanted := false } else c := by
  unfold Jmc.abandon
  refine ⟨?_, fun v h => ?_, ?_⟩
  · rw [Jmc.req_setCurrent, Jmc.req_setReq_same]
  · rw [Jmc.req_setCurrent, Jmc.req_setReq_other _ _ h]
  · cases who <;> rfl

/-! ## Pauses and resumption (R162–R165) -/

/-- The state in which the head is paused at a resume point. -/
def pausedAt (r : Resume) (s : State) : State := { s with
  hdu := { s.hdu with
    head := .paused, resume := some r, active := none, next := 0, nextDone := [], rowBuf := none, nextBuf := none
    build := none, prev := noDots, pauseTimer := true }
  jmc := if s.hdu.build.isSome = true then s.jmc.abandon .hdu else s.jmc }

theorem pausedAt_eq {r : Resume} {m : Option Resume} (h : some r = m) (s : State) : pausedAt r s = { s with
    hdu := { (pausedAt r s).hdu with resume := m }, jmc := (pausedAt r s).jmc } := by
  rw [← h]
  rfl

theorem pauseHead_eq (r : Resume) (s : State) : pauseHead r s = pausedAt r s := by
  unfold pauseHead pausedAt
  dsimp only
  split <;> rfl

/-- The state in which the head prints from a row with groups of it done. -/
def printsFrom (row : Nat) (groups : List Nat) (s : State) : State := { s with hdu := { s.hdu with
  head := .printing, resume := none, next := row, nextDone := groups, pauseTimer := false, suspended := false } }

/-- Where the head goes on from a resume point. -/
def resumePlace (d : Descriptor) : Option Resume → Nat × List Nat
  | some (.text r g) => (r, g)
  | some (.feed left) => (d.rows - left, [])
  | none => (0, [])

theorem headEnter_stays {s : State} (h : s.pqu.list = [] ∨ s.hdu.head = .printing ∨ s.hdu.head = .paused ∧ s.hdu.anyCause = true) :
    headEnter s = s := by
  unfold headEnter
  rcases h with h | h | ⟨h, cause⟩
  · rw [h]
  · cases s.pqu.list with
    | nil => rfl
    | cons d rest => dsimp only; rw [h]
  · cases s.pqu.list with
    | nil => rfl
    | cons d rest => dsimp only; rw [h]; exact if_pos cause

section
variable {s : State} {d : Descriptor} {rest : List Descriptor}

theorem headEnter_idle_cause (list : s.pqu.list = d :: rest) (h : s.hdu.head = .idle) (cause : s.hdu.anyCause = true) :
    headEnter s = pausedAt (resumeAt d 0 []) s := by
  unfold headEnter
  rw [list]
  dsimp only
  rw [h]
  exact (if_pos cause).trans (pauseHead_eq ..)

theorem headEnter_idle (list : s.pqu.list = d :: rest) (h : s.hdu.head = .idle) (cause : ¬ s.hdu.anyCause = true) :
    headEnter s = { s with hdu := { s.hdu with head := .printing, next := 0, nextDone := [], suspended := false } } := by
  unfold headEnter
  rw [list]
  dsimp only
  rw [h]
  exact if_neg cause

theorem headEnter_paused (list : s.pqu.list = d :: rest) (h : s.hdu.head = .paused) (cause : ¬ s.hdu.anyCause = true) :
    (∀ r g, s.hdu.resume = some (.text r g) → headEnter s = printsFrom r g s) ∧
    ∀ left, s.hdu.resume = some (.feed left) → headEnter s = printsFrom (d.rows - left) [] s := by
  have enter : headEnter s = if s.hdu.anyCause then s else
      let place := resumePlace d s.hdu.resume
      printsFrom place.1 place.2 s := by
    unfold headEnter
    rw [list]
    dsimp only
    rw [h]
    rfl
  rw [enter, if_neg cause]
  exact ⟨fun r g resume => by rw [resume]; rfl, fun left resume => by rw [resume]; rfl⟩

theorem powerPause_pauses (list : s.pqu.list = d :: rest) {a : ActiveRow} (active : s.hdu.active = some a)
    (power : s.hdu.power = true) (head : s.hdu.head = .printing) (none' : s.hdu.energised = [])
    (phase : a.phase = .waiting ∨ a.phase = .strobing ∧ a.todo ≠ []) : powerPause s = pausedAt (resumeAt d a.row a.begun) s := by
  unfold powerPause
  rw [active, list]
  exact (if_pos ⟨power, head, none', phase⟩).trans (pauseHead_eq ..)

theorem powerPause_stays (h : s.pqu.list = [] ∨ s.hdu.power = false ∨ s.hdu.head ≠ .printing ∨ s.hdu.energised ≠ [] ∨
    (∀ a, s.hdu.active = some a → a.phase = .feeding ∨ a.phase = .strobing ∧ a.todo = [])) : powerPause s = s := by
  unfold powerPause
  split
  · rename_i a d rest active list
    refine if_neg fun ⟨power, head, none', phase⟩ => ?_
    rcases h with h | h | h | h | h
    · rw [list] at h; cases h
    · rw [h] at power; cases power
    · exact h head
    · exact h none'
    · rcases h a active with e | ⟨e, done'⟩ <;> rcases phase with p | ⟨p, todo⟩
      · rw [e] at p; cases p
      · rw [e] at p; cases p
      · rw [e] at p; cases p
      · exact todo done'
  · rfl

end

/-! ## The row in hand (R146) -/

theorem buildCurrent_of_active {s : State} {a : ActiveRow} (active : s.hdu.active = some a) : buildCurrent s =
    if a.phase = .waiting ∧ s.hdu.rowBuf = none ∧ s.hdu.build = none ∧ s.hdu.loading = none then beginBuild a.row s else s := by
  unfold buildCurrent; rw [active]

theorem beginFeed_of_active {s : State} {a : ActiveRow} (active : s.hdu.active = some a) : beginFeed s =
    if a.phase = .strobing ∧ a.todo = [] ∧ s.hdu.energised = [] ∧ s.hdu.head = .printing then
      { s with hdu := { s.hdu with active := some { a with phase := .feeding }, stepping := true } } else s := by
  unfold beginFeed; rw [active]; rfl

theorem buildNext_of_active {s : State} {a : ActiveRow} (active : s.hdu.active = some a) : buildNext s =
    if a.row + 1 < s.frontRows ∧ s.hdu.rowBuf ≠ none ∧ s.hdu.nextBuf = none ∧ s.hdu.build = none ∧ s.hdu.loading = none then
      beginBuild (a.row + 1) s else s := by
  unfold buildNext
  rw [active]
  simp only [Option.isSome_iff_ne_none]

theorem turns_of_no_row {s : State} (none' : s.hdu.active = none) :
    buildCurrent s = s ∧ beginFeed s = s ∧ buildNext s = s := by
  unfold buildCurrent beginFeed buildNext
  rw [none']
  exact ⟨rfl, rfl, rfl⟩

/-! ## The head's bursts (R145, R154) -/

theorem hduRequest_stays {s : State} (h : s.jmc.busy .hdu = true ∨ hduBurst s.hdu = none) : hduRequest s = s := by
  unfold hduRequest
  rcases h with h | h
  · exact if_pos h
  · rw [h]; exact ite_self s

theorem hduRequest_asks {s : State} {b : Burst} (free : s.jmc.busy .hdu = false) (burst : hduBurst s.hdu = some b) :
    hduRequest s = { s with jmc := s.jmc.request .hdu b } := by
  unfold hduRequest
  rw [if_neg (by simp [free]), burst]
  rfl

theorem hduBurst_loading {h : Hdu} {g : GlyphLoad} {a : Nat} {d : Text} {todo : List (Nat × Text)} (loading : h.loading = some g)
    (more : g.todo = (a, d) :: todo) : hduBurst h = some ⟨true, .addr a, d.length, d, .loadGlyphs⟩ := by
  unfold hduBurst
  rw [loading]
  dsimp only
  rw [more]

theorem hduBurst_building {h : Hdu} (loading : h.loading = none) :
    (h.build = none → hduBurst h = none) ∧ ∀ b, h.build = some b →
      (∀ p n runs, b.runs = (p, n) :: runs → hduBurst h = some ⟨false, p, n, [], .rowText⟩) ∧
      (∀ i a glyphs, b.runs = [] → b.glyphs = (i, a) :: glyphs → hduBurst h = some ⟨false, .addr a, 1, [], .glyphRow i⟩) := by
  unfold hduBurst
  rw [loading]
  dsimp only
  refine ⟨fun none' => by rw [none'], fun b building => ?_⟩
  rw [building]
  dsimp only
  exact ⟨fun p n runs text => by rw [text], fun i a glyphs texted overlay => by rw [texted, overlay]⟩

/-! ## The thermistor (R158) -/

theorem hot_iff (c : Int) : (tempBand c == .hot) = decide (60 ≤ c) := by
  unfold tempBand
  split
  · rw [decide_eq_false (by omega)]; rfl
  split
  · rw [decide_eq_false (by omega)]; rfl
  split
  · rw [decide_eq_false (by omega)]; rfl
  · rw [decide_eq_true (by omega)]; rfl

theorem sample_eq (h : Hdu) (c : Int) : h.sample c = { h with
    reading := c, band := tempBand c, hot := if h.hot = true then !decide (c ≤ 50) else decide (60 ≤ c) } := by
  unfold Hdu.sample
  dsimp only
  rw [hot_iff]

section
variable {s : State} {c : Int}

theorem exec_temperature (on : s.pm.power ≠ .off) : exec (.temperatureSample c) s = .next (finish (temperatureSample c s)) :=
  if_pos (by simp [on])

theorem temperature_unsampled (h : s.pm.power.awake = false ∨ s.hdu.inRow = true) :
    temperatureSample c s = { s with pins := { s.pins with thermistor := c } } := by
  refine if_neg (fun may => ?_)
  simp only [Bool.and_eq_true, Bool.not_eq_true'] at may
  obtain ⟨awake, out⟩ := may
  rcases h with h | h
  · exact absurd awake (by simp [State.setPins, h])
  · exact absurd out (by simp [State.setPins, h])

theorem temperature_sampled (awake : s.pm.power.awake = true) (out : s.hdu.inRow = false) :
    temperatureSample c s = { s with pins := { s.pins with thermistor := c }, hdu := s.hdu.sample c } := by
  refine if_pos ?_
  simp [State.setPins, awake, out]

end

/-! ## The sensors (R160, R162, R163) -/

/-- Its lines as a sensor's report gives them. -/
def Pins.bad (p : Pins) : Sensor → Bool
  | .paper => p.paperAbsent
  | .lid => p.lidOpen

/-- The head once a sensor's report is taken. -/
def Hdu.reported (h : Hdu) (sensor : Sensor) (bad : Bool) : Hdu :=
  match sensor with
  | .paper => { h with paper := bad, paperTiming := false }
  | .lid => { h with lid := bad, lidTiming := false }

/-- Where a line taken off the head at row `row` begins again. -/
def restartAt (d : Descriptor) (row : Nat) : Resume :=
  match d with
  | .feed n => .feed (n - row)
  | _ => .text 0 []

/-- A resume point moved to row 0 of a text line. -/
def movedToStart : Option Resume → Option Resume
  | some (.text _ _) => some (.text 0 [])
  | r => r

theorem movedToStart_of_not_text {r : Option Resume} (h : ∀ row groups, r = some (.text row groups) → False) : movedToStart r = r :=
  match r with
  | none => rfl
  | some (.feed _) => rfl
  | some (.text row groups) => (h row groups rfl).elim

theorem awake_on {s : State} (awake : s.pm.power.awake = true) : s.pm.power ≠ .off := fun off => by
  rw [off] at awake
  cases awake

theorem exec_sensorChange {s : State} (awake : s.pm.power.awake = true) (sensor : Sensor) (bad : Bool) :
    exec (.sensorChange sensor bad) s = .next (finish (sensorChanged sensor bad s)) :=
  if_pos (by simp [awake_on awake])

theorem sensorChanged_eq {s : State} (awake : s.pm.power.awake = true) (bad : Bool) :
    sensorChanged .paper bad s = { s with
      pins := { s.pins with paperAbsent := bad }, hdu := { s.hdu with paperTiming := bad != s.hdu.paper } } ∧
    sensorChanged .lid bad s = { s with
      pins := { s.pins with lidOpen := bad }, hdu := { s.hdu with lidTiming := bad != s.hdu.lid } } := by
  unfold sensorChanged
  rw [awake]
  exact ⟨rfl, rfl⟩

theorem reportTaken_eq (sensor : Sensor) (s : State) : reportTaken sensor s =
    if s.pins.bad sensor = true then abandonLine { s with hdu := s.hdu.reported sensor (s.pins.bad sensor) }
    else { s with hdu := s.hdu.reported sensor (s.pins.bad sensor) } := by
  cases sensor <;> rfl

theorem reported_keeps (h : Hdu) (sensor : Sensor) (bad : Bool) : (h.reported sensor bad).head = h.head ∧
    (h.reported sensor bad).place = h.place ∧ (h.reported sensor bad).resume = h.resume := by
  cases sensor <;> exact ⟨rfl, rfl, rfl⟩

theorem abandonLine_idle {s : State} (idle : s.hdu.head = .idle) : abandonLine s = s := by
  unfold abandonLine
  rw [idle]

theorem abandonLine_printing {s : State} {d : Descriptor} {rest : List Descriptor} (printing : s.hdu.head = .printing)
    (list : s.pqu.list = d :: rest) : abandonLine s = pausedAt (restartAt d s.hdu.place.1) s := by
  unfold abandonLine
  rw [printing, list]
  cases d <;> exact pauseHead_eq ..

theorem abandonLine_paused {s : State} (paused : s.hdu.head = .paused) :
    abandonLine s = { s with hdu := { s.hdu with resume := movedToStart s.hdu.resume } } := by
  unfold abandonLine
  rw [paused]
  dsimp only
  split
  · rename_i row groups resume
    rw [resume]
    rfl
  · rename_i not_text
    rw [movedToStart_of_not_text not_text]

section
variable {s : State} {sensor : Sensor} (awake : s.pm.power.awake = true) (timing : s.hdu.timing sensor = true)
include awake timing

theorem exec_report : exec (.sensorReportTaken sensor) s = .next (finish (reportTaken sensor s)) :=
  if_pos (by simp [awake, timing])

theorem report_idle (h : s.hdu.head = .idle ∨ s.pins.bad sensor = false) : exec (.sensorReportTaken sensor) s =
    .next (finish { s with hdu := s.hdu.reported sensor (s.pins.bad sensor) }) := by
  obtain ⟨head, -, -⟩ := reported_keeps s.hdu sensor (s.pins.bad sensor)
  rw [exec_report awake timing, reportTaken_eq]
  rcases h with idle | good
  · rw [abandonLine_idle (head.trans idle), ite_self]
  · rw [if_neg (by simp [good])]

theorem report_printing {d : Descriptor} {rest : List Descriptor} (bad : s.pins.bad sensor = true) (printing : s.hdu.head = .printing)
    (list : s.pqu.list = d :: rest) : exec (.sensorReportTaken sensor) s =
      .next (finish (pausedAt (restartAt d s.hdu.place.1) { s with hdu := s.hdu.reported sensor true })) := by
  obtain ⟨head, place, -⟩ := reported_keeps s.hdu sensor true
  rw [exec_report awake timing, reportTaken_eq, if_pos bad, bad,
    abandonLine_printing (s := { s with hdu := s.hdu.reported sensor true }) (head.trans printing) list, place]

theorem report_paused (bad : s.pins.bad sensor = true) (paused : s.hdu.head = .paused) : exec (.sensorReportTaken sensor) s =
    .next (finish { s with hdu := { s.hdu.reported sensor true with resume := movedToStart s.hdu.resume } }) := by
  obtain ⟨head, -, resume⟩ := reported_keeps s.hdu sensor true
  rw [exec_report awake timing, reportTaken_eq, if_pos bad, bad,
    abandonLine_paused (s := { s with hdu := s.hdu.reported sensor true }) (head.trans paused), resume]

end

/-! ## The obligation -/

/-- Settles O47, from the rule of each turn of the head and of each report. -/
theorem sensorReports : Obligations.SensorReports := by
  refine ⟨fun s c h => ?_, fun s => inRow_iff s.hdu, Jmc.abandon_eq, fun s => ?_, fun s bad awake => ?_⟩
  · have on : s.pm.power ≠ .off := by
      rcases h with doze | ⟨awake, -⟩
      · rw [doze]; decide
      · exact awake_on awake
    rw [exec_temperature on, temperature_unsampled (h.imp (fun doze => by rw [doze]; rfl) And.right)]
  · intro cause paused prints
    have cause_iff : s.hdu.anyCause = true ↔ cause := anyCause_iff s.hdu
    refine ⟨fun h => headEnter_stays (by rwa [cause_iff]), fun d rest list => ⟨fun idle c => ?_, fun idle c => ?_, fun held c => ?_,
        fun a active power head none' phase => ?_⟩,
      powerPause_stays, fun a active => ?_, turns_of_no_row, fun d rest list => ?_, rfl, hduRequest_stays,
      fun b => hduRequest_asks, fun g a d todo => hduBurst_loading, hduBurst_building⟩
    · rw [headEnter_idle_cause list idle (cause_iff.mpr c)]; cases d <;> rfl
    · exact headEnter_idle list idle (mt cause_iff.mp c)
    · obtain ⟨text, feed⟩ := headEnter_paused list held (mt cause_iff.mp c)
      exact ⟨text, fun n left front resume => (feed left resume).trans (by rw [front]; rfl)⟩
    · rw [powerPause_pauses list active power head none' phase]; cases d <;> rfl
    · intro build feed next
      rw [buildCurrent_of_active active, beginFeed_of_active active, buildNext_of_active active]
      exact ⟨fun h => if_pos h, fun h => if_neg h, fun h => if_pos h, fun h => if_neg h, fun h => if_pos h, fun h => if_neg h⟩
    · rw [frontRows_eq list]; cases d <;> rfl
  · obtain ⟨paper, lid⟩ := sensorChanged_eq awake bad
    refine ⟨by rw [exec_sensorChange awake, paper], by rw [exec_sensorChange awake, lid],
      fun timing => report_idle (sensor := .paper) awake timing,
      fun timing => report_idle (sensor := .lid) awake timing, fun d rest printing list => ?_, fun held => ?_, fun c out => ⟨?_, rfl⟩⟩
    · intro row cut bus
      have place : s.hdu.place.1 = row := by
        unfold Hdu.place row
        cases s.hdu.active <;> rfl
      have restart : some (restartAt d s.hdu.place.1) = cut.resume := by
        rw [place]
        cases d <;> rfl
      exact ⟨fun timing absent => (report_printing (sensor := .paper) awake timing absent printing list).trans
          (congrArg (fun e => (.next (finish e) : Out)) (pausedAt_eq restart _)),
        fun timing opened => (report_printing (sensor := .lid) awake timing opened printing list).trans
          (congrArg (fun e => (.next (finish e) : Out)) (pausedAt_eq restart _))⟩
    · exact ⟨fun timing absent => report_paused (sensor := .paper) awake timing absent held,
        fun timing opened => report_paused (sensor := .lid) awake timing opened held⟩
    · rw [exec_temperature (awake_on awake), temperature_sampled awake out, sample_eq]

end Sys2Proof.Machine
end

