-- ==== Sys2Proof/Proofs/StartUp.lean ====
section
/-! SUPPORT. Start-up as a whole (R186): the notices it has room for, the form slots it empties, and what it leaves in every block. -/

namespace Sys2Proof.Machine

/-! ## Room for the notices (R136) -/

/-- A notice raised where all slots after the first `k` are free takes a slot no later than `k + 1`. -/
theorem raise_in_room {p : Pqu} {k : Nat} (t : Text) (room : ∀ n, k < n → n ≤ 8 → (p.noticeAt n).status = .free) (lt : k < 8) :
    (p.raise t).dropped = p.dropped ∧ ∀ n, k + 1 < n → n ≤ 8 → ((p.raise t).noticeAt n).status = .free := by
  have next := room (k + 1) (by omega) (by omega)
  unfold Pqu.raise Pqu.place
  cases found : p.freeSlot with
  | none =>
    have taken := List.find?_eq_none.mp found (k + 1) (List.mem_range'_1.mpr (by omega))
    exact absurd (beq_iff_eq.mpr next) taken
  | some i =>
    obtain ⟨-, within, lowest⟩ := List.find?_range'_eq_some.mp found
    have within := List.mem_range'_1.mp within
    have i_le : i ≤ k + 1 := Nat.le_of_not_lt fun gt => by simpa [next] using lowest (k + 1) (by omega) gt
    refine ⟨rfl, fun n gt le => ?_⟩
    have away : i - 1 ≠ n - 1 := by omega
    have same : (p.setNotice i ⟨.waiting, t.take 40⟩).noticeAt n = p.noticeAt n := by
      simp [Pqu.noticeAt, Pqu.setNotice, List.getD_eq_getElem?_getD, away]
    exact (congrArg NoticeSlot.status same).trans (room n (by omega) le)

theorem raised_in_room : ∀ (ts : List Text) (p : Pqu) (k : Nat), (∀ n, k < n → n ≤ 8 → (p.noticeAt n).status = .free) →
    k + ts.length ≤ 8 → (ts.foldl Pqu.raise p).dropped = p.dropped
  | [], _, _, _, _ => rfl
  | t :: ts, p, k, room, fits => by
    rw [List.length_cons] at fits
    obtain ⟨dropped, room'⟩ := raise_in_room t room (by omega)
    exact (raised_in_room ts _ (k + 1) room' (by omega)).trans dropped

theorem reset_free (n : Nat) : (Pqu.reset.noticeAt n).status = .free := by
  unfold Pqu.noticeAt
  rw [List.getD_eq_getElem?_getD]
  have none' : ∀ i : Nat, Pqu.reset.notices[i]? = none ∨ Pqu.reset.notices[i]? = some freeNotice := by
    intro i
    rw [show Pqu.reset.notices = List.replicate 8 freeNotice from rfl, List.getElem?_replicate]
    split <;> simp
  rcases none' (n - 1) with e | e <;> rw [e] <;> rfl

/-! ## The form slots emptied (R96) -/

theorem read_zeroed {addr : Nat → Nat} (a : Nat) : ∀ (ks : List Nat) {m : Memory}, Memory.wf m = true →
    ((∃ k ∈ ks, addr k = a) → (ks.foldl (fun m k => m.write (addr k) 0) m).read a = 0) ∧
    ((∀ k ∈ ks, addr k ≠ a) → (ks.foldl (fun m k => m.write (addr k) 0) m).read a = m.read a)
  | [], m, _ => ⟨fun ⟨k, h, _⟩ => absurd h List.not_mem_nil, fun _ => rfl⟩
  | k :: ks, m, wf => by
    obtain ⟨hit, miss⟩ := read_zeroed a ks (Memory.wf_write (v := 0) (x := addr k) wf)
    constructor
    · rintro ⟨k', mem, at'⟩
      by_cases later : ∃ k ∈ ks, addr k = a
      · exact hit later
      · rcases List.mem_cons.mp mem with rfl | mem
        · refine (miss fun k h e => later ⟨k, h, e⟩).trans ?_
          rw [← at']
          exact Memory.read_write_same wf
        · exact absurd ⟨k', mem, at'⟩ later
    · intro away
      refine (miss fun k' h => away k' (List.mem_cons_of_mem _ h)).trans ?_
      exact Memory.read_write_other (fun e => away k (List.mem_cons_self ..) e.symm) wf

theorem judgeForm_loaded (m : Memory) (map : RegionMap) (k : Nat) :
    ((judgeForm m map k).status != .loaded) = !formLoadedOk (formBytes m map k) := by
  unfold judgeForm
  dsimp only
  cases formLoadedOk (formBytes m map k) <;> rfl

section
variable {m : Memory} {map : RegionMap} (wf : Memory.wf m = true)
include wf

theorem read_emptyForms {k : Nat} (first : 1 ≤ k) (last : k ≤ 4) : (emptyForms m map).read (formAddr map k) =
    if formLoadedOk (formBytes m map k) = true then m.read (formAddr map k) else 0 := by
  obtain ⟨hit, miss⟩ := read_zeroed (addr := formAddr map) (formAddr map k)
    ([1, 2, 3, 4].filter fun k => (judgeForm m map k).status != .loaded) wf
  split
  · rename_i ok
    refine miss fun k' mem e => ?_
    obtain ⟨mem, bad⟩ := List.mem_filter.mp mem
    have same : k' = k := by
      unfold formAddr at e
      have : 1 ≤ k' := by
        simp only [List.mem_cons, List.not_mem_nil, or_false] at mem
        omega
      omega
    rw [same, judgeForm_loaded, ok] at bad
    cases bad
  · rename_i bad
    refine hit ⟨k, List.mem_filter.mpr ⟨?_, ?_⟩, rfl⟩
    · simp only [List.mem_cons, List.not_mem_nil, or_false]
      omega
    · rw [judgeForm_loaded]
      simpa using bad

theorem read_emptyForms_other {a : Nat} (away : ∀ k, 1 ≤ k → k ≤ 4 → a ≠ formAddr map k) : (emptyForms m map).read a = m.read a := by
  refine (read_zeroed (addr := formAddr map) a _ wf).2 fun k mem e => ?_
  have mem := (List.mem_filter.mp mem).1
  simp only [List.mem_cons, List.not_mem_nil, or_false] at mem
  exact away k (by omega) (by omega) e.symm

end

/-! ## Start-up -/

theorem keymap_startUp {s : State} (b : batteryBand s.pins.battery ≠ .exhausted) : (startUp s).kcu.keymap = defaultKeymap := by
  obtain ⟨q, f, d, e⟩ := startUp_beside b
  rw [e]
  refine (keymap_restoreComposer (reclaim 32 (startState s))).trans ?_
  rw [reclaim_eq]
  rfl

theorem startState_hdu (s : State) : (startState s).hdu = { Hdu.reset with
    loaded := (s.restored (settingsInForce s).2.1).loaded, paper := s.pins.paperAbsent, lid := s.pins.lidOpen
    reading := s.pins.thermistor, band := tempBand s.pins.thermistor, hot := decide (60 ≤ s.pins.thermistor)
    limit := groupLimit (batteryBand s.pins.battery) false, power := (batteryBand s.pins.battery).weak } := by
  rw [← hot_iff]
  rfl

theorem startUp_started {s : State} (b : batteryBand s.pins.battery ≠ .exhausted) : StartedUp s (startUp s) := by
  have queue := pqu_startUp b
  have counts := counts_startUp b
  have composer := startUp_composer b
  have keymap := keymap_startUp b
  have defaulted := startUp_defaulted b
  obtain ⟨k, p, q, e, list, typeahead, lock, forms, wiped⟩ := startUp_eq b
  have list : q.list = [] := list
  have hdu := startState_hdu s
  unfold State.counts at counts
  simp only [List.replicate, List.cons.injEq, and_true] at counts
  obtain ⟨framing, fades, stray, refusals, overflows, padFaults⟩ := counts
  generalize startUp s = t at *
  subst e
  have room : (startNotices s).length ≤ 8 → q.dropped = 0 := fun fits =>
    (congrArg Pqu.dropped queue).trans (raised_in_room _ _ 0 (fun n _ _ => reset_free n) (by omega))
  refine ⟨framing, fades, stray, refusals, overflows, padFaults, queue, room, rfl, rfl, rfl, rfl, rfl, rfl, rfl, rfl, rfl, rfl, rfl,
    rfl, rfl, rfl, rfl, rfl, rfl, rfl, typeahead, lock, list, rfl, rfl, rfl, defaulted, forms, fun k a inv first last at' => ?_,
    fun a inv away => read_emptyForms_other inv away, rfl, rfl, fun reset => ?_, composer, keymap, rfl, rfl, rfl, hdu, rfl, rfl,
    rfl, rfl, rfl⟩
  · subst at'
    exact read_emptyForms inv first last
  · obtain ⟨spool, idle⟩ := wiped reset
    refine ⟨spool.trans ?_, idle⟩
    exact congrArg Restored.spu (restored_wiped reset)

end Sys2Proof.Machine
end

