-- ==== Sys2Proof/Proofs/Restores.lean ====
section
/-! SUPPORT. What start-up reads back (R120, R121, R184): the header and the records of the directory, the settings memory, and the
composer's state from the OPEN entry. -/

namespace Sys2Proof.Machine

/-! ## The header and the records (R120, R121) -/

theorem getD_beq_iff (l : Text) (i : Nat) {b : Byte} (h : b ≠ 0) : (l.getD i 0 == b) = true ↔ l[i]? = some b := by
  rw [List.getD_eq_getElem?_getD, beq_iff_eq]
  cases l[i]? with
  | none => exact ⟨fun e => absurd e.symm h, fun e => by cases e⟩
  | some c => exact (Option.some.injEq ..).symm.to_iff

theorem headerGood_iff (l : Text) (w : Settings) : headerGood l w = true ↔ l[0]? = some 0x5A ∧ l[1]? = some 0xA5 ∧
    checkBytes (l.take 59) = (l.drop 59).take 2 ∧ (l.drop 42).take 9 = stampBytes w.memSize w.map := by
  unfold headerGood
  rw [Bool.and_eq_true, Bool.and_eq_true, Bool.and_eq_true, getD_beq_iff l 0 (by decide), getD_beq_iff l 1 (by decide),
    beq_iff_eq, beq_iff_eq, and_assoc, and_assoc]

theorem expectedFits_iff (start : Option Nat) (at' : Nat) : (match start with
    | some o => at' == o
    | none => true) = true ↔ ∀ o, start = some o → at' = o := by
  cases start <;> simp

theorem serialNew_iff (before : Judged) (serial : Nat) :
    (serial == 0 || !before.any fun p => p.2.any fun e => e.serial == some serial) = true ↔
      (serial ≠ 0 → ∀ n f, (n, some f) ∈ before → f.serial ≠ some serial) := by
  by_cases zero : serial = 0
  · simp [zero]
  · simp only [beq_iff_eq, zero, Bool.or_eq_true, false_or, Bool.not_eq_true', List.any_eq_false, Option.any_eq_true, Prod.forall,
      not_exists, not_and, ne_eq, not_false_eq_true, forall_const]
    exact ⟨fun h n f mem => h n _ mem f rfl, fun h n o mem f e => h n f (e ▸ mem)⟩

theorem carries_iff {st : EntryState} (listed : st ≠ .free) (serial : Nat) :
    (st == .opened || st == .damaged || st == .void || serial != 0) = true ↔
      (st = .closed ∨ st = .sending ∨ st = .awaiting ∨ st = .sent ∨ st = .rejected → serial ≠ 0) := by
  cases st <;> simp_all

theorem openLast_iff (st : EntryState) (last : Bool) :
    (st != .opened || last) = true ↔ (st = .opened → last = true) := by
  rw [Bool.or_eq_true, bne_iff_ne]
  exact ⟨fun h opened => h.resolve_left fun other => other opened, fun h => (Decidable.em (st = .opened)).symm.imp id h⟩

theorem recordGood_iff (l : Text) (tail size : Nat) (before : Judged) (last : Bool) (e : Entry) :
    recordGood l tail size before last = some e ↔ ∃ st, EntryState.ofCode (byteAt l 0) = some st ∧ e = recordEntry l st ∧
      checkBytes (l.take 12) = (l.drop 12).take 2 ∧ st ≠ .free ∧
      (∀ o, expectedStart tail size before = some o → wordAt l 5 = o) ∧ wordAt l 7 ≤ 4095 ∧
      (st = .opened → last = true) ∧
      (st = .closed ∨ st = .sending ∨ st = .awaiting ∨ st = .sent ∨ st = .rejected → wordAt l 3 ≠ 0) ∧
      (wordAt l 3 ≠ 0 → ∀ n f, (n, some f) ∈ before → f.serial ≠ some (wordAt l 3)) := by
  unfold recordGood
  cases EntryState.ofCode (byteAt l 0) with
  | none => exact iff_of_false (fun h => by cases h) fun ⟨st, h, _⟩ => by cases h
  | some st =>
    dsimp only
    rw [Option.ite_none_right_eq_some]
    simp only [Bool.and_eq_true, serialNew_iff, and_assoc, Option.some.injEq, exists_eq_left', beq_iff_eq, bne_iff_ne,
      decide_eq_true_iff]
    constructor
    · rintro ⟨check, listed, fits, short, final, carries, new, rfl⟩
      exact ⟨rfl, check, listed, (expectedFits_iff _ _).mp fits, short, (openLast_iff st last).mp final,
        (carries_iff listed _).mp carries, new⟩
    · rintro ⟨rfl, check, listed, fits, short, final, carries, new⟩
      exact ⟨check, listed, (expectedFits_iff _ _).mpr fits, short, (openLast_iff st last).mpr final,
        (carries_iff listed _).mpr carries, new, rfl⟩

theorem classOf_order {n : Nat} (first : 1 ≤ n) (last : n ≤ 4) : classOf n = (some .order, n) := if_pos ⟨first, last⟩

theorem classOf_none {n : Nat} (h : n = 0 ∨ 5 < n) : classOf n = (none, 0) :=
  (if_neg (by omega)).trans (if_neg (by omega))

/-- The class, the form slot and the cursor a record gives. -/
theorem recordEntry_cls (l : Text) (st : EntryState) :
    let e := recordEntry l st
    let p := classOf (byteAt l 1)
    e.cls = p.1 ∧ e.formSlot = p.2 ∧ e.cursor = if st = .opened ∧ p.1 = some .order then cursorOf (byteAt l 2) else none :=
  ⟨rfl, rfl, rfl⟩

theorem recordEntry_order {l : Text} (st : EntryState) (first : 1 ≤ byteAt l 1) (last : byteAt l 1 ≤ 4) :
    let e := recordEntry l st
    e.cls = some .order ∧ e.formSlot = byteAt l 1 ∧
      e.cursor = if st ≠ .opened ∨ byteAt l 2 = 0 then none else if byteAt l 2 ≤ 16 then some (.field (byteAt l 2))
        else some .finish := by
  obtain ⟨cls, form, cursor⟩ := recordEntry_cls l st
  rw [classOf_order first last] at cls form cursor
  refine ⟨cls, form, cursor.trans ?_⟩
  unfold cursorOf
  by_cases opened : st = .opened <;> simp [opened]

theorem recordEntry_plain {l : Text} (st : EntryState) {cls : Option EntryClass} (h : classOf (byteAt l 1) = (cls, 0))
    (plain : cls ≠ some .order) :
    let e := recordEntry l st
    e.cls = cls ∧ e.formSlot = 0 ∧ e.cursor = none := by
  obtain ⟨cls, form, cursor⟩ := recordEntry_cls l st
  rw [h] at cls form cursor
  exact ⟨cls, form, cursor.trans (if_neg fun o => plain o.2)⟩

/-! ## The records due (R118, R121) -/

theorem mem_due_dueItem (p : Spu) (i j : SpuItem) : i ∈ (p.dueItem j).due ↔ i ∈ p.due ∨ i = j := by
  unfold Spu.dueItem
  split
  · rename_i has
    exact ⟨.inl, fun h => h.elim id fun e => e ▸ List.contains_iff_mem.mp has⟩
  · simp

theorem mem_dueRecords (i : SpuItem) : ∀ (ns : List Nat) (p : Spu),
    i ∈ (ns.foldl (fun p n => p.dueItem (.record n)) p).due ↔ i ∈ p.due ∨ ∃ n ∈ ns, i = .record n
  | [], p => by simp
  | n :: ns, p => by
    rw [List.foldl_cons, mem_dueRecords i ns, mem_due_dueItem, or_assoc]
    simp

theorem restored_changes : ∀ n : Nat, ((EntryState.ofCode n).any fun st => st.restored != st) = true ↔ n = 3 ∨ n = 4
  | 0 | 1 | 2 | 3 | 4 | 5 | 6 | 7 | 8 => by decide
  | n + 9 => iff_of_false (by simp [EntryState.ofCode]) (by omega)

theorem rewritten_iff (m : Memory) (n : Nat) (e : Entry) :
    rewritten m n e = true ↔ e.state = .damaged ∨ m.read (64 + 14 * (n - 1)) = 3 ∨ m.read (64 + 14 * (n - 1)) = 4 := by
  unfold rewritten
  rw [Bool.or_eq_true, beq_iff_eq, restored_changes, ← BitVec.toNat_inj, ← BitVec.toNat_inj]
  rfl

theorem setEntries_eq : ∀ (es : List (Nat × Entry)) (p : Spu), ∃ t, es.foldl (fun p q => p.setEntry q.1 q.2) p = { p with table := t }
  | [], p => ⟨p.table, rfl⟩
  | e :: es, p => setEntries_eq es (p.setEntry e.1 e.2)

theorem spoolOf_lists (l : Text) (size : Nat) (es : List (Nat × Entry)) :
    (spoolOf l size es).due = [] ∧ (spoolOf l size es).order = es.map Prod.fst := by
  unfold spoolOf
  dsimp only
  generalize (⟨_, _, _⟩ : RingState) = ring
  obtain ⟨t, e⟩ := setEntries_eq es { Spu.reset with
    order := es.map Prod.fst, serialNext := if wordAt l 2 = 0 then 1 else wordAt l 2, ring := ring }
  rw [e]
  exact ⟨rfl, rfl⟩

/-- What becomes due, and what stands restored, where the restore did not reset the journal. -/
theorem restoreSpool_due {m : Memory} {w : Settings} (kept : (restoreSpool m w).wiped = false) :
    ∃ es : List (Nat × Entry), (restoreSpool m w).spu.order = es.map Prod.fst ∧
      (restoreSpool m w).damaged = (es.filter fun p => p.2.state == .damaged).map Prod.fst ∧
      ∀ i, i ∈ (restoreSpool m w).spu.due ↔ ∃ n ∈ (es.filter fun p => rewritten m p.1 p.2).map Prod.fst, i = .record n := by
  unfold restoreSpool at kept ⊢
  dsimp only at kept ⊢
  split at kept
  · cases kept
  · rename_i good
    rw [if_neg good]
    split at kept
    · cases kept
    · rename_i es laid
      obtain ⟨none', order⟩ := spoolOf_lists (m.readAll (addrsFrom 0 64)) w.map.spool.size es
      obtain ⟨d, dues⟩ := dueRecords_eq ((es.filter fun p => rewritten m p.1 p.2).map Prod.fst)
        (spoolOf (m.readAll (addrsFrom 0 64)) w.map.spool.size es)
      refine ⟨es, (congrArg Spu.order dues).trans order, rfl, fun i => ?_⟩
      rw [mem_dueRecords, none']
      exact or_iff_right List.not_mem_nil

theorem mem_map_filter {es : List (Nat × Entry)} {f : Nat × Entry → Bool} {n : Nat} :
    n ∈ (es.filter f).map Prod.fst ↔ ∃ e, (n, e) ∈ es ∧ f (n, e) = true := by
  simp [List.mem_map, List.mem_filter]

theorem restoreSpool_due_iff {m : Memory} {w : Settings} (kept : (restoreSpool m w).wiped = false) (i : SpuItem) :
    i ∈ (restoreSpool m w).spu.due ↔ ∃ n ∈ (restoreSpool m w).spu.order, i = .record n ∧
      (n ∈ (restoreSpool m w).damaged ∨ m.read (64 + 14 * (n - 1)) = 3 ∨ m.read (64 + 14 * (n - 1)) = 4) := by
  obtain ⟨es, order, damaged, due⟩ := restoreSpool_due kept
  rw [due, order, damaged]
  simp only [mem_map_filter, rewritten_iff, beq_iff_eq]
  constructor
  · rintro ⟨n, ⟨e, mem, why⟩, rfl⟩
    exact ⟨n, List.mem_map_of_mem mem, rfl, why.imp_left fun bad => ⟨e, mem, bad⟩⟩
  · rintro ⟨n, mem, rfl, why⟩
    rcases why with ⟨e, bad⟩ | written
    · exact ⟨n, ⟨e, bad.1, .inl bad.2⟩, rfl⟩
    · obtain ⟨p, listed, rfl⟩ := List.mem_map.mp mem
      exact ⟨p.1, ⟨p.2, listed, .inr written⟩, rfl⟩

/-! ## The settings (R184, R4) -/

theorem settingsOk_iff (l : Text) : settingsOk l = true ↔ l[0]? = some 0xA5 ∧ l[1]? = some 0x3C ∧
    checkBytes (l.take 126) = (l.drop 126).take 2 := by
  unfold settingsOk
  rw [Bool.and_eq_true, Bool.and_eq_true, getD_beq_iff l 0 (by decide), getD_beq_iff l 1 (by decide), beq_iff_eq, and_assoc]

theorem readSettings_eq (s : State) : readSettings s =
    if s.settingsTorn = false ∧ settingsOk s.settings = true then settingsOf s.settings else (defaultSettings, true) := by
  unfold readSettings
  cases s.settingsTorn <;> cases settingsOk s.settings <;> rfl

theorem judgeMap_cases (w : Settings) :
    (w.memSize ∉ [8192, 16384, 32768] → judgeMap w = (8192, defaultMap 8192, true)) ∧
    (w.memSize ∈ [8192, 16384, 32768] → w.map.valid w.memSize = true → judgeMap w = (w.memSize, w.map, false)) ∧
    (w.memSize ∈ [8192, 16384, 32768] → w.map.valid w.memSize = false →
      judgeMap w = (w.memSize, defaultMap w.memSize, true)) := by
  unfold judgeMap
  have sizes : memSizes = [8192, 16384, 32768] := rfl
  rw [sizes]
  refine ⟨fun h => if_pos (by simpa using h), fun h valid => ?_, fun h invalid => ?_⟩
  · rw [List.contains_iff_mem.mpr h, if_neg (by decide), if_pos valid]
  · rw [List.contains_iff_mem.mpr h, if_neg (by decide), if_neg (by simp [invalid])]

theorem judgeMarks_eq (hold res inbound : Nat) : judgeMarks hold res inbound =
    if 64 ≤ hold ∧ hold < res ∧ res ≤ inbound - 64 then (hold, res, false)
    else if 64 ≤ 256 ∧ 256 < 768 ∧ 768 ≤ inbound - 64 then (256, 768, true) else (64, inbound - 64, true) := by
  unfold judgeMarks marksOk
  simp only [decide_eq_true_iff]

theorem judged_fst (v lo hi d : Nat) : (judged v lo hi d).1 = if lo ≤ v ∧ v ≤ hi then v else d := by
  unfold judged
  split <;> rfl

theorem judged_snd (v lo hi d : Nat) : (judged v lo hi d).2 = false ↔ lo ≤ v ∧ v ≤ hi := by
  unfold judged
  split
  · exact iff_of_true rfl ‹_›
  · exact iff_of_false (by simp) ‹_›

theorem judged_map_fst (n : Nat) (v lo hi d : Nat → Nat) :
    ((List.range n).map fun i => judged (v i) (lo i) (hi i) (d i)).map Prod.fst =
      (List.range n).map fun i => if lo i ≤ v i ∧ v i ≤ hi i then v i else d i := by
  rw [List.map_map]
  exact List.map_congr_left fun i _ => judged_fst ..

theorem judged_any_snd (n : Nat) (v lo hi d : Nat → Nat) :
    ((List.range n).map fun i => judged (v i) (lo i) (hi i) (d i)).any Prod.snd = false ↔ ∀ i < n, lo i ≤ v i ∧ v i ≤ hi i := by
  simp only [List.any_eq_false, List.mem_map, List.mem_range, forall_exists_index, and_imp, forall_apply_eq_imp_iff₂,
    Bool.not_eq_true, judged_snd]

/-- The frame marks, which take their defaults together where they would be alike (R184). -/
theorem settingsOf_marks (l : Text) :
    let kept := fun n d => if 0 ≤ n ∧ n ≤ 31 then n else d
    let first := kept (byteAt l 2) 0x1C
    let last := kept (byteAt l 3) 0x1E
    (settingsOf l).1.introducer = byteOf (if first = last then 0x1C else first) ∧
    (settingsOf l).1.terminator = byteOf (if first = last then 0x1E else last) := by
  intro kept first last
  have first_eq : (judged (byteAt l 2) 0 31 0x1C).1 = first := judged_fst ..
  have last_eq : (judged (byteAt l 3) 0 31 0x1E).1 = last := judged_fst ..
  unfold settingsOf
  dsimp only
  rw [first_eq, last_eq]
  by_cases same : first = last
  · rw [if_pos same, if_pos same, if_pos same, if_pos same]
    exact ⟨rfl, rfl⟩
  · rw [if_neg same, if_neg same, if_neg same, if_neg same]
    exact ⟨rfl, rfl⟩

theorem settingsOf_dozeIdle (l : Text) : (settingsOf l).1.dozeIdle =
    if wordAt l 16 = 0 then 0 else if 30 ≤ wordAt l 16 ∧ wordAt l 16 ≤ 600 then wordAt l 16 else 120 := by
  unfold settingsOf
  dsimp only
  rw [apply_ite Prod.fst, judged_fst]
  rfl

theorem settingsOf_heat (l : Text) : (settingsOf l).1.heat = (List.range 9).map fun i =>
    if 16 ≤ byteAt l (78 + i) ∧ byteAt l (78 + i) ≤ 255 then byteAt l (78 + i)
    else [60, 68, 78, 50, 57, 65, 42, 48, 55].getD i 0 := by
  refine (judged_map_fst 9 (fun i => byteAt l (78 + i)) (fun _ => 16) (fun _ => 255) fun i => defaultHeat.getD i 16).trans ?_
  have defaults : ∀ i < 9, defaultHeat.getD i 16 = [60, 68, 78, 50, 57, 65, 42, 48, 55].getD i 0 := by decide
  refine List.map_congr_left fun i mem => ?_
  rw [defaults i (List.mem_range.mp mem)]

theorem stampSize_listed (b : Nat) : (b ≤ 2 → stampSize b = 8192 * 2 ^ b) ∧ (2 < b → stampSize b ∉ [8192, 16384, 32768]) := by
  match b with
  | 0 | 1 | 2 => decide
  | b + 3 => exact ⟨fun h => by omega, fun _ => by simp [stampSize]⟩

theorem stampMap_eq (l : Text) :
    let region := fun i => (⟨256 * byteAt l i, 256 * byteAt l (i + 1)⟩ : Region)
    stampMap l 69 = ⟨region 70, region 72, region 74, region 76⟩ := by
  simp only [stampMap, Nat.mul_comm]

theorem settingsOf_protect (l : Text) {i : Nat} (h : i < 6) : (settingsOf l).1.protect.getLsbD i = (byteAt l 89).testBit i := by
  refine (BitVec.getLsbD_ofNat ..).trans ?_
  rw [decide_eq_true h, Bool.true_and]

/-- No stored value took its default. -/
theorem settingsOf_sound (l : Text) :
    let at' := byteAt l
    let inside := fun n lo hi => lo ≤ n ∧ n ≤ hi
    (settingsOf l).2 = false ↔ inside (at' 2) 0 31 ∧ inside (at' 3) 0 31 ∧ at' 2 ≠ at' 3 ∧ inside (at' 4) 5 60 ∧
      inside (at' 5) 1 10 ∧ inside (at' 6) 1 8 ∧ inside (at' 7) 1 10 ∧ inside (at' 8) 2 15 ∧ inside (at' 13) 5 60 ∧
      inside (at' 15) 0 10 ∧ (wordAt l 16 = 0 ∨ inside (wordAt l 16) 30 600) ∧ inside (at' 18) 1 8 ∧ inside (at' 19) 1 8 ∧
      inside (at' 20) 5 60 ∧ (∀ i < 48, inside (at' (21 + i)) 8 255) ∧ (∀ i < 9, inside (at' (78 + i)) 16 255) ∧
      inside (at' 87) 0 16 ∧ inside (at' 88) 0 8 := by
  intro at' inside
  have doze : (if wordAt l 16 = 0 then (0, false) else judged (wordAt l 16) 30 600 defaultSettings.dozeIdle).2 = false ↔
      wordAt l 16 = 0 ∨ inside (wordAt l 16) 30 600 := by
    by_cases zero : wordAt l 16 = 0
    · rw [if_pos zero]
      exact iff_of_true rfl (.inl zero)
    · rw [if_neg zero, judged_snd]
      exact (or_iff_right zero).symm
  have marks : inside (at' 2) 0 31 → inside (at' 3) 0 31 →
      (decide ((judged (byteAt l 2) 0 31 0x1C).1 = (judged (byteAt l 3) 0 31 0x1E).1) = false ↔ at' 2 ≠ at' 3) := by
    intro first last
    rw [judged_fst, judged_fst, if_pos first, if_pos last, decide_eq_false_iff_not]
  have one : ∀ v lo hi d, (judged v lo hi d).2 = false ↔ inside v lo hi := judged_snd
  have all : ∀ (n : Nat) (v lo hi d : Nat → Nat),
      ((List.range n).map fun i => judged (v i) (lo i) (hi i) (d i)).any Prod.snd = false ↔ ∀ i < n, inside (v i) (lo i) (hi i) :=
    judged_any_snd
  unfold settingsOf
  simp only [Bool.or_eq_false_iff, one, doze, all, and_assoc]
  exact and_congr_right fun first => and_congr_right fun last => and_congr_left' (marks first last)

/-! ## The composer (R99) -/

theorem fieldItems_value {value : Text} (plain : 0x1F ∉ value) (k : Nat) (has : List Nat) : fieldItems k value has = (has, value) := by
  cases k with
  | zero => rfl
  | succ k =>
    have all : value.takeWhile (· != 0x1F) = value := by
      have kept := List.takeWhile_append_of_pos (p := (· != 0x1F)) (l₁ := value) (l₂ := [])
        fun b mem => bne_iff_ne.mpr fun e => plain (e ▸ mem)
      rwa [List.append_nil, List.takeWhile_nil, List.append_nil] at kept
    unfold fieldItems
    dsimp only
    rw [all, List.drop_length]

theorem fieldItems_item {value : Text} (plain : 0x1F ∉ value) (k : Nat) (rest : Text) (i : Byte) (has : List Nat) :
    fieldItems (k + 1) (value ++ 0x1F :: i :: rest) has =
      fieldItems k rest (if value = [] then has else has ++ [i.toNat]) := by
  have front : (value ++ 0x1F :: i :: rest).takeWhile (· != 0x1F) = value := by
    have all : ∀ b ∈ value, (b != 0x1F) = true := fun b mem => bne_iff_ne.mpr fun e => plain (e ▸ mem)
    rw [List.takeWhile_append_of_pos all, List.takeWhile_cons_of_neg (by decide), List.append_nil]
  conv => lhs; unfold fieldItems
  dsimp only
  rw [front, List.drop_left]

section
variable {s : State} {n : Nat} (open' : s.spu.openSlot = some n)
include open'

theorem restoreComposer_note (note : (s.spu.entry n).cls = some .note) : restoreComposer s = { s with kcu := { s.kcu with
    state := .free, count := (s.spu.entry n).length
    line := ((entryText s.mem s.work.map (s.spu.entry n)).reverse.takeWhile (· != 0x0A)).reverse } } := by
  unfold restoreComposer
  rw [open']
  dsimp only
  rw [note]
  rfl

theorem restoreComposer_order {image : FormImage} (order : (s.spu.entry n).cls = some .order)
    (loaded : (s.kcu.formSlotAt (s.spu.entry n).formSlot).status = .loaded)
    (reads : imageOf (formBytes s.mem s.work.map (s.spu.entry n).formSlot) = some image) :
    let e := s.spu.entry n
    let text := entryText s.mem s.work.map e
    restoreComposer s = { s with kcu := { s.kcu with
      state := .form, cursor := e.cursor.getD (.field 1), image := image, formSlot := e.formSlot, count := e.length
      value := (fieldItems (text.length + 1) text []).2
      hasValue := (fieldItems (text.length + 1) text []).1.eraseDups } } := by
  unfold restoreComposer
  rw [open']
  dsimp only
  rw [order, if_pos loaded, reads]
  rfl

/-- An entry the composer cannot go on with is closed. -/
theorem restoreComposer_closes (h : (s.spu.entry n).cls = none ∨ (s.spu.entry n).cls = some .order ∧
    ((s.kcu.formSlotAt (s.spu.entry n).formSlot).status ≠ .loaded ∨
      imageOf (formBytes s.mem s.work.map (s.spu.entry n).formSlot) = none)) : restoreComposer s = closeEntry s := by
  unfold restoreComposer
  rw [open']
  dsimp only
  rcases h with none' | ⟨order, not_loaded | no_image⟩
  · rw [none']
  · rw [order, if_neg not_loaded]
  · rw [order, no_image, ite_self]

end

/-! ## The default tables (Tables 1.1 and 5.2) -/

theorem defaultKeymap_eq :
    let digits := (List.range 9).map (fun i => KeyEntry.char (byteOf (0x31 + i)) true) ++ [.char 0x30 true]
    let letters := fun a => (List.range 26).map fun i => KeyEntry.char (byteOf (a + i)) true
    let none' := fun n => List.replicate n KeyEntry.none
    defaultKeymap =
      digits ++ letters 0x61 ++ [.char 0x20 true, .char 0x2E false, .char 0x2D false, .action .rub true, .action .tab false,
        .action .enter false, .action .newOrder false, .modifier .shift, .modifier .func, .action .line false, .char 0x23 false,
        .char 0x3A false] ++
      digits ++ letters 0x41 ++ [.char 0x20 true, .char 0x2C false, .char 0x2F false, .action .rub true, .action .tab false,
        .action .enter false, .action .note false, .modifier .shift, .modifier .func, .action .line false, .char 0x2A false,
        .char 0x3B false] ++
      none' 39 ++ [.action .cancel false, .action .discard false, .action .send false, .action .feed true, .modifier .shift,
        .modifier .func, .action .line false, .action .service false] ++ none' 1 := by
  decide +kernel

theorem defaultCodes_eq (c : Nat) (h : c < 256) : defaultCodes[c]? = some (
    if 0x20 ≤ c ∧ c ≤ 0x7E ∨ 0x80 ≤ c ∧ c ≤ 0xBF then .glyph c else if c = 0x09 then .tab else if c = 0x0A then .lineEnd
    else if c = 0x0D then .ignored else .substitute) := by
  unfold defaultCodes
  rw [List.getElem?_map, List.getElem?_range h]
  refine congrArg some ?_
  show defaultCode c = _
  unfold defaultCode
  by_cases low : 0x20 ≤ c ∧ c ≤ 0x7E
  · rw [if_pos low, if_pos (.inl low)]
  · simp only [low, false_or, if_false]

end Sys2Proof.Machine
end

