-- ==== Sys2Proof/Proofs/PowerOnAndOff.lean ====
section
/-! SUPPORT. Power put on and taken away (R1, R181, R186). -/

namespace Sys2Proof.Machine

theorem exec_powerOn {s : State} (n : Nat) (c : Int) (p l : Bool) (off : s.pm.power = .off) :
    exec (.powerOn n c p l) s = .next (finish (startUp { s with pins := ⟨n, c, s.pins.energy, p, l⟩ })) :=
  if_pos (by simp [off])

theorem startUp_exhausted {s : State} (h : batteryBand s.pins.battery = .exhausted) : startUp s = releaseLatch s := if_pos h

/-- Start-up and the removal of the battery. -/
theorem power_commands (s : State) (n : Nat) (c : Int) (p l : Bool) (landed : BitVec 8) :
    (s.pm.power ≠ .off → exec (.powerOn n c p l) s = .next s) ∧
    (s.pm.power = .off → batteryBand n ≠ .exhausted → ∃ e, exec (.powerOn n c p l) s = .next (finish e) ∧
      StartedUp { s with pins := ⟨n, c, s.pins.energy, p, l⟩ } e) ∧
    (s.pm.power = .off → batteryBand n = .exhausted → ∃ e torn, exec (.powerOn n c p l) s = .next (finish e) ∧
      PowerLost torn { s with pins := ⟨n, c, s.pins.energy, p, l⟩ } e ∧ e.pm.power = .off) ∧
    ∃ t, exec (.batteryRemoved landed) s = .next t ∧ PowerLost landed s t ∧ t.fresh = s.fresh := by
  refine ⟨fun on => if_neg (by simp [on]), fun off well => ⟨_, exec_powerOn n c p l off, startUp_started well⟩, fun off flat => ?_,
    _, rfl, powerLost_lost landed s, rfl⟩
  have lost := (releaseLatch_lost { s with pins := ⟨n, c, s.pins.energy, p, l⟩ }).1
  rw [exec_powerOn n c p l off, startUp_exhausted flat]
  exact ⟨_, _, rfl, lost, rfl⟩

theorem loadedSet_bit (l : Text) {i : Nat} (h : i < 64) :
    (loadedOf ((l.drop 51).take 8)).getLsbD i = (l.getD (51 + i / 8) 0).getLsbD (i % 8) := by
  have byte : ((l.drop 51).take 8).getD (i / 8) 0 = l.getD (51 + i / 8) 0 := by
    rw [List.getD_eq_getElem?_getD, List.getD_eq_getElem?_getD, List.getElem?_take, List.getElem?_drop, if_pos (by omega)]
  rw [loadedOf_bit _ i h, byte]

theorem settingsOf_values (l : Text) :
    let v := (settingsOf l).1
    let at' := byteAt l
    let kept := fun n lo hi d => if lo ≤ n ∧ n ≤ hi then n else d
    v.listen = kept (at' 4) 5 60 30 ∧ v.fadeTime = kept (at' 5) 1 10 4 ∧ v.carrier = kept (at' 6) 1 8 4 ∧
    v.ack = kept (at' 7) 1 10 3 ∧ v.attemptLimit = kept (at' 8) 2 15 6 ∧ v.holdMark = wordAt l 9 ∧ v.resumeMark = wordAt l 11 ∧
    v.accept = kept (at' 13) 5 60 20 ∧ v.autoSend = (at' 14).testBit 0 ∧ v.acceptNotices = (at' 14).testBit 1 ∧
    v.lineIdle = kept (at' 15) 0 10 3 ∧ v.dozeIdle = (if wordAt l 16 = 0 then 0 else kept (wordAt l 16) 30 600 120) ∧
    v.pressDebounce = kept (at' 18) 1 8 3 ∧ v.releaseDebounce = kept (at' 19) 1 8 3 ∧ v.stuck = kept (at' 20) 5 60 20 ∧
    v.offsets = (List.range 48).map (fun i => kept (at' (21 + i)) 8 255 40) :=
  ⟨judged_fst .., judged_fst .., judged_fst .., judged_fst .., judged_fst .., rfl, rfl, judged_fst .., rfl, rfl, judged_fst ..,
    settingsOf_dozeIdle l, judged_fst .., judged_fst .., judged_fst .., judged_map_fst ..⟩

theorem restored_reset {s : State} {w : Settings}
    (h : s.regionsCut = true ∨ headerGood (s.mem.readAll (addrsFrom 0 64)) w = false) : s.restored w = journalReset := by
  unfold State.restored
  split
  · rfl
  · rename_i whole
    have bad := h.resolve_left whole
    unfold restoreSpool
    exact if_pos (by simp [bad])

theorem state_recordEntry (l : Text) (st : EntryState) :
    (recordEntry l st).state = if st = .sending ∨ st = .awaiting then .closed else st := by
  show st.restored = _
  cases st <;> rfl

/-- Of an entry cut off in SENDING the restore keeps that it was interrupted. -/
theorem interrupted_recordEntry (l : Text) {st : EntryState} (sending : st = .sending) : (recordEntry l st).interrupted = true := by
  show ((l.getD 10 0).getLsbD 0 || st == .sending) = true
  rw [sending]
  exact Bool.or_true _

/-- A list of one slot, DAMAGED, takes the bytes up to the head. -/
theorem layEntries_lone {size head start : Nat} (n : Nat) (within : start < size) (short : (head + size - start) % size ≤ 4095) :
    layEntries size head false [(n, none)] [] start = some [(n, damagedEntry start ((head + size - start) % size))] := by
  have run := layEntries_end size head start false [n] (List.cons_ne_nil n [])
  dsimp only at run
  simp only [Nat.mod_eq_of_lt within, Bool.false_eq_true, and_false, if_false] at run
  exact run.trans (if_pos (Nat.le_trans short (Nat.le_of_eq (Nat.mul_one 4095).symm)))

theorem readSettings_cases (s : State) :
    let passes := s.settingsTorn = false ∧ s.settings[0]? = some 0xA5 ∧ s.settings[1]? = some 0x3C ∧
      checkBytes (s.settings.take 126) = (s.settings.drop 126).take 2
    (passes → readSettings s = settingsOf s.settings) ∧ (¬ passes → readSettings s = (defaultSettings, true)) := by
  intro passes
  have read : readSettings s = if passes then settingsOf s.settings else (defaultSettings, true) := by
    rw [readSettings_eq]
    simp only [settingsOk_iff, passes]
  exact ⟨fun h => read.trans (if_pos h), fun h => read.trans (if_neg h)⟩

/-- Settles O49, from what each part of start-up reads back. -/
theorem powerOnAndOff : Obligations.PowerOnAndOff := by
  refine ⟨power_commands, fun s w => ⟨restored_reset, fun h => if_neg (by simp [h]), headerGood_iff ..⟩, fun m w => ?_,
    headerSlots_listed, fun m tail size n rest e before => ⟨rfl, rfl, rfl, rfl, rfl⟩, fun m map k => rfl, recordGood_iff,
    fun l st => ?_, fun size head start n _ within _ short => layEntries_lone n within short,
    fun size head start whole ns => ⟨layEntries_run size head start whole ns, layEntries_end size head start whole ns, rfl⟩,
    fun size ns start dist within => ⟨damagedRun_length .., fun i n at' => damagedRun_get size ns start dist within i n at'⟩,
    fun m w kept i => restoreSpool_due_iff kept i, fun s => ?_, judgeMap_cases, fun hold res inbound => ?_, fun l => ?_,
    defaultKeymap_eq, ⟨by simp [defaultCodes], defaultCodes_eq⟩, fun k value rest i has plain =>
      ⟨fieldItems_item plain .., fieldItems_value plain ..⟩, fun s none' => (restoreComposer_eq s).2 none', fun s n open' => ?_⟩
  · intro l size tail judged whole laid r good
    obtain ⟨resets, lays⟩ := restoreSpool_laid m w good
    refine ⟨resets, fun es h => ?_⟩
    obtain ⟨spool, order, entries, others, loaded, damaged, kept⟩ := lays es h
    exact ⟨spool, order, entries, others, fun i lt => loaded ▸ loadedSet_bit l lt, damaged, kept⟩
  · intro e
    refine ⟨state_recordEntry l st, rfl, rfl, rfl, rfl, interrupted_recordEntry l, rfl, rfl, rfl, rfl, rfl, rfl, rfl, rfl, rfl, rfl,
      recordEntry_order st, fun note => ?_, fun none' => recordEntry_plain st (classOf_none none') (by decide)⟩
    refine recordEntry_plain st ?_ (by decide)
    rw [note]
    rfl
  · intro stored passes
    obtain ⟨sound, unsound⟩ := readSettings_cases s
    exact ⟨sound, unsound, rfl⟩
  · intro good
    rw [judgeMarks_eq]
    exact ⟨fun h => if_pos h, fun h h' => (if_neg h).trans (if_pos h'), fun h h' => (if_neg h).trans (if_neg h')⟩
  · intro v at' inside kept first last region
    obtain ⟨introducer, terminator⟩ := settingsOf_marks l
    obtain ⟨listen, fadeTime, carrier, ack, limit, hold, resume, accept, auto, notices, idle, doze, press, release, stuck,
      offsets⟩ := settingsOf_values l
    obtain ⟨listed, unlisted⟩ := stampSize_listed (at' 69)
    exact ⟨introducer, terminator, listen, fadeTime, carrier, ack, limit, hold, resume, accept, auto, notices, idle, doze, press,
      release, stuck, offsets, listed, unlisted, stampMap_eq l, settingsOf_heat l, judged_fst .., judged_fst ..,
      fun i => settingsOf_protect l, settingsOf_sound l⟩
  · intro e text
    exact ⟨restoreComposer_note open', fun image => restoreComposer_order open',
      fun order not_loaded => restoreComposer_closes open' (.inr ⟨order, .inl not_loaded⟩),
      fun order no_image => restoreComposer_closes open' (.inr ⟨order, .inr no_image⟩),
      fun none' => restoreComposer_closes open' (.inl none')⟩

end Sys2Proof.Machine
end

