-- ==== Sys2Proof/Proofs/CommonEnd.lean ====
section
/-! SUPPORT. The common end of a command (log entry 6): what the blocks' turns reach, the doze idle timer, and a restart's or a
shutdown's way from stage to stage (R122, R181, R187). -/

namespace Sys2Proof.Machine

/-! ## The blocks' turns -/

/-- `s` with all that a turn of the blocks may change, as `t` has it. -/
def State.taking (s t : State) : State := { s with
  work := { s.work with heat := t.work.heat, warm := t.work.warm, density := t.work.density }
  jmc := t.jmc
  clu := { s.clu with
    txChar := t.clu.txChar
    receiver := if s.pm.power = .doze then t.clu.receiver else s.clu.receiver
    carrier := if s.pm.power = .doze then t.clu.carrier else s.clu.carrier }
  pe := { t.pe with
    asm := s.pe.asm, expected := s.pe.expected, nakRecord := s.pe.nakRecord, nakTimer := s.pe.nakTimer,
    reminderTimer := s.pe.reminderTimer, stationHold := s.pe.stationHold, holdTimer := s.pe.holdTimer, good := s.pe.good,
    bad := s.pe.bad, duplicates := s.pe.duplicates, refused := s.pe.refused, stray := s.pe.stray }
  du := t.du
  ksu := { t.ksu with pads := s.ksu.pads, combined := s.ksu.combined, padFaults := s.ksu.padFaults }
  kcu := { t.kcu with
    keymap := s.kcu.keymap, roles := s.kcu.roles, typeahead := s.kcu.typeahead, lock := s.kcu.lock, state := s.kcu.state,
    line := s.kcu.line, cursor := s.kcu.cursor, value := s.kcu.value, hasValue := s.kcu.hasValue, image := s.kcu.image,
    formSlot := s.kcu.formSlot, count := s.kcu.count, staging := s.kcu.staging, flushOwed := s.kcu.flushOwed,
    closing := s.kcu.closing, claim := s.kcu.claim, serviceLine := s.kcu.serviceLine, alert := s.kcu.alert,
    refusals := s.kcu.refusals, overflows := s.kcu.overflows }
  spu := { t.spu with
    serialNext := s.spu.serialNext, episode := s.spu.episode, securing := s.spu.securing, stray := s.spu.stray }
  pqu := { t.pqu with dropped := s.pqu.dropped }
  hdu := t.hdu
  pm := { s.pm with power := t.pm.power } }

theorem settle_eq (s : State) : settle s = s.taking (settled s) := by
  unfold settle State.taking
  dsimp only
  split <;> rfl

theorem taking_self (s : State) : s.taking s = s := by
  unfold State.taking
  rw [ite_self, ite_self]

theorem settled_turns {s : State} (h : s.pm.stage ≠ .burst) : settled s = settleTurn s := if_neg h

theorem settled_waits {s : State} (h : s.pm.stage = .burst) (current : s.jmc.current ≠ none) :
    settled s = withdrawAll (settleTurn s) := (if_pos h).trans (if_neg current)

theorem settled_stays {s : State} (h : s.pm.stage = .burst) (current : s.jmc.current = none) : settled s = s :=
  (if_pos h).trans (if_pos current)

/-! ## The doze idle timer (R182) -/

/-- `s` with the doze idle timer and the mark that it follows the conditions. -/
def State.dozing (s : State) (timer : Option Nat) (held : Bool) : State :=
  { s with pm := { s.pm with dozeTimer := timer, dozeHeld := held } }

theorem dozeConditions_dozing (s : State) (timer : Option Nat) (held : Bool) :
    dozeConditions (s.dozing timer held) = dozeConditions s := rfl

theorem pmTrack_dozing (s : State) : ∃ timer held, pmTrack s = s.dozing timer held ∧
    (dozeConditions s = false → timer = none ∧ held = false) ∧
    (dozeConditions s = true → held = true ∧
      timer = if s.pm.dozeHeld = true then s.pm.dozeTimer else if s.work.dozeIdle = 0 then none else some s.work.dozeIdle) := by
  unfold pmTrack
  cases dozeConditions s with
  | false => exact ⟨none, false, rfl, fun _ => ⟨rfl, rfl⟩, nofun⟩
  | true =>
    cases held : s.pm.dozeHeld with
    | true =>
      refine ⟨s.pm.dozeTimer, true, ?_, nofun, fun _ => ⟨rfl, rfl⟩⟩
      exact congrArg (s.dozing s.pm.dozeTimer) held
    | false => exact ⟨_, true, rfl, nofun, fun _ => ⟨rfl, rfl⟩⟩

theorem finish_steady {s : State} (h : s.steady) : ∃ timer held, finish s = (settle s).dozing timer held ∧
    (dozeConditions (finish s) = false → timer = none ∧ held = false) ∧
    (dozeConditions (finish s) = true → held = true ∧
      timer = if s.pm.dozeHeld = true then s.pm.dozeTimer else if s.work.dozeIdle = 0 then none else some s.work.dozeIdle) := by
  obtain ⟨timer, held, e, off, on⟩ := pmTrack_dozing (settle s)
  rw [finish_of_steady h, e, dozeConditions_dozing]
  exact ⟨timer, held, rfl, off, on⟩

/-! ## From stage to stage (R181, R187) -/

theorem pmAdvance_stays {s : State} (h : pmStage s = none) (n : Nat) : pmAdvance (n + 1) s = s := by
  unfold pmAdvance
  rw [h]

theorem pmAdvance_goes {s t : State} (h : pmStage s = some t) (n : Nat) : pmAdvance (n + 1) s = pmAdvance n t := by
  conv => lhs; unfold pmAdvance
  rw [h]

/-- `s` at another stage. -/
def State.atStage (s : State) (st : Stage) : State := { s with pm := { s.pm with stage := st } }

/-- The Spool Unit has work under way. -/
theorem idle_iff (p : Spu) : p.idle = true ↔ p.due = [] ∧ p.cur = none := by
  unfold Spu.idle
  rw [Bool.and_eq_true, List.isEmpty_iff, Option.isNone_iff_eq_none]

section
variable {s : State}

theorem pmStage_report (h : s.pm.stage = .report) : pmStage s =
    if s.pe.reports = [] ∨ !s.clu.line.inSession then some (settle (endLine .restart (s.atStage .line))) else none := by
  unfold pmStage
  rw [h]
  rfl

theorem pmStage_line (h : s.pm.stage = .line) : pmStage s =
    if s.clu.line = .off then some (settle (secureJournal (s.atStage .secure))) else none := by
  unfold pmStage
  rw [h]
  rfl

theorem pmStage_secure (h : s.pm.stage = .secure) : pmStage s =
    if s.spu.due = [] ∧ s.spu.cur = none then some (withdrawAll (abandonDirectives (s.atStage .burst))) else none := by
  unfold pmStage
  rw [h]
  simp only [idle_iff]
  rfl

theorem pmStage_burst (h : s.pm.stage = .burst) : pmStage s =
    if s.jmc.current = none then some (settle (startUp s)) else none := by
  unfold pmStage
  rw [h]

theorem pmStage_shutdown (h : s.pm.stage = .shutdown) : pmStage s =
    if (s.spu.due = [] ∧ s.spu.cur = none) ∧ s.pm.writing = none then some (releaseLatch s) else none := by
  unfold pmStage
  rw [h]
  simp only [idle_iff]

end

/-! ## The line ended for a restart (R35) -/

theorem endLine_off {s : State} (cause : ClearCause) (h : s.clu.line = .off) : endLine cause s = s := by
  unfold endLine
  rw [h]

theorem endLine_unsent {s : State} (cause : ClearCause) (h : s.clu.line = .listen ∨ s.clu.line = .detect) : endLine cause s =
    { s.onLine { s.clu.still with line := .off, txChar := none } with pe := { s.pe with tx := none, control := [] } } := by
  have off : s.clu.line.txOn = false := by rcases h with h | h <;> rw [h] <;> rfl
  refine Eq.trans ?_ (enterOff_same off)
  unfold endLine
  rcases h with h | h <;> rw [h]

theorem endLine_sending {s : State} (cause : ClearCause) (h : s.clu.line = .settle ∨ s.clu.line = .clearing) : endLine cause s =
    { (s.onLine { s.clu.still with line := .off, txChar := none }).limited false with
      pe := { s.pe with tx := none, control := [] } } := by
  have on : s.clu.line.txOn = true := by rcases h with h | h <;> rw [h] <;> rfl
  refine Eq.trans ?_ (enterOff_turns on)
  unfold endLine
  rcases h with h | h <;> rw [h]

theorem inSession_cases (l : LineState) : l.inSession = true ↔ l = .ready ∨ l = .fade := by
  cases l <;> decide

theorem endLine_inSession {s : State} (cause : ClearCause) (h : s.clu.line = .ready ∨ s.clu.line = .fade) :
    endLine cause s = enterClearing cause s := by
  unfold endLine
  rcases h with h | h <;> rw [h]

theorem pm_enterClearing (cause : ClearCause) (s : State) : (enterClearing cause s).pm = { s.pm with dozeHeld := false } := by
  unfold enterClearing
  dsimp only
  rw [sessionEnd_eq, lineTo_eq]
  rfl

/-- A restart with the line up: CLEARING is entered and the session ended. -/
theorem endLine_clears {s : State} (h : s.clu.line = .ready ∨ s.clu.line = .fade) (st : Stage) :
    let e := endLine .restart (s.atStage st)
    SessionEnded (.clear .restart) [.clear] s e ∧ e.pm = { s.pm with stage := st, dozeHeld := false } ∧ e.hdu = s.hdu ∧
      e.clu = { s.clu.still with
        line := .clearing, clearingTimer := true, clearingCause := some .restart, lastEnd := .clear .restart } := by
  intro e
  have clears : e = enterClearing .restart (s.atStage st) := endLine_inSession .restart (s := s.atStage st) h
  have sends : (s.atStage st).clu.line.txOn = true := by
    show s.clu.line.txOn = true
    rcases h with h | h <;> rw [h] <;> rfl
  obtain ⟨clu, ended⟩ := enterClearing_ended .restart (s.atStage st)
  rw [clears]
  exact ⟨ended.of_same rfl rfl (fun _ => rfl) rfl rfl rfl rfl rfl rfl rfl, pm_enterClearing .restart (s.atStage st),
    hdu_enterClearing sends, clu⟩

/-! ## The journal secured (R122) -/

theorem secureJournal_again {s : State} (h : s.spu.securing = true) : secureJournal s = s := if_pos h

theorem secureJournal_empty {s : State} (h : s.spu.securing = false) (empty : s.kcu.staging = []) :
    secureJournal s = s.setSpu { s.spu with securing := true } := (if_neg (by simp [h])).trans (if_pos empty)

/-- While the journal is secured no claim is taken. -/
theorem securing_takes_nothing {s : State} (h : s.spu.securing = true) : exec .flushTake s = .next s ∧ exec .entryClose s = .next s ∧
    ∀ n, onAccept n s = s ∧ lastAck n s = s ∧ ∀ k r, onReject n k r s = s :=
  ⟨if_neg (by simp [flushReady, h]), if_neg (by simp [closeReady, h]), fun _ => ⟨if_pos h, if_pos h, fun _ _ => if_pos h⟩⟩

/-- Settles O6, a stage at a time. -/
theorem commonEndKeeps : Obligations.CommonEndKeeps := by
  refine ⟨fun s => ?_, fun s steady => finish_steady steady, fun s n => ⟨?_, rfl, fun waits => pmAdvance_stays waits n,
    fun t goes => pmAdvance_goes goes n⟩, fun s => ?_⟩
  · intro t taking
    refine ⟨fun h => ?_, fun h current => ?_, fun h current => ?_⟩
    · rw [settle_eq, settled_turns h]
      rfl
    · rw [settle_eq, settled_waits h current]
      rfl
    · rw [settle_eq, settled_stays h current, taking_self]
  · obtain ⟨timer, held, e, -, -⟩ := pmTrack_dozing (pmAdvance 8 (settle s))
    exact ⟨timer, held, e⟩
  · intro at'
    refine ⟨pmStage_of_steady, fun h => ?_, fun h => ?_, fun h => ?_, fun h => ?_, fun h => ?_, securing_takes_nothing⟩
    · intro off
      have down : ∀ {l : LineState}, s.clu.line = l → l.inSession = false → pmStage s =
          some (settle (endLine .restart (s.atStage .line))) := by
        rintro l rfl down
        exact (pmStage_report h).trans (if_pos (.inr (by simp [down])))
      refine ⟨fun l => ?_, fun l => ?_, fun l => ?_, fun l => ⟨fun told => ?_, fun told => ?_⟩⟩
      · rw [down l rfl, endLine_off (s := s.atStage .line) .restart l]
        rfl
      · rw [l.elim (down · rfl) (down · rfl), endLine_unsent (s := s.atStage .line) .restart l]
        rfl
      · rw [l.elim (down · rfl) (down · rfl), endLine_sending (s := s.atStage .line) .restart l]
        rfl
      · have up := (inSession_cases s.clu.line).mpr l
        exact (pmStage_report h).trans (if_neg (by simp [told, up]))
      · exact ⟨_, (pmStage_report h).trans (if_pos (.inl told)), endLine_clears l .line⟩
    · intro u
      have secures : s.clu.line = .off → pmStage s = some (settle (secureJournal (s.atStage .secure))) := fun l =>
        (pmStage_line h).trans (if_pos l)
      refine ⟨fun l => (pmStage_line h).trans (if_neg l), fun l again => ?_, fun l first => ⟨fun empty => ?_,
        fun staged fits open' => ?_, fun staged lost => ?_⟩⟩
      · rw [secures l, secureJournal_again (s := s.atStage .secure) again]
        rfl
      · rw [secures l, secureJournal_empty (s := s.atStage .secure) first empty]
        rfl
      · rw [secures l, secureJournal_taken (s := s.atStage .secure) first staged fits open']
        rfl
      · rw [secures l, secureJournal_lost (s := s.atStage .secure) first staged lost]
        rfl
    · rw [pmStage_secure h]
      refine ⟨fun busy => if_neg ?_, fun due cur => if_pos ⟨due, cur⟩⟩
      rintro ⟨due, cur⟩
      exact busy.elim (· due) (· cur)
    · rw [pmStage_burst h]
      refine ⟨fun busy => if_neg busy, fun ended well => ⟨_, if_pos ended, startUp_started well⟩, fun ended flat => ?_⟩
      obtain ⟨lost, drawn⟩ := releaseLatch_lost s
      exact ⟨_, _, (if_pos ended).trans (by rw [startUp_exhausted flat]), lost, drawn⟩
    · rw [pmStage_shutdown h]
      refine ⟨fun busy => if_neg ?_, fun due cur writes => ⟨_, _, if_pos ⟨⟨due, cur⟩, writes⟩, releaseLatch_lost s⟩⟩
      rintro ⟨⟨due, cur⟩, writes⟩
      exact busy.elim (· due) fun busy => busy.elim (· cur) (· writes)

end Sys2Proof.Machine
end

