-- ==== Sys2Proof/Proofs/CouplerLine.lean ====
section
/-! SUPPORT. The coupler line: what a turn of the carrier indication does in each line state, the line's timers, and the ways into
and out of a session (R21–R34, R51, R56). -/

namespace Sys2Proof.Machine

/-! ## A turn of the carrier indication (R21, R27, R28, R31) -/

section
variable {s : State}

theorem carrierPresent_listen (h : s.clu.line = .listen) : carrierPresent s =
    s.onLine { s.clu with carrier := true, line := .detect, confirming := true, gap := false } := by
  unfold carrierPresent
  simp only [h]
  exact lineTo_same (by rw [h]; rfl)

theorem carrierPresent_detect (h : s.clu.line = .detect) : carrierPresent s =
    s.setClu { s.clu with carrier := true, gap := false } := by
  unfold carrierPresent
  simp only [h]

theorem carrierPresent_up (h : s.clu.line = .settle ∨ s.clu.line = .ready) : carrierPresent s =
    s.setClu { s.clu with carrier := true, lossGap := false } := by
  unfold carrierPresent
  rcases h with h | h <;> simp only [h]

theorem carrierPresent_fade (h : s.clu.line = .fade) : carrierPresent s =
    s.setClu { s.clu with carrier := true, regain := true } := by
  unfold carrierPresent
  simp only [h]

theorem carrierPresent_untimed (h : s.clu.line = .off ∨ s.clu.line = .clearing) : carrierPresent s =
    s.setClu { s.clu with carrier := true } := by
  unfold carrierPresent
  rcases h with h | h <;> simp only [h]

theorem carrierAbsent_detect (h : s.clu.line = .detect) : carrierAbsent s =
    s.setClu { s.clu with carrier := false, gap := true } := by
  unfold carrierAbsent
  simp only [h]

theorem carrierAbsent_up (h : s.clu.line = .settle ∨ s.clu.line = .ready) : carrierAbsent s =
    s.setClu { s.clu with carrier := false, lossGap := true } := by
  unfold carrierAbsent
  rcases h with h | h <;> simp only [h]

theorem carrierAbsent_fade (h : s.clu.line = .fade) : carrierAbsent s =
    s.setClu { s.clu with carrier := false, regain := false } := by
  unfold carrierAbsent
  simp only [h]

theorem carrierAbsent_untimed (h : s.clu.line = .listen ∨ s.clu.line = .off ∨ s.clu.line = .clearing) : carrierAbsent s =
    s.setClu { s.clu with carrier := false } := by
  unfold carrierAbsent
  rcases h with h | h | h <;> simp only [h]

/-- The free energy above the threshold lies above it, the one below at it or below (log entry 42). -/
theorem turnedEnergy_sides (s : State) :
    30 * s.work.carrier < turnedEnergy true s ∧ turnedEnergy false s ≤ 30 * s.work.carrier := by
  unfold turnedEnergy
  refine ⟨?_, Nat.min_le_left ..⟩
  simp only [if_true]
  omega

theorem exec_carrierPresent {e : State} (awake : s.pm.power.awake = true) (effect : carrierPresent (energyTurned true s) = e) :
    exec .carrierPresent s = .next (finish e) :=
  guarded_eq (by simp [awake_on awake]) ((if_pos awake).trans effect)

theorem exec_carrierAbsent {e : State} (awake : s.pm.power.awake = true) (effect : carrierAbsent (energyTurned false s) = e) :
    exec .carrierAbsent s = .next (finish e) :=
  guarded_eq (by simp [awake_on awake]) ((if_pos awake).trans effect)

/-- In DOZE the detector is stopped: only the energy changes (R37). -/
theorem exec_carrier_doze (doze : s.pm.power = .doze) :
    exec .carrierPresent s = .next (finish (energyTurned true s)) ∧
    exec .carrierAbsent s = .next (finish (energyTurned false s)) := by
  have on : (s.pm.power != .off) = true := by simp [doze]
  have asleep : ¬ s.pm.power.awake = true := by simp [doze, Power.awake]
  exact ⟨guarded_eq on (if_neg asleep), guarded_eq on (if_neg asleep)⟩

end

/-- Settles O11, a turn of the indication and a timer's expiry at a time. -/
theorem carrierDetection : Obligations.CarrierDetection := by
  intro s
  refine ⟨turnedEnergy true s, turnedEnergy false s, (turnedEnergy_sides s).1, (turnedEnergy_sides s).2, exec_carrier_doze,
    fun awake => ⟨fun h => ?_, fun h => ?_, fun h => ?_, fun h => ?_, fun h => ?_, fun h gap => ?_, fun h confirming => ?_,
      fun h timer => ?_⟩⟩
  · exact exec_carrierPresent awake (carrierPresent_listen (s := energyTurned true s) h)
  · exact exec_carrierPresent awake (carrierPresent_detect (s := energyTurned true s) h)
  · exact exec_carrierPresent awake (carrierPresent_untimed (s := energyTurned true s) h)
  · exact exec_carrierAbsent awake (carrierAbsent_detect (s := energyTurned false s) h)
  · exact exec_carrierAbsent awake (carrierAbsent_untimed (s := energyTurned false s) h)
  · exact guarded_eq (by simp [awake, h, gap]) (lineTo_same (by rw [h]; rfl))
  · exact guarded_eq (by simp [awake, h, confirming]) (lineTo_turns (by rw [h]; simp [LineState.txOn]))
  · have off : s.clu.line.txOn = false := by rcases h with h | h <;> rw [h] <;> rfl
    refine guarded_eq (by simp [awake, h, timer]) ?_
    rw [enterOff_same off]
    rfl

/-- Settles O13, as the turns of the indication and the two ways between READY and FADE. -/
theorem fadeAndRegain : Obligations.FadeAndRegain := by
  intro s awake
  refine ⟨turnedEnergy true s, turnedEnergy false s, (turnedEnergy_sides s).1, (turnedEnergy_sides s).2,
    fun up => ⟨?_, ?_⟩, fun ready gap => ?_, fun fade => ⟨?_, ?_⟩, fun fade regain => ?_⟩
  · exact exec_carrierAbsent awake (carrierAbsent_up (s := energyTurned false s) up)
  · exact exec_carrierPresent awake (carrierPresent_up (s := energyTurned true s) up)
  · refine guarded_eq (by simp [awake, ready, gap]) ?_
    unfold carrierLost
    rw [if_neg (by simp [ready]), lineTo_same (by rw [ready]; rfl)]
    rfl
  · exact exec_carrierPresent awake (carrierPresent_fade (s := energyTurned true s) fade)
  · exact exec_carrierAbsent awake (carrierAbsent_fade (s := energyTurned false s) fade)
  · exact guarded_eq (by simp [awake, fade, regain]) (lineTo_same (by rw [fade]; rfl))

/-! ## The flow test (R56) -/

section
variable {s : State}

theorem flowTest_holds (session : s.clu.line.inSession = true) (low : s.pqu.ring.free s.inboundSize < s.work.holdMark)
    (opened : s.pe.held = false) (none' : Control.hold ∉ s.pe.control) : flowTest s = s.setPe (s.pe.queue .hold) := by
  refine (if_pos session).trans (if_pos ⟨low, ?_⟩)
  simp [opened, none']

theorem flowTest_resumes (session : s.clu.line.inSession = true) (high : s.work.resumeMark < s.pqu.ring.free s.inboundSize)
    (held : s.pe.held = true) (none' : Control.resume ∉ s.pe.control) : flowTest s = s.setPe (s.pe.queue .resume) := by
  refine (if_pos session).trans ((if_neg ?_).trans (if_pos ⟨high, ?_⟩))
  · simp [held]
  · simp [held, none']

theorem flowTest_stays
    (holds : ¬ (s.pqu.ring.free s.inboundSize < s.work.holdMark ∧ s.pe.held = false ∧ Control.hold ∉ s.pe.control))
    (resumes : ¬ (s.work.resumeMark < s.pqu.ring.free s.inboundSize ∧ s.pe.held = true ∧ Control.resume ∉ s.pe.control)) :
    flowTest s = s := by
  by_cases session : s.clu.line.inSession = true
  · refine (if_pos session).trans ((if_neg fun h => holds ?_).trans (if_neg fun h => resumes ?_))
    · simpa [State.inboundSize] using h
    · simpa [State.inboundSize] using h
  · exact if_neg session

/-- What the flow test makes of the control queue depends on no more than this. -/
theorem flowTest_control_congr {t : State} (line : t.clu.line = s.clu.line) (ring : t.pqu.ring = s.pqu.ring)
    (work : t.work = s.work) (held : t.pe.held = s.pe.held) (control : t.pe.control = s.pe.control) :
    (flowTest t).pe.control = (flowTest s).pe.control := by
  unfold flowTest
  simp only [line, ring, work, held, control]
  split
  · split
    · exact Pe.queue_congr .hold control
    · split
      · exact Pe.queue_congr .resume control
      · exact control
  · exact control

/-! ## SETTLE's two ends (R28, R29, R60, R110) -/

/-- `s` with the line in READY and the session's first values, before the flow test and the send run. -/
def State.sessionOpened (s : State) : State := { s.onLine { s.clu.still with
    line := .ready, lastEnd := .none, lossGap := s.clu.lossGap } with
  pqu := s.pqu.raise (ascii "LINE UP"), kcu := s.alerted.kcu
  pe := { s.pe with nextSeq := 0, expected := 0, asm := huntingAsm, nakRecord := none, nakTimer := none, reminderTimer := none } }

theorem sessionStart_eq (settle : s.clu.line = .settle) : sessionStart s = { s.sessionOpened with
    pe := { s.sessionOpened.pe with control := (flowTest s.sessionOpened).pe.control }
    spu := { s.spu with active := s.spu.active || s.work.autoSend && !s.spu.securing } } := by
  have stays : ({ s.clu.still with line := .ready, lastEnd := .none, lossGap := s.clu.lossGap } : Clu).line.txOn =
      s.clu.line.txOn := by rw [settle]; rfl
  unfold sessionStart
  simp only [lineTo_same stays, alert_eq]
  rw [show State.setPe _ _ = s.sessionOpened from rfl, flowTest_eq]
  generalize (flowTest s.sessionOpened).pe.control = control
  show (if (s.work.autoSend && !s.spu.securing) = true then _ else _) = _
  cases s.work.autoSend && !s.spu.securing with
  | true => simp [startRun, State.setSpu, State.setPe, State.sessionOpened, State.onLine]
  | false => simp [State.setPe, State.sessionOpened, State.onLine]

theorem flowTest_sessionOpened (s : State) : (flowTest s.sessionOpened).pe.control =
    (flowTest { s with clu := s.sessionOpened.clu }).pe.control :=
  flowTest_control_congr rfl (raise_keeps ..).2.1 rfl rfl rfl

end

/-- Settles O12: the flow test by its three cases; a session's start as `sessionStart_eq` gives it. -/
theorem settleEnds : Obligations.SettleEnds := by
  refine ⟨fun s => ?_, fun s awake settle => ⟨fun gap => ?_, fun timer => ?_⟩⟩
  · intro free session holds resumes
    have session_iff : s.clu.line.inSession = true ↔ session := inSession_cases s.clu.line
    refine ⟨fun up ⟨low, opened, none'⟩ => flowTest_holds (session_iff.mpr up) low opened none',
      fun up ⟨high, held, none'⟩ => flowTest_resumes (session_iff.mpr up) high held none', ?_⟩
    rintro (down | ⟨noHold, noResume⟩)
    · exact if_neg (mt session_iff.mp down)
    · exact flowTest_stays noHold noResume
  · refine guarded_eq (by simp [awake, settle, gap]) ?_
    unfold carrierLost
    rw [if_pos settle]
    exact lineTo_turns (by rw [settle]; simp [LineState.txOn])
  · refine ⟨_, guarded_eq (by simp [awake, settle, timer]) (sessionStart_eq settle), rfl, rfl, rfl, ?_, fun opened none' => ?_,
      rfl, rfl, rfl, rfl, rfl, rfl, rfl⟩
    · rw [flowTest_sessionOpened]
      rfl
    · show (flowTest s.sessionOpened).pe.control = _
      rw [flowTest_sessionOpened, flowTest_open (s := { s with clu := s.sessionOpened.clu }) rfl opened none']
      split
      · rename_i low
        exact (if_pos low).symm
      · rename_i high
        exact none'.trans (if_neg high).symm

/-! ## Sessions ended, and the LINE action (R25, R31–R34) -/

/-- The fade timer's expiry: OFF and the session ended, the group limit that of a transmitter off (R31, R33). -/
theorem fadeOut_ended {s : State} (fade : s.clu.line = .fade) :
    (fadeOut s).clu = { s.clu.still with line := .off, txChar := none, lastEnd := .carrierLost } ∧
    SessionEnded .carrierLost [] s (fadeOut s) ∧ (fadeOut s).hdu = (s.limited false).hdu := by
  have on : s.clu.line.txOn = true := by rw [fade]; rfl
  unfold fadeOut
  rw [enterOff_turns on]
  refine ⟨?_, (sessionEnd_ended _ _).of_same rfl rfl (fun _ => rfl) rfl rfl rfl rfl rfl rfl rfl, ?_⟩
  · rw [sessionEnd_eq]
    rfl
  · rw [sessionEnd_eq]
    rfl

/-- Settles O14, from what CLEARING entered and a fade's end leave. -/
theorem sessionEnds : Obligations.SessionEnds := by
  refine fun s awake => ⟨fun ready => ?_, fun fade timer => ?_, fun clearing timer => ?_⟩
  · let u : State := { s with pe := { s.pe with good := bump s.pe.good } }
    have good : takeParcel ⟨.clear, 0, 0, 0, false, []⟩ s = enterClearing .cleared u :=
      (takeParcel_good (by rfl) s).trans (if_pos ready)
    obtain ⟨clu, ended⟩ := enterClearing_ended .cleared u
    exact ⟨_, guarded_eq (by simp [State.receiving, awake, ready]) good, clu, ended,
      hdu_enterClearing (s := u) (by show s.clu.line.txOn = true; rw [ready]; rfl)⟩
  · exact ⟨_, guarded_eq (by simp [awake, fade, timer]) rfl, fadeOut_ended fade⟩
  · exact guarded_eq (by simp [awake, clearing, timer]) (enterOff_turns (by rw [clearing]; rfl))

section
variable {s : State}

theorem lineAction_off (h : s.clu.line = .off) : lineAction s = enterListen (dozeAfresh s) := by
  unfold lineAction
  simp only [show (dozeAfresh s).clu.line = .off from h]

theorem lineAction_opening (h : s.clu.line = .listen ∨ s.clu.line = .detect ∨ s.clu.line = .settle) :
    lineAction s = enterOff (dozeAfresh s) := by
  unfold lineAction
  rcases h with h | h | h <;> simp only [show (dozeAfresh s).clu.line = _ from h]

theorem lineAction_inSession (h : s.clu.line = .ready ∨ s.clu.line = .fade) :
    lineAction s = enterClearing .user (dozeAfresh s) := by
  unfold lineAction
  rcases h with h | h <;> simp only [show (dozeAfresh s).clu.line = _ from h]

theorem lineAction_clearing (h : s.clu.line = .clearing) : lineAction s = dozeAfresh s := by
  unfold lineAction
  simp only [show (dozeAfresh s).clu.line = .clearing from h]

end

/-- Settles O16: each state's own way, the doze idle timer's fresh start first. -/
theorem lineAction_byState : Obligations.LineAction := by
  refine fun s => ⟨fun off => ?_, fun unsent => ?_, fun settle => ?_, fun up => ?_, lineAction_clearing⟩
  · rw [lineAction_off off]
    exact lineTo_same (s := dozeAfresh s) (by show _ = s.clu.line.txOn; rw [off]; rfl)
  · rw [lineAction_opening (unsent.imp_right .inl)]
    exact enterOff_same (s := dozeAfresh s) (by show s.clu.line.txOn = false; rcases unsent with h | h <;> rw [h] <;> rfl)
  · rw [lineAction_opening (.inr (.inr settle))]
    exact enterOff_turns (s := dozeAfresh s) (by show s.clu.line.txOn = true; rw [settle]; rfl)
  · obtain ⟨clu, ended⟩ := enterClearing_ended .user (dozeAfresh s)
    rw [lineAction_inSession up]
    exact ⟨clu, ended.of_same rfl rfl (fun _ => rfl) rfl rfl rfl rfl rfl rfl rfl⟩

/-! ## The ACK timer (R51) -/

section
variable {s : State} {i : SlotId} {p : SlotParcel} {q : BitVec 3} {n : Nat} {due tx : Bool}

theorem ackExpired_of (oldest : s.pe.oldest = some i) (slot : s.pe.slot i = .outstanding p q n due tx) : ackExpired s =
    if n < s.work.attemptLimit then s.setPe { s.pe.resendAll with ackTimer := none }
    else enterClearing .linkFailure (s.setPe { s.pe with ackTimer := none }) := by
  have names : (({ s.pe with ackTimer := none } : Pe).oldest.map ({ s.pe with ackTimer := none } : Pe).slot) =
      some (.outstanding p q n due tx) := by
    show s.pe.oldest.map s.pe.slot = _
    rw [oldest, ← slot]
    rfl
  unfold ackExpired
  simp only [State.setPe_pe, names]
  rfl

end

/-- Settles O25: the oldest parcel's attempts decide between a resend and the link's failure. -/
theorem ackTimerExpires : Obligations.AckTimerExpires := by
  intro s i p q n due tx receiving timer oldest slot
  refine ⟨fun hold => ?_, fun free below => ?_, fun free limit => ?_⟩
  · exact guarded_not (by simp [hold]) _ s
  · exact guarded_eq (by simp [receiving, free, timer]) ((ackExpired_of oldest slot).trans (if_pos below))
  · obtain ⟨clu, ended⟩ := enterClearing_ended .linkFailure (s.setPe { s.pe with ackTimer := none })
    exact ⟨_, guarded_eq (by simp [receiving, free, timer]) ((ackExpired_of oldest slot).trans (if_neg (by omega))), clu,
      ended.of_same rfl rfl (fun _ => rfl) rfl rfl rfl rfl rfl rfl rfl⟩

end Sys2Proof.Machine
end

