-- ==== Sys2Proof/Proofs/Doze.lean ====
section
/-! SUPPORT. DOZE: its conditions and its entry, the combined pad that is read in GANGED scan, and the two wakes, by a touch and
for a listed line (R37, R73, R74, R182, R183). -/

namespace Sys2Proof.Machine

/-! ## Waking (R37, R183) -/

/-- The head as a wake leaves it: the sensors taken with no wait, the thermistor sampled, the band reported. -/
def Hdu.woken (h : Hdu) (pins : Pins) (band : BatteryBand) (txOn : Bool) : Hdu := { h with
  paper := pins.paperAbsent, lid := pins.lidOpen, paperTiming := false, lidTiming := false
  reading := pins.thermistor, band := tempBand pins.thermistor
  hot := if h.hot = true then !decide (pins.thermistor ≤ 50) else decide (60 ≤ pins.thermistor)
  limit := groupLimit band txOn, power := band.weak }

/-- `s` woken, but for the frame. -/
def State.woken (s : State) : State := { s with
  pm := { s.pm with power := .run }, hdu := s.hdu.woken s.pins s.pm.band s.clu.line.txOn
  clu := { s.clu with receiver := .hunting, carrier := decide (30 * s.work.carrier < s.pins.energy) } }

theorem wake_eq (s : State) : wake s = sendFrame s.woken := by
  unfold wake readSensors
  rw [sample_eq]
  rfl

/-- A frame sent changes the Key Code Unit alone. -/
theorem sendFrame_keeps (s : State) : (sendFrame s).pm = s.pm ∧ (sendFrame s).ksu = s.ksu ∧ (sendFrame s).hdu = s.hdu ∧
    (sendFrame s).clu = s.clu := by
  rw [sendFrame_eq]
  exact ⟨rfl, rfl, rfl, rfl⟩

section
variable {s : State}

theorem wakeForLine_wakes (doze : s.pm.power = .doze) (listed : s.pqu.list ≠ []) :
    wakeForLine s = (sendFrame s.woken).setKsu s.ksu.calibrate := by
  unfold wakeForLine
  rw [if_pos ⟨doze, listed⟩, wake_eq]
  dsimp only
  rw [(sendFrame_keeps s.woken).2.1]
  rfl

theorem wakeForLine_stays (h : s.pm.power ≠ .doze ∨ s.pqu.list = []) : wakeForLine s = s :=
  if_neg fun ⟨doze, listed⟩ => h.elim (· doze) listed

/-! ## The doze conditions (R182) -/

theorem dozeConditions_iff (s : State) : dozeConditions s = true ↔ s.pm.power = .run ∧ s.pm.restarting = false ∧
    s.clu.line = .off ∧ s.pqu.list = [] ∧ s.kcu.typeahead = [] ∧
    (s.kcu.state = .idle ∨ s.kcu.state = .free ∨ s.kcu.state = .form ∨ s.kcu.state = .service) ∧
    s.kcu.closing = false ∧ s.kcu.staging = [] ∧ s.kcu.flush = .none ∧ s.kcu.echo = none ∧ s.kcu.claim = none ∧
    s.spu.due = [] ∧ s.spu.cur = none ∧ s.hdu.head = .idle ∧ s.du.line.state ≠ .executing ∧ s.du.keyed.job = none ∧
    s.pm.writing = none := by
  have composing : s.kcu.state ≠ .formSelect ↔
      s.kcu.state = .idle ∨ s.kcu.state = .free ∨ s.kcu.state = .form ∨ s.kcu.state = .service := by
    cases s.kcu.state <;> simp
  unfold dozeConditions
  simp only [Bool.and_eq_true, beq_iff_eq, bne_iff_ne, Bool.not_eq_true', idle_iff, composing, and_assoc]

/-! ## DOZE entered (R73, R100, R101, R182) -/

/-- Releases of pads change the roles alone. -/
theorem releases_eq (l : List Nat) : ∀ s : State, l.foldl (fun s p => releaseEvent p s) s =
    s.setKcu { s.kcu with roles := l.foldl (fun r p => r.set (p - 1) .free) s.kcu.roles } := by
  induction l with
  | nil => intro s; rfl
  | cons p l ih => intro s; rw [List.foldl_cons, ih]; rfl

/-- The pads that DOZE is entered with: those before a calibration that it cuts off. -/
def Ksu.resting (k : Ksu) : List Pad := if k.calibrating then k.before else k.pads

/-- A pad in GANGED scan: UP, or in FAULT as it was. -/
def Pad.ganged (p : Pad) : Pad := { p.still with state := if p.state = .fault then .fault else .up }

theorem ganged_state (p : Pad) : p.ganged.state = .up ∨ p.ganged.state = .fault := by
  unfold Pad.ganged
  by_cases fault : p.state = .fault
  · exact .inr (if_pos fault)
  · exact .inl (if_neg fault)

/-- The Key Sense Unit in DOZE. -/
def Ksu.dozing (k : Ksu) (offsets : List Nat) : Ksu := { k with
  pads := k.resting.map Pad.ganged
  ganged := true, calibrating := false, scan := none, wakeWait := false
  combined := { freshCombined with offset := leastOffset offsets } }

theorem ksuDoze_eq (s : State) : ∃ roles, ksuDoze s =
    { s with ksu := s.ksu.dozing s.work.offsets, kcu := { s.kcu with roles := roles } } := by
  unfold ksuDoze
  dsimp only
  rw [releases_eq]
  exact ⟨_, rfl⟩

/-- `s` in DOZE, with these roles of its pads and the sounder silent, but for the frame. -/
def State.asleep (s : State) (roles : List Role) : State := { s with
  pm := { s.pm with power := .doze, dozeTimer := none, dozeHeld := false }
  ksu := s.ksu.dozing s.work.offsets
  hdu := { s.hdu with paperTiming := false, lidTiming := false }
  kcu := { s.kcu with roles := roles, alert := false } }

theorem enterDoze_eq (s : State) : ∃ roles, enterDoze s = sendFrame (s.asleep roles) := by
  obtain ⟨roles, e⟩ := ksuDoze_eq (s.setPm { s.pm with power := .doze, dozeTimer := none, dozeHeld := false })
  refine ⟨roles, ?_⟩
  unfold enterDoze
  dsimp only at e ⊢
  rw [e]
  rfl

/-- The frame sent as DOZE is entered is blank, unless one was in progress (R100). -/
theorem sendFrame_asleep (quiet : s.kcu.sending = false) (roles : List Role) :
    (sendFrame (s.asleep roles)).kcu.frame = 0x02 :: List.replicate 24 0x20 := by
  unfold sendFrame
  rw [if_neg (by show ¬ s.kcu.sending = true; simp [quiet])]
  exact (if_pos rfl : frameNow (s.asleep roles) = _)

end

/-- Settles O50, from the states in which the part wakes and dozes. -/
theorem dozeEntered : Obligations.DozeEntered := by
  refine ⟨dozeConditions_iff, fun s => ⟨fun doze listed => ?_, wakeForLine_stays⟩, fun s run timer => ?_⟩
  · rw [wakeForLine_wakes doze listed]
    obtain ⟨pm, -, hdu, clu⟩ := sendFrame_keeps s.woken
    refine ⟨pm, rfl, hdu, clu, ?_⟩
    unfold KcuBecame
    rw [sendFrame_eq]
    rfl
  · obtain ⟨roles, e⟩ := enterDoze_eq s
    have blank := fun quiet => sendFrame_asleep (s := s) quiet roles
    refine ⟨_, guarded_eq (by simp [run, timer]) e, ?_⟩
    rw [sendFrame_eq] at blank ⊢
    refine ⟨rfl, rfl, rfl, rfl, rfl, rfl, fun scanning => ?_, fun p at' => ?_, rfl, rfl, blank, rfl, rfl, rfl, rfl, rfl⟩
    · have resting : s.ksu.resting = s.ksu.pads := if_neg (by simp [scanning])
      show (s.ksu.resting.map Pad.ganged).map _ = _
      rw [resting, List.map_map]
      rfl
    · obtain ⟨q, -, rfl⟩ := List.mem_map.mp at'
      exact ganged_state q

/-! ## The combined pad (R73) -/

theorem faultCount_iff (n : Nat) : faultCount n = true ↔ n = 4095 ∨ n < 16 := by
  unfold faultCount
  simp

section
variable {b offset n : Nat}

theorem classify_faulty (faulty : n = 4095 ∨ n < 16) : classify b offset n = .faulty :=
  if_pos ((faultCount_iff n).mpr faulty)

theorem classify_touch (good : ¬ (n = 4095 ∨ n < 16)) (high : b + offset ≤ n) : classify b offset n = .touch :=
  (if_neg (mt (faultCount_iff n).mp good)).trans (if_pos high)

theorem classify_below (good : ¬ (n = 4095 ∨ n < 16)) (low : n < b + offset) :
    classify b offset n = if n < b + offset / 2 then .clear else .neither :=
  (if_neg (mt (faultCount_iff n).mp good)).trans (if_neg (by omega))

end

section
variable {p : Combined} {b n : Nat}

theorem measure_first_faulty (none' : p.baseline = none) (faulty : n = 4095 ∨ n < 16) : p.measure n = (p, .faulty) := by
  unfold Combined.measure
  rw [none']
  exact if_pos ((faultCount_iff n).mpr faulty)

theorem measure_first_good (none' : p.baseline = none) (good : ¬ (n = 4095 ∨ n < 16)) : p.measure n = ({ p with
    good := p.good + 1, sum := p.sum + n, last := n
    baseline := if p.good + 1 < 8 then none else some ((p.sum + n) / 8) }, .neither) := by
  unfold Combined.measure
  rw [none']
  refine (if_neg (mt (faultCount_iff n).mp good)).trans ?_
  dsimp only
  split <;> rfl

theorem measure_faulty (some' : p.baseline = some b) (faulty : n = 4095 ∨ n < 16) :
    p.measure n = ({ p with drift := 0 }, .faulty) := by
  unfold Combined.measure
  simp only [some', classify_faulty faulty]

theorem measure_touch (some' : p.baseline = some b) (good : ¬ (n = 4095 ∨ n < 16)) (high : b + p.offset ≤ n) :
    p.measure n = ({ p with drift := 0, last := n }, .touch) := by
  unfold Combined.measure
  simp only [some', classify_touch good high]

/-- A count below the TOUCH threshold drifts, and every sixteenth in a row moves the baseline. -/
theorem measure_drifts (some' : p.baseline = some b) {k : ReadingClass} (class' : classify b p.offset n = k)
    (below : k = .clear ∨ k = .neither) : p.measure n = ({ p with
      last := n
      drift := if p.drift + 1 < 16 then p.drift + 1 else 0
      baseline := some (if p.drift + 1 < 16 then b else if b < n then b + 1 else if n < b then b - 1 else b) }, k) := by
  unfold Combined.measure
  rcases below with rfl | rfl <;> simp only [some', class'] <;> split <;> rfl

end

/-! ## GANGED scan (R73, R74) -/

section
variable {s : State} {count : BitVec 12}

/-- `s` with the combined pad after a count. -/
def State.measured (s : State) (n : Nat) : State := { s with ksu := { s.ksu with combined := (s.ksu.combined.measure n).1 } }

theorem exec_ganged {e : State} (ganged : s.ksu.ganged = true) (on : s.pm.power ≠ .off)
    (effect : gangedMeasurement count.toNat s = e) : exec (.gangedMeasurement count) s = .next (finish e) :=
  guarded_eq (by simp [ganged, on]) effect

theorem gangedMeasurement_touch {n : Nat} (doze : s.pm.power = .doze) (touch : (s.ksu.combined.measure n).2 = .touch) :
    gangedMeasurement n s =
      sendFrame ((s.measured n).setKsu { (s.measured n).ksu with wakeWait := true }).woken := by
  rw [← wake_eq]
  exact (if_pos doze).trans (if_pos touch)

theorem gangedMeasurement_clear {n : Nat} (awake : s.pm.power ≠ .doze) (wait : s.ksu.wakeWait = true)
    (clear : (s.ksu.combined.measure n).2 = .clear) :
    gangedMeasurement n s = (s.measured n).setKsu (s.measured n).ksu.calibrate :=
  (if_neg awake).trans (if_pos ⟨wait, clear⟩)

/-- Any other count is only taken into the combined pad. -/
theorem gangedMeasurement_only {n : Nat} (h : s.pm.power = .doze ∧ (s.ksu.combined.measure n).2 ≠ .touch ∨
    s.pm.power ≠ .doze ∧ ¬ (s.ksu.wakeWait = true ∧ (s.ksu.combined.measure n).2 = .clear)) :
    gangedMeasurement n s = s.measured n := by
  rcases h with ⟨doze, other⟩ | ⟨awake, other⟩
  · exact (if_pos doze).trans (if_neg other)
  · exact (if_neg awake).trans (if_neg other)

end

/-- Settles O29: the combined pad count by count, then what each class of count does by the power state. -/
theorem gangedScan : Obligations.GangedScan := by
  refine ⟨fun p n => ⟨measure_first_faulty, measure_first_good, fun b some' => ⟨measure_faulty some', measure_touch some',
    fun good low => ?_⟩⟩, fun s count ganged on => ⟨fun doze touch => ?_, fun doze other => ?_, fun awake other => ?_,
    fun awake wait clear => ?_, fun awake wait => ?_⟩⟩
  · refine measure_drifts some' (classify_below good low) ?_
    split
    · exact .inl rfl
    · exact .inr rfl
  · refine ⟨_, exec_ganged ganged on (gangedMeasurement_touch doze touch), ?_⟩
    rw [sendFrame_eq]
    exact ⟨rfl, rfl, rfl, rfl, rfl⟩
  · exact exec_ganged ganged on (gangedMeasurement_only (.inl ⟨doze, other⟩))
  · exact exec_ganged ganged on (gangedMeasurement_only (.inr ⟨awake, other⟩))
  · exact exec_ganged ganged on (gangedMeasurement_clear awake wait clear)
  · have up : s.pm.power.awake = true := by
      cases h : s.pm.power with
      | off => exact absurd h on
      | doze => exact absurd h awake
      | run | shutdown => rfl
    exact guarded_eq (by simp [up, ganged, wait]) rfl

end Sys2Proof.Machine
end

