-- ==== Sys2Proof/Proofs/Battery.lean ====
section
/-! SUPPORT. Battery samples: the candidate, a change of the band, and the shutdown it can begin (R161, R180, R181). -/

namespace Sys2Proof.Machine

/-! ## What a flush leaves alone -/

/-- From `s` to `t` the Power Monitor stands, and whether the journal is being secured. -/
def SecuringKept (s t : State) : Prop := t.pm = s.pm ∧ t.spu.securing = s.spu.securing

theorem SecuringKept.trans {s t u : State} (h : SecuringKept s t) (h' : SecuringKept t u) : SecuringKept s u :=
  ⟨h'.1.trans h.1, h'.2.trans h.2⟩

theorem dueItem_securing (p : Spu) (i : SpuItem) : (p.dueItem i).securing = p.securing := by
  unfold Spu.dueItem
  split <;> rfl

theorem takeFlush_keeps (bytes : Text) (cursor : Option Cursor) (s : State) :
    SecuringKept s (takeFlush bytes cursor s).1 := by
  unfold takeFlush
  split <;> exact ⟨rfl, rfl⟩

theorem flushWritten_keeps (length : Nat) (cursor : Option Cursor) (s : State) :
    SecuringKept s (flushWritten length cursor s) := by
  unfold flushWritten
  split
  · exact ⟨rfl, rfl⟩
  · exact ⟨rfl, dueItem_securing ..⟩

theorem flushDone_keeps (length : Nat) (cursor : Option Cursor) (s : State) :
    SecuringKept s (flushDone length cursor s) := by
  refine (flushWritten_keeps length cursor s).trans ?_
  unfold flushDone
  dsimp only
  split
  · split <;> exact ⟨rfl, rfl⟩
  · exact ⟨rfl, rfl⟩

theorem flushTaken_keeps (cursor : Option Cursor) (s : State) : SecuringKept s (flushTaken cursor s) := by
  refine (takeFlush_keeps s.kcu.staging cursor s).trans ?_
  unfold flushTaken
  dsimp only
  split
  · exact flushDone_keeps ..
  · exact ⟨rfl, rfl⟩

/-- The request to secure the journal leaves the Power Monitor alone, and from it on the journal is being secured. -/
theorem secureJournal_securing (s : State) : (secureJournal s).pm = s.pm ∧ (secureJournal s).spu.securing = true := by
  obtain ⟨again, first⟩ := secureJournal_secured s
  cases securing : s.spu.securing with
  | true => rw [again securing]; exact ⟨rfl, securing⟩
  | false =>
    obtain ⟨empty, taken, lost⟩ := first securing
    by_cases staged : s.kcu.staging = []
    · rw [empty staged]; exact ⟨rfl, rfl⟩
    · by_cases fits : s.kcu.staging.length ≤ s.spu.ring.free s.spoolSize ∧ s.spu.openSlot.isSome = true
      · rw [taken staged fits]; exact flushTaken_keeps ..
      · rw [lost staged fits]; exact ⟨rfl, rfl⟩

/-! ## The line ended, and the shutdown begun (R35, R181) -/

/-- An end of the line leaves the Power Monitor alone but for the doze idle timer's mark. -/
theorem endLine_pm (cause : ClearCause) (s : State) :
    { (endLine cause s).pm with dozeHeld := false } = { s.pm with dozeHeld := false } := by
  cases line : s.clu.line with
  | off => rw [endLine_off cause line]
  | listen => rw [endLine_unsent cause (.inl line)]; rfl
  | detect => rw [endLine_unsent cause (.inr line)]; rfl
  | settle => rw [endLine_sending cause (.inl line)]; rfl
  | clearing => rw [endLine_sending cause (.inr line)]; rfl
  | ready => rw [endLine_inSession cause (.inl line), pm_enterClearing]
  | fade => rw [endLine_inSession cause (.inr line), pm_enterClearing]

/-- `s` in SHUTDOWN. -/
def State.shutting (s : State) : State := { s with pm := { s.pm with power := .shutdown, stage := .shutdown } }

theorem beginShutdown_begun (s : State) : ∃ l e, beginShutdown s = e ∧ e.pm.power = .shutdown ∧ e.pm.stage = .shutdown ∧
    e.pm.band = s.pm.band ∧ e.spu.securing = true ∧ Secured l e ∧ LineEnded s.shutting l := by
  obtain ⟨pm, securing⟩ := secureJournal_securing (endLine .power s.shutting)
  have ended := endLine_pm .power s.shutting
  refine ⟨_, _, rfl, ?_, ?_, ?_, securing, secureJournal_secured _, endLine_ended s.shutting⟩
  · exact (congrArg Pm.power pm).trans (congrArg Pm.power ended)
  · exact (congrArg Pm.stage pm).trans (congrArg Pm.stage ended)
  · exact (congrArg Pm.band pm).trans (congrArg Pm.band ended :)

/-! ## A sample (R180) -/

/-- `s` with another band: the head's limit and POWER cause with it unless the part dozes, and BATTERY LOW on falling to
CRITICAL. -/
def State.banded (b : BatteryBand) (s : State) : State := { s with
  pm := { s.pm with band := b, candidate := none }
  hdu := if s.pm.power = .doze then s.hdu else { s.hdu with limit := groupLimit b s.clu.line.txOn, power := b.weak }
  pqu := if b = .critical ∧ s.pm.band.weak = false then s.pqu.raise (ascii "BATTERY LOW") else s.pqu }

theorem bandChanged_eq (b : BatteryBand) (s : State) : bandChanged b s =
    if b = .exhausted ∧ s.pm.power ≠ .shutdown then beginShutdown (s.banded b) else s.banded b := by
  let p := s.setPm { s.pm with band := b, candidate := none }
  let r := if s.pm.power = .doze then p else reportBand p
  have change : (if b = .critical ∧ !s.pm.band.weak then raise (ascii "BATTERY LOW") r else r) = s.banded b := by
    have reported : r = { p with hdu := if s.pm.power = .doze then s.hdu
        else { s.hdu with limit := groupLimit b s.clu.line.txOn, power := b.weak } } := by
      dsimp only [r]
      split <;> rfl
    unfold State.banded
    rw [reported]
    simp only [Bool.not_eq_true']
    by_cases low : b = .critical ∧ s.pm.band.weak = false
    · simp only [if_pos low]
      rfl
    · simp only [if_neg low]
      rfl
  unfold bandChanged
  exact (congrArg (fun t => if b = .exhausted ∧ t.pm.power ≠ .shutdown then beginShutdown t else t) change)

section
variable {s : State} {n : Nat}

/-- `s` with the battery's voltage as a sample tells it. -/
def State.sampled (s : State) (n : Nat) : State := { s with pins := { s.pins with battery := n } }

theorem exec_battery {e : State} (on : s.pm.power ≠ .off) (effect : batterySampled n s = e) :
    exec (.batterySample n) s = .next (finish e) :=
  guarded_eq (by simp [on]) effect

theorem batterySampled_held (h : batteryBand n = s.pm.band) :
    batterySampled n s = { s.sampled n with pm := { s.pm with candidate := none } } := if_pos h

theorem batterySampled_first (h : batteryBand n ≠ s.pm.band) (first : s.pm.candidate ≠ some (batteryBand n)) :
    batterySampled n s = { s.sampled n with pm := { s.pm with candidate := some (batteryBand n) } } :=
  (if_neg h).trans (if_neg first)

theorem batterySampled_second (h : batteryBand n ≠ s.pm.band) (second : s.pm.candidate = some (batteryBand n)) :
    batterySampled n s = bandChanged (batteryBand n) (s.sampled n) := (if_neg h).trans (if_pos second)

/-- A second sample in another band that begins no shutdown. -/
theorem batterySampled_changes (h : batteryBand n ≠ s.pm.band) (second : s.pm.candidate = some (batteryBand n))
    (goesOn : batteryBand n ≠ .exhausted ∨ s.pm.power = .shutdown) :
    batterySampled n s = (s.sampled n).banded (batteryBand n) := by
  rw [batterySampled_second h second, bandChanged_eq]
  exact if_neg fun ⟨exhausted, up⟩ => goesOn.elim (· exhausted) up

theorem banded_reported (b : BatteryBand) (h : s.pm.power ≠ .doze) : s.banded b = { s with
    pm := { s.pm with band := b, candidate := none }
    hdu := { s.hdu with limit := groupLimit b s.clu.line.txOn, power := b.weak }
    pqu := if b = .critical ∧ s.pm.band.weak = false then s.pqu.raise (ascii "BATTERY LOW") else s.pqu } := by
  unfold State.banded
  rw [if_neg h]

theorem banded_doze (b : BatteryBand) (h : s.pm.power = .doze) : s.banded b = { s with
    pm := { s.pm with band := b, candidate := none }
    pqu := if b = .critical ∧ s.pm.band.weak = false then s.pqu.raise (ascii "BATTERY LOW") else s.pqu } := by
  unfold State.banded
  rw [if_pos h]

theorem banded_exhausted (s : State) : s.banded .exhausted = { s with
    pm := { s.pm with band := .exhausted, candidate := none }
    hdu := if s.pm.power = .doze then s.hdu else { s.hdu with limit := 0, power := true } } := by
  unfold State.banded
  rw [if_neg (fun ⟨critical, _⟩ => nomatch critical)]
  rfl

end

theorem weak_iff (w : BatteryBand) : w.weak = true ↔ w = .critical ∨ w = .exhausted := by cases w <;> decide

/-- Settles O48, sample by sample. -/
theorem batterySamples : Obligations.BatterySamples := by
  intro s n on b u
  refine ⟨fun held => exec_battery on (batterySampled_held held),
    fun other first => exec_battery on (batterySampled_first other first), fun other second alive awake => ?_,
    fun other second alive doze => ?_, fun doze listed => ?_, fun other second exhausted down => ?_, rfl, weak_iff,
    fun other second exhausted up => ?_⟩
  · exact exec_battery on ((batterySampled_changes other second (.inl alive)).trans (banded_reported b (s := u) awake))
  · exact exec_battery on ((batterySampled_changes other second (.inl alive)).trans (banded_doze b (s := u) doze))
  · obtain ⟨pm, -, hdu, -⟩ := sendFrame_keeps s.woken
    rw [wakeForLine_wakes doze listed]
    exact ⟨congrArg Pm.power pm, congrArg Hdu.power hdu, congrArg Hdu.limit hdu⟩
  · have banded : u.banded b = _ := (congrArg (u.banded ·) exhausted).trans (banded_exhausted u)
    refine exec_battery on ((batterySampled_changes other second (.inr down)).trans (banded.trans ?_))
    rw [if_neg (by show ¬ s.pm.power = .doze; rw [down]; decide)]
  · obtain ⟨l, e, begins, power, stage, band, securing, secured, ended⟩ := beginShutdown_begun (u.banded b)
    have shuts : batterySampled n s = beginShutdown (u.banded b) := by
      rw [batterySampled_second other second, bandChanged_eq]
      exact if_pos ⟨exhausted, up⟩
    refine ⟨l, e, exec_battery on (shuts.trans begins), power, stage, band.trans exhausted, securing, secured, ?_⟩
    rw [exhausted, banded_exhausted] at ended
    exact ended

end Sys2Proof.Machine
end

