-- ==== Sys2Proof/Proofs/Settings.lean ====
section
/-! SUPPORT. The directives that set working values and the ones of the whole part: LS, SV and PS; WS, RT and the end of a
settings write (R75, R175, R179, R185, R187). -/

namespace Sys2Proof.Machine

/-! ## The answer of a directive that has changed the state -/

section
variable {d : Dir} {c : Ctx} {tag : Nat} {s t : State}

@[simp] theorem pm_begun : (begun d c tag s).pm = s.pm := pm_occupy ..

theorem setWork_begun (w : Settings) : (begun d c tag s).setWork w = begun d c tag (s.setWork w) := setWork_occupy ..

theorem setPm_begun (v : Pm) : (begun d c tag s).setPm v = begun d c tag (s.setPm v) := setPm_occupy ..

/-- The answer where the report queue is as it was when the directive was admitted. -/
theorem answer_begun_after (may : admits d c s = true) (same : t.pe.reports = s.pe.reports) (o : Outcome) :
    answer o c (begun d c tag t) = answered d c tag o [] [] t :=
  finishDirective_occupy fun line => same ▸ room_of_ctxFree (line ▸ ctxFree_of_admits may)

end

/-! ## The settings by number (Table 10.5) -/

theorem settingRange_none {n : Nat} (h : n < 1 ∨ 17 < n) : settingRange n = none := by
  unfold settingRange
  split <;> first
    | omega
    | rfl

theorem settingRange_numbers {n : Nat} {range : Nat × Nat} (h : settingRange n = some range) : 1 ≤ n ∧ n ≤ 17 := by
  by_cases within : 1 ≤ n ∧ n ≤ 17
  · exact within
  · rw [settingRange_none (by omega)] at h
    cases h

theorem withValue_none (w : Settings) (v : Nat) {n : Nat} (h : n < 1 ∨ 17 < n) : w.withValue n v = w := by
  unfold Settings.withValue
  split <;> first
    | omega
    | rfl

theorem boolCode_eq (b : Bool) : boolCode b = b.toNat := by cases b <;> rfl

theorem values_eq (w : Settings) : (List.range' 1 17).map w.value = [w.introducer.toNat, w.terminator.toNat, w.listen, w.fadeTime,
    w.ack, w.accept, w.attemptLimit, w.holdMark, w.resumeMark, w.lineIdle, w.dozeIdle, w.autoSend.toNat, w.acceptNotices.toNat,
    w.pressDebounce, w.releaseDebounce, w.stuck, w.carrier] := by
  rw [← boolCode_eq, ← boolCode_eq]
  rfl

theorem svOutOfRange_iff (w : Settings) (n v : Nat) : svOutOfRange w n v = true ↔ ∀ lo hi, settingRange n = some (lo, hi) →
    v < lo ∨ hi < v ∨ n = 1 ∧ byteOf v = w.terminator ∨ n = 2 ∧ byteOf v = w.introducer ∨ n = 8 ∧ w.resumeMark ≤ v ∨
      n = 9 ∧ (v ≤ w.holdMark ∨ w.map.inbound.size - 64 < v) ∨ n = 11 ∧ v ≠ 0 ∧ v < 30 := by
  unfold svOutOfRange
  cases settingRange n with
  | none => exact ⟨fun _ _ _ h => (nomatch h), fun _ => rfl⟩
  | some range =>
    simp only [Option.some.injEq, Bool.or_eq_true, Bool.and_eq_true, decide_eq_true_eq, beq_iff_eq, or_assoc]
    exact ⟨fun h lo hi e => by subst e; exact h, fun h => h _ _ rfl⟩

/-- A value within the limits of Table 10.5 is read back as it was set. -/
theorem value_withValue (w : Settings) {n v lo hi : Nat} (range : settingRange n = some (lo, hi)) (low : lo ≤ v) (high : v ≤ hi) :
    (w.withValue n v).value n = v := by
  obtain ⟨first, last⟩ := settingRange_numbers range
  by_cases mark : n = 1 ∨ n = 2
  · have top : v ≤ 31 := by rcases mark with rfl | rfl <;> cases range <;> exact high
    have back : (byteOf v).toNat = v := by
      unfold byteOf
      rw [BitVec.toNat_ofNat]
      omega
    rcases mark with rfl | rfl <;> exact back
  by_cases flag : n = 12 ∨ n = 13
  · have top : v ≤ 1 := by rcases flag with rfl | rfl <;> cases range <;> exact high
    have back : boolCode (v == 1) = v := by rcases (show v = 0 ∨ v = 1 by omega) with rfl | rfl <;> rfl
    rcases flag with rfl | rfl <;> exact back
  · have plain : n = 3 ∨ n = 4 ∨ n = 5 ∨ n = 6 ∨ n = 7 ∨ n = 8 ∨ n = 9 ∨ n = 10 ∨ n = 11 ∨ n = 14 ∨ n = 15 ∨ n = 16 ∨
        n = 17 := by omega
    rcases plain with rfl | rfl | rfl | rfl | rfl | rfl | rfl | rfl | rfl | rfl | rfl | rfl | rfl <;> rfl

theorem value_inRange (w : Settings) {n v : Nat} (ok : svOutOfRange w n v = false) : (w.withValue n v).value n = v := by
  have taken : ¬ svOutOfRange w n v = true := by simp only [ok, Bool.false_eq_true, not_false_eq_true]
  cases range : settingRange n with
  | none => exact absurd ((svOutOfRange_iff w n v).mpr fun lo hi e => by rw [range] at e; cases e) taken
  | some limits =>
    have within : ¬ (v < limits.1 ∨ limits.2 < v) := fun out =>
      taken ((svOutOfRange_iff w n v).mpr fun lo hi e => by
        rw [range] at e
        cases e
        exact out.imp_right .inl)
    exact value_withValue w range (by omega) (by omega)

/-! ## What a new value does at once (R21, R56, R131, R182) -/

section
variable {n old v : Nat} {s : State}

theorem svFollow_none (h8 : n ≠ 8) (h9 : n ≠ 9) (h10 : n ≠ 10) (h11 : n ≠ 11) (h17 : n ≠ 17) : svFollow n old v s = s := by
  unfold svFollow
  split <;> first
    | contradiction
    | rfl

theorem svFollow_marks (h : n = 8 ∨ n = 9) : svFollow n old v s = flowTest s := by
  rcases h with rfl | rfl <;> rfl

theorem svFollow_lineIdle (h : v ≠ 0) : svFollow 10 old v s =
    if old = 0 ∧ s.pqu.asm.complete = false ∧ 1 ≤ s.pqu.asm.length then
      { s with pqu := { s.pqu with asm := { s.pqu.asm with idleTimer := some v } } }
    else s := by
  refine (if_neg h).trans ?_
  simp only [Bool.not_eq_true']
  rfl

theorem carrierPresent_pe (s : State) : (carrierPresent s).pe = s.pe := by
  unfold carrierPresent
  split
  · exact (congrArg State.pe (lineTo_eq _ s) :)
  all_goals rfl

theorem carrierAbsent_pe (s : State) : (carrierAbsent s).pe = s.pe := by
  unfold carrierAbsent
  split <;> rfl

theorem judgeCarrier_eq (s : State) : judgeCarrier s =
    if decide (30 * s.work.carrier < s.pins.energy) = s.clu.carrier then s
    else if 30 * s.work.carrier < s.pins.energy then carrierPresent s
    else carrierAbsent s := by
  unfold judgeCarrier carrierHeard
  simp only [decide_eq_true_eq]

/-- What a new value does touches no report. -/
theorem svFollow_reports (n old v : Nat) (s : State) : (svFollow n old v s).pe.reports = s.pe.reports := by
  unfold svFollow
  split
  · rw [flowTest_eq]; rfl
  · rw [flowTest_eq]; rfl
  · dsimp only
    (repeat' split) <;> rfl
  · split <;> rfl
  · rw [judgeCarrier_eq]
    (repeat' split)
    · rfl
    · rw [carrierPresent_pe]
    · rw [carrierAbsent_pe]
  · rfl

end

/-! ## LS, SV and PS (R75, R175, R179) -/

section
variable {c : Ctx} {tag : Nat} {args as : List Text} {s : State}

theorem svFollow_begun (d : Dir) (n old v : Nat) :
    svFollow n old v (begun d c tag s) = begun d c tag (svFollow n old v s) := svFollow_occupy ..

theorem answerDone_setWork {d : Dir} (may : admits d c s = true) (w : Settings) :
    answerDone c (begun d c tag (s.setWork w)) = answered d c tag .done [] [] (s.setWork w) :=
  answer_begun_after (t := s.setWork w) may rfl .done

theorem answerDone_svFollow {d : Dir} (may : admits d c s = true) (n old v : Nat) (w : Settings) :
    answerDone c (begun d c tag (svFollow n old v (s.setWork w))) =
      answered d c tag .done [] [] (svFollow n old v (s.setWork w)) :=
  answer_begun_after may (svFollow_reports n old v (s.setWork w)) .done

theorem ruleLs_begun {p o : Nat} {os : List Nat} (may : admits .ls c s = true) (read : decimals as = some (p :: o :: os)) :
    ruleLs c as (begun .ls c tag s) =
      if ¬ (1 ≤ p ∧ p + os.length ≤ 48 ∧ ∀ v ∈ o :: os, 8 ≤ v ∧ v ≤ 255) then answered .ls c tag .range [] [] s
      else if s.pm.writing.isSome = true then answered .ls c tag .busy [] [] s
      else answered .ls c tag .done [] []
        { s with work := { s.work with offsets := putFrom s.work.offsets (p - 1) (o :: os) } } := by
  have within : (1 ≤ p ∧ p ≤ 48 ∧ p + (o :: os).length - 1 ≤ 48 ∧ ((o :: os).all fun v => decide (8 ≤ v ∧ v ≤ 255)) = true) ↔
      1 ≤ p ∧ p + os.length ≤ 48 ∧ ∀ v ∈ o :: os, 8 ≤ v ∧ v ≤ 255 := by
    simp only [List.all_eq_true, decide_eq_true_eq, List.length_cons]
    exact ⟨fun ⟨a, _, c, e⟩ => ⟨a, by omega, e⟩, fun ⟨a, b, e⟩ => ⟨a, by omega, by omega, e⟩⟩
  unfold ruleLs
  rw [read]
  simp only [within, pm_begun, work_begun, setWork_begun, answer_begun may, ite_not,
    answerDone_setWork may]
  rfl

theorem ruleSv_begun {x y : Text} {n v : Nat} (may : admits .sv c s = true) (hx : decimal x = some n) (hy : decimal y = some v) :
    ruleSv c [x, y] (begun .sv c tag s) =
      if svOutOfRange s.work n v = true then answered .sv c tag .range [] [] s
      else if s.pm.writing.isSome = true then answered .sv c tag .busy [] [] s
      else answered .sv c tag .done [] [] (svFollow n (s.work.value n) v { s with work := s.work.withValue n v }) := by
  unfold ruleSv
  simp only [List.map_cons, List.map_nil, hx, hy, work_begun, pm_begun, setWork_begun, svFollow_begun, answer_begun may,
    answerDone_svFollow may]
  rfl

theorem rulePs_begun {x y : Text} {n v : Nat} (may : admits .ps c s = true) (hx : decimal x = some n) (hy : decimal y = some v) :
    rulePs c [x, y] (begun .ps c tag s) =
      if 1 ≤ n ∧ n ≤ 6 ∧ v ≤ 1 then answered .ps c tag .done [] [] { s with work := { s.work with
        protect := if v = 1 then s.work.protect ||| 1#6 <<< (n - 1) else s.work.protect &&& ~~~(1#6 <<< (n - 1)) } }
      else answered .ps c tag .range [] [] s := by
  unfold rulePs
  simp only [hx, hy, work_begun, setWork_begun, answer_begun may, answerDone_setWork may]
  rfl

theorem rulePs_begun_prints (may : admits .ps c s = true) :
    rulePs c [] (begun .ps c tag s) = answered .ps c tag .done [] [.text (psLine s.work.protect)] s := by
  unfold rulePs
  simp only [work_begun, finish_begun may]

end

/-- Settles O58: each rule on the state in which its context executes, and Table 10.5 number by number. -/
theorem settingDirectives : Obligations.SettingDirectives := by
  intro c tag args s
  refine ⟨fun p o os may read => ?_, fun x y n v may read hx hy => ?_, fun w v n => ?_, fun l os i j => ?_,
    fun x y n v may read hx hy => ?_, fun may read => ?_⟩
  · exact exec_numbers (d := .ls) may rfl read (ruleLs_begun may read)
  · have sv : ∀ e, ruleSv c [x, y] (begun .sv c tag s) = e → exec (.sv c tag args) s = .next (finish e) :=
      fun e => exec_numbers (d := .sv) may read (l := [n, v]) (by simp [decimals, hx, hy])
    have rule := ruleSv_begun (tag := tag) may hx hy
    refine ⟨fun out => sv _ (rule.trans (if_pos out)), fun ok busy => ?_, fun ok free => ?_, svOutOfRange_iff .., svFollow_none,
      svFollow_marks, rfl, fun old => svFollow_lineIdle, fun old => judgeCarrier_eq s, ⟨rfl, fun k => settingRange_none⟩, rfl,
      fun old set => if_neg set, value_inRange s.work⟩
    · exact sv _ (rule.trans ((if_neg (by simp [ok])).trans (if_pos busy)))
    · exact sv _ (rule.trans ((if_neg (by simp [ok])).trans (if_neg (by simp [free]))))
  · exact ⟨rfl, rfl, rfl, rfl, rfl, rfl, rfl, rfl, rfl, rfl, rfl, rfl, rfl, rfl, rfl, rfl, rfl, withValue_none w v, values_eq w⟩
  · exact ⟨(putFrom_spec os l i).1, (putFrom_spec os l i).2 j⟩
  · exact exec_numbers (d := .ps) may read (l := [n, v]) (by simp [decimals, hx, hy]) (rulePs_begun may hx hy)
  · exact exec_numbers (d := .ps) may read (l := []) rfl (rulePs_begun_prints may)

/-! ## The settings memory's bytes (Table 12.8) -/

theorem settingsBytes_length {w : Settings} (offsets : w.offsets.length = 48) (heat : w.heat.length = 9) :
    w.bytes.length = 128 := by
  simp [Settings.bytes, Settings.body, checkBytes, be16, stampBytes, offsets, heat]

/-! ## WS and RT (R185, R187) -/

section
variable {c : Ctx} {tag : Nat} {s : State}

theorem ruleWs_noArgs (c : Ctx) (s : State) : ruleWs c [] s = if s.pm.writing.isSome = true then answer .busy c s
    else setJob c .settings (s.setPm { s.pm with writing := some s.work.bytes }) := rfl

theorem ruleWs_begun (may : admits .ws c s = true) : ruleWs c [] (begun .ws c tag s) =
    if s.pm.writing.isSome = true then answered .ws c tag .busy [] [] s
    else { executing .ws c tag .settings s with pm := { s.pm with writing := some s.work.bytes } } := by
  have writes : setJob c .settings ((begun .ws c tag s).setPm { s.pm with writing := some s.work.bytes }) =
      { executing .ws c tag .settings s with pm := { s.pm with writing := some s.work.bytes } } := by cases c <;> rfl
  rw [ruleWs_noArgs, answer_begun may, pm_begun, work_begun, writes]

/-- `s` with a restart on its way, at this stage. -/
def State.restartingAt (s : State) (st : Stage) : State := { s with pm := { s.pm with restarting := true, stage := st } }

theorem ruleRt_noArgs_line (s : State) : ruleRt .line [] s = if s.pm.writing.isSome = true then answer .busy .line s
    else answerDone .line (s.restartingAt (if s.pm.stage = .shutdown then .shutdown else .report)) := rfl

theorem ruleRt_noArgs_service (s : State) : ruleRt .service [] s = if s.pm.writing.isSome = true then answer .busy .service s
    else setJob .service .restart (if s.pm.stage = .shutdown then s.restartingAt .shutdown
      else endLine .restart (s.restartingAt .line)) := by
  by_cases down : s.pm.stage = .shutdown <;> simp [ruleRt, noArgs, down, State.restartingAt, State.setPm]

theorem ruleRt_busy (may : admits .rt c s = true) (busy : s.pm.writing.isSome = true) :
    ruleRt c [] (begun .rt c tag s) = answered .rt c tag .busy [] [] s := by
  have held : (begun .rt c tag s).pm.writing.isSome = true := by rw [pm_begun]; exact busy
  rw [← answer_begun may]
  cases c with
  | line => exact (ruleRt_noArgs_line _).trans (if_pos held)
  | service => exact (ruleRt_noArgs_service _).trans (if_pos held)

/-- RT over the line answers first, and at a shutdown's stage the shutdown goes on. -/
theorem ruleRt_line (may : admits .rt .line s = true) (free : s.pm.writing = none) :
    ruleRt .line [] (begun .rt .line tag s) =
      answered .rt .line tag .done [] [] (s.restartingAt (if s.pm.stage = .shutdown then .shutdown else .report)) := by
  rw [ruleRt_noArgs_line, pm_begun, free]
  exact answer_begun_after (t := s.restartingAt _) may rfl .done

/-- A local RT ends the line, but during a shutdown. -/
theorem ruleRt_service (free : s.pm.writing = none) : ruleRt .service [] (begun .rt .service tag s) =
    setJob .service .restart (if s.pm.stage = .shutdown then begun .rt .service tag (s.restartingAt .shutdown)
      else endLine .restart (begun .rt .service tag (s.restartingAt .line))) := by
  rw [ruleRt_noArgs_service, pm_begun, free]
  rfl

end

/-! ## The line ended while the LOCAL context executes -/

/-- `s` with this LOCAL context. -/
def State.withLocal (s : State) (k : ServiceContext) : State := { s with du := { s.du with keyed := k } }

/-- A session's end does not reach the LOCAL context. -/
theorem SessionEnded.withLocal {cause : EndCause} {control : List Control} {s e : State} (h : SessionEnded cause control s e)
    (k : ServiceContext) : SessionEnded cause control (s.withLocal k) (e.withLocal k) := by
  have spool : (spuSessionEnd (s.withLocal k)).spu = (spuSessionEnd s).spu := spuSessionEnd_congr rfl
  obtain ⟨lastEnd, kcu, pe, jmc, input, blocked, -, idle, collecting, executing, spu, pqu, listed, outside, work, ksu⟩ := h
  exact ⟨lastEnd, kcu, pe, jmc, input, blocked, rfl, idle, collecting, executing, spu.trans spool.symm, pqu, listed, outside,
    work, ksu⟩

section
variable {tag : Nat} {s : State}

/-- The LOCAL context as an RT that waits holds it. -/
def restartContext (tag : Nat) : ServiceContext := ⟨some .restart, Dir.rt.letters ++ twoDigits tag, none, []⟩

theorem setJob_ended {cause : ClearCause} : setJob .service .restart (endLine cause (begun .rt .service tag s)) =
    (endLine cause (begun .rt .service tag s)).withLocal (restartContext tag) := by
  have head : (endLine cause (begun .rt .service tag s)).du.keyed = (begun .rt .service tag s).du.keyed := by
    cases line : s.clu.line with
    | off => rw [endLine_off cause (s := begun .rt .service tag s) line]
    | listen | detect => rw [endLine_unsent cause (s := begun .rt .service tag s) (by simp [line])]; rfl
    | settle | clearing => rw [endLine_sending cause (s := begun .rt .service tag s) (by simp [line])]; rfl
    | ready | fade =>
      rw [endLine_inSession cause (s := begun .rt .service tag s) (by simp [line])]
      obtain ⟨-, ended⟩ := enterClearing_ended cause (begun .rt .service tag s)
      obtain ⟨-, -, -, -, -, -, keyed, -⟩ := ended
      exact keyed
  unfold setJob State.withLocal Du.setJob
  dsimp only [State.setDu]
  rw [head]
  rfl

theorem exec_rt_service {args : List Text} {e : State} (read : asRead args = []) (may : admits .rt .service s = true)
    (free : s.pm.writing = none) (up : s.pm.stage ≠ .shutdown)
    (effect : (endLine .restart (begun .rt .service tag (s.restartingAt .line))).withLocal (restartContext tag) = e) :
    exec (.rt .service tag args) s = .next (finish e) :=
  exec_numbers (d := .rt) may read (l := []) rfl
    ((ruleRt_service free).trans ((congrArg _ (if_neg up)).trans (setJob_ended.trans effect)))

end

/-! ## A settings write completed (R185) -/

section
variable {s : State} {bytes : Text}

/-- `s` with the settings memory written. -/
def State.stored (s : State) (bytes : Text) : State := { s with
  settings := bytes, settingsTorn := false, pm := { s.pm with image := (settingsOf bytes).1, writing := none } }

theorem exec_settingsWriteComplete {e : State} (on : s.pm.power ≠ .off) (writing : s.pm.writing = some bytes)
    (effect : settingsWritten bytes s = e) : exec .settingsWriteComplete s = .next (finish e) := by
  subst effect
  show execSettingsWriteComplete s = _
  unfold execSettingsWriteComplete
  rw [writing]
  exact guarded_of (by simp [on]) _ s

/-- The context whose WS was writing answers. -/
theorem settingsWritten_answers {c : Ctx} (ctx : settingsCtx s.du = some c) :
    settingsWritten bytes s = ended c .done [] [] (s.stored bytes) := by
  unfold settingsWritten
  simp only [State.setPm_du, State.setSettingsTorn_du, State.setSettings_du, ctx]
  exact finishDirective_eq c .done [] [] (s.stored bytes)

theorem settingsWritten_only (ctx : settingsCtx s.du = none) : settingsWritten bytes s = s.stored bytes := by
  unfold settingsWritten
  simp only [State.setPm_du, State.setSettingsTorn_du, State.setSettings_du, ctx]
  rfl

end

/-- Settles O60: the bytes as they stand in Table 12.8, then WS, RT by context and line state, and the write's end by context. -/
theorem systemDirectives : Obligations.SystemDirectives := by
  refine ⟨fun w => ?_, fun c tag args s read => ?_, fun s bytes on writing => ?_⟩
  · intro m size stamp flags body
    have same : w.body = body := by
      unfold Settings.body stampBytes
      rw [show byteOf w.protect.toNat = w.protect.setWidth 8 from BitVec.ofNat_toNat ..]
      rfl
    exact ⟨by unfold Settings.bytes; rw [same], settingsBytes_length⟩
  · have rt : ∀ (c : Ctx) (e : State), admits .rt c s = true → ruleRt c [] (begun .rt c tag s) = e →
        exec (.rt c tag args) s = .next (finish e) := fun c e may => exec_numbers (d := .rt) may read (l := []) rfl
    refine ⟨fun may => exec_numbers (d := .ws) may read (l := []) rfl (ruleWs_begun may),
      fun may busy => rt c _ may (ruleRt_busy may busy), ?_, ?_, ?_, ?_⟩
    · rintro may free up rfl
      refine rt .line _ may ((ruleRt_line may free).trans ?_)
      rw [if_neg up]
      rfl
    · intro may free down u
      have goesOn : s.restartingAt .shutdown = u := by rw [← down]; rfl
      refine ⟨?_, ?_⟩
      · rintro rfl
        refine rt .line _ may ((ruleRt_line may free).trans ?_)
        rw [if_pos down, goesOn]
      · rintro rfl
        refine rt .service _ may ((ruleRt_service free).trans ?_)
        rw [if_pos down, goesOn]
        exact setJob_occupy ..
    · rintro may free up rfl off
      refine exec_rt_service read may free up ?_
      rw [endLine_off (s := begun .rt .service tag (s.restartingAt .line)) .restart off]
      rfl
    · rintro may free up rfl u
      refine ⟨fun line => ?_, fun line => ?_, fun line => ?_⟩
      · let t := begun .rt .service tag (s.restartingAt .line)
        have enters : endLine .restart t = enterClearing .restart t := endLine_inSession .restart (s := t) line
        obtain ⟨clu, ended⟩ := enterClearing_ended .restart t
        refine ⟨_, exec_rt_service read may free up rfl, ?_⟩
        rw [enters]
        exact ⟨clu, pm_enterClearing .restart t, ended.withLocal (restartContext tag)⟩
      · refine exec_rt_service read may free up ?_
        rw [endLine_unsent (s := begun .rt .service tag (s.restartingAt .line)) .restart line]
        rfl
      · refine exec_rt_service read may free up ?_
        rw [endLine_sending (s := begun .rt .service tag (s.restartingAt .line)) .restart line]
        rfl
  · intro u
    have lineWrites : s.du.line.job = some .settings → settingsWritten bytes s = ended .line .done [] [] u :=
      fun line => settingsWritten_answers (if_pos line)
    refine ⟨fun line service => ?_, fun line session room => ?_, fun line => ?_, fun line service => ?_⟩
    · exact exec_settingsWriteComplete on writing (settingsWritten_only ((if_neg line).trans (if_neg service)))
    · refine exec_settingsWriteComplete on writing ((lineWrites line).trans ?_)
      have reports : ¬ (u.du.line.orphan = true ∨ 4 ≤ u.pe.reports.length) := by
        rintro (orphan | full)
        · exact absurd (session.symm.trans orphan) (by decide)
        · exact Nat.not_le.mpr room full
      unfold ended
      dsimp only
      rw [if_neg reports]
    · exact exec_settingsWriteComplete on writing (lineWrites line)
    · exact exec_settingsWriteComplete on writing (settingsWritten_answers ((if_neg line).trans (if_pos service)))

end Sys2Proof.Machine
end

