-- ==== Sys2Proof/Proofs/Receiver.lean ====
section
/-! SUPPORT. The receiver bit by bit, the receive assembler character by character, and what a closed parcel does (R20, R22,
R40–R43). -/

namespace Sys2Proof.Machine

/-! ## Bits (R20, R22) -/

/-- A number made of bits, the least significant first, has these bits. -/
theorem testBit_foldr : ∀ (bits : List Bool) (i : Nat),
    (bits.foldr (fun (b : Bool) (n : Nat) => 2 * n + b.toNat) 0).testBit i = bits.getD i false
  | [], i => by simp
  | b :: bits, 0 => by
    show Nat.testBit (2 * _ + b.toNat) 0 = b
    cases b <;> simp [Nat.testBit_zero, Nat.add_mod]
  | b :: bits, i + 1 => by
    show Nat.testBit (2 * _ + b.toNat) (i + 1) = bits.getD i false
    rw [Nat.testBit_succ, ← testBit_foldr bits i]
    congr 1
    cases b <;> simp only [Bool.toNat_false, Bool.toNat_true] <;> omega

theorem byteOfBits_bit (bits : List Bool) {i : Nat} (h : i < 8) : (byteOfBits bits).getLsbD i = bits.getD i false := by
  unfold byteOfBits byteOf
  rw [BitVec.getLsbD_ofNat, testBit_foldr, decide_eq_true h, Bool.true_and]

/-! ## A parcel judged (R41–R43) -/

section
variable {t : State} {p : Parcel} {a : Assembler}

theorem parcelBad_eq (t : State) : parcelBad t = { t with pe := { t.pe with bad := bump t.pe.bad }.nakked t.work.ack } := by
  unfold parcelBad
  rw [Pe.queueNak_eq]
  rfl

theorem closed_bad (h : a.judge.1 ≠ .good) : closed a t = parcelBad t := by
  unfold closed
  split
  · rename_i e
    rw [e] at h
    exact absurd rfl h
  · rfl

theorem closed_good (h : a.judge = (.good, some p)) : closed a t = parcelGood p t := by
  unfold closed
  rw [h]

theorem inRange_of_judge (h : a.judge = (.good, some p)) : p.inRange = true := by
  unfold Assembler.judge at h
  split at h
  · cases h
  split at h
  · cases h
  split at h
  · split at h
    · cases h
      assumption
    · cases h
  · cases h

/-- A GOOD parcel does what the command that names its kind and fields does, for the fields its kind does not use are 0 there. -/
theorem received_eq (receiving : t.receiving = true) (ok : p.inRange = true) :
    p.received t = .next (finish (parcelGood p t)) := by
  have takes : ∀ q : Parcel, q.inRange = true → actOn q = actOn p →
      guarded t.receiving (takeParcel q t) t = .next (finish (parcelGood p t)) := fun q within same =>
    guarded_eq receiving ((if_pos within).trans (congrFun same _))
  obtain ⟨kind, seq, serial, index, last, body⟩ := p
  obtain ⟨counted, inWindow, -, -, -⟩ := (Parcel.inRange_iff _).mp ok
  cases kind with
  | text => exact takes ⟨.text, seq, 0, 0, false, body⟩ ok rfl
  | report => exact absurd rfl counted
  | ack => exact takes ⟨.ack, seq, 0, 0, false, []⟩ (by simpa [Parcel.inRange] using inWindow) rfl
  | nak => exact takes ⟨.nak, seq, 0, 0, false, []⟩ (by simpa [Parcel.inRange] using inWindow) rfl
  | hold => exact takes ⟨.hold, 0, serial, 0, false, []⟩ rfl rfl
  | resume => exact takes ⟨.resume, 0, 0, 0, false, []⟩ rfl rfl
  | accept => exact takes ⟨.accept, 0, serial, 0, false, []⟩ rfl rfl
  | reject =>
    simp only [Parcel.inRange, Bool.and_eq_true] at ok
    exact takes ⟨.reject, 0, serial, index, false, body⟩ (by simpa [Parcel.inRange] using ok.2) rfl
  | clear => exact takes ⟨.clear, 0, 0, 0, false, []⟩ rfl rfl

end

/-! ## A byte joins the parcel (R40) -/

section
variable {a : Assembler} {b c : Byte} {flagged : Bool}

/-- The assembler with one more byte. -/
def Assembler.joined (a : Assembler) (b : Byte) : Assembler := { a with bytes := a.bytes ++ [b] }

theorem push_header_more (h : a.state = .header) (more : (a.joined b).bytes.length < 7) : a.push b = (a.joined b, false) := by
  obtain ⟨state, bytes, framing, escape, badEscape, timer⟩ := a
  cases (h : state = .header)
  exact if_pos more

theorem push_header_long (h : a.state = .header) (full : 7 ≤ (a.joined b).bytes.length)
    (long : 48 < byteAt (a.joined b).bytes 6) : a.push b = (huntingAsm, true) := by
  obtain ⟨state, bytes, framing, escape, badEscape, timer⟩ := a
  cases (h : state = .header)
  exact (if_neg (Nat.not_lt.mpr full)).trans (if_pos long)

theorem push_header_ends (h : a.state = .header) (full : 7 ≤ (a.joined b).bytes.length)
    (fits : byteAt (a.joined b).bytes 6 ≤ 48) : a.push b =
      ({ a.joined b with state := if byteAt (a.joined b).bytes 6 = 0 then .check else .body }, false) := by
  obtain ⟨state, bytes, framing, escape, badEscape, timer⟩ := a
  cases (h : state = .header)
  exact (if_neg (Nat.not_lt.mpr full)).trans (if_neg (Nat.not_lt.mpr fits))

theorem push_body (h : a.state = .body) : a.push b =
    (if (a.joined b).bytes.length < 7 + byteAt (a.joined b).bytes 6 then a.joined b
      else { a.joined b with state := .check }, false) := by
  obtain ⟨state, bytes, framing, escape, badEscape, timer⟩ := a
  cases (h : state = .body)
  rfl

theorem push_check (h : a.state = .check) : a.push b =
    (if (a.joined b).bytes.length < 9 + byteAt (a.joined b).bytes 6 then a.joined b
      else { a.joined b with state := .closeWait, closeTimer := true }, false) := by
  obtain ⟨state, bytes, framing, escape, badEscape, timer⟩ := a
  cases (h : state = .check)
  rfl

/-- The assembler with a character's flag and escape taken in. -/
def Assembler.noted (a : Assembler) (c : Byte) (flagged : Bool) : Assembler := { a with
  framing := a.framing || flagged, escape := false, badEscape := a.badEscape || (a.escape && c != 0x75 && c != 0x76) }

/-- The byte a character stands for. -/
def Assembler.byteFor (a : Assembler) (c : Byte) : Byte :=
  if a.escape = true ∧ c = 0x75 then 0xF5 else if a.escape = true ∧ c = 0x76 then 0xF6 else c

theorem collect_escape (plain : a.escape = false) (whole : flagged = false) (escapes : c = 0xF6) :
    a.collect c flagged = ({ a with escape := true }, false) := by
  subst whole escapes
  unfold Assembler.collect
  simp [plain]

theorem not_whole {c k : Byte} {flagged : Bool} (h : flagged = true ∨ c ≠ k) : ¬ (!flagged && c == k) = true := by
  rcases h with h | h <;> simp [h]

theorem collect_joins (h : a.escape = true ∨ flagged = true ∨ c ≠ 0xF6) :
    a.collect c flagged = (a.noted c flagged).push (a.byteFor c) := by
  unfold Assembler.collect Assembler.noted Assembler.byteFor
  cases escape : a.escape with
  | false =>
    have other := not_whole (h.resolve_left (by simp [escape]))
    simp only [if_neg other, Bool.false_eq_true, if_false, false_and, Bool.false_and, Bool.or_false]
  | true =>
    by_cases five : c = 0x75
    · subst five
      simp
    · by_cases six : c = 0x76
      · subst six
        simp
      · simp only [five, six, if_true, and_false, if_false, bne_iff_ne.mpr five, bne_iff_ne.mpr six,
          Bool.and_true, Bool.or_true]

end

/-! ## A character in READY (R40, R41) -/

section
variable {t : State} {c : Byte} {flagged : Bool}

/-- `t` with another assembler. -/
def State.withAsm (t : State) (a : Assembler) : State := { t with pe := { t.pe with asm := a } }

theorem assemble_mark_begins (h : t.pe.asm.state = .hunting) : assemble 0xF5 false t = t.withAsm headerAsm := by
  unfold assemble
  simp only [h]
  rfl

theorem assemble_mark_cuts (h : t.pe.asm.state = .header ∨ t.pe.asm.state = .body ∨ t.pe.asm.state = .check) :
    assemble 0xF5 false t = parcelBad (t.withAsm headerAsm) := by
  unfold assemble
  rcases h with h | h | h <;> simp only [h] <;> rfl

theorem assemble_mark_closes (h : t.pe.asm.state = .closeWait) :
    assemble 0xF5 false t = closed t.pe.asm (t.withAsm headerAsm) := by
  unfold assemble
  simp only [h]
  rfl

theorem assemble_drops (h : t.pe.asm.state = .hunting) (other : flagged = true ∨ c ≠ 0xF5) : assemble c flagged t = t := by
  refine (if_neg (not_whole other)).trans ?_
  rw [h]

theorem assemble_late (h : t.pe.asm.state = .closeWait) (other : flagged = true ∨ c ≠ 0xF5) :
    assemble c flagged t = parcelBad (t.withAsm huntingAsm) := by
  refine (if_neg (not_whole other)).trans ?_
  rw [h]
  rfl

theorem assemble_collects (h : t.pe.asm.state = .header ∨ t.pe.asm.state = .body ∨ t.pe.asm.state = .check) {b : Assembler}
    {long : Bool} (other : flagged = true ∨ c ≠ 0xF5) (collect : t.pe.asm.collect c flagged = (b, long)) :
    assemble c flagged t =
      if long = true then parcelBad (t.withAsm b) else t.withAsm b := by
  refine (if_neg (not_whole other)).trans ?_
  rcases h with h | h | h <;> rw [h] <;> dsimp only <;> rw [collect] <;> cases long <;> rfl

end

section
variable {s : State} {c : Byte} {flagged : Bool}

/-- `s` with a character's framing error taken in: the receiver hunts or waits for mark, and in READY the error is counted. -/
def State.heard (s : State) (flagged : Bool) : State := { s with clu := { s.clu with
  receiver := if flagged = true then .awaitMark else .hunting
  framingErrors := if flagged = true then bump s.clu.framingErrors else s.clu.framingErrors } }

theorem exec_characterReceived {e : State} (awake : s.pm.power.awake = true) (rests : s.clu.receiver.rests = true)
    (effect : characterRead c flagged (s.setClu { s.clu with receiver := if flagged = true then .awaitMark else .hunting }) = e) :
    exec (.characterReceived c flagged) s = .next (finish e) :=
  guarded_eq awake ((characterReceived_eq rests c flagged).trans effect)

theorem exec_characterReceived_ready {e : State} (awake : s.pm.power.awake = true) (rests : s.clu.receiver.rests = true)
    (ready : s.clu.line = .ready) (effect : assemble c flagged (s.heard flagged) = e) :
    exec (.characterReceived c flagged) s = .next (finish e) := by
  refine exec_characterReceived awake rests (Eq.trans (if_pos ready) (Eq.trans ?_ effect))
  cases flagged <;> rfl

end

/-- Settles O18: the receiver bit by bit, then in READY an unflagged mark, and any other character, by the assembler's state. -/
theorem characterReceived_byState : Obligations.CharacterReceived := by
  refine ⟨fun mark space bits c => ?_, fun s c flagged awake rests => ?_⟩
  · intro b
    refine ⟨rfl, rfl, fun more => ?_, fun last => ⟨byteOfBits (bits ++ [b]), ?_, fun i h => byteOfBits_bit _ h⟩, rfl, rfl⟩
    · exact congrArg (·, none) (if_pos more)
    · exact congrArg (·, none) (if_neg (by omega))
  · intro heard u a put bad r
    have bads : ∀ {x : Assembler}, assemble c flagged (s.heard flagged) = parcelBad ((s.heard flagged).withAsm x) →
        s.clu.line = .ready → r = bad x := fun h ready =>
      exec_characterReceived_ready awake rests ready (h.trans (parcelBad_eq _))
    have puts : ∀ {x : Assembler}, assemble c flagged (s.heard flagged) = (s.heard flagged).withAsm x →
        s.clu.line = .ready → r = put x := fun h ready => exec_characterReceived_ready awake rests ready h
    refine ⟨fun down => exec_characterReceived awake rests (if_neg down), fun ready whole mark => ?_, fun ready other => ?_⟩
    · subst whole mark
      refine ⟨fun h => puts (assemble_mark_begins h) ready, fun h => bads (assemble_mark_cuts h) ready, fun h judged => ?_,
        fun p h judged => ?_⟩
      · exact bads ((assemble_mark_closes (t := s.heard false) h).trans (closed_bad judged)) ready
      · have receiving : ((s.heard false).withAsm headerAsm).receiving = true := by
          show (s.pm.power.awake && s.clu.line == .ready) = true
          simp [awake, ready]
        exact (exec_characterReceived_ready awake rests ready
          ((assemble_mark_closes (t := s.heard false) h).trans (closed_good judged))).trans
          (received_eq receiving (inRange_of_judge judged)).symm
    · refine ⟨fun h => puts (assemble_drops h other) ready, fun h => bads (assemble_late h other) ready, fun h => ?_⟩
      have collected : ∀ {x : Assembler} {long : Bool}, a.collect c flagged = (x, long) →
          assemble c flagged (s.heard flagged) =
            if long = true then parcelBad ((s.heard flagged).withAsm x) else (s.heard flagged).withAsm x :=
        assemble_collects (t := s.heard flagged) h other
      refine ⟨fun plain whole escapes => puts (collected (collect_escape plain whole escapes)) ready, fun joins => ?_⟩
      intro b n size length
      have pushed : a.collect c flagged = (a.noted c flagged).push b := collect_joins joins
      have goesOn : ∀ {x : Assembler}, (a.noted c flagged).push b = (x, false) → r = put x := fun h =>
        puts (collected (pushed.trans h)) ready
      let m := a.noted c flagged
      refine ⟨fun at' more => goesOn (push_header_more at' more),
        fun at' full long => bads (collected (pushed.trans (push_header_long at' full long))) ready,
        fun at' full empty => goesOn ((push_header_ends (a := m) at' full ?_).trans (congrArg (Prod.mk · false) ?_)),
        fun at' full some' fits => goesOn ((push_header_ends (a := m) at' full fits).trans (congrArg (Prod.mk · false) ?_)),
        fun at' more => goesOn ((push_body (a := m) at').trans (congrArg (Prod.mk · false) (if_pos more))),
        fun at' full => goesOn ((push_body (a := m) at').trans (congrArg (Prod.mk · false) (if_neg (Nat.not_lt.mpr full)))),
        fun at' more => goesOn ((push_check (a := m) at').trans (congrArg (Prod.mk · false) (if_pos more))),
        fun at' full => goesOn ((push_check (a := m) at').trans (congrArg (Prod.mk · false) (if_neg (Nat.not_lt.mpr full))))⟩
      · exact Nat.le_trans (Nat.le_of_eq empty) (Nat.zero_le 48)
      · exact congrArg (fun st => ({ n with state := st } : Assembler)) (if_pos empty)
      · exact congrArg (fun st => ({ n with state := st } : Assembler)) (if_neg (Nat.ne_of_gt some'))

end Sys2Proof.Machine
end

