-- ==== Sys2Proof/Proofs/Transmitter.lean ====
section
/-! SUPPORT. The transmitter: a parcel's characters, a character's bits and tones, the end of a character, what begins next on an
idle transmitter, and what fills a FREE slot (R20, R23, R39, R47–R51, R54, R56). -/

namespace Sys2Proof.Machine

/-! ## A parcel's characters (R39) -/

theorem escapeByte_eq (b : Byte) :
    escapeByte b = if b = 0xF5 then [0xF6, 0x75] else if b = 0xF6 then [0xF6, 0x76] else [b] := by
  unfold escapeByte
  by_cases mark : b = 0xF5
  · rw [mark]
    rfl
  · by_cases escape : b = 0xF6
    · rw [escape]
      rfl
    · rw [if_neg (not_or.mpr ⟨mark, escape⟩), if_neg mark, if_neg escape]

theorem chars_eq (p : Parcel) : p.chars = 0xF5 :: (p.image ++ checkBytes p.image).flatMap (fun b =>
    if b = 0xF5 then [0xF6, 0x75] else if b = 0xF6 then [0xF6, 0x76] else [b]) := by
  unfold Parcel.chars
  rw [List.flatMap_def]
  simp only [← escapeByte_eq]

/-! ## A character's tones (R20, R23) -/

theorem sends_of_off {c : Clu} (off : c.line.txOn = false) : c.sends = [] := by
  unfold Clu.sends
  simp [off]

theorem sends_of_idle {c : Clu} (on : c.line.txOn = true) (idle : c.txChar = none) : c.sends = [1150] := by
  unfold Clu.sends
  simp [on, idle, toneOf]

theorem sends_of_held {c : Clu} {x : Byte} (on : c.line.txOn = true) (held : c.txChar = some x) :
    c.sends = (frame x false).map fun mark => if mark = true then 1150 else 950 := by
  have tone : toneOf false = fun mark => if mark = true then 1150 else 950 := by
    funext mark
    cases mark <;> rfl
  unfold Clu.sends
  simp [on, held, tone]

/-! ## The end of a character (R23, R34, R39, R49, R51) -/

section
variable {s : State}

/-- `s` with the held character gone and no parcel in transmission. -/
def State.sentLast (s : State) : State := { s with clu := { s.clu with txChar := none }, pe := { s.pe with tx := none } }

theorem exec_characterSent {e : State} (awake : s.pm.power.awake = true) (held : s.clu.txChar.isSome = true)
    (effect : characterSent s = e) : exec .characterSent s = .next (finish e) :=
  guarded_eq (by simp [awake, held]) effect

theorem characterSent_goesOn {item : TxItem} {c : Byte} {rest : Text} (tx : s.pe.tx = some ⟨item, c :: rest⟩) :
    characterSent s = { s with clu := { s.clu with txChar := some c }, pe := { s.pe with tx := some ⟨item, rest⟩ } } := by
  unfold characterSent
  simp only [State.setClu_pe, tx]
  rfl

theorem characterSent_idle (tx : s.pe.tx = none) : characterSent s = { s with clu := { s.clu with txChar := none } } := by
  unfold characterSent
  simp only [State.setClu_pe, tx]
  rfl

theorem characterSent_slot {i : SlotId} (tx : s.pe.tx = some ⟨.slot i, []⟩) :
    characterSent s = s.sentLast.setPe (endSlot i s.work.ack s.sentLast.pe) := by
  unfold characterSent
  simp only [State.setClu_pe, tx]
  rfl

theorem characterSent_control {c : Control} (tx : s.pe.tx = some ⟨.control c, []⟩) (other : c ≠ .clear) :
    characterSent s = s.sentLast := by
  unfold characterSent
  simp only [State.setClu_pe, tx]
  cases c with
  | clear => exact absurd rfl other
  | _ => rfl

theorem characterSent_clear (tx : s.pe.tx = some ⟨.control .clear, []⟩) (clearing : s.clu.line = .clearing) :
    characterSent s = enterOff s.sentLast := by
  unfold characterSent
  simp only [State.setClu_pe, tx]
  exact if_pos clearing

end

/-! ## What begins next (R49–R51, R54, R56) -/

section
variable {s : State}

/-- `s` with this item's parcel begun, the Parcel Engine else as `e`. -/
def State.begins (s : State) (item : TxItem) (p : Parcel) (e : Pe) : State := { s with
  pe := { e with tx := some ⟨item, p.chars.drop 1⟩ }, clu := { s.clu with txChar := p.chars.head? } }

theorem beginParcel_eq (item : TxItem) (p : Parcel) (e : Pe) (s : State) :
    beginParcel item p (s.setPe e) = s.begins item p e := rfl

theorem beginControl_none (empty : s.pe.control = []) : beginControl s = none := by
  unfold beginControl
  rw [empty]

theorem beginControl_front {c : Control} {cs : List Control} (front : s.pe.control = c :: cs) : beginControl s =
    if c = .hold then some (flowTest (s.begins (.control c) c.parcel { s.pe with control := cs, held := true }))
    else if c = .resume then some (flowTest (s.begins (.control c) c.parcel { s.pe with control := cs, held := false }))
    else some (s.begins (.control c) c.parcel { s.pe with control := cs }) := by
  unfold beginControl
  rw [front]
  cases c <;> rfl

theorem beginNext_busy (busy : s.clu.txChar.isSome = true ∨ s.pe.tx.isSome = true) : beginNext s = none := if_pos busy

/-- The transmitter is idle: no character held and no parcel in transmission. -/
def State.txIdle (s : State) : Prop := s.clu.txChar = none ∧ s.pe.tx = none

theorem txIdle_not_busy (idle : s.txIdle) : ¬ (s.clu.txChar.isSome = true ∨ s.pe.tx.isSome = true) := by
  obtain ⟨held, tx⟩ := idle
  simp [held, tx]

theorem beginNext_silent (idle : s.txIdle) (ready : s.clu.line ≠ .ready) (clearing : s.clu.line ≠ .clearing) :
    beginNext s = none :=
  (if_neg (txIdle_not_busy idle)).trans ((if_neg clearing).trans (if_neg ready))

theorem beginNext_clear (idle : s.txIdle) (clearing : s.clu.line = .clearing) (only : s.pe.control = [.clear]) :
    beginNext s = beginControl s := by
  refine (if_neg (txIdle_not_busy idle)).trans ((if_pos clearing).trans ?_)
  rw [only]

theorem beginNext_noClear (idle : s.txIdle) (clearing : s.clu.line = .clearing) (other : s.pe.control ≠ [.clear]) :
    beginNext s = none := by
  refine (if_neg (txIdle_not_busy idle)).trans ((if_pos clearing).trans ?_)
  split
  · exact absurd ‹_› other
  · rfl

/-- In READY a control parcel goes first. -/
theorem beginNext_control (idle : s.txIdle) (ready : s.clu.line = .ready) {t : State} (begins : beginControl s = some t) :
    beginNext s = some t := by
  refine (if_neg (txIdle_not_busy idle)).trans ((if_neg (by simp [ready])).trans ((if_pos ready).trans ?_))
  rw [begins]

theorem beginNext_held (idle : s.txIdle) (ready : s.clu.line = .ready) (empty : s.pe.control = [])
    (hold : s.pe.stationHold = true) : beginNext s = none := by
  refine (if_neg (txIdle_not_busy idle)).trans ((if_neg (by simp [ready])).trans ((if_pos ready).trans ?_))
  rw [beginControl_none empty]
  exact if_pos hold

/-- The slot whose parcel is to be resent first. -/
def Pe.resent (p : Pe) : Option SlotId := p.byAge.find? fun i => (p.slot i).resendDue

/-- The FILLED slot that is first. -/
def Pe.unsent (p : Pe) : Option SlotId := p.byAge.find? fun i => (p.slot i).isFilled

section
variable (idle : s.txIdle) (ready : s.clu.line = .ready) (empty : s.pe.control = []) (free : s.pe.stationHold = false)
include idle ready empty free

theorem beginNext_resent {i : SlotId} (resent : s.pe.resent = some i) : beginNext s = beginSlot i s := by
  refine (if_neg (txIdle_not_busy idle)).trans ((if_neg (by simp [ready])).trans ((if_pos ready).trans ?_))
  rw [beginControl_none empty]
  refine (if_neg (by simp [free])).trans ?_
  rw [show List.find? _ s.pe.byAge = some i from resent]

theorem beginNext_unsent {i : SlotId} (resent : s.pe.resent = none) (unsent : s.pe.unsent = some i) :
    beginNext s = beginSlot i s := by
  refine (if_neg (txIdle_not_busy idle)).trans ((if_neg (by simp [ready])).trans ((if_pos ready).trans ?_))
  rw [beginControl_none empty]
  refine (if_neg (by simp [free])).trans ?_
  rw [show List.find? _ s.pe.byAge = none from resent]
  dsimp only
  rw [show List.find? _ s.pe.byAge = some i from unsent]

end

/-- The first of the two slots that satisfies `f`, the older one asked first. -/
theorem find_byAge (p : Pe) (f : SlotId → Bool) : p.byAge.find? f =
    if f p.older = true then some p.older else if f p.older.other = true then some p.older.other else none := by
  unfold Pe.byAge
  cases older : f p.older <;> cases younger : f p.older.other <;> simp [List.find?, older, younger]

/-- A slot is the older one or the other. -/
theorem slot_cases (p : Pe) (i : SlotId) : i = p.older ∨ i = p.older.other := by
  cases i <;> cases p.older <;> simp [SlotId.other]

theorem beginSlot_unsent {i : SlotId} {p : SlotParcel} (slot : s.pe.slot i = .filled p) : beginSlot i s =
    some (s.begins (.slot i) (p.parcel s.pe.nextSeq) { s.pe.setSlot i (.outstanding p s.pe.nextSeq 1 false true) with
      nextSeq := s.pe.nextSeq + 1 }) := by
  unfold beginSlot
  rw [slot]
  rfl

/-- A resend stops the ACK timer where the parcel is the oldest OUTSTANDING one. -/
theorem beginSlot_resent {i : SlotId} {p : SlotParcel} {q : BitVec 3} {n : Nat} {tx : Bool}
    (slot : s.pe.slot i = .outstanding p q n true tx) : beginSlot i s =
    some (s.begins (.slot i) (p.parcel q) { s.pe.setSlot i (.outstanding p q (min 15 (n + 1)) false true) with
      resends := bump s.pe.resends
      ackTimer := if (s.pe.setSlot i (.outstanding p q (min 15 (n + 1)) false true)).oldest = some i then none
        else s.pe.ackTimer }) := by
  unfold beginSlot
  rw [slot]
  cases i <;> rfl

theorem oldest_set_older {e : Pe} {v : SendSlot} (out : v.isOutstanding = true) :
    (e.setSlot e.older v).oldest = some e.older := by
  refine (oldest_older ?_).trans (by rw [older_setSlot])
  rw [older_setSlot, slot_setSlot, if_pos rfl, out]

theorem oldest_set_other {e : Pe} {v : SendSlot} (out : v.isOutstanding = true) :
    (e.setSlot e.older.other v).oldest = some e.older.other ↔ (e.slot e.older).isOutstanding = false := by
  have older : ((e.setSlot e.older.other v).slot (e.setSlot e.older.other v).older) = e.slot e.older := by
    rw [older_setSlot, slot_setSlot, if_neg (ne_other _)]
  have younger : ((e.setSlot e.older.other v).slot (e.setSlot e.older.other v).older.other) = v := by
    rw [older_setSlot, slot_setSlot, if_pos rfl]
  cases first : (e.slot e.older).isOutstanding with
  | true =>
    rw [oldest_older (by rw [older]; exact first), older_setSlot]
    simp
  | false =>
    rw [oldest_other (by rw [older]; exact first) (by rw [younger]; exact out), older_setSlot]
    simp

end

/-! ## What fills a slot (R47, R48) -/

section
variable {s : State}

theorem fillNext_stays (h : ¬ (s.clu.line = .ready ∧ s.pe.stationHold = false ∧ s.txIdle)) : fillNext s = none := by
  refine if_neg fun may => h ?_
  obtain ⟨ready, free, held, tx⟩ := may
  exact ⟨ready, by simpa using free, Option.isNone_iff_eq_none.mp held, Option.isNone_iff_eq_none.mp tx⟩

theorem fillNext_fills (ready : s.clu.line = .ready) (free : s.pe.stationHold = false) (idle : s.txIdle) : fillNext s =
    if s.pe.slotA = .free ∧ s.pe.slotB.isLoading = false then fillSlot .a s
    else if s.pe.slotB = .free ∧ s.pe.slotA.isLoading = false then fillSlot .b s
    else none := by
  obtain ⟨held, tx⟩ := idle
  unfold fillNext
  simp only [ready, free, held, tx, Bool.not_eq_true', Option.isNone_none, and_true, if_true]

/-- The Parcel Engine with slot `i` about to be filled: it is the older one unless the other holds a parcel (R49). -/
def Pe.filling (p : Pe) (i : SlotId) : Pe := { p with
  older := if (p.slot i.other).isFilled || (p.slot i.other).isOutstanding then i.other else i }

theorem reportIndex_some {p : Pe} {k : Nat} {r : Report} (at' : p.reports[k]? = some r)
    (left : r.filled < max 1 ((r.body.length + 47) / 48))
    (done : ∀ j q, j < k → p.reports[j]? = some q → max 1 ((q.body.length + 47) / 48) ≤ q.filled) : p.reportIndex = some k := by
  obtain ⟨lt, rfl⟩ := List.getElem?_eq_some_iff.mp at'
  refine List.findIdx?_eq_some_iff_getElem.mpr ⟨lt, decide_eq_true left, fun j before => ?_⟩
  have := done j _ before (List.getElem?_eq_getElem (Nat.lt_trans before lt))
  exact fun open' => absurd (of_decide_eq_true open') (Nat.not_lt.mpr this)

theorem reportIndex_none {p : Pe} (done : ∀ r ∈ p.reports, max 1 ((r.body.length + 47) / 48) ≤ r.filled) : p.reportIndex = none :=
  List.findIdx?_eq_none_iff.mpr fun r h => decide_eq_false (Nat.not_lt.mpr (done r h))

/-- A report gives its next parcel whole. -/
theorem fillSlot_report {i : SlotId} {k : Nat} {r : Report} (first : s.pe.reportIndex = some k)
    (at' : s.pe.reports[k]? = some r) :
    fillSlot i s = some { s with pe := { (s.pe.filling i).setSlot i (.filled ⟨true, r.tag, r.filled,
        r.filled + 1 == max 1 ((r.body.length + 47) / 48), min 48 (r.body.length - 48 * r.filled),
        (r.body.drop (48 * r.filled)).take 48⟩) with
      reports := s.pe.reports.set k { r with filled := r.filled + 1 } } } := by
  unfold fillSlot
  simp only [first, at', Option.map_some]
  cases i <;> rfl

theorem fillSlot_noSource {i : SlotId} (none' : s.pe.reportIndex = none) (source : s.pe.source = none) : fillSlot i s = none := by
  unfold fillSlot
  simp only [none', source]

theorem fillSlot_spent {i : SlotId} {z : Source} (none' : s.pe.reportIndex = none) (source : s.pe.source = some z)
    (spent : max 1 ((z.length + 47) / 48) ≤ z.filled) : fillSlot i s = none := by
  unfold fillSlot
  simp only [none', source]
  exact if_neg (Nat.not_lt.mpr spent)

/-- An entry gives its next parcel, LOADING from its place in the ring, or FILLED where its body is empty (log entry 36). -/
theorem fillSlot_entry {i : SlotId} {z : Source} (none' : s.pe.reportIndex = none) (source : s.pe.source = some z)
    (left : z.filled < max 1 ((z.length + 47) / 48)) :
    let p : SlotParcel := ⟨false, z.serial, z.filled, z.filled + 1 == max 1 ((z.length + 47) / 48),
      min 48 (z.length - 48 * z.filled), []⟩
    fillSlot i s = some { s with pe := { (s.pe.filling i).setSlot i (
        if p.length = 0 then .filled p else .loading p ((z.start + 48 * z.filled) % s.spoolSize)) with
      source := some { z with filled := z.filled + 1 } } } := by
  unfold fillSlot
  simp only [none', source]
  refine (if_pos left).trans ?_
  cases i <;> rfl

end

/-! ## The obligation's parts -/

/-- What begins next on an idle transmitter in READY with no control parcel and no station hold. -/
theorem beginNext_slots {s : State} (idle : s.txIdle) (ready : s.clu.line = .ready) (empty : s.pe.control = [])
    (free : s.pe.stationHold = false) :
    (∀ p q n tx, s.pe.slot s.pe.older = .outstanding p q n true tx → beginNext s =
      some (s.begins (.slot s.pe.older) (p.parcel q) { s.pe.setSlot s.pe.older (.outstanding p q (min 15 (n + 1)) false true) with
        resends := bump s.pe.resends, ackTimer := none })) ∧
    (∀ p q n tx, (s.pe.slot s.pe.older).resendDue = false → s.pe.slot s.pe.older.other = .outstanding p q n true tx →
      beginNext s = some (s.begins (.slot s.pe.older.other) (p.parcel q)
        { s.pe.setSlot s.pe.older.other (.outstanding p q (min 15 (n + 1)) false true) with
          resends := bump s.pe.resends
          ackTimer := if (s.pe.slot s.pe.older).isOutstanding then s.pe.ackTimer else none })) ∧
    (∀ i p, (s.pe.slot .a).resendDue = false → (s.pe.slot .b).resendDue = false → s.pe.slot i = .filled p →
      (i = s.pe.older ∨ (s.pe.slot s.pe.older).isFilled = false) → beginNext s =
      some (s.begins (.slot i) (p.parcel s.pe.nextSeq) { s.pe.setSlot i (.outstanding p s.pe.nextSeq 1 false true) with
        nextSeq := s.pe.nextSeq + 1 })) := by
  refine ⟨fun p q n tx slot => ?_, fun p q n tx first slot => ?_, fun i p a b slot order => ?_⟩
  · have resent : s.pe.resent = some s.pe.older := (find_byAge ..).trans (if_pos (by rw [slot]; rfl))
    rw [beginNext_resent idle ready empty free resent, beginSlot_resent slot, if_pos (oldest_set_older rfl)]
  · have resent : s.pe.resent = some s.pe.older.other :=
      (find_byAge ..).trans ((if_neg (by simp [first])).trans (if_pos (by rw [slot]; rfl)))
    rw [beginNext_resent idle ready empty free resent, beginSlot_resent slot]
    simp only [oldest_set_other (e := s.pe) (v := .outstanding p q (min 15 (n + 1)) false true) rfl]
    cases (s.pe.slot s.pe.older).isOutstanding <;> rfl
  · have none' : s.pe.resent = none := by
      have due : ∀ j, (s.pe.slot j).resendDue = false := fun j => by cases j <;> assumption
      refine (find_byAge ..).trans ?_
      simp [due]
    have held : (s.pe.slot i).isFilled = true := by rw [slot]; rfl
    have unsent : s.pe.unsent = some i := by
      refine (find_byAge ..).trans ?_
      rcases slot_cases s.pe i with older | other
      · rw [← older, if_pos held]
      · have first : (s.pe.slot s.pe.older).isFilled = false :=
          order.resolve_left fun older => ne_other s.pe.older (older.symm.trans other)
        rw [if_neg (by simp [first]), ← other, if_pos held]
    rw [beginNext_unsent idle ready empty free none' unsent, beginSlot_unsent slot]

/-- The last character of a slot's or a control parcel, or of none. -/
theorem characterSent_ends {s : State} :
    (∀ i p q n due tx, s.pe.tx = some ⟨.slot i, []⟩ → s.pe.slot i = .outstanding p q n due tx → characterSent s = { s with
      clu := { s.clu with txChar := none }
      pe := { s.pe.setSlot i (.outstanding p q n due false) with
        tx := none
        ackTimer := if i = s.pe.older ∨ (s.pe.slot s.pe.older).isOutstanding = false
          then (if due = true then none else some s.work.ack) else s.pe.ackTimer } }) ∧
    (s.pe.tx = some ⟨.control .clear, []⟩ → s.clu.line = .clearing → characterSent s =
      { (s.onLine { s.clu.still with line := .off, txChar := none }).limited false with
        pe := { s.pe with tx := none, control := [] } }) ∧
    (∀ i, s.pe.tx = some ⟨.slot i, []⟩ → s.pe.slot i = .ending → characterSent s =
      { s with clu := { s.clu with txChar := none }, pe := { s.pe.setSlot i .free with tx := none } }) := by
  refine ⟨fun i p q n due tx last slot => ?_, fun last clearing => ?_, fun i last slot => ?_⟩
  · rw [characterSent_slot last, endSlot_of (e := s.sentLast.pe) (by cases i <;> exact slot)]
    cases i <;> rfl
  · rw [characterSent_clear last clearing]
    exact enterOff_turns (s := s.sentLast) (by show s.clu.line.txOn = true; rw [clearing]; rfl)
  · have left : s.sentLast.pe.slot i = .ending := by cases i <;> exact slot
    rw [characterSent_slot last]
    unfold endSlot
    rw [left]
    cases i <;> rfl

/-- Settles O17, part by part: the characters, the end of a character, the tones, what begins next, and what fills a slot. -/
theorem characterSent_byPart : Obligations.CharacterSent := by
  refine ⟨fun p v q => ?_, fun s awake held => ?_, fun c space => rfl, fun c => ⟨fun off => ?_, fun on => ?_⟩,
    fun mark => by cases mark <;> rfl, fun s held tx => ?_, fun s busy => ?_, fun s => ⟨fun h => ?_, fun ready free held tx => ?_,
      fun i => ?_⟩⟩
  · intro image
    exact ⟨chars_eq p, rfl, fun c => by cases c <;> rfl, rfl⟩
  · obtain ⟨slot, clear, ending⟩ := characterSent_ends (s := s)
    exact ⟨fun item c rest tx => exec_characterSent awake held (characterSent_goesOn tx),
      fun tx => exec_characterSent awake held (characterSent_idle tx),
      fun i p q n due tx last at' => exec_characterSent awake held (slot i p q n due tx last at'),
      fun last clearing => exec_characterSent awake held (clear last clearing),
      fun c last other => exec_characterSent awake held (characterSent_control last other),
      fun i last at' => exec_characterSent awake held (ending i last at')⟩
  · exact sends_of_off (by rcases off with h | h | h <;> rw [h] <;> rfl)
  · have txOn : c.line.txOn = true := by rcases on with h | h | h | h <;> rw [h] <;> rfl
    exact ⟨sends_of_idle txOn, fun x => sends_of_held txOn⟩
  · intro begun
    have idle : s.txIdle := ⟨held, tx⟩
    refine ⟨fun i p => rfl, fun ready => ?_, fun clearing => ⟨fun only => ?_, beginNext_noClear idle clearing⟩,
      beginNext_silent idle⟩
    · refine ⟨fun c cs front => ?_, beginNext_held idle ready, fun p q n tx empty free => ?_, fun p q n tx empty free => ?_,
        fun i p empty free => ?_⟩
      · have begins := beginControl_front front
        by_cases hold : c = .hold
        · rw [if_pos hold] at begins ⊢
          exact beginNext_control idle ready begins
        · rw [if_neg hold] at begins ⊢
          by_cases resume : c = .resume
          · rw [if_pos resume] at begins ⊢
            exact beginNext_control idle ready begins
          · rw [if_neg resume] at begins ⊢
            exact beginNext_control idle ready begins
      · exact (beginNext_slots idle ready empty free).1 p q n tx
      · exact (beginNext_slots idle ready empty free).2.1 p q n tx
      · exact (beginNext_slots idle ready empty free).2.2 i p
    · exact (beginNext_clear idle clearing only).trans (beginControl_front only)
  · refine ⟨beginNext_busy busy, fillNext_stays fun ⟨_, _, idle⟩ => txIdle_not_busy idle busy⟩
  · refine fillNext_stays fun ⟨ready, free, _⟩ => ?_
    rcases h with h | h
    · exact h ready
    · exact absurd (free.symm.trans h) (by decide)
  · rw [fillNext_fills ready free ⟨held, tx⟩]
    refine ⟨fun a b => if_pos ⟨a, b⟩, fun a b loading => ?_, fun a b => ?_, fun loading => ?_⟩
    · exact (if_neg fun h => a h.1).trans (if_pos ⟨b, loading⟩)
    · exact (if_neg fun h => a h.1).trans (if_neg fun h => b h.1)
    · have notFree : ∀ {v : SendSlot}, v.isLoading = true → v ≠ .free := fun h e => by rw [e] at h; cases h
      refine (if_neg fun h => ?_).trans (if_neg fun h => ?_)
      · exact loading.elim (fun l => notFree l h.1) fun l => by rw [h.2] at l; cases l
      · exact loading.elim (fun l => by rw [h.2] at l; cases l) fun l => notFree l h.1
  · intro first
    refine ⟨fun k r at' left done => fillSlot_report (reportIndex_some at' left done) at', fun done => ?_,
      fun p o data slot => ?_⟩
    · have none' := reportIndex_none done
      exact ⟨fillSlot_noSource none', fun z source => fillSlot_spent none' source, fun z source => fillSlot_entry none' source⟩
    · show bodyRead i data s = _
      unfold bodyRead
      rw [slot]
      rfl

end Sys2Proof.Machine
end

