-- ==== Sys2Proof/Proofs/ReceivedParcels.lean ====
section
/-! SUPPORT. A parcel from the station: its judgment and its check, and what a GOOD one of each kind does (R38, R41–R45,
R49–R53, R55, R57, R114, R188). -/

namespace Sys2Proof.Machine

/-! ## A GOOD parcel is counted and acted on (R41, R42) -/

section
variable {s e : State} {p : Parcel} {seq : Byte} {body : Text}

/-- `s` with one more GOOD parcel counted. -/
def State.counted (s : State) : State := { s with pe := { s.pe with good := bump s.pe.good } }

theorem received_good (receiving : s.receiving = true) (within : p.inRange = true) (effect : actOn p s.counted = e) :
    guarded s.receiving (takeParcel p s) s = .next (finish e) :=
  guarded_eq receiving ((takeParcel_good within s).trans effect)

theorem exec_receiveText (receiving : s.receiving = true) (window : seq.toNat ≤ 7) (short : body.length ≤ 48)
    (effect : onText (seq.setWidth 3) body s.counted = e) : exec (.receiveText seq body) s = .next (finish e) :=
  received_good (p := ⟨.text, seq, 0, 0, false, body⟩) receiving (by simp [Parcel.inRange, window, short]) effect

theorem exec_receiveAck (receiving : s.receiving = true) (window : seq.toNat ≤ 7)
    (effect : onAck (seq.setWidth 3) s.counted = e) : exec (.receiveAck seq) s = .next (finish e) :=
  received_good (p := ⟨.ack, seq, 0, 0, false, []⟩) receiving (by simp [Parcel.inRange, window]) effect

theorem exec_receiveNak (receiving : s.receiving = true) (window : seq.toNat ≤ 7)
    (effect : onNak (seq.setWidth 3) s.counted = e) : exec (.receiveNak seq) s = .next (finish e) :=
  received_good (p := ⟨.nak, seq, 0, 0, false, []⟩) receiving (by simp [Parcel.inRange, window]) effect

theorem exec_receiveAccept {serial : BitVec 16} (receiving : s.receiving = true)
    (effect : onAccept serial.toNat s.counted = e) : exec (.receiveAccept serial) s = .next (finish e) :=
  received_good (p := ⟨.accept, 0, serial, 0, false, []⟩) receiving rfl effect

theorem exec_receiveReject {serial : BitVec 16} {code : Byte} (receiving : s.receiving = true) (low : 1 ≤ code.toNat)
    (high : code.toNat ≤ 99) (short : body.length ≤ 24) (effect : onReject serial.toNat code.toNat body s.counted = e) :
    exec (.receiveReject serial code body) s = .next (finish e) :=
  received_good (p := ⟨.reject, 0, serial, code, false, body⟩) receiving (by simp [Parcel.inRange, low, high, short]) effect

end

/-! ## The station hold (R57) -/

/-- Settles O24: HOLD and RESUME are GOOD parcels that are always in range, and the expiry is guarded by the timer alone. -/
theorem stationHold : Obligations.StationHold := by
  intro s d receiving
  refine ⟨?_, ?_, fun timer => guarded_of (by simp [receiving, timer]) _ s⟩
  · refine received_good (p := ⟨.hold, 0, d, 0, false, []⟩) receiving rfl ?_
    have zero : d.toNat = 0 ↔ d = 0 := (BitVec.toNat_eq (y := 0)).symm
    show onHold d.toNat s.counted = _
    simp only [onHold, zero]
    rfl
  · exact received_good (p := ⟨.resume, 0, 0, 0, false, []⟩) receiving rfl rfl

/-! ## The first member of a list that satisfies a test -/

section
variable {α : Type} {f : α → Bool} {before after l : List α} {d : α}

theorem findIdx?_miss (miss : ∀ x ∈ l, ¬ f x = true) : l.findIdx? f = none :=
  List.findIdx?_eq_none_iff.mpr fun x h => Bool.eq_false_iff.mpr (miss x h)

theorem findIdx?_first (at' : l = before ++ d :: after) (hit : f d = true) (miss : ∀ x ∈ before, ¬ f x = true) :
    l.findIdx? f = some before.length := by
  rw [at', List.findIdx?_append, findIdx?_miss miss, List.findIdx?_cons, hit]
  simp

end

/-! ## The control queue (R55) -/

section
variable {p : Pe} {c d : Control} {before after : List Control}

theorem replaces_iff : c.replaces d = true ↔ (∃ a b, c = .ack a ∧ d = .ack b) ∨ ∃ a b, c = .nak a ∧ d = .nak b := by
  cases c <;> cases d <;> simp [Control.replaces]

theorem minor_iff : d.minor = true ↔ (∃ a, d = .ack a) ∨ (∃ a, d = .nak a) ∨ d = .reminder := by
  cases d <;> simp [Control.minor]

theorem queue_replaces (at' : p.control = before ++ d :: after) (hit : c.replaces d = true)
    (miss : ∀ x ∈ before, ¬ c.replaces x = true) : p.queue c = { p with control := before ++ c :: after } := by
  unfold Pe.queue
  rw [findIdx?_first at' hit miss]
  simp [at']

section
variable (alone : p.control.findIdx? (fun q => c.replaces q) = none) (full : 4 ≤ p.control.length)
include alone full

/-- In a full queue HOLD and RESUME look for a parcel to take the place of. -/
theorem queue_full_flow (flow : c = .hold ∨ c = .resume) : p.queue c =
    match p.control.findIdx? Control.minor with
    | some i => { p with control := p.control.set i c }
    | none => p := by
  unfold Pe.queue
  rw [alone]
  exact (if_neg (Nat.not_lt.mpr full)).trans (if_pos flow)

theorem queue_full_drops (other : ¬ (c = .hold ∨ c = .resume)) : p.queue c = p := by
  unfold Pe.queue
  rw [alone]
  exact (if_neg (Nat.not_lt.mpr full)).trans (if_neg other)

theorem queue_full_takes (flow : c = .hold ∨ c = .resume) (at' : p.control = before ++ d :: after) (hit : d.minor = true)
    (miss : ∀ x ∈ before, ¬ x.minor = true) : p.queue c = { p with control := before ++ c :: after } := by
  rw [queue_full_flow alone full flow, findIdx?_first at' hit miss]
  simp [at']

theorem queue_full_finds_none (flow : c = .hold ∨ c = .resume) (miss : ∀ d ∈ p.control, ¬ d.minor = true) : p.queue c = p := by
  rw [queue_full_flow alone full flow, findIdx?_miss miss]

end

end

/-! ## TEXT from the station (R43–R45) -/

section
variable {s : State} {q : BitVec 3} {body : Text}

theorem onText_accepts (next : q = s.pe.expected) (fits : s.du.input.length + body.length ≤ 64) : onText q body s = { s with
    pe := { s.pe with control := (s.pe.queue (.ack q)).control, expected := s.pe.expected + 1 }
    du := { s.du with input := s.du.input ++ body } } := by
  refine ((if_pos next).trans (if_pos fits)).trans ?_
  rw [Pe.queue_eq]
  rfl

theorem remind_eq (p : Pe) (ack : Nat) : p.remind ack = if p.held = true ∧ p.reminderTimer = none
    then { p with control := (p.queue .reminder).control, reminderTimer := some ack } else p := by
  unfold Pe.remind
  rw [Pe.queue_eq]
  simp only [Option.isNone_iff_eq_none]

theorem onText_refuses (next : q = s.pe.expected) (above : 64 < s.du.input.length + body.length) : onText q body s = { s with
    pe := if s.pe.held = true ∧ s.pe.reminderTimer = none
      then { s.pe with
        refused := bump s.pe.refused, control := (s.pe.queue .reminder).control, reminderTimer := some s.work.ack }
      else { s.pe with refused := bump s.pe.refused } } := by
  refine ((if_pos next).trans (if_neg (Nat.not_le.mpr above))).trans ?_
  rw [remind_eq, Pe.queue_congr (p := { s.pe with refused := bump s.pe.refused }) (p' := s.pe) .reminder rfl]
  rfl

theorem onText_duplicate (last : q + 1 = s.pe.expected) : onText q body s =
    { s with pe := { s.pe with control := (s.pe.queue (.ack q)).control, duplicates := bump s.pe.duplicates } } := by
  have other : q ≠ s.pe.expected := fun same => absurd (same.trans last.symm) (by bv_omega)
  refine ((if_neg other).trans (if_pos last)).trans ?_
  rw [Pe.queue_eq]
  rfl

theorem onText_outOfSequence (other : q ≠ s.pe.expected) (last : q + 1 ≠ s.pe.expected) : onText q body s =
    { s with pe := s.pe.nakked s.work.ack } := by
  refine ((if_neg other).trans (if_neg last)).trans ?_
  rw [Pe.queueNak_eq]
  rfl

end

/-- Settles O20: the control queue by what it holds, then TEXT by its sequence and the room for its body. -/
theorem receiveText : Obligations.ReceiveText := by
  refine ⟨fun p c => ?_, fun s seq body receiving => ?_⟩
  · simp only [← replaces_iff, ← minor_iff]
    refine ⟨fun before d after at' hit miss => queue_replaces at' hit miss, fun alone => ?_⟩
    have none' := findIdx?_miss (f := fun q => c.replaces q) alone
    exact ⟨Pe.queue_room none', fun full flow => ⟨fun before d after => queue_full_takes none' full flow,
      queue_full_finds_none none' full flow⟩, fun full hold resume => queue_full_drops none' full (not_or.mpr ⟨hold, resume⟩)⟩
  · intro q p
    refine ⟨fun window short => ⟨fun next fits => ?_, fun next above => ?_, fun last => ?_, fun other last => ?_⟩, fun out => ?_⟩
    · exact exec_receiveText receiving window short (onText_accepts (s := s.counted) next fits)
    · exact exec_receiveText receiving window short (onText_refuses (s := s.counted) next above)
    · exact exec_receiveText receiving window short (onText_duplicate (s := s.counted) last)
    · exact exec_receiveText receiving window short (onText_outOfSequence (s := s.counted) other last)
    · exact guarded_eq receiving (takeParcel_bad (p := ⟨.text, seq, 0, 0, false, body⟩)
        (Bool.eq_false_iff.mpr fun within => by
          simp only [Parcel.inRange, Bool.and_eq_true, decide_eq_true_eq] at within
          omega) s)

/-! ## The judgment (R41) -/

section
variable {a : Assembler} {k : ParcelKind}

/-- The parcel whose kind is `k` and whose other fields the bytes give. -/
def Parcel.ofBytes (k : ParcelKind) (l : Text) : Parcel :=
  ⟨k, l.getD 1 0, BitVec.ofNat 16 (wordAt l 2), l.getD 4 0, (l.getD 5 0).getLsbD 0, (l.drop 7).take (byteAt l 6)⟩

theorem parcelOf_kind {l : Text} (kind : l.getD 0 0 = ParcelKind.code k) : parcelOf l = some (.ofBytes k l) := by
  unfold parcelOf
  rw [kind, ParcelKind.ofCode_code]
  rfl

theorem parcelOf_noKind {l : Text} (none' : ∀ k, l.getD 0 0 ≠ ParcelKind.code k) : parcelOf l = none := by
  unfold parcelOf
  rw [Option.map_eq_none_iff, Option.eq_none_iff_forall_ne_some]
  exact fun k h => none' k (ParcelKind.code_of_ofCode h)

/-- No bad escape, and the check is that of header and body. -/
def Assembler.clean (a : Assembler) : Prop := a.badEscape = false ∧
  checkBytes (a.bytes.take (7 + byteAt a.bytes 6)) = (a.bytes.drop (7 + byteAt a.bytes 6)).take 2

theorem clean_iff : a.clean ↔ ¬ (a.badEscape || !parcelCheckOk a.bytes) = true := by
  unfold Assembler.clean
  rw [← parcelCheckOk_iff]
  simp

theorem judge_framing (framing : a.framing = true) : a.judge = (.framing, none) := if_pos framing

theorem judge_unclean (whole : a.framing = false) (unclean : ¬ a.clean) : a.judge = (.badCheck, none) :=
  (if_neg (by simp [whole])).trans (if_pos (Decidable.byContradiction fun passes => unclean (clean_iff.mpr passes)))

theorem judge_clean (whole : a.framing = false) (clean : a.clean) : a.judge =
    match parcelOf a.bytes with
    | some p => if p.inRange then (.good, some p) else (.badCheck, none)
    | none => (.badCheck, none) :=
  (if_neg (by simp [whole])).trans (if_neg (clean_iff.mp clean))

theorem judge_noKind (whole : a.framing = false) (clean : a.clean) (none' : ∀ k, a.bytes.getD 0 0 ≠ ParcelKind.code k) :
    a.judge = (.badCheck, none) := by
  rw [judge_clean whole clean, parcelOf_noKind none']

theorem judge_kind (whole : a.framing = false) (clean : a.clean) (kind : a.bytes.getD 0 0 = ParcelKind.code k) : a.judge =
    if (Parcel.ofBytes k a.bytes).inRange = true then (.good, some (.ofBytes k a.bytes)) else (.badCheck, none) := by
  rw [judge_clean whole clean, parcelOf_kind kind]

end

/-! ## The check (R188) -/

theorem checkBytes_eq (l : Text) : checkBytes l = [(check l >>> 8).setWidth 8, (check l).setWidth 8] := by
  unfold checkBytes be16 byteOf
  congr 1
  apply BitVec.eq_of_toNat_eq
  simp [Nat.shiftRight_eq_div_pow]

theorem checkBit_eq (r : BitVec 16) (bit : Bool) : checkBit r bit = if r.msb = bit then r <<< 1 else (r <<< 1) ^^^ 0x1021#16 := by
  unfold checkBit
  by_cases same : r.msb = bit <;> simp [same]

theorem check_append (l : Text) (b : Byte) : check (l ++ [b]) = [7, 6, 5, 4, 3, 2, 1, 0].foldl (fun (r : BitVec 16) i =>
    if r.msb = b.getLsbD i then r <<< 1 else (r <<< 1) ^^^ 0x1021#16) (check l) := by
  simp only [← checkBit_eq]
  exact List.foldl_append

/-- Settles O19: the expiry acts on the judgment, the judgment asks in its order, and the check goes on by one byte. -/
theorem closeTimerExpires : Obligations.CloseTimerExpires := by
  refine ⟨fun s receiving waits timer => ?_, fun a => ?_, fun l b => ⟨rfl, checkBytes_eq l, check_append l b⟩⟩
  · have runs : (s.pm.power.awake && s.clu.line == .ready && s.pe.asm.closeTimer && s.pe.asm.state == .closeWait) = true := by
      rw [show (s.pm.power.awake && s.clu.line == .ready) = true from receiving, timer, waits]
      rfl
    refine ⟨fun bad => guarded_eq runs ((closed_bad bad).trans (parcelBad_eq _)), fun p good => ?_⟩
    have receiving' : (s.withAsm huntingAsm).receiving = true := receiving
    exact (guarded_eq runs (closed_good good)).trans (received_eq receiving' (inRange_of_judge good)).symm
  · refine ⟨judge_framing, judge_unclean, judge_noKind, fun k whole clean kind => ?_⟩
    rw [judge_kind whole clean kind]
    exact ⟨fun within => if_pos ((Parcel.inRange_iff _).mpr within),
      fun out => if_neg fun within => out ((Parcel.inRange_iff _).mp within)⟩

/-! ## ACK and NAK (R49–R52) -/

section
variable {p : SlotParcel} {s : State}

theorem passOn_notLast (last : p.last = false) : passOn p s = s := if_neg (by simp [last])

theorem passOn_entry (last : p.last = true) (entry : p.report = false) : passOn p s = lastAck p.serial s :=
  (if_pos last).trans (if_neg (by simp [entry]))

theorem passOn_report (last : p.last = true) (report : p.report = true) : passOn p s =
    match s.pe.reports.findIdx? fun r => r.tag == p.serial with
    | some k => s.setPe { s.pe with reports := s.pe.reports.eraseIdx k }
    | none => s :=
  (if_pos last).trans (if_pos report)

theorem passOn_report_gone (last : p.last = true) (report : p.report = true) (gone : ∀ x ∈ s.pe.reports, x.tag ≠ p.serial) :
    passOn p s = s := by
  rw [passOn_report last report, findIdx?_miss fun x h => by simpa using gone x h]

theorem passOn_report_held {before after : List Report} {r : Report} (last : p.last = true) (report : p.report = true)
    (at' : s.pe.reports = before ++ r :: after) (tag : r.tag = p.serial) (first : ∀ x ∈ before, x.tag ≠ p.serial) :
    passOn p s = { s with pe := { s.pe with reports := before ++ after } } := by
  rw [passOn_report last report, findIdx?_first at' (by simpa using tag) fun x h => by simpa using first x h]
  simp [at', List.eraseIdx_append_of_length_le, State.setPe]

end

/-- What an acknowledged parcel leaves of its slot (R49, log entry 13). -/
def acknowledged (tx : Bool) : SendSlot := if tx = true then .ending else .free

theorem seq_of_notOutstanding {v : SendSlot} {q : BitVec 3} (h : v.isOutstanding = false) : v.seq ≠ some q := by
  cases v with
  | outstanding => cases h
  | _ => exact fun e => nomatch e

theorem timer_of_notOutstanding {v : SendSlot} (ack : Nat) (h : v.isOutstanding = false) : v.timer ack = none := by
  cases v with
  | outstanding => cases h
  | _ => rfl

theorem markResend_of_notOutstanding {v : SendSlot} (h : v.isOutstanding = false) : v.markResend = v := by
  cases v with
  | outstanding => cases h
  | _ => rfl

section
variable {e : Pe} {i : SlotId}

theorem oldest_outstanding (oldest : e.oldest = some i) : (e.slot i).isOutstanding = true :=
  List.find?_some (p := fun i => (e.slot i).isOutstanding) oldest

/-- With the one slot not OUTSTANDING, a resend marks the other alone. -/
theorem resendAll_alone (gone : (e.slot i).isOutstanding = false) :
    e.resendAll = e.setSlot i.other (e.slot i.other).markResend := by
  have stands : (e.slot i).markResend = e.slot i := markResend_of_notOutstanding gone
  cases i with
  | a => exact congrArg (fun v => ({ e with slotA := v, slotB := e.slotB.markResend } : Pe)) stands
  | b => exact congrArg (fun v => ({ e with slotA := e.slotA.markResend, slotB := v } : Pe)) stands

/-- With the one slot not OUTSTANDING, the other's parcel is the oldest. -/
theorem oldest_alone (gone : (e.slot i).isOutstanding = false) (left : (e.slot i.other).isOutstanding = true) :
    e.oldest = some i.other := by
  rcases slot_cases e i with older | younger
  · subst older
    exact oldest_other gone left
  · subst younger
    rw [other_other] at left ⊢
    exact oldest_older left

theorem outstanding_none (none' : ∀ j, (e.slot j).isOutstanding = false) : e.outstanding = [] := by
  simp [Pe.outstanding, none']

theorem outstanding_one (oldest : e.oldest = some i) (other : (e.slot i.other).isOutstanding = false) : e.outstanding = [i] := by
  have out := oldest_outstanding oldest
  unfold Pe.outstanding Pe.byAge
  rcases oldest_cases oldest with rfl | ⟨rfl, gone⟩
  · simp [List.filter, out, other]
  · simp [List.filter, out, gone]

theorem outstanding_both (oldest : e.oldest = some i) (other : (e.slot i.other).isOutstanding = true) :
    e.outstanding = [i, i.other] := by
  have out := oldest_outstanding oldest
  unfold Pe.outstanding Pe.byAge
  rcases oldest_cases oldest with rfl | ⟨rfl, gone⟩
  · simp [List.filter, out, other]
  · rw [other_other, gone] at other
    cases other

theorem startAckTimer_oldest (k : Nat) (oldest : e.oldest = some i) : startAckTimer k e =
    { e with ackTimer := if ((e.slot i).inTx || (e.slot i).resendDue) = true then none else some k } := by
  unfold startAckTimer
  rw [oldest]

/-- A sequence that neither the slot nor the other one has names none. -/
theorem upTo_neither {q : BitVec 3} (one : (e.slot i).seq ≠ some q) (other : (e.slot i.other).seq ≠ some q) : e.upTo q = none := by
  cases i with
  | a => exact upTo_none one other
  | b => exact upTo_none other one

end

section
variable {s : State} {q : BitVec 3} {is : List SlotId}

theorem onAck_stray (none' : s.pe.upTo q = none) : onAck q s = { s with pe := { s.pe with stray := bump s.pe.stray } } := by
  unfold onAck
  rw [none']
  rfl

theorem onAck_takes (takes : s.pe.upTo q = some is) : onAck q s = ackAll is s := by
  unfold onAck
  rw [takes]

theorem onNak_stray (none' : s.pe.upTo q = none) (other : q ≠ s.pe.nextSeq) :
    onNak q s = { s with pe := { s.pe with stray := bump s.pe.stray } } := by
  unfold onNak
  rw [none']
  exact if_neg other

theorem onNak_next (none' : s.pe.upTo q = none) (next : q = s.pe.nextSeq) : onNak q s = ackAll s.pe.outstanding s := by
  unfold onNak
  rw [none']
  exact if_pos next

theorem onNak_takes (takes : s.pe.upTo q = some is) :
    onNak q s = (ackAll is.dropLast s).setPe (ackAll is.dropLast s).pe.resend := by
  unfold onNak
  rw [takes]

end

section
variable {s : State} {i : SlotId} {p p' : SlotParcel} {q r : BitVec 3} {n n' : Nat} {due due' tx tx' : Bool}

theorem onAck_oldest (oldest : s.pe.oldest = some i) (slot : s.pe.slot i = .outstanding p q n due tx) : onAck q s =
    passOn p { s with pe := { s.pe.setSlot i (acknowledged tx) with ackTimer := (s.pe.slot i.other).timer s.work.ack } } :=
  (onAck_takes (upTo_oldest oldest slot)).trans (ackAll_one oldest slot)

theorem onAck_younger (oldest : s.pe.oldest = some i) (slot : s.pe.slot i = .outstanding p r n due tx) (ne : r ≠ q)
    (slot' : s.pe.slot i.other = .outstanding p' q n' due' tx') : onAck q s = passOn p' (passOn p { s with
      pe := { (s.pe.setSlot i (acknowledged tx)).setSlot i.other (acknowledged tx') with ackTimer := none } }) :=
  (onAck_takes (upTo_younger oldest slot slot' ne)).trans (ackAll_both slot slot')

/-- A NAK of the oldest makes all resend-due; the ACK timer is stopped, for it does not run for a parcel in transmission. -/
theorem onNak_oldest (oldest : s.pe.oldest = some i) (slot : s.pe.slot i = .outstanding p q n due tx) : onNak q s =
    { s with pe := { s.pe.resendAll with ackTimer := none } } := by
  refine (onNak_takes (upTo_oldest oldest slot)).trans ?_
  let t := if ((s.pe.slot i).inTx || (s.pe.slot i).resendDue) = true then none else some s.work.ack
  have acked : ackAll [] s = s.setPe { s.pe with ackTimer := t } := congrArg s.setPe (startAckTimer_oldest _ oldest)
  have stops : ({ s.pe with ackTimer := t } : Pe).resend = { s.pe.resendAll with ackTimer := none } := by
    refine resend_stops (e := { s.pe with ackTimer := t }) oldest slot fun h => if_pos ?_
    rw [slot]
    rcases h with rfl | rfl <;> simp [SendSlot.inTx, SendSlot.resendDue]
  show (ackAll [] s).setPe (ackAll [] s).pe.resend = _
  rw [acked, State.setPe_pe, stops]
  rfl

/-- The resend that follows an acknowledgment, where it stops the ACK timer whatever reports are left. -/
theorem resend_passOn (stops : ∀ reports, ({ s.pe with reports := reports } : Pe).resend =
      { s.pe.resendAll with reports := reports, ackTimer := none }) :
    (passOn p s).setPe (passOn p s).pe.resend = passOn p { s with pe := { s.pe.resendAll with ackTimer := none } } := by
  refine Eq.trans ?_ (passOn_setPe p s (e := { s.pe.resendAll with ackTimer := none }) rfl).symm
  rw [pe_passOn, stops]

/-- A NAK of the younger acknowledges the oldest, and the younger is then the oldest, resend-due. -/
theorem onNak_younger (oldest : s.pe.oldest = some i) (slot : s.pe.slot i = .outstanding p r n due tx) (ne : r ≠ q)
    (slot' : s.pe.slot i.other = .outstanding p' q n' due' tx') : onNak q s = passOn p { s with
      pe := { (s.pe.setSlot i (acknowledged tx)).setSlot i.other (.outstanding p' q n' (due' || !tx') tx') with
        ackTimer := none } } := by
  refine (onNak_takes (upTo_younger oldest slot slot' ne)).trans ?_
  show (ackAll [i] s).setPe (ackAll [i] s).pe.resend = _
  rw [ackAll_one oldest slot]
  let left : Pe := { s.pe.setSlot i (acknowledged tx) with ackTimer := (s.pe.slot i.other).timer s.work.ack }
  have gone : (left.slot i).isOutstanding = false := by cases i <;> cases tx <;> rfl
  have stays : left.slot i.other = .outstanding p' q n' due' tx' := by rw [← slot']; cases i <;> rfl
  have alone : left.oldest = some i.other := oldest_alone gone (by rw [stays]; rfl)
  refine (resend_passOn (s := s.setPe left) fun reports =>
    resend_stops (e := { left with reports := reports }) alone stays fun h => ?_).trans ?_
  · show (s.pe.slot i.other).timer s.work.ack = none
    rw [slot']
    rcases h with rfl | rfl <;> simp [SendSlot.timer]
  · show passOn p (s.setPe { left.resendAll with ackTimer := none }) = _
    rw [resendAll_alone gone, stays]
    cases i <;> rfl

/-- A NAK of the next sequence acknowledges the one OUTSTANDING parcel. -/
theorem onNak_next_one (oldest : s.pe.oldest = some i) (slot : s.pe.slot i = .outstanding p r n due tx) (ne : r ≠ q)
    (next : q = s.pe.nextSeq) (other : (s.pe.slot i.other).isOutstanding = false) : onNak q s = passOn p { s with
      pe := { s.pe.setSlot i (acknowledged tx) with ackTimer := none } } := by
  have none' : s.pe.upTo q = none :=
    upTo_neither (i := i) (by rw [slot]; exact fun e => ne (Option.some.inj e)) (seq_of_notOutstanding other)
  rw [onNak_next none' next, outstanding_one oldest other, ackAll_one oldest slot, timer_of_notOutstanding _ other]
  rfl

/-- A NAK of the next sequence acknowledges both OUTSTANDING parcels. -/
theorem onNak_next_both {r' : BitVec 3} (oldest : s.pe.oldest = some i) (slot : s.pe.slot i = .outstanding p r n due tx)
    (ne : r ≠ q) (next : q = s.pe.nextSeq) (slot' : s.pe.slot i.other = .outstanding p' r' n' due' tx') (ne' : r' ≠ q) :
    onNak q s = passOn p' (passOn p { s with
      pe := { (s.pe.setSlot i (acknowledged tx)).setSlot i.other (acknowledged tx') with ackTimer := none } }) := by
  have none' : s.pe.upTo q = none :=
    upTo_neither (i := i) (by rw [slot]; exact fun e => ne (Option.some.inj e))
      (by rw [slot']; exact fun e => ne' (Option.some.inj e))
  rw [onNak_next none' next, outstanding_both oldest (by rw [slot']; rfl), ackAll_both slot slot']
  rfl

/-- A NAK of the next sequence with nothing OUTSTANDING finds nothing to acknowledge. -/
theorem onNak_next_none (gone : ∀ j, (s.pe.slot j).isOutstanding = false) (next : q = s.pe.nextSeq) :
    onNak q s = { s with pe := { s.pe with ackTimer := none } } := by
  have none' : s.pe.upTo q = none := upTo_none (seq_of_notOutstanding (gone .a)) (seq_of_notOutstanding (gone .b))
  rw [onNak_next none' next, outstanding_none gone]
  show s.setPe (startAckTimer s.work.ack s.pe) = _
  rw [startAckTimer_next (gone _), timer_of_notOutstanding _ (gone _)]
  rfl

end

/-- Settles O21: which parcel is the oldest, what is passed on, then ACK by what it names. -/
theorem receiveAck : Obligations.ReceiveAck := by
  refine ⟨fun p => ⟨oldest_older, oldest_other, oldest_none⟩, fun p s => ⟨passOn_notLast, fun last report =>
    ⟨fun before r after => passOn_report_held last report, passOn_report_gone last report⟩, passOn_entry⟩,
    fun s seq receiving window => ?_⟩
  refine ⟨fun a b => ?_, fun i p n due tx oldest slot => ?_, fun i p r n due tx p' n' due' tx' oldest slot ne slot' => ?_⟩
  · exact exec_receiveAck receiving window (onAck_stray (s := s.counted) (upTo_none a b))
  · have good := onAck_oldest (s := s.counted) oldest slot
    exact exec_receiveAck receiving window (by cases i <;> exact good)
  · have good := onAck_younger (s := s.counted) oldest slot ne slot'
    exact exec_receiveAck receiving window (by cases i <;> exact good)

/-- Settles O23: NAK by what it names, and what a resend marks. -/
theorem receiveNak : Obligations.ReceiveNak := by
  intro s seq receiving window q
  refine ⟨fun a b other => ?_, fun i p n due tx oldest slot => ?_, fun a b next => ?_,
    fun i p r n due tx p' n' due' tx' oldest slot ne slot' => ?_,
    fun i p r n due tx oldest slot ne next => ⟨fun other => ?_, fun p' r' n' due' tx' slot' ne' => ?_⟩,
    fun p r n due tx => rfl, fun v => markResend_of_notOutstanding⟩
  · exact exec_receiveNak receiving window (onNak_stray (s := s.counted) (upTo_none a b) other)
  · exact exec_receiveNak receiving window (onNak_oldest (s := s.counted) oldest slot)
  · exact exec_receiveNak receiving window (onNak_next_none (s := s.counted) (fun j => by cases j <;> assumption) next)
  · have good := onNak_younger (s := s.counted) oldest slot ne slot'
    exact exec_receiveNak receiving window (by cases i <;> exact good)
  · have good := onNak_next_one (s := s.counted) oldest slot ne next other
    exact exec_receiveNak receiving window (by cases i <;> exact good)
  · have good := onNak_next_both (s := s.counted) oldest slot ne next slot' ne'
    exact exec_receiveNak receiving window (by cases i <;> exact good)

/-! ## Verdicts (R53, R114) -/

section
variable {s : State} {serial code n : Nat} {reason : Text}

theorem serial_of_slotOf {p : Spu} (held : p.slotOf serial = some n) : (p.entry n).serial = some serial := by
  have found := List.find?_some held
  simp only [Bool.and_eq_true, beq_iff_eq] at found
  exact found.2

/-- `s` with the entry of slot `n` changed by a verdict, its accept timer stopped and its record due. -/
def State.judged (s : State) (n : Nat) (f : Entry → Entry) : State :=
  { s with spu := (s.spu.setEntry n (f { s.spu.entry n with acceptTimer := none })).dueItem (.record n) }

/-- `s` with the entry of slot `n`, of this serial, accepted, and the notice where accept notices are on. -/
def State.accepted (s : State) (serial n : Nat) : State := { s.judged n fun e => { e with state := .sent } with
  pqu := if s.work.acceptNotices = true
    then s.pqu.raise (spaced [ascii "ENTRY", decText serial, ascii "ACCEPTED"]) else s.pqu }

/-- `s` with the entry of slot `n`, of this serial, rejected with a code and a reason, and the notice. -/
def State.rejected (s : State) (serial n code : Nat) (reason : Text) : State :=
  (s.judged n fun e => { e with state := .rejected, reason := code, reasonText := reason }).noticed
    (spaced [ascii "ENTRY", decText serial, ascii "REJECTED", decText code, reason])

/-- A notice raised under a condition changes the Print Queue Unit under it. -/
theorem noticed_if (b : Prop) [Decidable b] (t : Text) (s : State) :
    (if b then raise t s else s) = { s with pqu := if b then s.pqu.raise t else s.pqu } := by
  split <;> rfl

theorem verdict_keeps (f : Entry → Entry) (other : (s.spu.entry n).state ≠ .sending) : verdict n f s = s.judged n f :=
  if_neg other

/-- A verdict on the SENDING entry also takes it from the Parcel Engine. -/
theorem verdict_sending (f : Entry → Entry) (held : s.spu.slotOf serial = some n) (sending : (s.spu.entry n).state = .sending) :
    verdict n f s = dropSource serial (s.judged n f) := by
  refine (if_pos sending).trans ?_
  rw [serial_of_slotOf held]
  rfl

/-- What leaves the Parcel Engine and a raised notice do not touch each other. -/
theorem raise_dropSource (t : Text) (s : State) : raise t (dropSource serial s) = dropSource serial (raise t s) := by
  rw [dropSource_eq, dropSource_eq]
  rfl

theorem work_dropSource (s : State) : (dropSource serial s).work = s.work := by rw [dropSource_eq]

theorem takesVerdict_iff {e : Entry} : e.takesVerdict = true ↔
    e.state = .awaiting ∨ e.state = .sending ∨ e.state = .closed ∧ e.sentOnce = true := by
  unfold Entry.takesVerdict
  simp [or_assoc]

theorem takesVerdict_other {e : Entry} (h : e.state = .opened ∨ e.state = .sent ∨ e.state = .rejected ∨ e.state = .damaged ∨
    e.state = .void ∨ e.state = .closed ∧ e.sentOnce = false) : ¬ e.takesVerdict = true := by
  rw [takesVerdict_iff]
  rcases h with h | h | h | h | h | ⟨h, once⟩ <;> simp [h]
  exact once

section
variable (free : s.spu.securing = false)
include free

theorem onAccept_noEntry (none' : s.spu.slotOf serial = none) : onAccept serial s = strayVerdict s := by
  unfold onAccept
  rw [if_neg (by simp [free]), none']

theorem onReject_noEntry (none' : s.spu.slotOf serial = none) : onReject serial code reason s = strayVerdict s := by
  unfold onReject
  rw [if_neg (by simp [free]), none']

theorem onAccept_entry (held : s.spu.slotOf serial = some n) : onAccept serial s =
    if (s.spu.entry n).takesVerdict = true then
      let t := verdict n (fun e => { e with state := .sent }) s
      if t.work.acceptNotices = true then raise (spaced [ascii "ENTRY", decText serial, ascii "ACCEPTED"]) t else t
    else strayVerdict s := by
  unfold onAccept
  rw [if_neg (by simp [free]), held]

theorem onReject_entry (held : s.spu.slotOf serial = some n) : onReject serial code reason s =
    if (s.spu.entry n).takesVerdict = true then
      raise (spaced [ascii "ENTRY", decText serial, ascii "REJECTED", decText code, reason])
        (verdict n (fun e => { e with state := .rejected, reason := code, reasonText := reason }) s)
    else strayVerdict s := by
  unfold onReject
  rw [if_neg (by simp [free]), held]

/-- ACCEPT on an entry that takes it and is not SENDING. -/
theorem onAccept_keeps (held : s.spu.slotOf serial = some n) (takes : (s.spu.entry n).takesVerdict = true)
    (other : (s.spu.entry n).state ≠ .sending) : onAccept serial s = s.accepted serial n := by
  rw [onAccept_entry free held, if_pos takes, verdict_keeps _ other]
  exact noticed_if _ _ _

theorem onReject_keeps (held : s.spu.slotOf serial = some n) (takes : (s.spu.entry n).takesVerdict = true)
    (other : (s.spu.entry n).state ≠ .sending) : onReject serial code reason s = s.rejected serial n code reason := by
  rw [onReject_entry free held, if_pos takes, verdict_keeps _ other]
  rfl

/-- ACCEPT on the SENDING entry, which also leaves the Parcel Engine. -/
theorem onAccept_sending (held : s.spu.slotOf serial = some n) (sending : (s.spu.entry n).state = .sending) :
    onAccept serial s = dropSource serial (s.accepted serial n) := by
  rw [onAccept_entry free held, if_pos (takesVerdict_iff.mpr (.inr (.inl sending))), verdict_sending _ held sending]
  dsimp only
  rw [raise_dropSource, work_dropSource, ← apply_ite (dropSource serial)]
  exact congrArg (dropSource serial) (noticed_if _ _ _)

theorem onReject_sending (held : s.spu.slotOf serial = some n) (sending : (s.spu.entry n).state = .sending) :
    onReject serial code reason s = dropSource serial (s.rejected serial n code reason) := by
  rw [onReject_entry free held, if_pos (takesVerdict_iff.mpr (.inr (.inl sending))), verdict_sending _ held sending,
    raise_dropSource]
  rfl

end

end

/-- Settles O26: each verdict by whether an entry has the serial, whether it takes a verdict, and whether it is SENDING. -/
theorem verdicts : Obligations.Verdicts := by
  intro s serial code reason receiving free low high short g
  have accepts : ∀ {e : State}, onAccept serial.toNat s.counted = e → exec (.receiveAccept serial) s = .next (finish e) :=
    exec_receiveAccept receiving
  have rejects : ∀ {e : State}, onReject serial.toNat code.toNat reason s.counted = e →
      exec (.receiveReject serial code reason) s = .next (finish e) := exec_receiveReject receiving low high short
  have free' : s.counted.spu.securing = false := free
  refine ⟨fun none' => ⟨accepts (onAccept_noEntry free' none'), rejects (onReject_noEntry free' none')⟩,
    fun n held takes => ?_, fun n held sending => ?_, fun n held sending => ?_, fun n held stray => ?_⟩
  · have takes' : (s.spu.entry n).takesVerdict = true := takesVerdict_iff.mpr (takes.imp_right .inr)
    have other : (s.spu.entry n).state ≠ .sending := by rcases takes with h | ⟨h, -⟩ <;> simp [h]
    exact ⟨accepts (onAccept_keeps free' held takes' other), rejects (onReject_keeps free' held takes' other)⟩
  · exact ⟨_, accepts (onAccept_sending free' held sending), dropSource_dropped serial.toNat (s.counted.accepted serial.toNat n)⟩
  · exact ⟨_, rejects (onReject_sending free' held sending),
      dropSource_dropped serial.toNat (s.counted.rejected serial.toNat n code.toNat reason)⟩
  · have leaves := takesVerdict_other stray
    exact ⟨accepts ((onAccept_entry free' held).trans (if_neg leaves)),
      rejects ((onReject_entry free' held).trans (if_neg leaves))⟩

end Sys2Proof.Machine
end

