-- ==== Sys2Proof/Proofs/SpoolRuns.lean ====
section
/-! SUPPORT. What follows an entry's change: reclaim, the stop test and the selection; then the directives XS, XH and XD (R110, R111,
R117, R123, R124). -/

namespace Sys2Proof.Machine

/-! ## Reclaim and the stop test (R110, R117) -/

section
variable {s : State} {n k : Nat} {rest : List Nat}

theorem reclaim_takes (oldest : s.spu.order = n :: rest) (left : (s.spu.entry n).state = .sent ∨ (s.spu.entry n).state = .void)
    (printed : (s.spu.entry n).echoes = 0) : reclaim (k + 1) s = reclaim k { s with
      spu := ((({ s.spu with
        order := rest, ring := s.spu.ring.release s.spoolSize (s.spu.entry n).length } : Spu).setEntry n
          { freeEntry with gate := .wait }).dueItem .header).dueItem (.record n) } := by
  rw [reclaim, oldest]
  exact if_pos ⟨left, printed⟩

theorem reclaim_stops (oldest : s.spu.order = n :: rest)
    (stays : ¬ ((s.spu.entry n).state = .sent ∨ (s.spu.entry n).state = .void) ∨ (s.spu.entry n).echoes ≠ 0) :
    ∀ k, reclaim k s = s
  | 0 => rfl
  | k + 1 => by
    rw [reclaim, oldest]
    exact if_neg fun ⟨left, printed⟩ => stays.elim (· left) (· printed)

theorem stopTest_stops (closed : s.spu.countIn .closed = 0) (sending : s.spu.countIn .sending = 0) :
    stopTest s = { s with spu := { s.spu with active := false } } := by
  cases active : s.spu.active with
  | true => exact if_pos (by rw [active, closed, sending]; rfl)
  | false =>
    refine (if_neg (by rw [active]; exact Bool.false_ne_true)).trans ?_
    exact congrArg (fun b => ({ s with spu := { s.spu with active := b } } : State)) active

theorem stopTest_goesOn (h : s.spu.countIn .closed ≠ 0 ∨ s.spu.countIn .sending ≠ 0) : stopTest s = s := by
  refine if_neg fun stops => ?_
  simp only [Bool.and_eq_true, beq_iff_eq] at stops
  obtain ⟨⟨-, closed⟩, sending⟩ := stops
  exact h.elim (· closed) (· sending)

end

/-! ## Selection (R111) -/

theorem choice_iff {p : Spu} {n : Nat} : p.choice = some n ↔
    ∃ x, p.firstChoice = some x ∧ p.slotOf x = some n ∧ (p.entry n).state = .closed := by
  unfold Spu.choice
  cases first : p.firstChoice with
  | none => simp
  | some x =>
    cases slot : p.slotOf x with
    | none => simp [slot]
    | some m =>
      simp only [slot, Option.ite_none_right_eq_some, Option.some.injEq, exists_eq_left']
      exact ⟨fun ⟨state, e⟩ => e ▸ ⟨rfl, state⟩, fun ⟨e, state⟩ => e ▸ ⟨e ▸ state, rfl⟩⟩

section
variable {s : State} {n : Nat}

/-- `s` with a first choice that is no longer CLOSED gone. -/
def State.chosen (s : State) : State :=
  if s.spu.choice = none then { s with spu := { s.spu with firstChoice := none } } else s

theorem chosen_kept {m : Nat} (h : s.spu.choice = some m) : s.chosen = s := if_neg (by simp [h])

theorem chosen_gone (h : s.spu.choice = none) : s.chosen = { s with spu := { s.spu with firstChoice := none } } := if_pos h

theorem choice_chosen : s.chosen.spu.choice = s.spu.choice := by
  cases h : s.spu.choice with
  | none => rw [chosen_gone h]; rfl
  | some m => rw [chosen_kept h, h]

/-- May an entry be selected: the run ACTIVE, a session, none SENDING and fewer than 4 AWAITING? -/
def State.selects (s : State) : Prop := s.spu.active = true ∧ (s.clu.line = .ready ∨ s.clu.line = .fade) ∧
  s.spu.countIn .sending = 0 ∧ s.spu.countIn .awaiting < 4

theorem inSession_iff {l : LineState} : l.inSession = true ↔ l = .ready ∨ l = .fade := by cases l <;> simp [LineState.inSession]

theorem selects_iff : s.selects ↔ (s.spu.active && s.clu.line.inSession && s.spu.countIn .sending == 0 &&
    decide (s.spu.countIn .awaiting < 4)) = true := by
  unfold State.selects
  simp [inSession_iff, and_assoc]

theorem selects_chosen : s.chosen.selects ↔ s.selects := by unfold State.chosen; split <;> rfl

/-- The entry to be selected: the first choice, or else the oldest CLOSED one. -/
def Spu.pick (p : Spu) : Option Nat := p.choice.orElse fun _ => p.firstIn .closed

theorem pick_chosen : s.chosen.spu.pick = s.spu.pick := by
  unfold Spu.pick
  rw [choice_chosen]
  unfold State.chosen
  split <;> rfl

/-- `s` with the entry of slot `n` SENDING and the Parcel Engine's source. -/
def State.selected (s : State) (n : Nat) : State := { s with
  spu := (({ s.spu with firstChoice := none } : Spu).setEntry n { s.spu.entry n with
    state := .sending, attempts := min 15 ((s.spu.entry n).attempts + 1), interrupted := false }).dueItem (.record n)
  pe := { s.pe with source := some ⟨(s.spu.entry n).serial.getD 0, (s.spu.entry n).start, (s.spu.entry n).length, 0⟩ } }

theorem selected_chosen : s.chosen.selected n = s.selected n := by unfold State.chosen; split <;> rfl

theorem dueItem_firstChoice (p : Spu) (i : SpuItem) (c : Option Nat) :
    ({ p with firstChoice := c } : Spu).dueItem i = { p.dueItem i with firstChoice := c } := by
  unfold Spu.dueItem
  split <;> rfl

/-- The selection is made on the state without a stale first choice. -/
theorem select_eq (s : State) : select s =
    if (s.chosen.spu.active && s.chosen.clu.line.inSession && s.chosen.spu.countIn .sending == 0 &&
        decide (s.chosen.spu.countIn .awaiting < 4)) = true then
      s.chosen.spu.pick.elim s.chosen s.chosen.selected
    else s.chosen := by
  have stale : (if s.spu.choice.isNone = true then s.setSpu { s.spu with firstChoice := none } else s) = s.chosen := by
    simp only [Option.isNone_iff_eq_none]
    rfl
  unfold select
  dsimp only
  rw [stale]
  generalize s.chosen = t
  unfold Spu.pick
  cases t.spu.choice.orElse fun _ => t.spu.firstIn .closed with
  | none => rfl
  | some n =>
    refine ite_congr rfl (fun _ => ?_) fun _ => rfl
    exact congrArg (fun v : Spu => (t.setSpu v).setPe { t.pe with
      source := some ⟨(t.spu.entry n).serial.getD 0, (t.spu.entry n).start, (t.spu.entry n).length, 0⟩ })
      (dueItem_firstChoice (t.spu.setEntry n _) (.record n) none).symm

theorem select_stays (h : ¬ s.selects ∨ s.spu.pick = none) : select s = s.chosen := by
  rw [select_eq, pick_chosen]
  rcases h with never | none'
  · exact if_neg fun may => never (selects_chosen.mp (selects_iff.mpr may))
  · rw [none']
    exact ite_self _

theorem select_takes (may : s.selects) (pick : s.spu.pick = some n) : select s = s.selected n := by
  rw [select_eq, pick_chosen, pick]
  exact (if_pos (selects_iff.mp (selects_chosen.mpr may))).trans selected_chosen

end

/-! ## The directives (R123, R124) -/

section
variable {d : Dir} {c : Ctx} {tag : Nat} {s : State}

theorem setSpu_begun (v : Spu) : (begun d c tag s).setSpu v = begun d c tag (s.setSpu v) := setSpu_occupy ..

/-- DONE after a change of the Spool Unit. -/
theorem answer_begun_setSpu (may : admits d c s = true) (o : Outcome) (v : Spu) :
    answer o c ((begun d c tag s).setSpu v) = answered d c tag o [] [] { s with spu := v } := by
  rw [setSpu_begun]
  exact answer_begun_after (t := s.setSpu v) may rfl o

theorem voidEntry_eq (n : Nat) (s : State) : voidEntry n s = s.setSpu (s.spu.voided n) := rfl

theorem discardSlot_begun (may : admits d c s = true) (n : Nat) : discardSlot c n (begun d c tag s) =
    match (s.spu.entry n).state with
    | .opened | .sending | .awaiting | .sent => answered d c tag .inUse [] [] s
    | .void => answered d c tag .done [] [] s
    | _ => answered d c tag .done [] [] { s with spu := s.spu.voided n } := by
  unfold discardSlot
  rw [voidEntry_eq, spu_begun]
  unfold answerDone
  cases (s.spu.entry n).state <;> simp only [answer_begun may, answer_begun_setSpu may]

section
variable (free : s.spu.securing = false)
include free

theorem spoolRule_begun {rule : DirRule} {as : List Text} :
    spoolRule rule c as (begun d c tag s) = rule c as (begun d c tag s) :=
  spoolRule_taken (by rw [spu_begun]; exact free)

theorem ruleXs_none (may : admits .xs c s = true) : ruleXs c [] (begun .xs c tag s) =
    if s.clu.line = .ready then answered .xs c tag .done [] [] { s with spu := { s.spu with active := true } }
    else answered .xs c tag .notReady [] [] s := by
  refine (spoolRule_begun free).trans ?_
  simp only [clu_begun, answerDone, startRun, Option.orElse_none, answer_begun_setSpu may, answer_begun may, spu_begun]

theorem ruleXs_range {x : Text} {n : Nat} (may : admits .xs c s = true) (number : decimal x = some n)
    (none' : n < 1 ∨ 65535 < n ∨ s.spu.slotOf n = none) :
    ruleXs c [x] (begun .xs c tag s) = answered .xs c tag .range [] [] s := by
  refine (spoolRule_begun free).trans ?_
  dsimp only
  rw [serialArg_range (s := begun .xs c tag s) number (by rw [spu_begun]; exact none')]
  exact answer_begun may _

theorem ruleXs_serial {x : Text} {n m : Nat} (may : admits .xs c s = true) (number : decimal x = some n) (low : 1 ≤ n)
    (high : n ≤ 65535) (held : s.spu.slotOf n = some m) : ruleXs c [x] (begun .xs c tag s) =
    if s.clu.line ≠ .ready then answered .xs c tag .notReady [] [] s
    else if (s.spu.entry m).state ≠ .closed then answered .xs c tag .inUse [] [] s
    else answered .xs c tag .done [] [] { s with spu := { s.spu with active := true, firstChoice := some n } } := by
  refine (spoolRule_begun free).trans ?_
  dsimp only
  rw [serialArg_ok (s := begun .xs c tag s) number low high (by rw [spu_begun]; exact held)]
  simp only [clu_begun, spu_begun, answerDone, startRun, serial_of_slotOf held, Option.orElse_some, answer_begun_setSpu may,
    answer_begun may]

theorem ruleXh_begun {as : List Text} (may : admits .xh c s = true) : ruleXh c as (begun .xh c tag s) =
    if as = [] then answered .xh c tag .done [] [] { s with spu := { s.spu with active := false, firstChoice := none } }
    else answered .xh c tag .malformed [] [] s := by
  refine (spoolRule_begun free).trans ?_
  simp only [noArgs, answerDone, spu_begun, answer_begun_setSpu may, answer_begun may]

theorem ruleXd_range {x : Text} {n : Nat} (may : admits .xd c s = true) (number : decimal x = some n)
    (none' : n < 1 ∨ 65535 < n ∨ s.spu.slotOf n = none) :
    ruleXd c [x] (begun .xd c tag s) = answered .xd c tag .range [] [] s := by
  refine (spoolRule_begun free).trans ?_
  dsimp only
  rw [serialArg_range (s := begun .xd c tag s) number (by rw [spu_begun]; exact none')]
  exact answer_begun may _

theorem ruleXd_serial {x : Text} {n m : Nat} (number : decimal x = some n) (low : 1 ≤ n) (high : n ≤ 65535)
    (held : s.spu.slotOf n = some m) : ruleXd c [x] (begun .xd c tag s) = discardSlot c m (begun .xd c tag s) := by
  refine (spoolRule_begun free).trans ?_
  dsimp only
  rw [serialArg_ok (s := begun .xd c tag s) number low high (by rw [spu_begun]; exact held)]

theorem ruleXd_slot {x y : Text} {n : Nat} (may : admits .xd c s = true) (zero : decimal x = some 0) (number : decimal y = some n) :
    ruleXd c [x, y] (begun .xd c tag s) =
    if 1 ≤ n ∧ n ≤ 32 ∧ (s.spu.entry n).state = .damaged then
      answered .xd c tag .done [] [] { s with spu := s.spu.voided n }
    else answered .xd c tag .range [] [] s := by
  refine (spoolRule_begun free).trans ?_
  dsimp only
  rw [zero, number]
  simp only [spu_begun, answer_begun may, discardSlot_begun may]
  split
  · rename_i h
    simp only [h]
  · rfl

end

end

/-- Settles O57: what follows an entry's change, part by part, then XS, XH and XD as their rules answer. -/
theorem runDirectives : Obligations.RunDirectives := by
  refine ⟨fun s => ⟨rfl, fun n rest k oldest => ?_, stopTest_stops, stopTest_goesOn, ?_⟩, fun c tag args s free => ?_⟩
  · exact ⟨reclaim_takes oldest, fun stays => reclaim_stops oldest stays k⟩
  · intro keeps selected
    have none_iff : s.spu.choice = none ↔ ¬ keeps := by
      refine ⟨fun none' ⟨x, n, first, slot, closed⟩ => ?_, fun never => Option.eq_none_iff_forall_ne_some.mpr fun n h => ?_⟩
      · exact absurd (none'.symm.trans (choice_iff.mpr ⟨x, first, slot, closed⟩)) (by simp)
      · obtain ⟨x, first, slot, closed⟩ := choice_iff.mp h
        exact never ⟨x, n, first, slot, closed⟩
    refine ⟨fun idle => ?_, fun active line sending awaiting => ?_⟩
    · have stays : select s = s.chosen := by
        refine select_stays ?_
        rcases idle with off | ⟨ready, fade⟩ | busy | full | ⟨gone, none'⟩
        · exact .inl fun ⟨active, _⟩ => absurd (off.symm.trans active) (by decide)
        · exact .inl fun ⟨_, line, _⟩ => line.elim ready fade
        · exact .inl fun ⟨_, _, sending, _⟩ => busy sending
        · exact .inl fun ⟨_, _, _, awaiting⟩ => absurd full (Nat.not_le.mpr awaiting)
        · refine .inr ?_
          rw [Spu.pick, none_iff.mpr gone]
          exact none'
      exact ⟨fun kept => stays.trans (if_neg fun none' => none_iff.mp none' kept),
        fun gone => stays.trans (chosen_gone (none_iff.mpr gone))⟩
    · have may : s.selects := ⟨active, line, sending, awaiting⟩
      refine ⟨fun x n first slot closed => ?_, fun n gone oldest => ?_⟩
      · refine select_takes may ?_
        rw [Spu.pick, choice_iff.mpr ⟨x, first, slot, closed⟩]
        rfl
      · refine select_takes may ?_
        rw [Spu.pick, none_iff.mpr gone]
        exact oldest
  · refine ⟨fun may read => ?_, fun x n may read number => ⟨fun none' => ?_, fun m low high held => ?_⟩,
      fun x y xs may read ok => ?_, fun x may read ok number => ?_, fun may ok => ?_, fun x n m may read number low high held => ?_,
      fun x n may read number none' => ?_, fun x y n may read zero number => ?_⟩
    · exact exec_numbers (d := .xs) (l := []) may read rfl (ruleXs_none free may)
    · exact exec_numbers (d := .xs) (l := [n]) may read (by simp [decimals, number]) (ruleXs_range free may number none')
    · exact exec_numbers (d := .xs) (l := [n]) may read (by simp [decimals, number])
        (ruleXs_serial free may number low high held)
    · refine exec_admitted (d := .xs) may ok ((ruleXs_malformed (by rw [spu_begun]; exact free) ?_).trans (answer_begun may _))
      rw [read]
      simp [Dir.formed]
    · refine exec_admitted (d := .xs) may ok ((ruleXs_malformed (by rw [spu_begun]; exact free) ?_).trans (answer_begun may _))
      rw [read]
      simp [Dir.formed, number]
    · exact exec_admitted (d := .xh) may ok (ruleXh_begun free may)
    · refine exec_numbers (d := .xd) (l := [n]) may read (by simp [decimals, number])
        ((ruleXd_serial free number low high held).trans ((discardSlot_begun may m).trans ?_))
      rfl
    · exact exec_numbers (d := .xd) (l := [n]) may read (by simp [decimals, number]) (ruleXd_range free may number none')
    · exact exec_numbers (d := .xd) (l := [0, n]) may read (by simp [decimals, zero, number]) (ruleXd_slot free may zero number)

end Sys2Proof.Machine
end

