-- ==== Sys2Proof/Proofs/Timers.lean ====
section
/-! SUPPORT. What a display frame shows, and the timers that mark, tell or release (R43, R44, R94, R100, R101, R107, R113, R131,
R167). -/

namespace Sys2Proof.Machine

/-! ## A display frame (R100) -/

theorem lastPadded_eq (n : Nat) (t : Text) :
    lastPadded n t = t.drop (t.length - n) ++ List.replicate (n - t.length) 0x20 := by
  unfold lastPadded
  dsimp only
  rw [List.length_drop, show n - (t.length - (t.length - n)) = n - t.length by omega]

theorem length_lastPadded (n : Nat) (t : Text) : (lastPadded n t).length = n := by
  rw [lastPadded_eq, List.length_append, List.length_drop, List.length_replicate]
  omega

section
variable {s : State}

theorem frameNow_doze (doze : s.pm.power = .doze) : frameNow s = 0x02 :: List.replicate 24 0x20 := if_pos doze

theorem frameNow_shows (on : s.pm.power ≠ .doze) : frameNow s = [0x02, s.kcu.state.letter] ++ lastPadded 23 s.kcu.displayText :=
  if_neg on

theorem length_frameNow (s : State) : (frameNow s).length = 25 := by
  by_cases doze : s.pm.power = .doze
  · rw [frameNow_doze doze]
    rfl
  · rw [frameNow_shows doze, List.length_append, length_lastPadded]
    rfl

theorem head_frameNow (s : State) : (frameNow s).head? = some 0x02 := by
  by_cases doze : s.pm.power = .doze
  · rw [frameNow_doze doze]
    rfl
  · rw [frameNow_shows doze]
    rfl

/-- The frame by the mode letter and the text of the composer's state. -/
theorem frameNow_of {letter : Byte} {text : Text} (on : s.pm.power ≠ .doze) (mode : s.kcu.state.letter = letter)
    (shown : s.kcu.displayText = text) : frameNow s =
      [0x02, letter] ++ text.drop (text.length - 23) ++ List.replicate (23 - text.length) 0x20 := by
  rw [frameNow_shows on, mode, shown, lastPadded_eq, List.append_assoc]

end

theorem flatten_intersperse_singletons (x : Byte) : ∀ l : Text,
    ((l.map fun b => [b]).intersperse [x]).flatten = l.intersperse x
  | [] => rfl
  | [_] => rfl
  | a :: b :: l => by
    have tail := flatten_intersperse_singletons x (b :: l)
    simp only [List.map_cons, List.intersperse_cons_cons, List.flatten_cons, List.cons_append, List.nil_append] at tail ⊢
    rw [tail]

/-- Words of one character each, with single spaces between. -/
theorem spaced_singletons (l : Text) : spaced (l.map fun b => [b]) = l.intersperse 0x20 := by
  have whole : (l.map fun b => [b]).filter (· != []) = l.map fun b => [b] := by
    refine List.filter_eq_self.mpr fun w h => ?_
    obtain ⟨b, -, rfl⟩ := List.mem_map.mp h
    rfl
  unfold spaced
  rw [whole, flatten_intersperse_singletons]

section
variable {k : Kcu}

theorem displayText_idle (h : k.state = .idle) : k.displayText = [] := by
  unfold Kcu.displayText
  rw [h]

theorem displayText_formSelect (h : k.state = .formSelect) : k.displayText =
    (([1, 2, 3, 4].filter fun n => (k.formSlotAt n).status = .loaded).map fun n => byteOf (0x30 + n)).intersperse 0x20 := by
  unfold Kcu.displayText
  rw [h, ← spaced_singletons, List.map_map]
  rfl

theorem displayText_free (h : k.state = .free) : k.displayText = k.line := by
  unfold Kcu.displayText
  rw [h]

theorem displayText_field {n : Nat} {f : FormField} (h : k.state = .form) (field : k.field = some (n, f)) :
    k.displayText = f.label ++ [0x3A] ++ k.value := by
  unfold Kcu.displayText
  rw [h]
  dsimp only
  rw [field]

theorem displayText_finish (h : k.state = .form) (field : k.field = none) : k.displayText = k.image.name := by
  unfold Kcu.displayText
  rw [h]
  dsimp only
  rw [field]

theorem displayText_service (h : k.state = .service) : k.displayText = k.serviceLine := by
  unfold Kcu.displayText
  rw [h]

end

/-! ## The end of a frame and the timers -/

section
variable {s : State}

/-- A frame that became due is sent at the end of the one in progress, as the state then stands. -/
theorem exec_displayFrameEnd_due (on : s.pm.power ≠ .off) (sending : s.kcu.sending = true) (due : s.kcu.frameDue = true) :
    exec .displayFrameEnd s =
      .next (finish { s with kcu := { s.kcu with frame := frameNow s, sending := true, frameDue := false } }) := by
  refine guarded_eq (by simp [on, sending]) ((if_pos due).trans ?_)
  exact if_neg (by simp [State.setKcu])

theorem raiseSpoolFull_first (awake : s.pm.power.awake = true) (first : s.spu.episode = false) : raiseSpoolFull s = { s with
    kcu := { s.kcu with alert := true }, spu := { s.spu with episode := true }, pqu := s.pqu.raise (ascii "SPOOL FULL") } :=
  (if_neg (by simp [first])).trans
    (alert_awake (s := raise (ascii "SPOOL FULL") (s.setSpu { s.spu with episode := true })) awake)

theorem raiseSpoolFull_again (again : s.spu.episode = true) : raiseSpoolFull s = s := if_pos again

theorem completePart_inHand (more : s.pqu.asm.complete = false) (some' : 1 ≤ s.pqu.asm.length) : completePart s =
    { s with pqu := { s.pqu with asm := { s.pqu.asm with complete := true, part := true, idleTimer := none } } } := by
  rw [completePart_eq]
  exact if_neg (by simp [more]; omega)

end

/-- Settles O39: the frame's end and the alert's with power, each timer with the part awake, and the frame by the composer's
state. -/
theorem timersExpire : Obligations.TimersExpire := by
  refine ⟨fun s on => ⟨fun sending idle => ?_, exec_displayFrameEnd_due on, fun doze sending due => ?_, fun sounds => ?_⟩,
    fun s awake => ?_⟩
  · exact guarded_eq (by simp [on, sending]) (if_neg (by simp [idle]))
  · rw [← frameNow_doze doze]
    exact exec_displayFrameEnd_due on sending due
  · exact guarded_of (by simp [on, sounds]) _ s
  · have receives : s.clu.line = .ready → s.receiving = true := fun ready => by simp [State.receiving, awake, ready]
    refine ⟨fun ready timer => guarded_of (by simp [receives ready, timer]) _ s,
      fun ready timer => guarded_of (by simp [receives ready, timer]) _ s,
      fun timer first => guarded_eq (by simp [awake, timer]) (raiseSpoolFull_first (s := s.setKcu _) awake first),
      fun timer again => guarded_eq (by simp [awake, timer]) (raiseSpoolFull_again (s := s.setKcu _) again),
      fun n awaits timer => ⟨fun line => guarded_of (by simp [awake, line, awaits, timer]) _ s,
        fun fade => guarded_not (by simp [fade]) _ s⟩,
      fun timer more some' => guarded_eq (by simp [awake, timer]) (completePart_inHand more some'),
      fun paused timer => guarded_of (by simp [awake, paused, timer]) _ s, length_frameNow s, head_frameNow s, fun t => ?_⟩
    intro k shows digits
    have mode : ∀ {st : ComposerState}, k.state = st → k.state.letter = st.letter := fun h => by rw [h]
    exact ⟨frameNow_doze, fun on => ⟨fun h => frameNow_of on (mode h) (displayText_idle h),
      fun h => frameNow_of on (mode h) (displayText_formSelect h), fun h => frameNow_of on (mode h) (displayText_free h),
      fun h n f field => frameNow_of on (mode h) (displayText_field h field),
      fun h field => frameNow_of on (mode h) (displayText_finish h field),
      fun h => frameNow_of on (mode h) (displayText_service h)⟩⟩

end Sys2Proof.Machine
end

