-- ==== Sys2Proof/Proofs/PadReadings.lean ====
section
/-! SUPPORT. A reading's class, what the reading makes of a pad record, and what a calibration gathers (R62, R64–R70, R72). -/

namespace Sys2Proof.Machine

/-! ## The class of a reading (R62, R64) -/

/-- A count's class, by Table 4.2. -/
theorem classify_byCount (b offset n : Nat) :
    (n = 4095 ∨ n < 16 → classify b offset n = .faulty) ∧
    (16 ≤ n → n ≠ 4095 → b + offset ≤ n → classify b offset n = .touch) ∧
    (16 ≤ n → n ≠ 4095 → n < b + offset / 2 → classify b offset n = .clear) ∧
    (16 ≤ n → n ≠ 4095 → b + offset / 2 ≤ n → n < b + offset → classify b offset n = .neither) := by
  refine ⟨classify_faulty, fun low high => classify_touch (by omega), fun low high under => ?_, fun low high half under => ?_⟩
  · rw [classify_below (by omega) (by omega), if_pos under]
  · rw [classify_below (by omega) under, if_neg (by omega)]

/-! ## A good reading outside FAULT, by the pad's state (R65, R66, R68) -/

section
variable {p : Pad} {press release : Nat}

theorem goodReading_up_touch (up : p.state = .up) : p.goodReading .touch press release =
    if press ≤ 1 then ({ p with state := .down, debounce := 0, drift := 0, heldTime := 0 }, .press)
    else ({ p with state := .pressing, debounce := 1, drift := 0 }, .none) := by
  simp [Pad.goodReading, up]

theorem goodReading_up_other {c : ReadingClass} (up : p.state = .up) (other : c ≠ .touch) : p.goodReading c press release =
    (if p.drift + 1 < 16 then { p with drift := p.drift + 1 }
      else { p with drift := 0, baseline := driftStep p.baseline p.last }, .none) := by
  simp only [Pad.goodReading, up, if_neg other]
  split <;> rfl

theorem goodReading_pressing_touch (pressing : p.state = .pressing) : p.goodReading .touch press release =
    if press ≤ p.debounce + 1 then ({ p with state := .down, debounce := 0, heldTime := 0 }, .press)
    else ({ p with debounce := p.debounce + 1 }, .none) := by
  simp [Pad.goodReading, pressing]

theorem goodReading_pressing_clear (pressing : p.state = .pressing) :
    p.goodReading .clear press release = ({ p with state := .up, debounce := 0, drift := 0 }, .none) := by
  simp [Pad.goodReading, pressing]

theorem goodReading_pressing_neither (pressing : p.state = .pressing) : p.goodReading .neither press release = (p, .none) := by
  simp [Pad.goodReading, pressing]

theorem goodReading_down_clear (down : p.state = .down) : p.goodReading .clear press release =
    if release ≤ 1 then ({ p with state := .up, debounce := 0, drift := 0, heldTime := 0 }, .release)
    else ({ p with state := .releasing, debounce := 1 }, .none) := by
  simp [Pad.goodReading, Pad.still, down]

theorem goodReading_down_other {c : ReadingClass} (down : p.state = .down) (other : c ≠ .clear) :
    p.goodReading c press release = (p, .none) := by
  simp only [Pad.goodReading, down, if_neg other]

theorem goodReading_releasing_clear (releasing : p.state = .releasing) : p.goodReading .clear press release =
    if release ≤ p.debounce + 1 then ({ p with state := .up, debounce := 0, drift := 0, heldTime := 0 }, .release)
    else ({ p with debounce := p.debounce + 1 }, .none) := by
  simp [Pad.goodReading, Pad.still, releasing]

theorem goodReading_releasing_touch (releasing : p.state = .releasing) :
    p.goodReading .touch press release = ({ p with state := .down, debounce := 0 }, .none) := by
  simp [Pad.goodReading, releasing]

theorem goodReading_releasing_neither (releasing : p.state = .releasing) : p.goodReading .neither press release = (p, .none) := by
  simp [Pad.goodReading, releasing]

end

/-! ## A fault reading, and a reading in FAULT (R69, R70) -/

section
variable {p : Pad}

theorem faultReading_counted (few : p.faultRun < 3) :
    p.faultReading = ({ p with faultRun := p.faultRun + 1, drift := 0 }, .none) :=
  if_pos (by omega)

theorem faultReading_fourth (many : 3 ≤ p.faultRun) : p.faultReading =
    ({ p with state := .fault, debounce := 0, drift := 0, heldTime := 0, faultRun := 0 }, .fault p.state.held) :=
  if_neg (by omega)

theorem inFault_counted (few : p.faultRun < 15) : p.inFault false = { p with faultRun := p.faultRun + 1 } :=
  (if_neg (by decide)).trans (if_pos (by omega))

theorem inFault_sixteenth (many : 15 ≤ p.faultRun) : p.inFault false =
    { p with state := .up, baseline := p.last, debounce := 0, drift := 0, heldTime := 0, faultRun := 0 } :=
  (if_neg (by decide)).trans (if_neg (by omega))

end

/-! ## A reading applied (R64–R70) -/

/-- The record as a reading finds it: its count taken, and a scan more held if it is held. -/
def Pad.taken (p : Pad) (count : Nat) : Pad :=
  { p with last := count, heldTime := if p.state.held then min 4095 (p.heldTime + 1) else p.heldTime }

/-- What a reading of class `c` makes of the record, before the stuck test. -/
def Pad.acted (p : Pad) (c : ReadingClass) (press release : Nat) : Pad × PadEvent :=
  if p.state = .fault then (p.inFault (c == .faulty), .none)
  else if c = .faulty then p.faultReading
  else { p with faultRun := 0 }.goodReading c press release

/-- A pad stuck too long, let go at its last count (R67). -/
def Pad.unstuck (p : Pad) : Pad :=
  { p with state := .up, baseline := p.last, debounce := 0, drift := 0, heldTime := 0, stuck := bump p.stuck }

section
variable {p q : Pad} {e : PadEvent} {count offset press release stuck : Nat}

theorem stuckTest_unheld (unheld : q.state.held = false) : q.stuckTest stuck = (q, .none) := by
  simp [Pad.stuckTest, unheld]

theorem stuckTest_held (held : q.state.held = true) :
    q.stuckTest stuck = if q.heldTime * 16 ≤ stuck * 1000 then (q, .none) else (q.unstuck, .release) := by
  by_cases stays : q.heldTime * 16 ≤ stuck * 1000
  · rw [if_pos stays]
    exact if_neg (by simp [held, stays])
  · rw [if_neg stays]
    exact if_pos (by simp [held]; omega)

/-- A reading's event stands; where it has none, the stuck test follows it. -/
theorem apply_eq : p.apply count offset press release stuck =
    let r := (p.taken count).acted (classify p.baseline offset count) press release
    if r.2 = .none then r.1.stuckTest stuck else r := by
  show (match ((p.taken count).acted (classify p.baseline offset count) press release).2 with
    | .none => ((p.taken count).acted (classify p.baseline offset count) press release).1.stuckTest stuck
    | e => (((p.taken count).acted (classify p.baseline offset count) press release).1, e)) = _
  generalize (p.taken count).acted (classify p.baseline offset count) press release = r
  obtain ⟨q, e⟩ := r
  cases e <;> rfl

theorem apply_event (acts : (p.taken count).acted (classify p.baseline offset count) press release = (q, e)) (event : e ≠ .none) :
    p.apply count offset press release stuck = (q, e) := by
  rw [apply_eq, acts]
  exact if_neg event

theorem apply_unheld (acts : (p.taken count).acted (classify p.baseline offset count) press release = (q, .none))
    (unheld : q.state.held = false) : p.apply count offset press release stuck = (q, .none) := by
  rw [apply_eq, acts]
  exact (if_pos rfl).trans (stuckTest_unheld unheld)

theorem apply_held (acts : (p.taken count).acted (classify p.baseline offset count) press release = (q, .none))
    (held : q.state.held = true) : p.apply count offset press release stuck =
      if q.heldTime * 16 ≤ stuck * 1000 then (q, .none) else (q.unstuck, .release) := by
  rw [apply_eq, acts]
  exact (if_pos rfl).trans (stuckTest_held held)

/-! What the reading does before that, by the pad's state and the reading's class. -/

theorem taken_unheld (unheld : p.state.held = false) : p.taken count = { p with last := count } := by
  simp [Pad.taken, unheld]

theorem taken_held (held : p.state.held = true) :
    p.taken count = { p with last := count, heldTime := min 4095 (p.heldTime + 1) } := by
  simp [Pad.taken, held]

theorem acted_good {k c : ReadingClass} (state : p.state ≠ .fault) (is : c = k) (good : k ≠ .faulty) :
    p.acted c press release = { p with faultRun := 0 }.goodReading k press release := by
  subst is
  exact (if_neg state).trans (if_neg good)

theorem acted_faulty {c : ReadingClass} (state : p.state ≠ .fault) (faulty : c = .faulty) :
    p.acted c press release = p.faultReading :=
  (if_neg state).trans (if_pos faulty)

theorem acted_inFault {c : ReadingClass} (state : p.state = .fault) :
    p.acted c press release = (p.inFault (c == .faulty), .none) :=
  if_pos state

theorem unheld_of (state : p.state = .up ∨ p.state = .pressing) : p.state.held = false ∧ p.state ≠ .fault := by
  rcases state with h | h <;> rw [h] <;> exact ⟨rfl, nofun⟩

theorem held_of (state : p.state = .down ∨ p.state = .releasing) : p.state.held = true ∧ p.state ≠ .fault := by
  rcases state with h | h <;> rw [h] <;> exact ⟨rfl, nofun⟩

/-- A good reading of a pad that is UP or PRESSING. -/
theorem acts_unheld {k : ReadingClass} (state : p.state = .up ∨ p.state = .pressing) (is : classify p.baseline offset count = k)
    (good : k ≠ .faulty) : (p.taken count).acted (classify p.baseline offset count) press release =
      { p with last := count, faultRun := 0 }.goodReading k press release := by
  rw [taken_unheld (unheld_of state).1]
  exact acted_good (unheld_of state).2 is good

/-- A good reading of a pad that is DOWN or RELEASING. -/
theorem acts_held {k : ReadingClass} (state : p.state = .down ∨ p.state = .releasing) (is : classify p.baseline offset count = k)
    (good : k ≠ .faulty) : (p.taken count).acted (classify p.baseline offset count) press release =
      { p with last := count, faultRun := 0, heldTime := min 4095 (p.heldTime + 1) }.goodReading k press release := by
  rw [taken_held (held_of state).1]
  exact acted_good (held_of state).2 is good

theorem inFault_unheld {faulty : Bool} (fault : p.state = .fault) : (p.inFault faulty).state.held = false := by
  unfold Pad.inFault
  (repeat' split) <;> simp [PadState.held, fault]

/-- A reading of a pad in FAULT: no event, and nothing for the stuck test. -/
theorem apply_inFault {faulty : Bool} (fault : p.state = .fault)
    (is : (classify p.baseline offset count == ReadingClass.faulty) = faulty) :
    p.apply count offset press release stuck = ({ p with last := count }.inFault faulty, .none) := by
  subst is
  refine apply_unheld ?_ (inFault_unheld fault)
  rw [taken_unheld (by rw [fault]; rfl)]
  exact acted_inFault fault

/-- A fault reading outside FAULT. -/
theorem acts_faulty {r : Pad} (state : p.state ≠ .fault) (is : classify p.baseline offset count = .faulty)
    (taken : p.taken count = r) :
    (p.taken count).acted (classify p.baseline offset count) press release = r.faultReading :=
  taken ▸ acted_faulty (p := p.taken count) state is

end

/-! ## What a calibration gathers (R72) -/

theorem gather_eq (g : PadCal) (r : Reading) :
    (r.doubtful = true ∨ 8 ≤ g.readings → g.gather r = g) ∧
    (r.doubtful = false → g.readings < 8 → g.gather r =
      if r.count = 4095 ∨ r.count < 16 then { g with readings := g.readings + 1, faults := g.faults + 1, last := r.count }
      else { g with readings := g.readings + 1, good := g.good + 1, sum := g.sum + r.count, last := r.count }) := by
  refine ⟨fun h => if_pos (by simpa using h), fun sure room => (if_neg (by simp [sure, room])).trans ?_⟩
  simp only [faultCount_iff]

/-- Settles O27, each state's reading by its class: before the stuck test, then through it. -/
theorem padReadings : Obligations.PadReadings := by
  intro p count offset press release stuck c q h stays freed
  obtain ⟨faulty, touch, clear, neither⟩ := classify_byCount p.baseline offset count
  refine ⟨faulty, touch, clear, neither, fun up is more => ?_, fun st is more => ?_, fun st is last => ?_, fun st is => ?_,
    fun st is => ?_, fun st is last => ?_, fun st is few => ?_, fun st is many => ?_, fun st is => ?_, fun st is few => ?_,
    fun st is many => ?_, fun st is one => ?_, fun st is => ?_, fun st is one => ?_, fun st is more => ?_, fun st is => ?_,
    fun st is more => ?_, fun st is => ?_, fun st is => ?_, fun st is few => ?_,
    fun g r => ⟨(gather_eq g r).1, (gather_eq g r).2, rfl⟩⟩
  · exact apply_unheld ((acts_unheld (.inl up) is nofun).trans
      ((goodReading_up_touch (p := q) up).trans (if_neg (Nat.not_le.mpr more)))) rfl
  · exact apply_unheld ((acts_unheld (.inr st) is nofun).trans
      ((goodReading_pressing_touch (p := q) st).trans (if_neg (Nat.not_le.mpr more)))) (congrArg PadState.held st)
  · exact apply_event ((acts_unheld (.inr st) is nofun).trans
      ((goodReading_pressing_touch (p := q) st).trans (if_pos last))) nofun
  · exact apply_unheld ((acts_unheld (.inr st) is nofun).trans (goodReading_pressing_clear (p := q) st)) rfl
  · exact apply_unheld ((acts_unheld (.inr st) is nofun).trans (goodReading_pressing_neither (p := q) st))
      (congrArg PadState.held st)
  · exact apply_event ((acts_held (.inr st) is nofun).trans
      ((goodReading_releasing_clear (p := h) st).trans (if_pos last))) nofun
  · obtain ⟨unheld, working⟩ := unheld_of st
    exact apply_unheld ((acts_faulty working is (taken_unheld unheld)).trans
      (faultReading_counted (p := { p with last := count }) few)) unheld
  · exact apply_event ((acts_faulty st is rfl).trans (faultReading_fourth (p := p.taken count) many)) nofun
  · exact apply_inFault (faulty := true) st (beq_iff_eq.mpr is)
  · exact (apply_inFault (faulty := false) st (beq_eq_false_iff_ne.mpr is)).trans
      (congrArg (·, PadEvent.none) (inFault_counted (p := { p with last := count }) few))
  · exact (apply_inFault (faulty := false) st (beq_eq_false_iff_ne.mpr is)).trans
      (congrArg (·, PadEvent.none) (inFault_sixteenth (p := { p with last := count }) many))
  · exact apply_event ((acts_unheld (.inl st) is nofun).trans ((goodReading_up_touch (p := q) st).trans (if_pos one))) nofun
  · have other : c ≠ .faulty ∧ c ≠ .touch := by rcases is with is | is <;> rw [is] <;> exact ⟨nofun, nofun⟩
    refine apply_unheld ((acts_unheld (.inl st) rfl other.1).trans (goodReading_up_other (p := q) st other.2)) ?_
    split <;> exact congrArg PadState.held st
  · exact apply_event ((acts_held (.inl st) is nofun).trans ((goodReading_down_clear (p := h) st).trans (if_pos one))) nofun
  · exact apply_held ((acts_held (.inl st) is nofun).trans
      ((goodReading_down_clear (p := h) st).trans (if_neg (Nat.not_le.mpr more)))) rfl
  · have other : c ≠ .faulty ∧ c ≠ .clear := by rcases is with is | is <;> rw [is] <;> exact ⟨nofun, nofun⟩
    exact apply_held ((acts_held (.inl st) rfl other.1).trans (goodReading_down_other (p := h) st other.2))
      (congrArg PadState.held st)
  · exact apply_held ((acts_held (.inr st) is nofun).trans
      ((goodReading_releasing_clear (p := h) st).trans (if_neg (Nat.not_le.mpr more)))) (congrArg PadState.held st)
  · exact apply_held ((acts_held (.inr st) is nofun).trans (goodReading_releasing_touch (p := h) st)) rfl
  · exact apply_held ((acts_held (.inr st) is nofun).trans (goodReading_releasing_neither (p := h) st))
      (congrArg PadState.held st)
  · obtain ⟨held, working⟩ := held_of st
    exact apply_held ((acts_faulty working is (taken_held held)).trans
      (faultReading_counted (p := { p with last := count, heldTime := min 4095 (p.heldTime + 1) }) few)) held

end Sys2Proof.Machine
end

