-- ==== Sys2Proof/Proofs/KeyEvents.lean ====
section
/-! SUPPORT. What a key event, a press, a release and a repeat do (R78–R80). -/

namespace Sys2Proof.Machine

/-! ## Key events (R80) -/

section
variable {s : State}

theorem queueKey_locked (e : KeyEvent) (locked : s.kcu.lock = true) : queueKey e s = s :=
  if_pos locked

theorem queueKey_joins (e : KeyEvent) (unlocked : s.kcu.lock = false) (room : s.kcu.typeahead.length < 16) :
    queueKey e s = { s with kcu := { s.kcu with typeahead := s.kcu.typeahead ++ [e] } } :=
  (if_neg (by simp [unlocked])).trans (if_pos room)

theorem queueKey_overflows (e : KeyEvent) (unlocked : s.kcu.lock = false) (full : 16 ≤ s.kcu.typeahead.length)
    (sounds : s.pm.power ≠ .doze) :
    queueKey e s = { s with kcu := { s.kcu with overflows := bump s.kcu.overflows, alert := true } } :=
  (if_neg (by simp [unlocked])).trans ((if_neg (by omega)).trans (if_neg sounds))

/-- An ACTION other than LINE goes to the queue, as a CHAR does. -/
theorem keyEvent_action {a : KeyAct} (rep : Bool) (other : a ≠ .line) : keyEvent (.action a rep) s = queueKey (.action a) s := by
  cases a with
  | line => exact absurd rfl other
  | enter | tab | rub | cancel | newOrder | note | send | discard | feed | service => rfl

theorem keyEvent_queues {e : KeyEntry} {k : KeyEvent} {rep : Bool}
    (h : (∃ c, e = .char c rep ∧ k = .char c) ∨ ∃ a, a ≠ .line ∧ e = .action a rep ∧ k = .action a) :
    keyEvent e s = queueKey k s := by
  rcases h with ⟨c, rfl, rfl⟩ | ⟨a, other, rfl, rfl⟩
  · rfl
  · exact keyEvent_action rep other

end

/-! ## Presses and repeats (R78, R79) -/

/-- The layer in force, by the MODIFIER roles. -/
theorem layerOf_eq (roles : List Role) :
    layerOf roles = if .modifier .func ∈ roles then 2 else if .modifier .shift ∈ roles then 1 else 0 := by
  simp only [layerOf, List.contains_iff_mem]

theorem repeats_iff (x : KeyEntry) : x.repeats = true ↔ (∃ c, x = .char c true) ∨ ∃ a, a ≠ .line ∧ x = .action a true := by
  cases x with
  | char c rep => exact ⟨fun h => .inl ⟨c, congrArg (KeyEntry.char c) h⟩, fun h => by
      rcases h with ⟨_, is⟩ | ⟨_, _, is⟩ <;> cases is
      rfl⟩
  | action a rep =>
    have both : (rep && a != .line) = true ↔ rep = true ∧ a ≠ .line := by rw [Bool.and_eq_true, bne_iff_ne]
    refine both.trans ⟨fun ⟨flag, other⟩ => .inr ⟨a, other, congrArg (KeyEntry.action a) flag⟩, fun h => ?_⟩
    rcases h with ⟨_, is⟩ | ⟨_, other, is⟩ <;> cases is
    exact ⟨rfl, other⟩
  | modifier | none => exact ⟨nofun, fun h => by rcases h with ⟨_, is⟩ | ⟨_, _, is⟩ <;> cases is⟩

theorem repeatDue_iff (held : Nat) : repeatDue held = true ↔ 38 ≤ held ∧ (held - 38) % 6 = 0 := by
  simp [repeatDue]

section
variable {s : State} {n : Nat} {e : KeyEntry}

theorem pressEvent_modifier {m : Modifier} (entry : s.kcu.entryAt (layerOf s.kcu.roles) n = .modifier m) :
    pressEvent n s = setRole n (.modifier m) s := by
  simp only [pressEvent, entry]

theorem pressEvent_none (entry : s.kcu.entryAt (layerOf s.kcu.roles) n = .none) : pressEvent n s = setRole n .ignored s := by
  simp only [pressEvent, entry]

/-- An entry that is neither a MODIFIER nor NONE is delivered while fewer than two pads are DELIVERED. -/
theorem pressEvent_key (entry : s.kcu.entryAt (layerOf s.kcu.roles) n = e) (some' : e ≠ .none) (plain : ∀ m, e ≠ .modifier m) :
    pressEvent n s = if s.kcu.roles.countP Role.isDelivered < 2 then keyEvent e (setRole n (.delivered e) s)
      else setRole n .blocked s := by
  unfold pressEvent
  rw [entry]
  cases e with
  | none => exact absurd rfl some'
  | modifier m => exact absurd rfl (plain m)
  | char | action => rfl

theorem repeatKey_delivered (role : s.kcu.roles[n - 1]? = some (.delivered e)) :
    repeatKey n s = if e.repeats = true ∧ repeatDue (s.ksu.pad n).heldTime = true then keyEvent e s else s := by
  simp only [repeatKey, List.getD_eq_getElem?_getD, role, Option.getD_some, Bool.and_eq_true]

theorem repeatKey_other (role : ∀ e, s.kcu.roles[n - 1]? ≠ some (.delivered e)) : repeatKey n s = s := by
  unfold repeatKey
  rw [List.getD_eq_getElem?_getD]
  cases at' : s.kcu.roles[n - 1]? with
  | none => rfl
  | some r =>
    cases r with
    | delivered e => exact absurd at' (role e)
    | free | modifier | blocked | ignored => rfl

end

/-- Settles O30: the key event of an entry, then the pad's role at a press, a release and a repeat. -/
theorem keyEvents : Obligations.KeyEvents := by
  refine ⟨fun _ _ => rfl, fun s e k rep h => ?_, ?_⟩
  · rw [keyEvent_queues h]
    exact ⟨queueKey_locked k, queueKey_joins k, queueKey_overflows k⟩
  · intro s n layer e given delivered
    have entry : s.kcu.entryAt (layerOf s.kcu.roles) n = e := by rw [layerOf_eq]; rfl
    have count : delivered = s.kcu.roles.countP Role.isDelivered := rfl
    refine ⟨fun m is => pressEvent_modifier (entry.trans is), fun is => pressEvent_none (entry.trans is),
      fun some' plain => ?_, rfl, fun x role => ?_, repeatKey_other⟩
    · rw [pressEvent_key entry some' plain, count]
      exact ⟨fun few => if_pos few, fun many => if_neg (Nat.not_lt.mpr many)⟩
    · intro due
      have isDue : x.repeats = true ∧ repeatDue (s.ksu.pad n).heldTime = true ↔ due := by rw [repeats_iff, repeatDue_iff]
      rw [repeatKey_delivered role]
      exact ⟨fun h => if_pos (isDue.mpr h), fun h => if_neg (mt isDue.mp h)⟩

end Sys2Proof.Machine
end

