-- ==== Sys2Proof/Proofs/Scanning.lean ====
section
/-! SUPPORT. Scans: the records and the pads of each event after a scan outside calibration, and what a scan of a calibration sets
(R62, R63, R69, R71, R72). -/

namespace Sys2Proof.Machine

/-! ## What the events of a scan leave alone -/

@[simp] theorem ksu_lineTo (c : Clu) (s : State) : (lineTo c s).ksu = s.ksu := by
  rw [lineTo_eq]

theorem ksu_enterClearing (cause : ClearCause) (s : State) : (enterClearing cause s).ksu = s.ksu := by
  unfold enterClearing
  dsimp only
  rw [sessionEnd_eq, lineTo_eq]
  rfl

@[simp] theorem ksu_lineAction (s : State) : (lineAction s).ksu = s.ksu := by
  cases line : s.clu.line with
  | off => rw [lineAction_off line]; exact ksu_lineTo ..
  | listen => rw [lineAction_opening (.inl line)]; exact ksu_lineTo ..
  | detect => rw [lineAction_opening (.inr (.inl line))]; exact ksu_lineTo ..
  | settle => rw [lineAction_opening (.inr (.inr line))]; exact ksu_lineTo ..
  | ready => rw [lineAction_inSession (.inl line)]; exact ksu_enterClearing ..
  | fade => rw [lineAction_inSession (.inr line)]; exact ksu_enterClearing ..
  | clearing => rw [lineAction_clearing line]; rfl

@[simp] theorem ksu_queueKey (e : KeyEvent) (s : State) : (queueKey e s).ksu = s.ksu := by
  unfold queueKey alert
  (repeat' split) <;> rfl

@[simp] theorem ksu_keyEvent (e : KeyEntry) (s : State) : (keyEvent e s).ksu = s.ksu := by
  unfold keyEvent
  split <;> simp

@[simp] theorem ksu_pressEvent (n : Nat) (s : State) : (pressEvent n s).ksu = s.ksu := by
  unfold pressEvent setRole
  dsimp only
  (repeat' split) <;> simp

@[simp] theorem ksu_repeatKey (n : Nat) (s : State) : (repeatKey n s).ksu = s.ksu := by
  unfold repeatKey
  (repeat' split) <;> simp

theorem ksu_foldl {f : State → Nat → State} (h : ∀ s n, (f s n).ksu = s.ksu) :
    ∀ (l : List Nat) (s : State), (l.foldl f s).ksu = s.ksu
  | [], _ => rfl
  | n :: l, s => by rw [List.foldl_cons, ksu_foldl h l, h]

/-! ## The records and the events of a scan (R63) -/

theorem length_applyScan (w : Settings) (pads : List Pad) (rs : List Reading) :
    (applyScan w pads rs).length = min pads.length rs.length := by
  simp [applyScan]

/-- Each pad's reading applied, a doubtful one changing nothing. -/
theorem applyScan_at {w : Settings} {pads : List Pad} {rs : List Reading} {i : Nat} {p : Pad} {r : Reading}
    (pad : pads[i]? = some p) (reading : rs[i]? = some r) : (applyScan w pads rs)[i]? = some (
      if r.doubtful = true then (p, .none)
      else p.apply r.count (w.offsets.getD i 40) w.pressDebounce w.releaseDebounce w.stuck) := by
  have both : (pads.zip rs)[i]? = some (p, r) := List.getElem?_zip_eq_some.mpr ⟨pad, reading⟩
  simp only [applyScan, List.getElem?_map, List.getElem?_zipIdx, both, Option.map_some, Nat.zero_add]

theorem isFault_eq (e : PadEvent) : e.isFault = [PadEvent.fault false, .fault true].contains e := by
  cases e with
  | fault held => cases held <;> rfl
  | none | press | release => rfl

theorem isRelease_eq (e : PadEvent) : e.isRelease = [PadEvent.release, .fault true].contains e := by
  cases e with
  | fault held => cases held <;> rfl
  | none | press | release => rfl

theorem isPress_eq (e : PadEvent) : e.isPress = [PadEvent.press].contains e := by
  cases e with
  | fault held => cases held <;> rfl
  | none | press | release => rfl

/-- The pads, in ascending number, whose event in `l` is one of `es`. -/
def padsHaving (l : List (Pad × PadEvent)) (es : List PadEvent) : List Nat :=
  (List.range' 1 48).filter fun n => (l[n - 1]?).any fun p => es.contains p.2

theorem padsWith_having {f : PadEvent → Bool} {es : List PadEvent} {l : List (Pad × PadEvent)} (is : ∀ e, f e = es.contains e)
    (len : l.length ≤ 48) : padsWith f l = padsHaving l es := by
  rw [padsWith_eq f len]
  simp only [is, padsHaving]

/-- The pads whose reading was not doubtful, in ascending number. -/
theorem advanced_eq {rs : List Reading} (len : rs.length ≤ 48) : (rs.zipIdx.filter fun r => !r.1.doubtful).map (fun r => r.2 + 1) =
    (List.range' 1 48).filter fun n => (rs[n - 1]?).any fun r => !r.doubtful :=
  positions_eq (fun r : Reading => !r.doubtful) rs 0 48 len

/-- `s` with the records of `l`, the pads in `faulted` counted and noticed, and the doze idle timer to start afresh unless the scan
is without press and release events. -/
def State.scanned (s : State) (l : List (Pad × PadEvent)) (faulted : List Nat) (uneventful : Prop) [Decidable uneventful] : State :=
  { s with
    ksu := { s.ksu with pads := l.map Prod.fst, padFaults := faulted.foldl (fun c _ => bump c) s.ksu.padFaults }
    pqu := faulted.foldl (fun p n => p.raise (spaced [ascii "PAD", twoDigits n, ascii "FAULT"])) s.pqu
    pm := if uneventful then s.pm else { s.pm with dozeHeld := false } }

/-- A scan outside calibration: the records and the faults, then releases, presses and repeats. -/
theorem scanApplied_eq {rs : List Reading} (len : rs.length ≤ 48) (s : State) :
    let l := applyScan s.work s.ksu.pads rs
    let released := padsHaving l [.release, .fault true]
    let pressed := padsHaving l [.press]
    scanApplied rs s = ((List.range' 1 48).filter fun n => (rs[n - 1]?).any fun r => !r.doubtful).foldl (fun t n => repeatKey n t)
      (pressed.foldl (fun t n => pressEvent n t) (released.foldl (fun t n => releaseEvent n t)
        (s.scanned l (padsHaving l [.fault false, .fault true]) (released = [] ∧ pressed = [])))) := by
  have few : (applyScan s.work s.ksu.pads rs).length ≤ 48 := by rw [length_applyScan]; omega
  unfold scanApplied
  dsimp only
  rw [padsWith_having isFault_eq few, padsWith_having isRelease_eq few, padsWith_having isPress_eq few, advanced_eq len, padFaults_eq]
  unfold State.scanned
  congr 3
  split <;> rfl

/-- The Key Sense Unit after such a scan has the new records, and the scan in progress that it had before. -/
theorem ksu_scanApplied {rs : List Reading} (len : rs.length ≤ 48) (s : State) : (scanApplied rs s).ksu.scan = s.ksu.scan ∧
    (scanApplied rs s).ksu.pads = (applyScan s.work s.ksu.pads rs).map Prod.fst := by
  rw [scanApplied_eq len, ksu_foldl (fun s n => ksu_repeatKey n s), ksu_foldl (fun s n => ksu_pressEvent n s),
    ksu_foldl (f := fun s n => releaseEvent n s) (fun _ _ => rfl)]
  exact ⟨rfl, rfl⟩

/-! ## A scan of a calibration (R72) -/

/-- What the pads have gathered after a scan. -/
def calAfter (cal : List PadCal) (rs : List Reading) : List PadCal := (cal.zip rs).map fun (g, r) => g.gather r

/-- For each pad, whether the scan completed its gathering. -/
def completed (cal : List PadCal) (rs : List Reading) : List Bool :=
  (cal.zip (calAfter cal rs)).map fun (a, b) => a.readings < 8 && b.readings == 8

/-- The pad records after a scan. -/
def calibratedPads (pads : List Pad) (cal : List PadCal) (rs : List Reading) : List Pad :=
  ((pads.zip (calAfter cal rs)).zip (completed cal rs)).map fun ((p, g), now) => if now then p.calibrated g else p

/-- The pads, in ascending number, that enter FAULT as their gathering is completed. -/
def failing (cal : List PadCal) (rs : List Reading) : List Nat :=
  (List.range' 1 48).filter fun n => (cal[n - 1]?).any fun g => (rs[n - 1]?).any fun r =>
    decide (g.readings < 8 ∧ (g.gather r).readings = 8 ∧ 4 ≤ (g.gather r).faults)

section
variable {cal : List PadCal} {rs : List Reading} {i : Nat} {g : PadCal} {r : Reading}

theorem calAfter_at (gathering : cal[i]? = some g) (reading : rs[i]? = some r) : (calAfter cal rs)[i]? = some (g.gather r) := by
  have both : (cal.zip rs)[i]? = some (g, r) := List.getElem?_zip_eq_some.mpr ⟨gathering, reading⟩
  simp only [calAfter, List.getElem?_map, both, Option.map_some]

theorem completed_at (gathering : cal[i]? = some g) (reading : rs[i]? = some r) :
    (completed cal rs)[i]? = some (g.readings < 8 && (g.gather r).readings == 8) := by
  have both : (cal.zip (calAfter cal rs))[i]? = some (g, g.gather r) :=
    List.getElem?_zip_eq_some.mpr ⟨gathering, calAfter_at gathering reading⟩
  simp only [completed, List.getElem?_map, both, Option.map_some]

theorem calibratedPads_at {pads : List Pad} {p : Pad} (gathering : cal[i]? = some g) (pad : pads[i]? = some p)
    (reading : rs[i]? = some r) : (calibratedPads pads cal rs)[i]? = some (
      if g.readings < 8 ∧ (g.gather r).readings = 8 then p.calibrated (g.gather r) else p) := by
  have both : ((pads.zip (calAfter cal rs)).zip (completed cal rs))[i]? =
      some ((p, g.gather r), g.readings < 8 && (g.gather r).readings == 8) :=
    List.getElem?_zip_eq_some.mpr
      ⟨List.getElem?_zip_eq_some.mpr ⟨pad, calAfter_at gathering reading⟩, completed_at gathering reading⟩
  simp only [calibratedPads, List.getElem?_map, both, Option.map_some, Bool.and_eq_true, decide_eq_true_eq, beq_iff_eq]

/-- Where a pad has no gathering or no reading, the scan has nothing for it. -/
theorem calAfter_zip_none (none' : cal[i]? = none ∨ rs[i]? = none) : ((calAfter cal rs).zip (completed cal rs))[i]? = none := by
  simp only [List.getElem?_eq_none_iff, calAfter, List.length_zip, List.length_map] at none' ⊢
  omega

end

/-- The pads that the model looks for in what a scan has left, said of what it found. -/
theorem failing_eq {cal : List PadCal} (rs : List Reading) (len : cal.length ≤ 48) :
    (((calAfter cal rs).zip (completed cal rs)).zipIdx.filter fun p => p.1.2 && decide (4 ≤ p.1.1.faults)).map
      (fun p => p.2 + 1) = failing cal rs := by
  rw [positions_eq (fun p : PadCal × Bool => p.2 && decide (4 ≤ p.1.faults)) _ 0 48 (by simp [calAfter]; omega)]
  refine List.filter_congr fun n _ => ?_
  rw [Nat.sub_zero]
  cases gathering : cal[n - 1]? with
  | none =>
    rw [calAfter_zip_none (.inl gathering)]
    rfl
  | some g =>
    cases reading : rs[n - 1]? with
    | none =>
      rw [calAfter_zip_none (.inr reading)]
      rfl
    | some r =>
      have both : ((calAfter cal rs).zip (completed cal rs))[n - 1]? =
          some (g.gather r, g.readings < 8 && (g.gather r).readings == 8) :=
        List.getElem?_zip_eq_some.mpr ⟨calAfter_at gathering reading, completed_at gathering reading⟩
      rw [both]
      simp [Bool.and_assoc, Bool.beq_eq_decide_eq]

/-- A scan of a calibration. -/
theorem scanCalibrates_eq {rs : List Reading} {s : State} (len : s.ksu.cal.length ≤ 48) : scanCalibrates rs s = { s with
    ksu := { s.ksu with
      pads := calibratedPads s.ksu.pads s.ksu.cal rs, cal := calAfter s.ksu.cal rs
      calibrating := !((calAfter s.ksu.cal rs).all fun g => g.readings == 8)
      padFaults := (failing s.ksu.cal rs).foldl (fun c _ => bump c) s.ksu.padFaults }
    pqu := (failing s.ksu.cal rs).foldl (fun p n => p.raise (spaced [ascii "PAD", twoDigits n, ascii "FAULT"])) s.pqu } := by
  rw [← failing_eq rs len]
  exact padFaults_eq _ _

/-! ## Measurements (R62, R63, R71) -/

section
variable {s : State} {sc : Scan} {counts : List (BitVec 12)}

/-- The scan's readings with those of a measurement, doubtful if the measurement was disturbed. -/
def Scan.joined (sc : Scan) (counts : List (BitVec 12)) : List Reading :=
  sc.readings ++ counts.map fun n => ⟨n.toNat, sc.disturbed⟩

theorem length_joined (eight : counts.length = 8) : (sc.joined counts).length = sc.readings.length + 8 := by
  simp [Scan.joined, eight]

theorem exec_measurement {e : State} (awake : s.pm.power.awake = true) (normal : s.ksu.ganged = false)
    (scan : s.ksu.scan = some sc) (effect : measurementEnd counts sc s = e) :
    exec (.measurementEnd counts) s = .next (finish e) := by
  show execMeasurementEnd counts s = _
  unfold execMeasurementEnd
  rw [scan]
  exact guarded_eq (by simp [awake, normal]) effect

theorem addGroup_eq (eight : counts.length = 8) (d : Bool) : addGroup counts d sc = ⟨sc.joined counts, d⟩ :=
  congrArg (Scan.mk · d) (addGroup_readings eight d sc)

theorem measurementEnd_more (eight : counts.length = 8) (more : sc.readings.length < 40) : measurementEnd counts sc s =
    { s with ksu := { s.ksu with scan := some ⟨sc.joined counts, s.hdu.energised != []⟩ } } := by
  unfold measurementEnd
  rw [addGroup_eq eight]
  exact if_pos (by rw [length_joined eight]; omega)

/-- The sixth measurement ends the scan. -/
theorem measurementEnd_sixth (eight : counts.length = 8) (five : sc.readings.length = 40) :
    let t := s.setKsu { s.ksu with scan := none }
    measurementEnd counts sc s =
      if s.ksu.calibrating = true then scanCalibrates (sc.joined counts) t else scanApplied (sc.joined counts) t := by
  unfold measurementEnd
  rw [addGroup_eq eight]
  exact if_neg (by rw [length_joined eight]; omega)

/-- The sixth measurement outside a calibration. -/
theorem exec_sixth_applied (awake : s.pm.power.awake = true) (normal : s.ksu.ganged = false) (scan : s.ksu.scan = some sc)
    (eight : counts.length = 8) (five : sc.readings.length = 40) (applied : s.ksu.calibrating = false) :
    exec (.measurementEnd counts) s =
      .next (finish (scanApplied (sc.joined counts) (s.setKsu { s.ksu with scan := none }))) :=
  exec_measurement awake normal scan ((measurementEnd_sixth eight five).trans (if_neg (by simp [applied])))

/-- The sixth measurement of a scan in a calibration. -/
theorem exec_sixth_calibrates (awake : s.pm.power.awake = true) (normal : s.ksu.ganged = false) (scan : s.ksu.scan = some sc)
    (eight : counts.length = 8) (five : sc.readings.length = 40) (calibrating : s.ksu.calibrating = true) :
    exec (.measurementEnd counts) s =
      .next (finish (scanCalibrates (sc.joined counts) (s.setKsu { s.ksu with scan := none }))) :=
  exec_measurement awake normal scan ((measurementEnd_sixth eight five).trans (if_pos calibrating))

end

/-- Settles O28: a scan begun, a measurement before the sixth, and the sixth outside and in a calibration. -/
theorem scanning : Obligations.Scanning := by
  intro s awake normal
  refine ⟨fun none' => guarded_eq (by simp [awake, normal, none']) rfl,
    fun sc counts scan eight more => exec_measurement awake normal scan (measurementEnd_more eight more),
    fun sc counts scan eight five applied => ?_, fun sc counts scan eight five applied => ?_,
    fun sc counts scan eight five calibrating pads cal => ?_⟩
  · have len : (sc.joined counts).length ≤ 48 := by have := length_joined (sc := sc) eight; omega
    obtain ⟨none', records⟩ := ksu_scanApplied len (s.setKsu { s.ksu with scan := none })
    exact ⟨_, exec_sixth_applied awake normal scan eight five applied, none', outside_scanApplied .., records⟩
  · have len : (sc.joined counts).length ≤ 48 := by have := length_joined (sc := sc) eight; omega
    have answer := exec_sixth_applied awake normal scan eight five applied
    rw [scanApplied_eq len] at answer
    exact ⟨answer, fun i p r => applyScan_at⟩
  · have answer := exec_sixth_calibrates awake normal scan eight five calibrating
    rw [scanCalibrates_eq (s := s.setKsu { s.ksu with scan := none }) (Nat.le_of_eq cal)] at answer
    exact ⟨_, answer, rfl,
      fun i _ g p r gathering pad reading => ⟨calAfter_at gathering reading, calibratedPads_at gathering pad reading⟩, rfl, rfl⟩

end Sys2Proof.Machine
end

