-- ==== Sys2Proof/Proofs/KeyDirectives.lean ====
section
/-! SUPPORT. The key directives KL, KU and LK (R81, R82): what two bytes stand for as a keymap entry, and each rule's answer. -/

namespace Sys2Proof.Machine

/-! ## A keymap entry of two bytes (R82, Table 12.2) -/

theorem charCodeOk_iff (c : Byte) :
    charCodeOk c = true ↔ 0x20 ≤ c.toNat ∧ c.toNat ≤ 0x7E ∨ 0x80 ≤ c.toNat ∧ c.toNat ≤ 0xBF := by simp [charCodeOk]

theorem ofNumber_number (a : KeyAct) : KeyAct.ofNumber a.number = some a := by cases a <;> rfl

theorem ofNumber_none_iff (n : Nat) : KeyAct.ofNumber n = none ↔ ¬ (1 ≤ n ∧ n ≤ 11) := by
  unfold KeyAct.ofNumber
  split
  case h_12 =>
    simp only [imp_false, true_iff] at *
    omega
  all_goals simp

section
variable {k v : Byte}

theorem kind_eq (k : Byte) : (k &&& 0x7F).toNat = k.toNat % 128 := by
  rw [BitVec.toNat_and]
  exact Nat.and_two_pow_sub_one_eq_mod k.toNat 7

theorem repeats_eq (k : Byte) : k.getLsbD 7 = decide (128 ≤ k.toNat) := BitVec.msb_eq_decide k

theorem ofBytes_none (kind : k.toNat % 128 = 0) : KeyEntry.ofBytes k v = some .none := by
  unfold KeyEntry.ofBytes
  rw [kind_eq, kind]
  rfl

theorem ofBytes_char (kind : k.toNat % 128 = 1) :
    KeyEntry.ofBytes k v = if charCodeOk v = true then some (.char v (decide (128 ≤ k.toNat))) else none := by
  unfold KeyEntry.ofBytes
  rw [kind_eq, kind, repeats_eq]
  rfl

theorem ofBytes_action (kind : k.toNat % 128 = 2) :
    KeyEntry.ofBytes k v = (KeyAct.ofNumber v.toNat).map fun a => .action a (decide (128 ≤ k.toNat)) := by
  unfold KeyEntry.ofBytes
  rw [kind_eq, kind, repeats_eq]
  rfl

theorem ofBytes_modifier (kind : k.toNat % 128 = 3) : KeyEntry.ofBytes k v =
    if v = 1 then some (.modifier .shift) else if v = 2 then some (.modifier .func) else none := by
  unfold KeyEntry.ofBytes
  rw [kind_eq, kind]
  rfl

theorem ofBytes_unknown (kind : 3 < k.toNat % 128) : KeyEntry.ofBytes k v = none := by
  unfold KeyEntry.ofBytes
  rw [kind_eq]
  split <;> first | omega | rfl

/-- The bytes that stand for no entry, by the kind. -/
theorem ofBytes_none_iff (k v : Byte) : KeyEntry.ofBytes k v = none ↔ 3 < k.toNat % 128 ∨
    k.toNat % 128 = 1 ∧ ¬ (0x20 ≤ v.toNat ∧ v.toNat ≤ 0x7E ∨ 0x80 ≤ v.toNat ∧ v.toNat ≤ 0xBF) ∨
    k.toNat % 128 = 2 ∧ ¬ (1 ≤ v.toNat ∧ v.toNat ≤ 11) ∨ k.toNat % 128 = 3 ∧ v ≠ 1 ∧ v ≠ 2 := by
  rw [← charCodeOk_iff]
  by_cases unknown : 3 < k.toNat % 128
  · simp [ofBytes_unknown unknown, unknown]
  · obtain kind | kind | kind | kind : k.toNat % 128 = 0 ∨ k.toNat % 128 = 1 ∨ k.toNat % 128 = 2 ∨ k.toNat % 128 = 3 := by omega
    · simp [ofBytes_none kind, kind]
    · simp [ofBytes_char kind, kind]
    · simp [ofBytes_action kind, kind, ofNumber_none_iff]
    · rw [ofBytes_modifier kind, kind]
      (repeat' split) <;> simp_all

end

/-! ## The rules -/

section
variable {d : Dir} {c : Ctx} {tag : Nat} {s : State}

/-- An answer after a change of the Key Code Unit. -/
theorem answer_begun_setKcu (may : admits d c s = true) (o : Outcome) (k : Kcu) :
    answer o c ((begun d c tag s).setKcu k) = answered d c tag o [] [] { s with kcu := k } := by
  rw [show (begun d c tag s).setKcu k = begun d c tag (s.setKcu k) from setKcu_occupy ..]
  exact answer_begun_after (t := s.setKcu k) may rfl o

theorem ruleKl_begun (may : admits .kl c s = true) : ruleKl c [] (begun .kl c tag s) =
    if s.clu.line = .ready then answered .kl c tag .done [] [] { s with kcu := { s.kcu with lock := true } }
    else answered .kl c tag .notReady [] [] s := by
  simp only [ruleKl, noArgs, if_true, clu_begun, kcu_begun, answerDone, answer_begun_setKcu may, answer_begun may]

theorem ruleKu_begun (may : admits .ku c s = true) : ruleKu c [] (begun .ku c tag s) =
    answered .ku c tag .done [] [] { s with kcu := { s.kcu with lock := false } } := by
  simp only [ruleKu, noArgs, if_true, kcu_begun, answerDone, answer_begun_setKcu may]

section
variable {x y z t : Text} {layer p : Nat}

theorem argsOk_lk (hx : decimal x = some layer) (hy : decimal y = some p) (hz : hexBytes z = some t) :
    argsOk .lk [x, y, z] = true :=
  argsOk_of_hex rfl (by simp [List.zipIdx, hx, hy, hz])

section
variable (may : admits .lk c s = true) (hx : decimal x = some layer) (hy : decimal y = some p) (hz : hexBytes z = some t)
  (even : t.length % 2 = 0)
include may hx hy hz even

/-- LK of bytes that are entries: the place decides. -/
theorem ruleLk_entries {es : List KeyEntry} (read : pairs KeyEntry.ofBytes t = some es) :
    ruleLk c [x, y, z] (begun .lk c tag s) =
      if layer ≤ 2 ∧ 1 ≤ p ∧ p ≤ 48 ∧ p + t.length / 2 - 1 ≤ 48 then
        answered .lk c tag .done [] []
          { s with kcu := { s.kcu with keymap := putFrom s.kcu.keymap (layer * 48 + p - 1) es } }
      else answered .lk c tag .range [] [] s := by
  have pair : ¬ t.length % 2 = 1 := by omega
  simp only [ruleLk, hx, hy, hz, if_neg pair, read, kcu_begun, answerDone, answer_begun_setKcu may, answer_begun may]

theorem ruleLk_noEntries (read : pairs KeyEntry.ofBytes t = none) :
    ruleLk c [x, y, z] (begun .lk c tag s) = answered .lk c tag .range [] [] s := by
  have pair : ¬ t.length % 2 = 1 := by omega
  simp only [ruleLk, hx, hy, hz, if_neg pair, read, answer_begun may, ite_self]

end

end

end

/-- A pair of bytes that is no entry spoils the whole text. -/
theorem pairs_none {α : Type} {f : Byte → Byte → Option α} {t : Text} {i : Nat} (even : t.length % 2 = 0)
    (inside : i < t.length / 2) (bad : f (t.getD (2 * i) 0) (t.getD (2 * i + 1) 0) = none) : pairs f t = none := by
  refine Option.eq_none_iff_forall_ne_some.mpr fun es read => ?_
  obtain ⟨len, each⟩ := (pairs_spec f t es even).mp read
  have here := (each i inside).trans bad
  rw [List.getElem?_eq_none_iff, len] at here
  omega

/-- Settles O56: KL, KU and LK as their rules answer, and the entry two bytes stand for by their kind. -/
theorem keyDirectives : Obligations.KeyDirectives := by
  intro c tag args s
  have lk : ∀ {x y z t : Text} {layer p : Nat} {e : State}, admits .lk c s = true → asRead args = [x, y, z] →
      decimal x = some layer → decimal y = some p → hexBytes z = some t → ruleLk c [x, y, z] (begun .lk c tag s) = e →
      exec (.lk c tag args) s = .next (finish e) := by
    intro x y z t layer p e may read hx hy hz rule
    exact exec_admitted (d := .lk) may (read ▸ argsOk_lk hx hy hz) (read ▸ rule)
  refine ⟨fun may read => exec_numbers (d := .kl) (l := []) may read rfl (ruleKl_begun may),
    fun may read => exec_numbers (d := .ku) (l := []) may read rfl (ruleKu_begun may),
    fun x xs read ok => ⟨fun may => ?_, fun may => ?_⟩,
    fun x y z layer p t es may read hx hy hz even entries => ?_, fun x y z layer p t i may read hx hy hz even inside bad => ?_,
    ofBytes_none_iff, fun k v => ⟨ofBytes_none, fun kind code => ?_, fun a kind number => ?_, fun kind one => ?_,
      fun kind two => ?_⟩, pairs_spec KeyEntry.ofBytes, fun l es i j => ⟨(putFrom_spec es l i).1, (putFrom_spec es l i).2 j⟩⟩
  · exact exec_admitted (d := .kl) may ok ((rule_malformed .kl (by simp) (by rw [read]; rfl)).trans (answer_begun may _))
  · exact exec_admitted (d := .ku) may ok ((rule_malformed .ku (by simp) (by rw [read]; rfl)).trans (answer_begun may _))
  · exact lk may read hx hy hz (ruleLk_entries may hx hy hz even entries)
  · exact lk may read hx hy hz (ruleLk_noEntries may hx hy hz even (pairs_none even inside bad))
  · rw [ofBytes_char kind, if_pos ((charCodeOk_iff v).mpr code)]
  · rw [ofBytes_action kind, number, ofNumber_number, Option.map_some]
  · rw [ofBytes_modifier kind, if_pos one]
  · rw [ofBytes_modifier kind, if_neg (by simp [two]), if_pos two]

end Sys2Proof.Machine
end

