-- ==== Sys2Proof/Proofs/KeyActions.lean ====
section
/-! SUPPORT. The composer's key actions (R84, R85, R88–R91, R93): an event taken from the typeahead queue, which actions a state
always refuses, and what each action does where it acts. -/

namespace Sys2Proof.Machine

/-! ## An event taken (R83) -/

/-- `s` with the front event gone and `rest` left in the typeahead queue. -/
def State.took (s : State) (rest : List KeyEvent) : State := { s with kcu := { s.kcu with typeahead := rest } }

/-- What the composer does on a key action; LINE goes to the Coupler Line Unit instead (R25). -/
def KeyAct.effect : KeyAct → State → State
  | .enter => enterEffect
  | .tab => tabEffect
  | .rub => rubEffect
  | .cancel => cancelKey
  | .newOrder => newOrderEffect
  | .note => noteEffect
  | .send => sendEffect
  | .discard => discardEffect
  | .feed => feedEffect
  | .line => id
  | .service => serviceEffect

section
variable {a : KeyAct} {x : KeyEvent} {s : State} {rest : List KeyEvent}

theorem takeKey_took {f : State → State} (front : s.kcu.typeahead = x :: rest) (can : canTake x s = true) :
    takeKey x f s = .next (finish (sendFrame (f (s.took rest)))) := takeKey_eq front can rfl

theorem action_took (front : s.kcu.typeahead = .action a :: rest) (can : canTake (.action a) s = true) :
    takeKey (.action a) a.effect s = .next (finish (sendFrame (a.effect (s.took rest)))) := takeKey_took front can

/-! ## Refusals (R84, R85) -/

/-- The composer states in which an action is refused whatever else holds. -/
def KeyAct.refusing : KeyAct → List ComposerState
  | .enter | .rub | .cancel => [.idle]
  | .tab => [.idle, .free, .service]
  | .newOrder | .note | .discard => [.free, .form, .service]
  | .service => [.free, .form]
  | .send | .feed | .line => []

theorem effect_refused (h : s.kcu.state ∈ a.refusing) : a.effect s = refuse s := by
  cases a <;> simp only [KeyAct.refusing, List.mem_cons, List.not_mem_nil, or_false] at h
  case enter => simp [KeyAct.effect, enterEffect, h]
  case rub => simp [KeyAct.effect, rubEffect, h]
  case cancel => simp [KeyAct.effect, cancelKey, h]
  case tab => rcases h with st | st | st <;> simp [KeyAct.effect, tabEffect, st]
  case newOrder => rcases h with st | st | st <;> simp [KeyAct.effect, newOrderEffect, st]
  case note => rcases h with st | st | st <;> simp [KeyAct.effect, noteEffect, st]
  case discard => rcases h with st | st | st <;> simp [KeyAct.effect, discardEffect, st]
  case service => rcases h with st | st <;> simp [KeyAct.effect, serviceEffect, st]

theorem effect_formSelect (line : a ≠ .line) (st : s.kcu.state = .formSelect) : a.effect s = refuseSelect s := by
  cases a with
  | line => exact absurd rfl line
  | enter => simp [KeyAct.effect, enterEffect, st]
  | tab => simp [KeyAct.effect, tabEffect, st]
  | rub => simp [KeyAct.effect, rubEffect, st]
  | cancel => simp [KeyAct.effect, cancelKey, st]
  | newOrder => simp [KeyAct.effect, newOrderEffect, st]
  | note => simp [KeyAct.effect, noteEffect, st]
  | send => simp [KeyAct.effect, sendEffect, st]
  | discard => simp [KeyAct.effect, discardEffect, st]
  | feed => simp [KeyAct.effect, feedEffect, st]
  | service => simp [KeyAct.effect, serviceEffect, st]

/-- The composer refused the event it had taken. -/
theorem became_refused {e : State} (awake : s.pm.power.awake = true) (h : e = refuse (s.took rest)) :
    KcuBecame { s.kcu with typeahead := rest }.refused s (sendFrame e) :=
  kcuBecame_sendFrame (h.trans (refuse_awake (s := s.took rest) awake))

/-- It refused it in FORM SELECT. -/
theorem became_selectRefused {e : State} (awake : s.pm.power.awake = true) (h : e = refuseSelect (s.took rest)) :
    KcuBecame { s.kcu with typeahead := rest }.toIdle.refused s (sendFrame e) :=
  kcuBecame_sendFrame (h.trans (refuseSelect_awake (s := s.took rest) awake))

theorem action_refused (awake : s.pm.power.awake = true) (h : s.kcu.state ∈ a.refusing) :
    KcuBecame { s.kcu with typeahead := rest }.refused s (sendFrame (a.effect (s.took rest))) :=
  became_refused awake (effect_refused (s := s.took rest) h)

theorem action_selectRefused (line : a ≠ .line) (awake : s.pm.power.awake = true) (st : s.kcu.state = .formSelect) :
    KcuBecame { s.kcu with typeahead := rest }.toIdle.refused s (sendFrame (a.effect (s.took rest))) :=
  became_selectRefused awake (effect_formSelect (s := s.took rest) line st)

end

/-! ## TAB (R88) -/

theorem Kcu.tabCloses_finish {k : Kcu} (c : k.cursor = .finish) : k.tabCloses = false := by
  simp [Kcu.tabCloses, Kcu.field_finish c]

theorem Kcu.tabCloses_not {k : Kcu} {n : Nat} {f : FormField} (field : k.field = some (n, f))
    (h : (f.required = true ∧ k.value = []) ∨ 4093 < k.count + 2) : k.tabCloses = false := by
  rcases h with wants | reserve
  · simp [Kcu.tabCloses, (Kcu.wants_iff field).mpr wants]
  · simp [Kcu.tabCloses, show ¬ k.count + 2 ≤ 4093 by omega]

/-- Settles O33: the field closed where it may be, and a refusal in every other state. -/
theorem tabComposed : Obligations.TabComposed := by
  intro s rest front can k
  have awake := canTake_awake can
  have kept : (s.took rest).kcu.tabCloses = false → s.kcu.state = .form →
      KcuBecame k.refused s (sendFrame (tabEffect (s.took rest))) := fun not st =>
    kcuBecame_sendFrame (tab_refused (s := s.took rest) awake (.inr (.inr (.inr ⟨st, not⟩))))
  refine ⟨_, action_took (a := .tab) front can, fun n f st cur field may room => ?_,
    fun st cur => kept (Kcu.tabCloses_finish cur) st,
    fun n f st cur field not => kept (Kcu.tabCloses_not (Kcu.field_of cur field) not) st, fun st => ?_,
    action_selectRefused (by decide) awake⟩
  · exact kcuBecame_sendFrame
      ((tab_closes (s := s.took rest) st (Kcu.field_of cur field) may room).trans (closeField_eq n (s.took rest)))
  · exact action_refused (a := .tab) awake (by simpa [KeyAct.refusing] using st)

/-! ## RUB (R90) -/

section
variable {s : State}

theorem rubEffect_line (st : s.kcu.state = .free) (line : s.kcu.line ≠ []) :
    rubEffect s = removeByte (s.setKcu { s.kcu with line := s.kcu.line.dropLast }) := by simp [rubEffect, st, line]

theorem rubEffect_value (st : s.kcu.state = .form) (field : s.kcu.field ≠ none) (value : s.kcu.value ≠ []) :
    rubEffect s = removeByte (s.setKcu { s.kcu with value := s.kcu.value.dropLast }) := by simp [rubEffect, st, field, value]

theorem rubEffect_service (st : s.kcu.state = .service) (line : s.kcu.serviceLine ≠ []) :
    rubEffect s = s.setKcu { s.kcu with serviceLine := s.kcu.serviceLine.dropLast } := by simp [rubEffect, st, line]

/-- RUB finds nothing in hand. -/
theorem rubEffect_refused (h : s.kcu.state = .free ∧ s.kcu.line = [] ∨
      s.kcu.state = .form ∧ (s.kcu.field = none ∨ s.kcu.value = []) ∨ s.kcu.state = .service ∧ s.kcu.serviceLine = []) :
    rubEffect s = refuse s := by
  rcases h with ⟨st, line⟩ | ⟨st, field⟩ | ⟨st, line⟩
  · simp [rubEffect, st, line]
  · simp [rubEffect, st, field]
  · simp [rubEffect, st, line]

/-- A byte removed from staging, with what becomes of a waiting flush and its timer left open (log entry 18). -/
theorem became_unstaged {e : State} {k : Kcu} (effect : e = removeByte (s.setKcu k)) (staged : k.staging ≠ []) :
    KcuBecame { k with
      staging := k.staging.dropLast, count := k.count - 1, flush := (sendFrame e).kcu.flush
      flushTimer := (sendFrame e).kcu.flushTimer } s (sendFrame e) := by
  subst effect
  obtain ⟨flush, timer⟩ := flush_sendFrame (removeByte (s.setKcu k))
  rw [flush, timer]
  exact kcuBecame_sendFrame (removeByte_staged staged)

end

/-- Settles O35: the line or value in hand shortened, and a refusal where there is none. -/
theorem rubComposed : Obligations.RubComposed := by
  intro s rest front can k
  have awake := canTake_awake can
  have nothing := fun h => became_refused (rest := rest) awake (rubEffect_refused (s := s.took rest) h)
  refine ⟨_, action_took (a := .rub) front can, fun st line staged => ?_, fun st field value staged => ?_,
    fun st line => nothing (.inl ⟨st, line⟩), fun st none' => nothing (.inr (.inl ⟨st, none'⟩)), fun st line => ?_,
    fun st line => nothing (.inr (.inr ⟨st, line⟩)), fun st => action_refused (a := .rub) awake (by simp [KeyAct.refusing, st]),
    action_selectRefused (by decide) awake⟩
  · exact became_unstaged (s := s) (rubEffect_line (s := s.took rest) st line) staged
  · exact became_unstaged (s := s) (rubEffect_value (s := s.took rest) st field value) staged
  · exact kcuBecame_sendFrame (rubEffect_service (s := s.took rest) st line)

end Sys2Proof.Machine
end

