-- ==== Sys2Proof/Proofs/EntryActions.lean ====
section
/-! SUPPORT. The key actions that end an entry, discard one, or ask another block for something: ENTER, CANCEL and DISCARD
(R86, R89, R91, R93, R109), then SEND, FEED and SERVICE (R84, R93, R95, R110). -/

namespace Sys2Proof.Machine

/-! ## CANCEL (R91) -/

section
variable {s : State}

/-- CANCEL while the journal is being secured: its claim waits (log entry 23). -/
theorem cancelEffect_secured (securing : s.spu.securing = true) :
    cancelEffect s = { s with kcu := { s.kcu.cancelled with claim := some .untaken } } := if_pos securing

theorem cancelKey_entry (st : s.kcu.state = .free ∨ s.kcu.state = .form) : cancelKey s = cancelEffect s := by
  rcases st with st | st <;> simp [cancelKey, st]

theorem cancelKey_service (st : s.kcu.state = .service) : cancelKey s = s.setKcu { s.kcu with serviceLine := [] } := by
  simp [cancelKey, st]

/-! ## ENTER (R86, R89, R93) -/

section
variable (st : s.kcu.state = .free)
include st

theorem enterEffect_line (line : s.kcu.line ≠ []) : enterEffect s = beginClosing (completeLine [0x0A] s.kcu.line s) := by
  simp [enterEffect, st, enterFree, line]

theorem enterEffect_text (line : s.kcu.line = []) (text : 0 < s.kcu.count) : enterEffect s = beginClosing s := by
  simp [enterEffect, st, enterFree, line, text]

theorem enterEffect_nothing (line : s.kcu.line = []) (count : s.kcu.count = 0) : enterEffect s = cancelEffect s := by
  simp [enterEffect, st, enterFree, line, count]

end

section
variable (st : s.kcu.state = .form)
include st

theorem enterEffect_wants (wants : s.kcu.wants = true) : enterEffect s = refuse s := by
  simp [enterEffect, st, enterForm, wants]

/-- ENTER in FORM closes the field at the cursor, and then the entry or nothing more (R89). -/
theorem enterEffect_field {t : State} {n : Nat} {f : FormField} (field : s.kcu.field = some (n, f))
    (may : ¬ (f.required = true ∧ s.kcu.value = [])) (closed : closeField n s = t) :
    (t.kcu.missing = none → enterEffect s = beginClosing t) ∧
    ∀ m, t.kcu.missing = some m → enterEffect s = refuse (t.setKcu { t.kcu with cursor := .field m, value := [] }) := by
  subst closed
  have wants : s.kcu.wants = false := Bool.eq_false_iff.mpr fun wants => may ((Kcu.wants_iff field).mp wants)
  constructor
  · intro missing
    simp [enterEffect, st, enterForm, wants, field, missing]
  · intro m missing
    simp [enterEffect, st, enterForm, wants, field, missing]

theorem enterEffect_finish (cursor : s.kcu.cursor = .finish) :
    (s.kcu.missing = none → enterEffect s = beginClosing s) ∧
    ∀ m, s.kcu.missing = some m → enterEffect s = refuse (s.setKcu { s.kcu with cursor := .field m, value := [] }) := by
  have field := Kcu.field_finish cursor
  constructor
  · intro missing
    simp [enterEffect, st, enterForm, Kcu.wants_finish field, field, missing]
  · intro m missing
    simp [enterEffect, st, enterForm, Kcu.wants_finish field, field, missing]

end

section
variable (st : s.kcu.state = .service)
include st

theorem enterEffect_empty (line : s.kcu.serviceLine = []) : enterEffect s = refuse s := by
  simp [enterEffect, st, enterService, line]

theorem enterEffect_service (line : s.kcu.serviceLine ≠ []) :
    enterEffect s = beginText .service s.kcu.serviceLine (s.setKcu { s.kcu with serviceLine := [] }) := by
  simp [enterEffect, st, enterService, line]

end

/-- The composer plays no part in the placing of answer lines. -/
theorem offerLines_setKcu (k : Kcu) : ∀ (n : Nat) (s : State), offerLines n (s.setKcu k) = (offerLines n s).setKcu k
  | 0, _ => rfl
  | n + 1, s => by
    unfold offerLines
    simp only [State.setKcu_du, State.setKcu_pqu]
    split
    · split
      · exact offerLines_setKcu k n ((s.setPqu _).setDu _)
      · rfl
    · split
      · rfl
      · rename_i line _ _
        rw [show line.build (s.setKcu k) = line.build s by cases line <;> rfl]
        exact offerLines_setKcu k n (s.setDu _)
    · rfl

theorem offerAll_setKcu (k : Kcu) (s : State) : offerAll (s.setKcu k) = (offerAll s).setKcu k := offerLines_setKcu k 20 s

/-- A text that the grammar refuses is answered at once (R170, R173). -/
theorem beginText_refused {t : Text} {o : Outcome} (k : Kcu) (read : parseDirective t = .refused o) :
    beginText .service t (s.setKcu k) = (offerAll { s with du := { s.du with
      keyed := ⟨some (.answering .other), t.take 4, some (spaced [t.take 4, o.name]), []⟩ } }).setKcu k := by
  rw [← offerAll_setKcu]
  unfold beginText
  rw [read]
  rfl

theorem beginText_directive {t : Text} {d : Dir} {args : List Text} (read : parseDirective t = .directive d args) :
    beginText .service t s =
      begin' d d.rule .service args { s with du := { s.du with keyed := ⟨some .unanswered, t.take 4, none, []⟩ } } := by
  unfold beginText
  rw [read]
  rfl

end

/-- Settles O34: FREE by the line and the text in hand, FORM by the field at the cursor and the one missing, SERVICE by the line
in hand. -/
theorem enterComposed : Obligations.EnterComposed := by
  intro s rest front can k
  have awake := canTake_awake can
  refine ⟨_, action_took (a := .enter) front can, fun st line => ?_, fun st line text => ?_,
    fun m st line count free opened => ?_, fun st line count securing => ?_, fun st wants => ?_,
    fun n f st cur field may => ⟨fun whole => ?_, fun m missing => ?_⟩, fun st cur whole => ?_, fun n st cur missing => ?_,
    fun o st line read => ?_, fun d args st line read => ?_, fun st line => ?_,
    fun st => action_refused (a := .enter) awake (by simp [KeyAct.refusing, st]), action_selectRefused (by decide) awake⟩
  · refine kcuBecame_sendFrame ((enterEffect_line (s := s.took rest) st line).trans ?_)
    rw [completeLine_eq]
    rfl
  · exact kcuBecame_sendFrame (enterEffect_text (s := s.took rest) st line text)
  · exact kcuBecame_sendFrame
      ((enterEffect_nothing (s := s.took rest) st line count).trans (cancelEffect_open (s := s.took rest) free opened))
  · exact kcuBecame_sendFrame
      ((enterEffect_nothing (s := s.took rest) st line count).trans (cancelEffect_secured (s := s.took rest) securing))
  · exact became_refused awake (enterEffect_wants (s := s.took rest) st wants)
  · have closes := enterEffect_field (s := s.took rest) st (Kcu.field_of cur field) may (closeField_eq n _)
    exact kcuBecame_sendFrame (closes.1 whole)
  · have closes := enterEffect_field (s := s.took rest) st (Kcu.field_of cur field) may (closeField_eq n _)
    exact kcuBecame_sendFrame ((closes.2 m missing).trans (refuse_awake (by exact awake)))
  · exact kcuBecame_sendFrame ((enterEffect_finish (s := s.took rest) st cur).1 whole)
  · exact kcuBecame_sendFrame (((enterEffect_finish (s := s.took rest) st cur).2 n missing).trans (refuse_awake (by exact awake)))
  · exact kcuBecame_sendFrame ((enterEffect_service (s := s.took rest) st line).trans (beginText_refused (s := s) _ read))
  · exact kcuBecame_sendFrame ((enterEffect_service (s := s.took rest) st line).trans (beginText_directive read))
  · exact became_refused awake (enterEffect_empty (s := s.took rest) st line)

/-! ## DISCARD (R109) -/

section
variable {s : State}

theorem discardEffect_entry {n : Nat} (st : s.kcu.state = .idle) (free : s.spu.securing = false)
    (oldest : s.spu.discardable = some n) : discardEffect s = { s with spu := s.spu.voided n } := by
  simp only [discardEffect, st, spoolClaim_taken free, oldest]
  exact voidEntry_eq n s

theorem discardEffect_none (st : s.kcu.state = .idle) (free : s.spu.securing = false)
    (none' : s.spu.discardable = none) : discardEffect s = refuse s := by
  simp only [discardEffect, st, spoolClaim_taken free, none']

/-- The oldest REJECTED or DAMAGED entry is the first of the entry list in one of these states. -/
theorem discardable_iff {p : Spu} {n : Nat} : p.discardable = some n ↔ ∃ older younger, p.order = older ++ n :: younger ∧
    ((p.entry n).state = .rejected ∨ (p.entry n).state = .damaged) ∧
    ∀ m ∈ older, ¬ ((p.entry m).state = .rejected ∨ (p.entry m).state = .damaged) := by
  unfold Spu.discardable
  rw [List.find?_eq_some_iff_append]
  constructor
  · rintro ⟨dead, older, younger, at', live⟩
    exact ⟨older, younger, at', by simpa using dead, fun m inside => by simpa using live m inside⟩
  · rintro ⟨older, younger, at', dead, live⟩
    exact ⟨by simpa using dead, older, younger, at', fun m inside => by simpa using live m inside⟩

theorem discardable_none_iff {p : Spu} : p.discardable = none ↔
    ∀ m ∈ p.order, ¬ ((p.entry m).state = .rejected ∨ (p.entry m).state = .damaged) := by
  unfold Spu.discardable
  rw [List.find?_eq_none]
  simp only [Bool.or_eq_true, beq_iff_eq]

end

/-- Settles O37: CANCEL and DISCARD by the composer's state, and which entry is the oldest to discard. -/
theorem cancelAndDiscard : Obligations.CancelAndDiscard := by
  intro s rest k
  refine ⟨fun front can => ?_, fun front can => ?_, fun n => discardable_iff, discardable_none_iff⟩
  · have awake := canTake_awake can
    refine ⟨_, action_took (a := .cancel) front can, fun m st free opened => ?_, fun st securing => ?_, fun st => ?_,
      fun st => action_refused (a := .cancel) awake (by simp [KeyAct.refusing, st]), action_selectRefused (by decide) awake⟩
    · exact kcuBecame_sendFrame ((cancelKey_entry (s := s.took rest) st).trans (cancelEffect_open (s := s.took rest) free opened))
    · exact kcuBecame_sendFrame
        ((cancelKey_entry (s := s.took rest) st).trans (cancelEffect_secured (s := s.took rest) securing))
    · exact kcuBecame_sendFrame (cancelKey_service (s := s.took rest) st)
  · have awake := canTake_awake can
    refine ⟨_, action_took (a := .discard) front can, fun n st free oldest => ?_, fun st free none' => ?_, fun st => ?_,
      action_selectRefused (by decide) awake⟩
    · exact kcuBecame_sendFrame (discardEffect_entry (s := s.took rest) st free oldest)
    · exact became_refused awake (discardEffect_none (s := s.took rest) st free none')
    · exact action_refused (a := .discard) awake (by simpa [KeyAct.refusing] using st)

/-! ## SEND, FEED and SERVICE (R84, R93, R95, R110) -/

section
variable {s : State}

theorem sendEffect_ready (st : s.kcu.state ≠ .formSelect) (ready : s.clu.line = .ready) (free : s.spu.securing = false) :
    sendEffect s = { s with spu := { s.spu with active := true } } := by
  simp only [sendEffect, if_neg st, ready, spoolClaim_taken free]
  rfl

theorem sendEffect_notReady (st : s.kcu.state ≠ .formSelect) (not : s.clu.line ≠ .ready) : sendEffect s = refuse s := by
  simp only [sendEffect, if_neg st, if_pos not]

theorem feedEffect_claims (st : s.kcu.state ≠ .formSelect) : feedEffect s = { s with
    kcu := { s.kcu with echo := some ⟨.feed, 0, .claimed⟩ }, pqu := { s.pqu with composerClaim := some (.feed 14) } } := if_neg st

theorem serviceEffect_enters (st : s.kcu.state = .idle) :
    serviceEffect s = { s with kcu := { s.kcu with state := .service, serviceLine := [] } } := by
  simp only [serviceEffect, st]
  rfl

theorem serviceEffect_leaves (st : s.kcu.state = .service) :
    serviceEffect s = { s with kcu := { s.kcu with state := .idle, serviceLine := [] } } := by
  simp only [serviceEffect, st]
  rfl

end

/-- Settles O38: SEND by the line, FEED, SERVICE by the composer's state, then NOTE and NEW ORDER where they are refused. -/
theorem sendFeedService : Obligations.SendFeedService := by
  intro s rest k
  refine ⟨fun front can => ?_, fun front can => ?_, fun front can => ?_, fun st => ⟨fun front can => ?_, fun front can => ?_⟩,
    fun st => ⟨fun front can => ?_, fun front can => ?_⟩⟩ <;> have awake := canTake_awake can
  · exact ⟨_, action_took (a := .send) front can,
      fun st ready free => kcuBecame_sendFrame (sendEffect_ready (s := s.took rest) st ready free),
      fun st not => became_refused awake (sendEffect_notReady (s := s.took rest) st not), action_selectRefused (by decide) awake⟩
  · exact ⟨_, action_took (a := .feed) front can, fun st => kcuBecame_sendFrame (feedEffect_claims (s := s.took rest) st),
      action_selectRefused (by decide) awake⟩
  · exact ⟨_, action_took (a := .service) front can,
      fun st => kcuBecame_sendFrame (serviceEffect_enters (s := s.took rest) st),
      fun st => kcuBecame_sendFrame (serviceEffect_leaves (s := s.took rest) st),
      fun st => action_refused (a := .service) awake (by simpa [KeyAct.refusing] using st),
      action_selectRefused (by decide) awake⟩
  · exact ⟨_, action_took (a := .note) front can,
      action_refused awake (by simpa [KeyAct.refusing] using st)⟩
  · exact ⟨_, action_took (a := .newOrder) front can,
      action_refused awake (by simpa [KeyAct.refusing] using st)⟩
  · exact ⟨_, action_took (a := .note) front can, action_selectRefused (by decide) awake st⟩
  · exact ⟨_, action_took (a := .newOrder) front can, action_selectRefused (by decide) awake st⟩

end Sys2Proof.Machine
end

