-- ==== Sys2Proof/Proofs/Characters.lean ====
section
/-! SUPPORT. When the composer can act on an event, and what it would store (R83, R86–R89); what a field takes (R87, R92, Table
5.5); and a CHAR in FREE, FORM and SERVICE. -/

namespace Sys2Proof.Machine

/-! ## When an event can be taken (R83) -/

theorem canTake_iff (s : State) (e : KeyEvent) : canTake e s = true ↔
    s.pm.power.awake = true ∧ s.pm.restarting = false ∧ s.kcu.staging.length ≠ 8 ∧ s.kcu.staging.length + s.kcu.stores e ≤ 8 ∧
      s.kcu.closing = false ∧ s.kcu.claim = none ∧ (e = .action .rub ∨ e = .action .cancel → s.kcu.flush ≠ .running) ∧
      (s.kcu.echoes e = true → s.kcu.echo = none) ∧ (e = .action .cancel → ∀ q, s.kcu.echo = some q → q.stage ≠ .claimed) ∧
      (s.kcu.opens e = true → s.du.srRunning = false) ∧
      (e = .action .enter → s.kcu.state = .service → s.du.keyed.job = none) := by
  have echo : (s.kcu.echo.any fun q => q.stage == .claimed) = false ↔ ∀ q, s.kcu.echo = some q → q.stage ≠ .claimed := by
    cases s.kcu.echo <;> simp
  simp only [canTake, Bool.and_eq_true, Bool.not_eq_true', Bool.and_eq_false_imp, echo]
  simp [and_assoc]

/-! ## What an event would store, end and open (R83, R86–R89) -/

section
variable {k : Kcu}

theorem freeTakes_iff : k.freeTakes = true ↔ k.count + (if 39 ≤ k.line.length then 2 else 1) ≤ 4093 := by
  simp [Kcu.freeTakes, Kcu.freeBytes, Kcu.completes]

theorem echoes_char (c : Byte) : k.echoes (.char c) = true ↔ k.state = .free ∧ 39 ≤ k.line.length ∧ k.count + 2 ≤ 4093 := by
  simp only [Kcu.echoes, Bool.and_eq_true, beq_iff_eq, freeTakes_iff, Kcu.completes, decide_eq_true_eq, and_assoc]
  refine and_congr_right fun _ => ⟨fun ⟨room, full⟩ => ?_, fun ⟨full, room⟩ => ?_⟩
  · exact ⟨full, by rwa [if_pos full] at room⟩
  · exact ⟨by rwa [if_pos full], full⟩

theorem stores_char (c : Byte) : k.stores (.char c) = match k.state with
    | .idle => 1
    | .free => if k.count + (if 39 ≤ k.line.length then 2 else 1) ≤ 4093 then (if 39 ≤ k.line.length then 2 else 1) else 0
    | .form => if k.formTakes c = true then 1 else 0
    | .formSelect | .service => 0 := by
  cases st : k.state <;> simp [Kcu.stores, st, freeTakes_iff, Kcu.freeBytes, Kcu.completes]

theorem opens_char (c : Byte) : k.opens (.char c) = true ↔ k.state = .idle ∨
    k.state = .formSelect ∧ 0x31 ≤ c.toNat ∧ c.toNat ≤ 0x34 ∧ (k.formSlotAt (c.toNat - 0x30)).status = .loaded := by
  simp [Kcu.opens, and_assoc]

/-- The field that an ENTER would close, and a TAB with the entry reserve kept. -/
theorem enterCloses_iff : k.enterCloses = true ↔
    ∃ n f, k.cursor = .field n ∧ k.image.field n = some f ∧ ¬ (f.required = true ∧ k.value = []) := by
  unfold Kcu.enterCloses
  cases cursor : k.cursor with
  | finish => simp [Kcu.field_finish cursor]
  | field n =>
    cases image : k.image.field n with
    | none => simp [Kcu.field, cursor, image]
    | some f =>
      have field := Kcu.field_of cursor image
      have wants : k.wants = false ↔ ¬ (f.required = true ∧ k.value = []) := by
        rw [← Kcu.wants_iff field, Bool.not_eq_true]
      simp [field, wants, image]

theorem tabCloses_iff : k.tabCloses = true ↔ k.enterCloses = true ∧ k.count + 2 ≤ 4093 := by
  simp [Kcu.tabCloses, Kcu.enterCloses]

theorem stores_enter_line (st : k.state = .free) (line : k.line ≠ []) : k.stores (.action .enter) = 1 := by
  simp [Kcu.stores, st, line]

theorem stores_enter_field (st : k.state = .form) (closes : k.enterCloses = true) : k.stores (.action .enter) = 2 := by
  simp [Kcu.stores, st, closes]

theorem stores_enter_none (line : ¬ (k.state = .free ∧ k.line ≠ [])) (closes : ¬ (k.state = .form ∧ k.enterCloses = true)) :
    k.stores (.action .enter) = 0 := by
  cases st : k.state <;> simp [Kcu.stores, st] at line closes ⊢
  · exact line
  · exact closes

theorem echoes_enter : k.echoes (.action .enter) = true ↔
    k.state = .free ∧ k.line ≠ [] ∨ k.state = .form ∧ k.enterCloses = true := by
  simp [Kcu.echoes]

theorem stores_other (a : KeyAct) (enter : a ≠ .enter) (tab : a ≠ .tab) : k.stores (.action a) = 0 := by
  cases a <;> simp [Kcu.stores] at enter tab ⊢

theorem echoes_other (a : KeyAct) (enter : a ≠ .enter) (tab : a ≠ .tab) (feed : a ≠ .feed) : k.echoes (.action a) = false := by
  cases a <;> simp [Kcu.echoes] at enter tab feed ⊢

theorem opens_action (a : KeyAct) : k.opens (.action a) = true ↔ a = .note ∧ k.state = .idle := by cases a <;> simp [Kcu.opens]

end

/-! ## What a field's kind allows (Table 5.5) -/

section
variable {v : Text} {c : Byte}

theorem isDigit_iff (c : Byte) : isDigit c = true ↔ 0x30 ≤ c.toNat ∧ c.toNat ≤ 0x39 := by simp [isDigit]

theorem allows_digits : FieldKind.digits.allows v c = true ↔ 0x30 ≤ c.toNat ∧ c.toNat ≤ 0x39 := isDigit_iff c

theorem allows_amount_whole (point : 0x2E ∉ v) :
    FieldKind.amount.allows v c = true ↔ (0x30 ≤ c.toNat ∧ c.toNat ≤ 0x39) ∨ c = 0x2E := by
  have none' : v.contains 0x2E = false := by simpa using point
  simp only [FieldKind.allows, none', Bool.false_eq_true, if_false, Bool.or_eq_true, isDigit_iff, beq_iff_eq]

theorem allows_amount_point {a b : Text} (at' : v = a ++ 0x2E :: b) (first : 0x2E ∉ a) :
    FieldKind.amount.allows v c = true ↔ (0x30 ≤ c.toNat ∧ c.toNat ≤ 0x39) ∧ b.length < 2 := by
  have after : v.dropWhile (· != 0x2E) = 0x2E :: b := by
    rw [at', List.dropWhile_append_of_pos fun x inside => bne_iff_ne.mpr (ne_of_mem_of_not_mem inside first)]
    rfl
  have point : v.contains 0x2E = true := by simp [at']
  simp only [FieldKind.allows, point, after, if_true, Bool.and_eq_true, isDigit_iff, decide_eq_true_eq, List.length_cons]
  omega

theorem isLetter_upper : isLetter (upper c) = true ↔ 0x41 ≤ c.toNat ∧ c.toNat ≤ 0x5A ∨ 0x61 ≤ c.toNat ∧ c.toNat ≤ 0x7A := by
  unfold upper isLetter
  split
  · rename_i small
    have lower : (c - 0x20).toNat = c.toNat - 0x20 := by bv_omega
    simp only [lower, Bool.and_eq_true, decide_eq_true_eq]
    omega
  · simp only [Bool.and_eq_true, decide_eq_true_eq]
    omega

theorem allows_letters : FieldKind.letters.allows v c = true ↔
    0x41 ≤ c.toNat ∧ c.toNat ≤ 0x5A ∨ 0x61 ≤ c.toNat ∧ c.toNat ≤ 0x7A ∨ c = 0x20 := by
  simp only [FieldKind.allows, Bool.or_eq_true, isLetter_upper, beq_iff_eq, or_assoc]

theorem allows_any : FieldKind.any.allows v c = true ↔ 0x20 ≤ c.toNat ∧ c.toNat ≤ 0x7E ∨ 0x80 ≤ c.toNat ∧ c.toNat ≤ 0xBF :=
  charCodeOk_iff c

end

/-! ## A CHAR in FREE, FORM and SERVICE (R86, R87, R93) -/

section
variable {s : State} {c : Byte} {rest : List KeyEvent}

theorem keyChar_took (front : s.kcu.typeahead = .char c :: rest) (can : canTake (.char c) s = true) :
    exec .keyChar s = .next (finish (sendFrame (charEffect c (s.took rest)))) := by
  have taken : exec .keyChar s = takeKey (.char c) (charEffect c) s := by
    show execKeyChar s = _
    unfold execKeyChar
    rw [front]
  exact taken.trans (takeKey_took front can)

theorem charEffect_free (st : s.kcu.state = .free) : charEffect c s = freeChar c s := by simp only [charEffect, st]

theorem charEffect_form (st : s.kcu.state = .form) : charEffect c s = formChar c s := by simp only [charEffect, st]

theorem charEffect_service (st : s.kcu.state = .service) (room : s.kcu.serviceLine.length < 40) :
    charEffect c s = s.setKcu { s.kcu with serviceLine := s.kcu.serviceLine ++ [c] } := by simp only [charEffect, st, if_pos room]

theorem charEffect_service_full (st : s.kcu.state = .service) (full : 40 ≤ s.kcu.serviceLine.length) :
    charEffect c s = refuse s := by simp only [charEffect, st, if_neg (Nat.not_lt.mpr full)]

end

/-- Settles O31: what holds an event, what it would store, what a field takes, and a CHAR by the composer's state. -/
theorem charactersComposed : Obligations.CharactersComposed := by
  refine ⟨canTake_iff, fun k c => ⟨stores_char c, echoes_char c, opens_char c⟩, fun k => ?_,
    fun v c => ⟨allows_digits, allows_amount_whole, fun a b => allows_amount_point, allows_letters, allows_any⟩,
    fun s c rest front can => ?_⟩
  · intro closes ends reserve
    have closes_iff : closes ↔ k.state = .form ∧ k.enterCloses = true := and_congr_right fun _ => enterCloses_iff.symm
    have tab_iff : closes ∧ reserve ↔ k.state = .form ∧ k.tabCloses = true := by rw [closes_iff, tabCloses_iff, and_assoc]
    refine ⟨fun ⟨st, line⟩ => stores_enter_line st line, fun h => ?_, fun line h => ?_, ?_, fun h room => ?_, fun h => ?_, ?_,
      fun a => ⟨rfl, stores_other a, echoes_other a, opens_action a⟩⟩
    · obtain ⟨st, field⟩ := closes_iff.mp h
      exact stores_enter_field st field
    · exact stores_enter_none line fun field => h (closes_iff.mpr field)
    · rw [echoes_enter, closes_iff]
    · exact if_pos (tab_iff.mp ⟨h, room⟩)
    · exact if_neg fun field => h (tab_iff.mpr field)
    · rw [tab_iff]
      simp [Kcu.echoes]
  · intro k
    have awake := canTake_awake can
    refine ⟨_, keyChar_took front can, fun st line room => ?_, fun st line room => ?_, fun st full => ?_, fun st takes => ?_,
      fun st not => ?_, fun st room => kcuBecame_sendFrame (charEffect_service (s := s.took rest) st room),
      fun st full => became_refused awake (charEffect_service_full (s := s.took rest) st full),
      fun n f cur field => Kcu.formTakes_iff (Kcu.field_of cur field) c, fun cur => ?_⟩
    · exact kcuBecame_sendFrame ((charEffect_free (s := s.took rest) st).trans (freeChar_stored (s := s.took rest) c line room))
    · exact kcuBecame_sendFrame
        ((charEffect_free (s := s.took rest) st).trans (freeChar_completes (s := s.took rest) c line room))
    · exact kcuBecame_sendFrame
        ((charEffect_free (s := s.took rest) st).trans (freeChar_refused (s := s.took rest) awake c full))
    · exact kcuBecame_sendFrame ((charEffect_form (s := s.took rest) st).trans (formChar_stored (s := s.took rest) takes))
    · exact kcuBecame_sendFrame ((charEffect_form (s := s.took rest) st).trans (formChar_refused (s := s.took rest) awake not))
    · simp [Kcu.formTakes, Kcu.field_finish cur]

end Sys2Proof.Machine
end

