-- ==== Sys2Proof/Proofs/EntriesOpened.lean ====
section
/-! SUPPORT. The opening of an entry (R83, R85, R104, R107): the slot it takes, what a creation claim leaves, and the three ways
to one, NOTE, a CHAR in IDLE, and a form slot's image read. -/

namespace Sys2Proof.Machine

/-! ## The slot a new entry takes (R104) -/

theorem freeSlot_iff {p : Spu} {n : Nat} : p.freeSlot = some n ↔
    1 ≤ n ∧ n ≤ 32 ∧ (p.entry n).state = .free ∧ ∀ m, 1 ≤ m → m < n → (p.entry m).state ≠ .free := by
  unfold Spu.freeSlot
  rw [List.find?_range'_eq_some]
  simp only [beq_iff_eq, List.mem_range'_1, Bool.not_eq_true', beq_eq_false_iff_ne]
  constructor
  · rintro ⟨free, inside, lower⟩
    exact ⟨inside.1, by omega, free, lower⟩
  · rintro ⟨low, high, free, lower⟩
    exact ⟨free, ⟨low, by omega⟩, lower⟩

theorem freeSlot_none_iff {p : Spu} : p.freeSlot = none ↔ ∀ m, 1 ≤ m → m ≤ 32 → (p.entry m).state ≠ .free := by
  unfold Spu.freeSlot
  rw [List.find?_eq_none]
  simp only [List.mem_range'_1, beq_iff_eq]
  exact ⟨fun taken m low high => taken m ⟨low, by omega⟩, fun taken m inside => taken m inside.1 (by omega)⟩

/-! ## A creation claim (R104, R107, R119) -/

/-- The Spool Unit with the entry `e` opened in slot `n`, its record and then the header due; a write of the slot's former record
still in progress is not the creation record. -/
def Spu.opened (p : Spu) (n : Nat) (e : Entry) : Spu :=
  let q : Spu := { p with
    order := p.order ++ [n], episode := false, table := p.table.set (n - 1) e
    cur := p.cur.map fun c => if c.item = .record n then { c with live := false } else c }
  (q.dueItem (.record n)).dueItem .header

section
variable {s : State} {n k : Nat}

theorem createEntry_note (slot : s.spu.freeSlot = some n) (room : s.spu.ring.free s.spoolSize ≠ 0) :
    createEntry .note 0 s = some (n, { s with spu := s.spu.opened n { freeEntry with
      state := .opened, cls := some .note, start := s.spu.ring.head, gate := (s.spu.entry n).gate } }) := by
  simp only [createEntry, slot, if_neg room]
  rfl

theorem createEntry_order (slot : s.spu.freeSlot = some n) (room : s.spu.ring.free s.spoolSize ≠ 0) :
    createEntry .order k s = some (n, { s with spu := s.spu.opened n { freeEntry with
      state := .opened, cls := some .order, formSlot := k, cursor := some (.field 1), recCursor := some (.field 1)
      start := s.spu.ring.head, gate := (s.spu.entry n).gate } }) := by
  simp only [createEntry, slot, if_neg room]
  rfl

theorem createEntry_none {cls : EntryClass} (h : s.spu.freeSlot = none ∨ s.spu.ring.free s.spoolSize = 0) :
    createEntry cls k s = none := by
  unfold createEntry
  rcases h with none' | full
  · rw [none']
  · split
    · rfl
    · exact if_pos full

end

/-! ## A refusal with SPOOL FULL (R107) -/

/-- `s` with SPOOL FULL raised, once in an episode. -/
def State.spoolFull (s : State) : State := { s with
  spu := { s.spu with episode := true }
  pqu := if s.spu.episode = true then s.pqu else s.pqu.raise (ascii "SPOOL FULL") }

section
variable {s : State}

/-- The alert that comes with the notice is the one that comes with the refusal. -/
theorem raiseSpoolFull_cases (awake : s.pm.power.awake = true) : raiseSpoolFull s = s.spoolFull ∨
    raiseSpoolFull s = { s.spoolFull with kcu := { s.kcu with alert := true } } := by
  cases episode : s.spu.episode with
  | false =>
    refine .inr ((raiseSpoolFull_first awake episode).trans ?_)
    simp [State.spoolFull, episode]
  | true =>
    refine .inl ((raiseSpoolFull_again episode).trans ?_)
    unfold State.spoolFull
    rw [← episode, if_pos rfl]

theorem refuse_spoolFull (awake : s.pm.power.awake = true) :
    refuse (raiseSpoolFull s) = { s.spoolFull with kcu := s.kcu.refused } := by
  rcases raiseSpoolFull_cases awake with e | e <;> rw [e, refuse_awake (by exact awake)] <;> rfl

theorem refuseSelect_spoolFull (awake : s.pm.power.awake = true) :
    refuseSelect (raiseSpoolFull s) = { s.spoolFull with kcu := s.kcu.toIdle.refused } := by
  rcases raiseSpoolFull_cases awake with e | e <;> rw [e, refuseSelect_awake (by exact awake)] <;> rfl

end

/-! ## NOTE, and a CHAR in IDLE (R85) -/

section
variable {s : State} {n : Nat} {after : State → State}

theorem openNote_opens (free : s.spu.securing = false) (slot : s.spu.freeSlot = some n)
    (room : s.spu.ring.free s.spoolSize ≠ 0) : openNote after s = after { s with
      kcu := { s.kcu.toIdle with state := .free }
      spu := s.spu.opened n { freeEntry with
        state := .opened, cls := some .note, start := s.spu.ring.head, gate := (s.spu.entry n).gate } } := by
  unfold openNote
  rw [spoolClaim_taken free, createEntry_note slot room]
  rfl

theorem openNote_refused (awake : s.pm.power.awake = true) (free : s.spu.securing = false)
    (full : s.spu.freeSlot = none ∨ s.spu.ring.free s.spoolSize = 0) :
    openNote after s = { s.spoolFull with kcu := s.kcu.refused } := by
  unfold openNote
  rw [spoolClaim_taken free, createEntry_none full]
  exact refuse_spoolFull awake

theorem noteEffect_idle (st : s.kcu.state = .idle) : noteEffect s = openNote id s := by simp only [noteEffect, st]

theorem newOrderEffect_idle (st : s.kcu.state = .idle) : newOrderEffect s = s.setKcu { s.kcu with state := .formSelect } := by
  simp only [newOrderEffect, st]

variable {c : Byte}

theorem charEffect_idle (st : s.kcu.state = .idle) : charEffect c s = openNote (freeChar c) s := by simp only [charEffect, st]

theorem charEffect_formSelect (st : s.kcu.state = .formSelect) : charEffect c s = selectForm c s := by simp only [charEffect, st]

/-- The first character of a note just opened. -/
theorem freeChar_first (k : Kcu) : freeChar c (s.setKcu { k.toIdle with state := .free }) =
    s.setKcu { k.toIdle with state := .free, staging := [c], count := 1, line := [c] } :=
  freeChar_stored (s := s.setKcu { k.toIdle with state := .free }) c (by simp [Kcu.toIdle]) (by simp [Kcu.toIdle])

/-! ## A form slot chosen (R85) -/

theorem selectForm_claims (free : s.spu.securing = false)
    (loaded : 0x31 ≤ c.toNat ∧ c.toNat ≤ 0x34 ∧ (s.kcu.formSlotAt (c.toNat - 0x30)).status = .loaded) : selectForm c s = { s with
      kcu := { s.kcu with claim := some (.image (c.toNat - 0x30)) }, spu := s.spu.dueItem (.image (c.toNat - 0x30)) } :=
  (if_pos loaded).trans (spoolClaim_taken free)

theorem selectForm_refused
    (not : ¬ (0x31 ≤ c.toNat ∧ c.toNat ≤ 0x34 ∧ (s.kcu.formSlotAt (c.toNat - 0x30)).status = .loaded)) :
    selectForm c s = refuseSelect s := if_neg not

end

/-! ## The form image read (R85, R118) -/

/-- What completes with the last burst of a piece of the Spool Unit's work, once it is no longer in progress. -/
def SpuItem.completed (live : Bool) (read : Text) (s : State) : SpuItem → State
  | .header => s.setSpu s.spu.headerEnded
  | .record n => recordWritten n live s
  | .flush _ _ length cursor => flushDone length cursor s
  | .image k => imageRead k read s

/-- `s` with the Spool Unit's work in progress done and the composer's claim answered. -/
def State.imageDone (s : State) : State := { s with spu := { s.spu with cur := none }, kcu := { s.kcu with claim := none } }

section
variable {s : State} {n : Nat} {b : Burst} {got data : Text} {live : Bool}

/-- The last burst of a piece of the Spool Unit's work. -/
theorem deliver_last {i : SpuItem} (cur : s.spu.cur = some ⟨i, [b], got, live⟩) :
    deliver .spoolWork data s = i.completed live (got ++ data) (s.setSpu { s.spu with cur := none }) := by
  show spoolWorked data s = _
  unfold spoolWorked
  rw [cur]
  cases i <;> rfl

section
variable (cur : s.spu.cur = some ⟨.image n, [b], got, live⟩) (claim : s.kcu.claim = some (.image n))
  (free : s.spu.securing = false)
include cur claim free

theorem deliver_image_none (bad : imageOf (got ++ data) = none) :
    deliver .spoolWork data s = sendFrame (refuseSelect s.imageDone) := by
  rw [deliver_last cur]
  show imageRead n (got ++ data) (s.setSpu { s.spu with cur := none }) = _
  unfold imageRead
  rw [if_neg (by simp [claim]), bad]
  exact spoolClaim_taken free

theorem deliver_image_some {image : FormImage} (good : imageOf (got ++ data) = some image) :
    deliver .spoolWork data s = sendFrame (match createEntry .order n s.imageDone with
      | none => refuseSelect (raiseSpoolFull s.imageDone)
      | some (_, t) => raise (spaced [ascii "ORDER", image.name])
          (t.setKcu { t.kcu.toIdle with state := .form, image := image, formSlot := n })) := by
  rw [deliver_last cur]
  show imageRead n (got ++ data) (s.setSpu { s.spu with cur := none }) = _
  unfold imageRead
  rw [if_neg (by simp [claim]), good]
  exact spoolClaim_taken free

end

end

/-- Settles O32: the slot, then NOTE, a CHAR in IDLE, NEW ORDER, a form slot's digit, and the image read at its last burst. -/
theorem entriesOpened : Obligations.EntriesOpened := by
  intro s rest k opened note full
  refine ⟨⟨fun n => freeSlot_iff, freeSlot_none_iff⟩, fun front can st free => ?_, fun c front can st free => ?_,
    fun front can st => ?_, fun c front can st free => ?_, fun n b got live data cur claim free awake => ?_⟩
  · have awake := canTake_awake can
    refine ⟨_, action_took (a := .note) front can, fun n slot room => ?_, fun none' => ?_⟩
    · exact kcuBecame_sendFrame ((noteEffect_idle (s := s.took rest) st).trans (openNote_opens (s := s.took rest) free slot room))
    · exact kcuBecame_sendFrame
        ((noteEffect_idle (s := s.took rest) st).trans (openNote_refused (s := s.took rest) awake free none'))
  · have awake := canTake_awake can
    refine ⟨_, keyChar_took front can, fun n slot room => ?_, fun none' => ?_⟩
    · refine kcuBecame_sendFrame ((charEffect_idle (s := s.took rest) st).trans
        ((openNote_opens (s := s.took rest) free slot room).trans ?_))
      exact freeChar_first (s := { s with spu := note n }) k
    · exact kcuBecame_sendFrame
        ((charEffect_idle (s := s.took rest) st).trans (openNote_refused (s := s.took rest) awake free none'))
  · exact ⟨_, action_took (a := .newOrder) front can, kcuBecame_sendFrame (newOrderEffect_idle (s := s.took rest) st)⟩
  · have awake := canTake_awake can
    refine ⟨_, keyChar_took front can, fun loaded => ?_, fun not => ?_⟩
    · exact kcuBecame_sendFrame
        ((charEffect_formSelect (s := s.took rest) st).trans (selectForm_claims (s := s.took rest) free loaded))
    · exact became_selectRefused awake
        ((charEffect_formSelect (s := s.took rest) st).trans (selectForm_refused (s := s.took rest) not))
  · refine ⟨fun bad => ?_, fun image good => ⟨fun none' => ?_, fun m slot room => ?_⟩⟩
    · rw [deliver_image_none cur claim free bad]
      exact kcuBecame_sendFrame (refuseSelect_awake (by exact awake))
    · rw [deliver_image_some cur claim free good, createEntry_none (by exact none')]
      exact kcuBecame_sendFrame (refuseSelect_spoolFull (s := s.imageDone) awake)
    · rw [deliver_image_some cur claim free good, createEntry_order (s := s.imageDone) slot room]
      exact kcuBecame_sendFrame rfl

end Sys2Proof.Machine
end

