-- ==== Sys2Proof/Proofs/Flushes.lean ====
section
/-! SUPPORT. The flush of the staged bytes (R94, R95, R105): when one is requested and can be taken, what its taking leaves, and
the end of its write, which may claim an echo. -/

namespace Sys2Proof.Machine

section
variable {s : State} {m : Nat} {cursor : Option Cursor}

/-! ## A flush requested (R94) -/

theorem flushReady_iff : flushReady s = true ↔
    s.pm.power.awake = true ∧ s.kcu.flush = .waiting ∧ s.spu.securing = false ∧ (∃ m, s.spu.openSlot = some m) ∧
      s.kcu.staging.length ≤ s.spu.ring.free s.spoolSize := by
  simp only [flushReady, Bool.and_eq_true, beq_iff_eq, Bool.not_eq_true', Option.isSome_iff_exists, decide_eq_true_eq, and_assoc]

theorem frontLacksRoom_iff {k : Kcu} :
    k.frontLacksRoom = true ↔ ∃ x rest, k.typeahead = x :: rest ∧ 8 < k.staging.length + k.stores x := by
  unfold Kcu.frontLacksRoom
  cases front : k.typeahead <;> simp

/-- R94's conditions for a flush request. -/
def Kcu.requestsFlush (k : Kcu) : Prop := k.flush = .none ∧ k.staging ≠ [] ∧
  (k.staging.length = 8 ∨ k.flushOwed = true ∨ ∃ x rest, k.typeahead = x :: rest ∧ 8 < k.staging.length + k.stores x)

theorem requestsFlush_iff {k : Kcu} : k.requestsFlush ↔ (k.flush == .none && k.staging != [] &&
    (k.staging.length == 8 || k.flushOwed || k.frontLacksRoom)) = true := by
  simp only [Kcu.requestsFlush, Bool.and_eq_true, Bool.or_eq_true, beq_iff_eq, bne_iff_ne, frontLacksRoom_iff, and_assoc,
    or_assoc]

theorem flushRequest_requests (h : s.kcu.requestsFlush) : flushRequest s = { s with kcu := { s.kcu with
    flush := .waiting, flushCursor := if s.kcu.state = .form then some s.kcu.cursor else none
    flushTimer := decide (s.spu.ring.free s.spoolSize < s.kcu.staging.length) } } := if_pos (requestsFlush_iff.mp h)

theorem flushRequest_none (h : ¬ s.kcu.requestsFlush) : flushRequest s = s := if_neg fun yes => h (requestsFlush_iff.mpr yes)

/-! ## A flush taken (R105) -/

/-- The Spool Unit with these bytes appended to the OPEN entry of slot `m`, and their write due. -/
def Spu.flushed (p : Spu) (size m : Nat) (bytes : Text) (cursor : Option Cursor) : Spu :=
  let old := p.entry m
  let q : Spu := { p with
    episode := false, ring := p.ring.append size bytes.length
    due := p.due ++ [.flush p.ring.head bytes (old.length + bytes.length) cursor] }
  q.setEntry m { old with length := old.length + bytes.length, cursor := cursor }

/-- Bytes that keep the entry within 4095 are all taken. -/
theorem takeFlush_whole {bytes : Text} (opened : s.spu.openSlot = some m) (some' : bytes ≠ [])
    (fits : (s.spu.entry m).length + bytes.length ≤ 4095) :
    takeFlush bytes cursor s = ({ s with spu := s.spu.flushed s.spoolSize m bytes cursor }, bytes.length) := by
  have whole : bytes.take (4095 - (s.spu.entry m).length) = bytes := List.take_of_length_le (by omega)
  simp only [takeFlush, opened, whole, if_neg some']
  rfl

theorem flushTaken_whole (opened : s.spu.openSlot = some m) (some' : s.kcu.staging ≠ [])
    (fits : (s.spu.entry m).length + s.kcu.staging.length ≤ 4095) : flushTaken cursor s = { s with
      spu := s.spu.flushed s.spoolSize m s.kcu.staging cursor
      kcu := { s.kcu with
        staging := [], flush := .running, flushOwed := false, flushTimer := false
        echo := if s.kcu.flush = .running then s.kcu.echo else s.kcu.echo.map Echo.carried } } := by
  have bytes : s.kcu.staging.length ≠ 0 := fun e => some' (List.length_eq_zero_iff.mp e)
  simp only [flushTaken, takeFlush_whole opened some' fits, if_neg bytes, if_neg (Nat.lt_irrefl _)]
  rfl

/-! ## The end of its write (R95, R105) -/

theorem flushing_dueItem (p : Spu) {i : SpuItem} (other : i.isFlush = false) : (p.dueItem i).flushing = p.flushing := by
  unfold Spu.dueItem
  split
  · rfl
  · simp [Spu.flushing, other]

/-- No write of a flush is left, whatever becomes of the entry. -/
theorem flushing_recorded {p : Spu} {e : Entry} (last : p.flushing = false) :
    ((p.setEntry m e).dueItem (.record m)).flushing = false := (flushing_dueItem (p.setEntry m e) rfl).trans last

section
variable {length : Nat}

theorem flushWritten_open (opened : s.spu.openSlot = some m) : flushWritten length cursor s = { s with
    spu := (s.spu.setEntry m { s.spu.entry m with recLength := length, recCursor := cursor }).dueItem (.record m) } := by
  unfold flushWritten
  rw [opened]
  rfl

/-- `s` with the last flush completed: the record of the OPEN entry due with its length and cursor, and the composer told. -/
def State.flushEnded (s : State) (m length : Nat) (cursor : Option Cursor) : State := { s with
  spu := (s.spu.setEntry m { s.spu.entry m with recLength := length, recCursor := cursor }).dueItem (.record m)
  kcu := { s.kcu with flush := .none } }

section
variable (opened : s.spu.openSlot = some m) (last : s.spu.flushing = false)
include opened last

theorem flushDone_silent (silent : ∀ q, s.kcu.echo = some q → q.stage ≠ .flushing) :
    flushDone length cursor s = s.flushEnded m length cursor := by
  unfold flushDone
  rw [flushWritten_open opened]
  dsimp only
  rw [flushing_recorded last]
  split
  · rename_i q echo
    have echo : s.kcu.echo = some q := echo
    refine (if_neg (silent q echo)).trans ?_
    simp only [Bool.false_eq_true, if_false, ← echo]
    rfl
  · rfl

theorem flushDone_claims {q : Echo} (echo : s.kcu.echo = some q) (stage : q.stage = .flushing) :
    flushDone length cursor s = { s.flushEnded m length cursor with
      kcu := { s.kcu with flush := .none, echo := some { q with stage := .claimed } }
      pqu := { s.pqu with composerClaim := some (echoDescriptor q (s.flushEnded m length cursor)) } } := by
  unfold flushDone
  rw [flushWritten_open opened]
  dsimp only
  rw [flushing_recorded last]
  split
  · rename_i q' echo'
    obtain rfl : q' = q := Option.some.inj (echo'.symm.trans echo)
    exact if_pos stage
  · rename_i none'
    exact absurd (none'.symm.trans echo) (by simp)

end

end

theorem echoDescriptor_line {q : Echo} {o n : Nat} (kind : q.kind = .line o n) :
    echoDescriptor q s = .echoText q.slot (((s.spu.entry q.slot).start + o) % s.spoolSize) n := by
  unfold echoDescriptor
  rw [kind]

theorem echoDescriptor_field {q : Echo} {k f o n : Nat} (kind : q.kind = .field k f o n) :
    echoDescriptor q s = .echoField q.slot k f (((s.spu.entry q.slot).start + o) % s.spoolSize) n := by
  unfold echoDescriptor
  rw [kind]

end

/-- Settles O40: when a flush can be taken and is requested, its taking, and the end of its write by the echo it carried. -/
theorem flushTaken_byPart : Obligations.FlushTaken := by
  refine ⟨fun s => flushReady_iff, fun s => ⟨flushRequest_requests, flushRequest_none⟩, fun s m ready opened some' fits => ?_,
    fun s m cursor opened some' fits => flushTaken_whole opened some' fits,
    fun s m off length bytes got cursor b live cur opened last => ?_⟩
  · obtain ⟨-, waiting, -⟩ := flushReady_iff.mp ready
    refine guarded_eq ready ((flushTaken_whole opened some' fits).trans ?_)
    rw [if_neg (by rw [waiting]; decide)]
    rfl
  · intro old p w
    have ends : p.flushing = false := by
      show (s.spu.due.any SpuItem.isFlush || false) = false
      rw [last]
      rfl
    have done : deliver .spoolWork [] s = flushDone length cursor (s.setSpu p) := deliver_last cur
    refine ⟨fun other => done.trans (flushDone_silent (s := s.setSpu p) opened ends fun q echo => ?_),
      fun q echo stage => ⟨?_, ?_⟩⟩
    · rcases other with none' | ⟨q', echo', stage⟩
      · exact absurd (none'.symm.trans echo) (by simp)
      · exact Option.some.inj (echo'.symm.trans echo) ▸ stage
    · exact done.trans (flushDone_claims (s := s.setSpu p) opened ends echo stage)
    · exact ⟨fun o n => echoDescriptor_line, fun k f o n => echoDescriptor_field⟩

end Sys2Proof.Machine
end

