-- ==== Sys2Proof/Proofs/EntryCloses.lean ====
section
/-! SUPPORT. The close of an entry (R95, R108): the serial it takes and what it leaves; then the directory's writes, their order
and what ends with them (R118, R119). -/

namespace Sys2Proof.Machine

/-! ## Serials (R108) -/

theorem nextSerial_eq (n : Nat) : nextSerial n = if n < 65535 then n + 1 else 1 := by
  unfold nextSerial
  split <;> split <;> omega

/-- The serial `k` after `n`, around from 65535 to 1. -/
def serialAfter (n k : Nat) : Nat := (n - 1 + k) % 65535 + 1

theorem serialAfter_zero {n : Nat} (low : 1 ≤ n) (high : n ≤ 65535) : serialAfter n 0 = n := by
  unfold serialAfter
  omega

theorem serialAfter_next {n : Nat} (k : Nat) (low : 1 ≤ n) (high : n ≤ 65535) :
    serialAfter (nextSerial n) k = serialAfter n (k + 1) := by
  rw [nextSerial_eq]
  unfold serialAfter
  split
  · rw [show n + 1 - 1 + k = n - 1 + (k + 1) by omega]
  · rw [show n - 1 + (k + 1) = 1 - 1 + k + 65535 by omega, Nat.add_mod_right]

theorem serialAfter_injective {n j k : Nat} (hj : j < 65535) (hk : k < 65535)
    (same : serialAfter n j = serialAfter n k) : j = k := by
  unfold serialAfter at same
  omega

theorem nextSerial_range {n : Nat} : 1 ≤ nextSerial n ∧ nextSerial n ≤ 65535 := by
  rw [nextSerial_eq]
  split <;> omega

section
variable {p : Spu}

/-- The search passes over serials that entries hold, and ends at its last try or at one that no entry holds. -/
theorem serialFrom_passes : ∀ (fuel : Nat) {n : Nat}, 1 ≤ n → n ≤ 65535 → ∃ passed ≤ fuel,
    p.serialFrom fuel n = serialAfter n passed ∧ (∀ k < passed, p.slotOf (serialAfter n k) ≠ none) ∧
      (passed < fuel → p.slotOf (serialAfter n passed) = none)
  | 0, n, low, high => ⟨0, Nat.le_refl _, (serialAfter_zero low high).symm, fun _ h => absurd h (Nat.not_lt_zero _),
      fun h => absurd h (Nat.lt_irrefl _)⟩
  | fuel + 1, n, low, high => by
    have here := serialAfter_zero low high
    cases held : p.slotOf n with
    | none =>
      refine ⟨0, Nat.zero_le _, ?_, fun _ h => absurd h (Nat.not_lt_zero _), fun _ => here.symm ▸ held⟩
      simp [Spu.serialFrom, held, here]
    | some m =>
      obtain ⟨passed, tries, found, passes, free⟩ :=
        serialFrom_passes fuel (n := nextSerial n) nextSerial_range.1 nextSerial_range.2
      have next := fun k => serialAfter_next k low high
      refine ⟨passed + 1, by omega, ?_, fun k h => ?_, fun h => ?_⟩
      · simp [Spu.serialFrom, held, found, next]
      · cases k with
        | zero => simp [here, held]
        | succ k => exact next k ▸ passes k (by omega)
      · exact next passed ▸ free (by omega)

/-- Each of several serials is held by an entry of its own. -/
theorem held_le_order {serials : List Nat} (distinct : serials.Nodup) (held : ∀ x ∈ serials, p.slotOf x ≠ none) :
    serials.length ≤ p.order.length := by
  have slots : ∀ x ∈ serials, ∃ m ∈ p.order, (p.entry m).serial = some x := fun x inside => by
    obtain ⟨m, slot⟩ := Option.ne_none_iff_exists'.mp (held x inside)
    exact ⟨m, List.mem_of_find?_eq_some slot, serial_of_slotOf slot⟩
  have all : serials.map some ⊆ p.order.map fun m => (p.entry m).serial := fun y inside => by
    obtain ⟨x, mem, rfl⟩ := List.mem_map.mp inside
    obtain ⟨m, order, serial⟩ := slots x mem
    exact List.mem_map.mpr ⟨m, order, serial⟩
  have apart : (serials.map some).Nodup :=
    List.pairwise_map.mpr (distinct.imp fun differ same => differ (Option.some.inj same))
  have count := apart.length_le_of_subset all
  simpa only [List.length_map] using count

/-- With at most 32 entries the 33 tries find a serial that none holds. -/
theorem serialFrom_free {n : Nat} (low : 1 ≤ n) (high : n ≤ 65535) (entries : p.order.length ≤ 32) :
    ∃ passed ≤ 32, p.serialFrom 33 n = serialAfter n passed ∧ (∀ k < passed, p.slotOf (serialAfter n k) ≠ none) ∧
      p.slotOf (serialAfter n passed) = none := by
  obtain ⟨passed, tries, found, passes, free⟩ := serialFrom_passes (p := p) 33 low high
  have few : ((List.range passed).map (serialAfter n)).length ≤ p.order.length := by
    have distinct : ((List.range passed).map (serialAfter n)).Nodup :=
      List.pairwise_map.mpr (List.nodup_range.imp_of_mem fun {j k} inJ inK differ same => by
        have hj : j < passed := List.mem_range.mp inJ
        have hk : k < passed := List.mem_range.mp inK
        exact differ (serialAfter_injective (by omega) (by omega) same))
    refine held_le_order distinct fun x inside => ?_
    obtain ⟨k, lt, rfl⟩ := List.mem_map.mp inside
    exact passes k (List.mem_range.mp lt)
  rw [List.length_map, List.length_range] at few
  exact ⟨passed, by omega, found, passes, free (by omega)⟩

theorem serialFrom_first {n fuel : Nat} (free : p.slotOf n = none) : p.serialFrom (fuel + 1) n = n := by
  simp [Spu.serialFrom, free]

end

/-! ## A close (R95, R108) -/

/-- An entry closed with this serial, its record behind a header write. -/
def Entry.closed (e : Entry) (serial : Nat) : Entry :=
  { e with state := .closed, serial := some serial, cursor := none, recCursor := none, gate := .wait }

/-- The serial that the next close gives, and the counter after it. -/
def Spu.serialFound (p : Spu) : Nat := p.serialFrom 33 p.serialNext

def Spu.serialTaken (p : Spu) : Spu := { p with serialNext := nextSerial p.serialFound }

/-- The Spool Unit with the OPEN entry of slot `m` closed, the header and its record due. -/
def Spu.closed (p : Spu) (m : Nat) : Spu :=
  ((p.serialTaken.dueItem .header).setEntry m ((p.entry m).closed p.serialFound)).dueItem (.record m)

theorem dueItem_eq (p : Spu) (i : SpuItem) : p.dueItem i = if i ∈ p.due then p else { p with due := p.due ++ [i] } := by
  unfold Spu.dueItem
  simp only [List.contains_iff_mem]

/-- An item that becomes due changes no entry and no serial. -/
theorem dueItem_keeps (p : Spu) (i : SpuItem) : (p.dueItem i).table = p.table ∧ (p.dueItem i).order = p.order ∧
    (p.dueItem i).serialNext = p.serialNext := by
  rw [dueItem_eq]
  split <;> exact ⟨rfl, rfl, rfl⟩

theorem entry_dueItem (p : Spu) (i : SpuItem) (n : Nat) : (p.dueItem i).entry n = p.entry n := by
  unfold Spu.entry
  rw [(dueItem_keeps p i).1]

section
variable {s : State} {m : Nat}

theorem closeEntry_none (none' : s.spu.openSlot = none) : closeEntry s = s := by
  unfold closeEntry
  rw [none']

theorem closeEntry_open (opened : s.spu.openSlot = some m) : closeEntry s = { s with spu := s.spu.closed m } := by
  have same : (s.spu.serialTaken.dueItem .header).entry m = s.spu.entry m := entry_dueItem ..
  unfold closeEntry Spu.closed
  rw [opened, ← same]
  rfl

/-- What the composer and the Spool Unit are once the close is taken. -/
theorem entryClosed_open (opened : s.spu.openSlot = some m) :
    entryClosed s = sendFrame { s with spu := s.spu.closed m, kcu := s.kcu.toIdle } := by
  unfold entryClosed
  rw [closeEntry_open opened]
  rfl

theorem spu_sendFrame (s : State) : (sendFrame s).spu = s.spu := by
  rw [sendFrame_eq]
  rfl

theorem closeReady_iff : closeReady s = true ↔
    s.pm.power.awake = true ∧ s.kcu.closing = true ∧ s.kcu.staging = [] ∧ s.kcu.flush = .none ∧ s.kcu.echo = none ∧
      s.spu.securing = false ∧ ∃ m, s.spu.openSlot = some m := by
  simp only [closeReady, Bool.and_eq_true, beq_iff_eq, Bool.not_eq_true', Option.isSome_iff_exists, and_assoc]

end

/-- What a close leaves in the Spool Unit. -/
theorem Spu.closed_fields (p : Spu) (m : Nat) : (p.closed m).table = p.table.set (m - 1) ((p.entry m).closed p.serialFound) ∧
    (p.closed m).serialNext = nextSerial p.serialFound ∧ (p.closed m).order = p.order ∧
    .header ∈ (p.closed m).due ∧ .record m ∈ (p.closed m).due := by
  let q := (p.serialTaken.dueItem .header).setEntry m ((p.entry m).closed p.serialFound)
  obtain ⟨table, order, serial⟩ := dueItem_keeps p.serialTaken .header
  obtain ⟨table', order', serial'⟩ := dueItem_keeps q (.record m)
  refine ⟨table'.trans ?_, serial'.trans serial, order'.trans order, ?_, mem_dueItem ..⟩
  · exact congrArg (fun t : List Entry => t.set (m - 1) ((p.entry m).closed p.serialFound)) table
  · exact (mem_due_dueItem q .header (.record m)).mpr (.inl (mem_dueItem p.serialTaken .header))

/-! ## The order of the directory writes (R118, R119) -/

theorem Gate.begun_eq (g : Gate) : g.begun = if g = .wait then .running else g := by cases g <;> rfl

theorem Gate.ended_eq (g : Gate) : g.ended = if g = .running then .clear else g := by cases g <;> rfl

/-- A header write that begins moves the gates that wait for one. -/
theorem headerBegun_eq (p : Spu) : p.headerBegun = { p with
    table := p.table.map fun e => { e with gate := if e.gate = .wait then .running else e.gate }
    srGate := if p.srGate = .wait then .running else p.srGate } := by
  simp only [Spu.headerBegun, Gate.begun_eq]

/-- A header write that completes clears the gates that waited for it. -/
theorem headerEnded_eq (p : Spu) : p.headerEnded = { p with
    table := p.table.map fun e => { e with gate := if e.gate = .running then .clear else e.gate }
    srGate := if p.srGate = .running then .clear else p.srGate } := by
  simp only [Spu.headerEnded, Gate.ended_eq]

section
variable {s : State}

theorem blocked_iff {p : Spu} {i : SpuItem} : p.blocked i = true ↔ ∃ n, i = .record n ∧ (p.entry n).gate ≠ .clear := by
  cases i <;> simp [Spu.blocked]

theorem spuKick_busy (busy : s.jmc.busy .spu = true) : spuKick s = s := if_pos busy

section
variable (idle : s.jmc.busy .spu = false)
include idle

theorem spuKick_waits (cur : s.spu.cur = none) (waits : ∀ i ∈ s.spu.due, s.spu.blocked i = true) : spuKick s = s := by
  have none' : s.spu.due.find? (fun i => !s.spu.blocked i) = none :=
    List.find?_eq_none.mpr fun i inside => by simp [waits i inside]
  simp only [spuKick, idle, cur, none']
  rfl

theorem spuKick_goesOn {i : SpuItem} {b : Burst} {bs : List Burst} {got : Text} {live : Bool}
    (cur : s.spu.cur = some ⟨i, b :: bs, got, live⟩) : spuKick s = { s with jmc := s.jmc.request .spu b } := by
  simp only [spuKick, idle, cur]
  rfl

/-- The first item due that need not wait is begun, and those behind it keep their order. -/
theorem spuKick_begins {before after : List SpuItem} {i : SpuItem} {b : Burst} {bs : List Burst} (cur : s.spu.cur = none)
    (due : s.spu.due = before ++ i :: after) (passed : ∀ j ∈ before, s.spu.blocked j = true) (may : s.spu.blocked i = false)
    (bursts : itemBursts s i = b :: bs) : ∃ live,
    let p : Spu := { s.spu with due := before ++ after, cur := some ⟨i, b :: bs, [], live⟩ }
    spuKick s = { s with jmc := s.jmc.request .spu b, spu := if i = .header then p.headerBegun else p } := by
  have first : s.spu.due.find? (fun i => !s.spu.blocked i) = some i :=
    List.find?_eq_some_iff_append.mpr ⟨by simp [may], before, after, due, fun j inside => by simp [passed j inside]⟩
  have taken : s.spu.due.erase i = before ++ after := by
    have fresh : i ∉ before := fun inside => by simp [passed i inside] at may
    rw [due, List.erase_append_right _ fresh, List.erase_cons_head]
  simp only [spuKick, idle, cur, first, bursts, taken]
  exact ⟨_, rfl⟩

end

end

/-! ## What ends with a write (R119) -/

theorem deliver_header {s : State} {b : Burst} {got : Text} {live : Bool} (cur : s.spu.cur = some ⟨.header, [b], got, live⟩) :
    deliver .spoolWork [] s = { s with spu := { s.spu with
      cur := none
      table := s.spu.table.map fun e => { e with gate := if e.gate = .running then .clear else e.gate }
      srGate := if s.spu.srGate = .running then .clear else s.spu.srGate } } := by
  rw [deliver_last cur]
  exact congrArg s.setSpu (headerEnded_eq { s.spu with cur := none })

theorem deliver_record {s : State} {n : Nat} {b : Burst} {got : Text} (cur : s.spu.cur = some ⟨.record n, [b], got, true⟩)
    (held : (s.spu.entry n).state ≠ .free) (first : (s.spu.entry n).recorded = false) :
    deliver .spoolWork [] s = { s with
      spu := (({ s.spu with cur := none } : Spu).setEntry n { s.spu.entry n with recorded := true }).dueItem .header } := by
  rw [deliver_last cur]
  exact if_pos (show (true && (s.spu.entry n).state != .free && !(s.spu.entry n).recorded) = true by simp [held, first])

/-- Settles O41: the close and its serial, the bytes of the header and of a record, which are those of Tables 12.5 and 12.6 as
they stand, and the directory's writes in their order. -/
theorem entryCloses : Obligations.EntryCloses := by
  refine ⟨fun s m ready opened => ?_, fun s => ⟨closeEntry_none, fun m => closeEntry_open⟩, fun s => closeReady_iff,
    nextSerial_eq, fun p n low high entries => ?_, fun e => ⟨rfl, rfl⟩, rfl, fun s => rfl, fun s => ?_⟩
  · obtain ⟨table, serial, order, header, record⟩ := s.spu.closed_fields m
    refine ⟨_, guarded_eq ready (entryClosed_open opened), ?_⟩
    rw [spu_sendFrame]
    exact ⟨kcuBecame_sendFrame rfl, table, serial, order, header, record, serialFrom_first⟩
  · obtain ⟨passed, tries, found, passes, free⟩ := serialFrom_free low high entries
    exact ⟨found ▸ free, passed, tries, found, passes⟩
  · intro waits
    have waits_iff : ∀ i, waits i ↔ s.spu.blocked i = true := fun i => blocked_iff.symm
    refine ⟨?_, fun i b bs got live idle cur => spuKick_goesOn idle cur,
      fun before i after b bs idle cur due passed may bursts => ?_,
      dueItem_eq, fun n => rfl, fun b got live => deliver_header, fun n b got cur held first => deliver_record cur held first⟩
    · rintro (busy | ⟨cur, all⟩)
      · exact spuKick_busy busy
      · cases busy : s.jmc.busy .spu with
        | true => exact spuKick_busy busy
        | false => exact spuKick_waits busy cur fun i inside => (waits_iff i).mp (all i inside)
    · obtain ⟨live, kick⟩ := spuKick_begins idle cur due (fun j inside => (waits_iff j).mp (passed j inside))
        (Bool.eq_false_iff.mpr fun blocked => may ((waits_iff i).mpr blocked)) bursts
      intro t
      rw [show t = _ from kick]
      by_cases header : i = .header
      · rw [if_pos header, headerBegun_eq]
        exact ⟨rfl, rfl, rfl, fun other => absurd header other, fun _ => ⟨rfl, rfl⟩⟩
      · rw [if_neg header]
        exact ⟨rfl, rfl, rfl, fun _ => ⟨rfl, rfl⟩, fun h => absurd h header⟩

end Sys2Proof.Machine
end

