-- ==== Sys2Proof/Proofs/SpoolEntries.lean ====
section
/-! SUPPORT. The spool's entries as other events change them: a session's end, the acknowledgment of an entry's last parcel, and a
retract claim (R106, R112, R115). -/

namespace Sys2Proof.Machine

/-! ## Entries changed one by one -/

theorem entry_setEntry {p : Spu} {m n : Nat} {e : Entry} (m1 : 1 ≤ m) (n1 : 1 ≤ n) (inside : n ≤ p.table.length) :
    (p.setEntry m e).entry n = if n = m then e else p.entry n := by
  unfold Spu.entry Spu.setEntry
  simp only [List.getD_eq_getElem?_getD]
  by_cases same : n = m
  · rw [same, if_pos rfl, List.getElem?_set_self (by omega)]
    rfl
  · rw [if_neg same, List.getElem?_set_ne (by omega)]

/-- What the change of one entry leaves in any slot of the table. -/
theorem entry_changeEntry {s : State} {f : Entry → Entry} {m n : Nat} (m1 : 1 ≤ m) (n1 : 1 ≤ n)
    (inside : n ≤ s.spu.table.length) :
    (changeEntry m f s).spu.entry n = if n = m then f (s.spu.entry m) else s.spu.entry n :=
  (entry_dueItem ..).trans (entry_setEntry m1 n1 inside)

theorem changeEntry_keeps (f : Entry → Entry) (m : Nat) (s : State) : (changeEntry m f s).spu.order = s.spu.order ∧
    (changeEntry m f s).spu.ring = s.spu.ring ∧ (changeEntry m f s).spu.table.length = s.spu.table.length := by
  rw [changeEntry_eq, State.setSpu_spu, dueItem_eq]
  split <;> exact ⟨rfl, rfl, List.length_set⟩

/-- Changing entries leaves the entry list, the ring and the size of the table alone. -/
theorem changeEntries_keep (f : Entry → Entry) : ∀ (l : List Nat) (s : State), let t := l.foldl (fun s n => changeEntry n f s) s
    t.spu.order = s.spu.order ∧ t.spu.ring = s.spu.ring ∧ t.spu.table.length = s.spu.table.length
  | [], _ => ⟨rfl, rfl, rfl⟩
  | m :: l, s => by
    obtain ⟨order, ring, size⟩ := changeEntry_keeps f m s
    obtain ⟨order', ring', size'⟩ := changeEntries_keep f l (changeEntry m f s)
    exact ⟨order'.trans order, ring'.trans ring, size'.trans size⟩

/-- Each of several distinct entries is changed once, and every other one stays. -/
theorem changeEntries_entry (f : Entry → Entry) : ∀ {l : List Nat} {s : State} {n : Nat}, l.Nodup → (∀ m ∈ l, 1 ≤ m) → 1 ≤ n →
    n ≤ s.spu.table.length →
    (l.foldl (fun s n => changeEntry n f s) s).spu.entry n = if n ∈ l then f (s.spu.entry n) else s.spu.entry n
  | [], _, _, _, _, _, _ => rfl
  | m :: l, s, n, distinct, low, n1, inside => by
    obtain ⟨fresh, distinct⟩ := List.nodup_cons.mp distinct
    obtain ⟨m1, low⟩ := List.forall_mem_cons.mp low
    obtain ⟨-, -, size⟩ := changeEntry_keeps f m s
    have first := entry_changeEntry (f := f) m1 n1 inside
    have rest := changeEntries_entry f distinct low n1 (Nat.le_trans inside (Nat.le_of_eq size.symm))
    rw [List.foldl_cons, rest, first]
    by_cases same : n = m
    · subst same
      simp [fresh]
    · simp [same]

/-! ## Session end (R115) -/

/-- The listed entries in a state, in the order of the list. -/
def Spu.listedIn (p : Spu) (st : EntryState) : List Nat := p.order.filter fun n => (p.entry n).state == st

theorem mem_listedIn {p : Spu} {st : EntryState} {n : Nat} : n ∈ p.listedIn st ↔ n ∈ p.order ∧ (p.entry n).state = st := by
  simp [Spu.listedIn]

/-- A SENDING entry that is CLOSED again. -/
def Entry.cut (e : Entry) : Entry := { e with state := .closed, interrupted := true }

/-- An AWAITING entry that is CLOSED again. -/
def Entry.recalled (e : Entry) : Entry := { e with state := .closed, acceptTimer := none }

/-- An entry as a session's end leaves it. -/
def Entry.unsent (e : Entry) : Entry :=
  match e.state with
  | .sending => e.cut
  | .awaiting => e.recalled
  | _ => e

/-- `s` with the SENDING entry CLOSED again. -/
def State.cut (s : State) : State := (s.spu.listedIn .sending).foldl (fun s n => changeEntry n Entry.cut s) s

/-- `s` with the AWAITING entries CLOSED again, too. -/
def State.recalled (s : State) : State := (s.spu.listedIn .awaiting).foldl (fun s n => changeEntry n Entry.recalled s) s.cut

/-- A session's end closes the entries and ends the run. -/
theorem spuSessionEnd_recalled (s : State) :
    (spuSessionEnd s).spu = { s.recalled.spu with active := false, firstChoice := none } := rfl

/-- Due besides what was due are the records of the entries that were SENDING or AWAITING. -/
theorem recalled_due (s : State) : (∃ new, s.recalled.spu.due = s.spu.due ++ new) ∧
    (s.spu.due.Nodup → s.recalled.spu.due.Nodup) ∧
    ∀ i, i ∈ s.recalled.spu.due ↔ i ∈ s.spu.due ∨
      ∃ m ∈ s.spu.order, i = .record m ∧ ((s.spu.entry m).state = .sending ∨ (s.spu.entry m).state = .awaiting) := by
  obtain ⟨⟨cut, cutAt⟩, cutOnce, cutDue⟩ := changeEntries_due Entry.cut (s.spu.listedIn .sending) s
  obtain ⟨⟨wait, waitAt⟩, waitOnce, waitDue⟩ :=
    changeEntries_due Entry.recalled (s.spu.listedIn .awaiting) s.cut
  refine ⟨⟨cut ++ wait, ?_⟩, fun once => waitOnce (cutOnce once), fun i => ?_⟩
  · rw [← List.append_assoc, ← cutAt]
    exact waitAt
  · refine (waitDue i).trans ((or_congr_left (cutDue i)).trans ?_)
    simp only [mem_listedIn]
    grind

theorem recalled_entry {s : State} {n : Nat} (distinct : s.spu.order.Nodup) (low : ∀ m ∈ s.spu.order, 1 ≤ m)
    (listed : n ∈ s.spu.order) (inside : n ≤ s.spu.table.length) : s.recalled.spu.entry n = (s.spu.entry n).unsent := by
  have once : ∀ st, (s.spu.listedIn st).Nodup := fun _ => distinct.filter _
  have low' : ∀ st, ∀ m ∈ s.spu.listedIn st, 1 ≤ m := fun _ m inside => low m (mem_listedIn.mp inside).1
  have cut : s.cut.spu.entry n = _ := changeEntries_entry _ (once .sending) (low' .sending) (low n listed) inside
  obtain ⟨-, -, size⟩ := changeEntries_keep Entry.cut (s.spu.listedIn .sending) s
  have wait : s.recalled.spu.entry n = _ :=
    changeEntries_entry _ (once .awaiting) (low' .awaiting) (low n listed) (Nat.le_trans inside (Nat.le_of_eq size.symm))
  rw [wait, cut]
  unfold Entry.unsent
  cases st : (s.spu.entry n).state <;> simp [mem_listedIn, listed, st]

theorem recalled_keeps (s : State) : s.recalled.spu.order = s.spu.order ∧ s.recalled.spu.ring = s.spu.ring := by
  obtain ⟨order, ring, -⟩ := changeEntries_keep Entry.cut (s.spu.listedIn .sending) s
  obtain ⟨order', ring', -⟩ := changeEntries_keep Entry.recalled (s.spu.listedIn .awaiting) s.cut
  exact ⟨order'.trans order, ring'.trans ring⟩

/-- Settles O15: what becomes due, then an entry by its state and what the changes of entries leave alone. -/
theorem sessionEndEntries : Obligations.SessionEndEntries := by
  refine ⟨fun s => by rw [spuSessionEnd_recalled]; exact recalled_due s, fun s n size distinct slots listed => ?_⟩
  have inside : n ≤ s.spu.table.length := size.symm ▸ (slots n listed).2
  have entry := recalled_entry distinct (fun m listed => (slots m listed).1) listed inside
  obtain ⟨order, ring⟩ := recalled_keeps s
  rw [spuSessionEnd_recalled]
  refine ⟨entry.trans ?_, rfl, rfl, order, ring⟩
  unfold Entry.unsent Entry.cut Entry.recalled
  cases (s.spu.entry n).state <;> rfl

/-! ## The last parcel acknowledged (R112) -/

section
variable {s : State} {serial m : Nat}

theorem lastAck_noEntry (none' : s.spu.slotOf serial = none) : lastAck serial s = s := by
  simp [lastAck, none']

section
variable (free : s.spu.securing = false) (held : s.spu.slotOf serial = some m)
include free held

theorem lastAck_sending (sending : (s.spu.entry m).state = .sending) : lastAck serial s = { s with
    spu := (s.spu.setEntry m { s.spu.entry m with
      state := .awaiting, sentOnce := true, acceptTimer := some s.work.accept }).dueItem (.record m) } := by
  simp only [lastAck, free, held, sending, Bool.false_eq_true, if_false, if_true]
  rfl

theorem lastAck_other (other : (s.spu.entry m).state ≠ .sending) : lastAck serial s = { s with
    spu := if (s.spu.entry m).sentOnce = true then s.spu
      else (s.spu.setEntry m { s.spu.entry m with sentOnce := true }).dueItem (.record m) } := by
  simp only [lastAck, free, held, other, Bool.false_eq_true, if_false]
  split <;> rfl

end

end

/-- Settles O22: the oldest parcel's acknowledgment passes on a last-ACK, by the entry of its serial, or a report's delivery. -/
theorem lastParcelAcknowledged : Obligations.LastParcelAcknowledged := by
  intro s seq i p n due tx receiving window oldest slot last
  let pe : Pe := { s.pe.setSlot i (if tx = true then .ending else .free) with
    good := bump s.pe.good, ackTimer := (s.pe.slot i.other).timer s.work.ack }
  have reports : pe.reports = s.pe.reports := by cases i <;> rfl
  have acked : exec (.receiveAck seq) s = .next (finish (passOn p { s with pe := pe })) := by
    obtain ⟨-, oldestAcked, -⟩ := receiveAck.2.2 s seq receiving window
    exact oldestAcked i p n due tx oldest slot
  have passes : ∀ {e : State}, passOn p { s with pe := pe } = e → exec (.receiveAck seq) s = .next (finish e) :=
    fun h => h ▸ acked
  refine ⟨pe, fun idle => by simp [pe, idle], reports, fun m entry free held sending => ?_, fun m entry free held other => ?_,
    fun entry none' => ?_, fun r rest report queue tag => ?_⟩
  · exact passes ((passOn_entry last entry).trans (lastAck_sending (s := { s with pe := pe }) free held sending))
  · exact passes ((passOn_entry last entry).trans (lastAck_other (s := { s with pe := pe }) free held other))
  · exact passes ((passOn_entry last entry).trans (lastAck_noEntry none'))
  · exact passes (passOn_report_held (before := []) last report (reports.trans queue) tag (by simp))

/-! ## A retract claim (R106) -/

/-- Settles O36: the line or value in hand is shortened, and the byte taken back from the ring. -/
theorem retractTaken : Obligations.RetractTaken := by
  intro s rest m k front can hand flushed free opened _ old p
  refine ⟨_, action_took (a := .rub) front can, kcuBecame_sendFrame ?_⟩
  have retracts := removeByte_retracts (s := s.setKcu { k with typeahead := rest }) (m := m)
  rcases hand with ⟨st, line, rfl⟩ | ⟨st, field, value, rfl⟩
  · exact (rubEffect_line (s := s.took rest) st line).trans (retracts flushed free opened)
  · exact (rubEffect_value (s := s.took rest) st field value).trans (retracts flushed free opened)

end Sys2Proof.Machine
end

