-- ==== Sys2Proof/Proofs/PrintQueue.lean ====
section
/-! SUPPORT. The Print Queue Unit: a notice raised, the claims for a slot of the line list in their order, and what a finished line
releases (R116, R126, R127, R134, R136–R139). -/

namespace Sys2Proof.Machine

/-! ## Notices (R136) -/

section
variable {p : Pqu} {n : Nat}

theorem noticeSlot_iff : p.freeSlot = some n ↔
    1 ≤ n ∧ n ≤ 8 ∧ (p.noticeAt n).status = .free ∧ ∀ m, 1 ≤ m → m < n → (p.noticeAt m).status ≠ .free := by
  unfold Pqu.freeSlot
  rw [List.find?_range'_eq_some]
  simp only [beq_iff_eq, List.mem_range'_1, Bool.not_eq_true', beq_eq_false_iff_ne]
  constructor
  · rintro ⟨free, inside, lower⟩
    exact ⟨inside.1, by omega, free, lower⟩
  · rintro ⟨low, high, free, lower⟩
    exact ⟨free, ⟨low, by omega⟩, lower⟩

theorem noticeSlot_none_iff : p.freeSlot = none ↔ ∀ n, 1 ≤ n → n ≤ 8 → (p.noticeAt n).status ≠ .free := by
  unfold Pqu.freeSlot
  rw [List.find?_eq_none]
  simp only [List.mem_range'_1, beq_iff_eq]
  exact ⟨fun taken m low high => taken m ⟨low, by omega⟩, fun taken m inside => taken m inside.1 (by omega)⟩

theorem raise_placed (slot : p.freeSlot = some n) (t : Text) : p.raise t = { p with
    notices := p.notices.set (n - 1) ⟨.waiting, t.take 40⟩, noticeOrder := p.noticeOrder ++ [n] } := by
  unfold Pqu.raise Pqu.place
  rw [slot]
  rfl

theorem raise_dropped (full : p.freeSlot = none) (t : Text) : p.raise t = { p with dropped := bump p.dropped } := by
  unfold Pqu.raise Pqu.place
  rw [full]
  rfl

/-- The oldest notice that waits is the first of the order that does. -/
theorem nextNotice_iff : p.nextNotice = some n ↔ ∃ older younger, p.noticeOrder = older ++ n :: younger ∧
    (p.noticeAt n).status = .waiting ∧ ∀ m ∈ older, (p.noticeAt m).status ≠ .waiting := by
  unfold Pqu.nextNotice
  rw [List.find?_eq_some_iff_append]
  constructor
  · rintro ⟨waits, older, younger, at', listed⟩
    exact ⟨older, younger, at', by simpa using waits, fun m inside => by simpa using listed m inside⟩
  · rintro ⟨older, younger, at', waits, listed⟩
    exact ⟨by simpa using waits, older, younger, at', fun m inside => by simpa using listed m inside⟩

theorem nextNotice_none_iff : p.nextNotice = none ↔ ∀ m ∈ p.noticeOrder, (p.noticeAt m).status ≠ .waiting := by
  unfold Pqu.nextNotice
  rw [List.find?_eq_none]
  simp only [beq_iff_eq]

end

section
variable {s : State}

/-! ## A byte of station text offered again (R128, R133) -/

theorem reoffer_none (heard : s.du.blocked = false) : reoffer s = s := if_neg (by simp [heard])

/-- With every byte written no INBOUND write is due. -/
theorem inboundDue_none (written : s.du.unwritten = []) : inboundDue s = s := by
  have none' : inboundBursts s = 0 := by
    unfold inboundBursts
    rw [written]
    exact ite_self _
  unfold inboundDue
  simp only [none', Nat.zero_sub, List.replicate_zero, List.append_nil]
  rfl

theorem blocked_flowTest (s : State) : (flowTest s).du.blocked = s.du.blocked := by
  rw [flowTest_eq]
  rfl

/-! ## Echo counts (R116) -/

/-- The Spool Unit with the echo count of the entry of slot `m` changed. -/
def Spu.echoed (p : Spu) (m : Nat) (f : Nat → Nat) : Spu :=
  p.setEntry m { p.entry m with echoes := f (p.entry m).echoes }

theorem countEcho_free (free : s.spu.securing = false) (m : Nat) (f : Nat → Nat) :
    countEcho m f s = { s with spu := s.spu.echoed m f } := if_neg (by simp [free])

/-- The Key Code Unit with the listed field count of form slot `k` changed. -/
def Kcu.fieldListed (c : Kcu) (k : Nat) (f : Nat → Nat) : Kcu :=
  c.setForm k { c.formSlotAt k with listed := f (c.formSlotAt k).listed }

/-! ## Claims granted (R127, R134) -/

/-- The assembler's line is ready (R133). -/
theorem lineReady_iff : s.lineReady = true ↔
    s.pqu.asm.complete = true ∧ s.du.unwritten = [] ∧ s.du.inboundOut = false := by
  unfold State.lineReady
  simp [and_assoc]

theorem grantOne_full (full : 24 ≤ s.pqu.list.length) : grantOne s = none := if_pos full

theorem grantSlots_grants {t : State} (grant : grantOne s = some t) (n : Nat) : grantSlots (n + 1) s = grantSlots n t := by
  rw [grantSlots, grant]

theorem grantSlots_ends (none' : grantOne s = none) (n : Nat) : grantSlots (n + 1) s = s := by
  rw [grantSlots, none']

/-- `s` with the assembler's line in the list, and an empty line begun at the ring's head. -/
def State.lineListed (s : State) : State := { s with pqu := { s.pqu with
  list := s.pqu.list ++ [.inbound s.pqu.asm.part s.pqu.asm.start s.pqu.asm.length s.pqu.asm.cells]
  asm := ⟨false, false, s.pqu.ring.head, 0, 0, [], s.pqu.asm.justWrapped, none⟩ } }

/-- `s` with the composer's claim in the list and no echo pending. -/
def State.claimListed (s : State) (d : Descriptor) : State := { s with
  pqu := { s.pqu with list := s.pqu.list ++ [d], composerClaim := none }, kcu := { s.kcu with echo := none } }

theorem listComposer_feed (r : Nat) (s : State) : listComposer (.feed r) s = s.claimListed (.feed r) := rfl

section
variable (free : s.spu.securing = false)
include free

theorem listComposer_echoText (m o n : Nat) : listComposer (.echoText m o n) s =
    { s.claimListed (.echoText m o n) with spu := s.spu.echoed m (· + 1) } := by
  unfold listComposer echoListed
  dsimp only
  rw [countEcho_free (by exact free)]
  rfl

theorem listComposer_echoField (m k f o n : Nat) : listComposer (.echoField m k f o n) s =
    { s.claimListed (.echoField m k f o n) with
      spu := s.spu.echoed m (· + 1), kcu := { s.kcu.fieldListed k (· + 1) with echo := none } } := by
  unfold listComposer echoListed
  dsimp only
  rw [countEcho_free (by exact free)]
  rfl

end

section
variable (room : s.pqu.list.length < 24)
include room

theorem grantOne_line (ready : s.lineReady = true) : grantOne s = some (inboundDue (reoffer s.lineListed)) :=
  (if_neg (Nat.not_le.mpr room)).trans (if_pos ready)

/-- Where no byte waits to be offered again, the line's listing is all. -/
theorem grantOne_lineAlone (ready : s.lineReady = true) (heard : s.du.blocked = false) : grantOne s = some s.lineListed := by
  obtain ⟨-, written, -⟩ := lineReady_iff.mp ready
  rw [grantOne_line room ready, reoffer_none (by exact heard), inboundDue_none (by exact written)]

variable (waits : ¬ s.lineReady = true)
include waits

theorem grantOne_notice {n : Nat} (next : s.pqu.nextNotice = some n) :
    grantOne s = some { s with pqu := s.pqu.listNotice n } := by
  refine ((if_neg (Nat.not_le.mpr room)).trans (if_neg waits)).trans ?_
  rw [next]
  rfl

variable (unnoticed : s.pqu.nextNotice = none)
include unnoticed

theorem grantOne_composer {d : Descriptor} (claim : s.pqu.composerClaim = some d) : grantOne s = some (listComposer d s) := by
  refine ((if_neg (Nat.not_le.mpr room)).trans (if_neg waits)).trans ?_
  rw [unnoticed, claim]

variable (unclaimed : s.pqu.composerClaim = none)
include unclaimed

theorem grantOne_fd {c : Ctx} {r : Nat} {rest : List (Ctx × Nat)} (claims : s.pqu.fdClaims = (c, r) :: rest) :
    grantOne s = some (ended c .done [] [] { s with
      pqu := { s.pqu with list := s.pqu.list ++ [.feed r], fdClaims := rest } }) := by
  refine ((if_neg (Nat.not_le.mpr room)).trans (if_neg waits)).trans ?_
  rw [unnoticed, unclaimed, claims]
  show some (listFd c r s) = _
  unfold listFd
  rw [finishDirective_eq, claims]
  rfl

theorem grantOne_none (claims : s.pqu.fdClaims = []) : grantOne s = none := by
  refine ((if_neg (Nat.not_le.mpr room)).trans (if_neg waits)).trans ?_
  rw [unnoticed, unclaimed, claims]

end

/-! ## A line finished (R138) -/

/-- `s` with these lines left in the list. -/
def State.leaving (s : State) (rest : List Descriptor) : State := { s with pqu := { s.pqu with list := rest } }

theorem finishFront_cons {d : Descriptor} {rest : List Descriptor} (front : s.pqu.list = d :: rest) :
    finishFront s = releaseLine d (s.leaving rest) := by
  unfold finishFront
  rw [front]
  rfl

section
variable (free : s.spu.securing = false)
include free

theorem releaseLine_echoText (m o n : Nat) :
    releaseLine (.echoText m o n) s = { s with spu := s.spu.echoed m (· - 1) } :=
  countEcho_free free m (· - 1)

theorem releaseLine_echoField (m k f o n : Nat) : releaseLine (.echoField m k f o n) s =
    { s with spu := s.spu.echoed m (· - 1), kcu := s.kcu.fieldListed k (· - 1) } := by
  show echoFinished m (some k) s = _
  unfold echoFinished
  rw [countEcho_free free]
  rfl

end

end

/-- Settles O42: a notice by the slots, the lines offered by what the context holds, a grant by its claimants in their order, and
the front line's release by its kind. -/
theorem noticeRaised : Obligations.NoticeRaised := by
  refine ⟨fun p t => ⟨fun n slot => ?_, fun full => raise_dropped full t, noticeSlot_none_iff, fun n => nextNotice_iff,
    nextNotice_none_iff⟩, fun s k => ?_, fun s => ?_⟩
  · obtain ⟨low, high, free, lower⟩ := noticeSlot_iff.mp slot
    exact ⟨raise_placed slot t, free, low, high, lower⟩
  · intro c with'
    refine ⟨rfl, rfl, offerLines_other, fun a job => ⟨fun t offered => ?_, fun none' => ?_⟩, fun t n => ⟨rfl, rfl⟩, offerAll_waits⟩
    · exact ⟨offerLines_full offered, offerLines_place job offered⟩
    · exact ⟨offerLines_end job none', fun line rest => offerLines_next job none'⟩
  intro ready a counted listing
  refine ⟨rfl, fun n => ⟨rfl, fun t grant => grantSlots_grants grant n, fun none' => grantSlots_ends none' n⟩, grantOne_full,
    fun room => ⟨fun line => ?_, fun line => ?_, fun waits => ?_⟩, fun rest => ?_⟩
  · exact grantOne_lineAlone room (lineReady_iff.mpr line)
  · exact grantOne_line room (lineReady_iff.mpr line)
  · have waits' : ¬ s.lineReady = true := fun line => waits (lineReady_iff.mp line)
    have composer := fun {d} none' => grantOne_composer (d := d) room waits' none'
    refine ⟨fun n => grantOne_notice room waits', fun none' => ⟨fun r claim => ?_, fun m o n claim free => ?_,
      fun m k f o n claim free => ?_, fun unclaimed => ⟨fun c r rest => grantOne_fd room waits' none' unclaimed,
        grantOne_none room waits' none' unclaimed⟩⟩⟩
    · rw [composer none' claim, listComposer_feed]
      rfl
    · rw [composer none' claim, listComposer_echoText free]
      rfl
    · rw [composer none' claim, listComposer_echoField free]
      rfl
  · refine ⟨fun r => finishFront_cons, fun part o n cells front heard => ?_, fun part o n cells => finishFront_cons,
      fun n => finishFront_cons, fun m o n front free => ?_, fun m k f o n front free => ?_⟩
    · refine (finishFront_cons front).trans (reoffer_none ?_)
      rw [blocked_flowTest]
      exact heard
    · exact (finishFront_cons front).trans (releaseLine_echoText (s := s.leaving rest) free m o n)
    · exact (finishFront_cons front).trans (releaseLine_echoField (s := s.leaving rest) free m k f o n)

end Sys2Proof.Machine
end

