-- ==== Sys2Proof/Proofs/PrintDirectives.lean ====
section
/-! SUPPORT. FD and the loads of the print tables, PD, LC, LG and LH (R139, R153–R156): what two bytes stand for in the code table,
and each rule's answer. -/

namespace Sys2Proof.Machine

/-! ## A code table entry of two bytes (R143) -/

/-- The bytes that stand for no entry: an unknown kind, or a glyph index that is none. -/
theorem CodeKind.ofBytes_none_iff (k v : Byte) :
    CodeKind.ofBytes k v = none ↔ 4 < k.toNat ∨ k = 0 ∧ 191 < v.toNat := by
  rw [show k = 0 ↔ k.toNat = 0 from BitVec.toNat_inj.symm]
  unfold CodeKind.ofBytes
  split
  case h_1 kind =>
    by_cases inside : v.toNat ≤ 191
    · simp [inside, kind]
    · simp [inside, kind, Nat.lt_of_not_le inside]
  case h_6 =>
    simp only [imp_false, true_iff] at *
    omega
  all_goals simp [*]

/-! ## The rules -/

section
variable {d : Dir} {c : Ctx} {tag : Nat} {s : State}

/-- A directive executing whose load has joined those that wait (R152). -/
def loadTaken (d : Dir) (c : Ctx) (tag : Nat) (l : Load) (s : State) : State :=
  { executing d c tag .load s with hdu := { s.hdu with loads := s.hdu.loads ++ [(c, l)] } }

/-- An FD executing whose claim has joined those that wait (R139). -/
def feedClaimed (c : Ctx) (tag n : Nat) (s : State) : State :=
  { executing .fd c tag .feedClaim s with pqu := { s.pqu with fdClaims := s.pqu.fdClaims ++ [(c, n)] } }

theorem takeLoad_begun (l : Load) : takeLoad c l (begun d c tag s) = loadTaken d c tag l s := by cases c <;> rfl

theorem claimFeed_begun (n : Nat) :
    setJob c .feedClaim ((begun .fd c tag s).setPqu { s.pqu with fdClaims := s.pqu.fdClaims ++ [(c, n)] }) =
      feedClaimed c tag n s := by
  cases c <;> rfl

theorem ruleFd_begun_default : ruleFd c [] (begun .fd c tag s) = feedClaimed c tag 14 s := by
  simp only [ruleFd, pqu_begun, claimFeed_begun]

section
variable {x y z v t : Text} {n w : Nat}

theorem ruleFd_begun (may : admits .fd c s = true) (hx : decimal x = some n) : ruleFd c [x] (begun .fd c tag s) =
    if 1 ≤ n ∧ n ≤ 255 then feedClaimed c tag n s else answered .fd c tag .range [] [] s := by
  simp only [ruleFd, hx, pqu_begun, claimFeed_begun, answer_begun may]

theorem rulePd_begun_code (may : admits .pd c s = true) (hx : decimal x = some n) : rulePd c [x] (begun .pd c tag s) =
    if n ≤ 8 then loadTaken .pd c tag (.density n none) s else answered .pd c tag .range [] [] s := by
  simp only [rulePd, List.map_cons, List.map_nil, hx, takeLoad_begun, answer_begun may]

theorem rulePd_begun_ratio (may : admits .pd c s = true) (hx : decimal x = some n) (hy : decimal y = some w) :
    rulePd c [x, y] (begun .pd c tag s) =
      if n ≤ 8 ∧ w ≤ 16 then loadTaken .pd c tag (.density n (some w)) s else answered .pd c tag .range [] [] s := by
  simp only [rulePd, List.map_cons, List.map_nil, hx, hy, takeLoad_begun, answer_begun may]

theorem ruleLg_begun (may : admits .lg c s = true) (hx : decimal x = some n) (hy : hexBytes y = some t)
    (whole : t.length % 12 = 0) : ruleLg c [x, y] (begun .lg c tag s) =
      if 128 ≤ n ∧ n ≤ 191 ∧ n + t.length / 12 - 1 ≤ 191 then loadTaken .lg c tag (.glyphs n t) s
      else answered .lg c tag .range [] [] s := by
  simp only [ruleLg, hx, hy, whole, ne_eq, not_true_eq_false, if_false, takeLoad_begun, answer_begun may]

theorem heatOk_iff (n : Nat) : heatOk n = true ↔ 16 ≤ n ∧ n ≤ 255 := decide_eq_true_iff

theorem ruleLh_begun {r h m l : Nat} (may : admits .lh c s = true) (hx : decimal x = some r) (hy : decimal y = some h)
    (hz : decimal z = some m) (hv : decimal v = some l) : ruleLh c [x, y, z, v] (begun .lh c tag s) =
      if r ≤ 2 ∧ (16 ≤ h ∧ h ≤ 255) ∧ (16 ≤ m ∧ m ≤ 255) ∧ 16 ≤ l ∧ l ≤ 255 then loadTaken .lh c tag (.heat r h m l) s
      else answered .lh c tag .range [] [] s := by
  simp only [ruleLh, List.map_cons, List.map_nil, hx, hy, hz, hv, heatOk_iff, takeLoad_begun, answer_begun may]

theorem ruleLc_begun_default : ruleLc c [] (begun .lc c tag s) = loadTaken .lc c tag .codesDefault s := takeLoad_begun _

section
variable (may : admits .lc c s = true) (hx : decimal x = some n) (hy : hexBytes y = some t) (even : t.length % 2 = 0)
include may hx hy even

/-- LC of bytes that are entries: the codes decide. -/
theorem ruleLc_entries {ks : List CodeKind} (read : pairs CodeKind.ofBytes t = some ks) :
    ruleLc c [x, y] (begun .lc c tag s) =
      if n ≤ 255 ∧ n + t.length / 2 - 1 ≤ 255 then loadTaken .lc c tag (.codes n ks) s
      else answered .lc c tag .range [] [] s := by
  have pair : ¬ t.length % 2 = 1 := by omega
  simp only [ruleLc, hx, hy, if_neg pair, read, takeLoad_begun, answer_begun may]
  by_cases inside : n ≤ 255 ∧ n + t.length / 2 - 1 ≤ 255
  · rw [if_neg (by omega), if_pos inside]
  · rw [if_pos (by omega), if_neg inside]

theorem ruleLc_noEntries (read : pairs CodeKind.ofBytes t = none) :
    ruleLc c [x, y] (begun .lc c tag s) = answered .lc c tag .range [] [] s := by
  have pair : ¬ t.length % 2 = 1 := by omega
  simp only [ruleLc, hx, hy, if_neg pair, read, answer_begun may, ite_self]

end

theorem argsOk_numberHex (place : d.hexAt = some 1) (hx : decimal x = some n) (hy : hexBytes y = some t) :
    argsOk d [x, y] = true :=
  argsOk_of_hex place (by simp [List.zipIdx, hx, hy])

end

end

/-- Settles O54: FD and each load as its rule answers, and an LC's entries two bytes at a time. -/
theorem printDirectives : Obligations.PrintDirectives := by
  intro c tag args s
  have numberHex : ∀ {d : Dir} {x y t : Text} {n : Nat} {e : State}, d.hexAt = some 1 → admits d c s = true →
      asRead args = [x, y] → decimal x = some n → hexBytes y = some t → d.rule c [x, y] (begun d c tag s) = e →
      exec (d.command c tag args) s = .next (finish e) := by
    intro d x y t n e place may read hx hy rule
    exact exec_admitted may (read ▸ argsOk_numberHex place hx hy) (read ▸ rule)
  refine ⟨fun may read => ?_, fun x n may read hx => ?_, fun x n may read hx => ?_, fun x y n w may read hx hy => ?_,
    fun may read => ?_, fun x y n t ks may read hx hy even entries => ?_, fun x y n t i may read hx hy even inside bad => ?_,
    fun k v => ⟨CodeKind.ofBytes_none_iff k v, fun index => if_pos index, rfl, rfl, rfl, rfl⟩, pairs_spec CodeKind.ofBytes,
    fun x y g t may read hx hy whole => ?_, fun x y z v r h m l may read hx hy hz hv => ?_⟩
  · exact exec_numbers (d := .fd) (l := []) may read rfl ruleFd_begun_default
  · exact exec_numbers (d := .fd) (l := [n]) may read (by simp [decimals, hx]) (ruleFd_begun may hx)
  · exact exec_numbers (d := .pd) (l := [n]) may read (by simp [decimals, hx]) (rulePd_begun_code may hx)
  · exact exec_numbers (d := .pd) (l := [n, w]) may read (by simp [decimals, hx, hy]) (rulePd_begun_ratio may hx hy)
  · exact exec_numbers (d := .lc) (l := []) may read rfl ruleLc_begun_default
  · exact numberHex (d := .lc) rfl may read hx hy (ruleLc_entries may hx hy even entries)
  · exact numberHex (d := .lc) rfl may read hx hy (ruleLc_noEntries may hx hy even (pairs_none even inside bad))
  · exact numberHex (d := .lg) rfl may read hx hy (ruleLg_begun may hx hy whole)
  · exact exec_numbers (d := .lh) (l := [r, h, m, l]) may read (by simp [decimals, hx, hy, hz, hv]) (ruleLh_begun may hx hy hz hv)

end Sys2Proof.Machine
end

