-- ==== Sys2Proof/Proofs/StationText.lean ====
section
/-! SUPPORT. Station text (R128–R133, R168): what a byte taken does to the line by its code's kind, a byte refused and offered again,
and the INBOUND bursts. -/

namespace Sys2Proof.Machine

/-! ## The line after a byte (R129, R130, R132) -/

/-- The line one byte longer: its column and cells, whether that wraps it or ends it, and whether the byte fills the ring. -/
def LineAsm.after (a : LineAsm) (lineIdle : Nat) (full : Prop) [Decidable full] (column : Nat) (cells : List (Option Nat))
    (wraps ends : Bool) : LineAsm :=
  { a with
    length := a.length + 1, column := column, cells := cells, justWrapped := wraps
    complete := wraps || ends || decide full
    part := if wraps || ends then false else if full then true else a.part
    idleTimer := if wraps || ends || decide full || decide (lineIdle = 0) then none else some lineIdle }

/-- The line after a byte of this kind, taken at this ring offset. -/
def LineAsm.joined (a : LineAsm) (lineIdle : Nat) (full : Prop) [Decidable full] (kind : CodeKind) (head : Nat) : LineAsm :=
  let stop := 8 * (a.column / 8 + 1)
  match kind with
  | .glyph _ | .substitute => a.after lineIdle full (a.column + 1) (a.cells ++ [some head]) (decide (40 ≤ a.column + 1)) false
  | .tab => a.after lineIdle full stop (a.cells ++ List.replicate (stop - a.column) none) (decide (40 ≤ stop)) false
  | .ignored => a.after lineIdle full a.column a.cells false false
  | .lineEnd => a.after lineIdle full a.column a.cells false true

section
variable {a : LineAsm} (running : a.complete = false) (lineIdle : Nat) (full : Prop) [Decidable full]
include running

/-- A byte that adds columns: the line wraps at column 40, and otherwise completes where the ring is full. -/
theorem LineAsm.after_columns (column : Nat) (cells : List (Option Nat)) :
    (let b : LineAsm := { a with
      length := a.length + 1, justWrapped := false, idleTimer := if lineIdle = 0 then none else some lineIdle
      column := column, cells := cells }
    let b' := if 40 ≤ column then { b.finish false with justWrapped := true } else b
    if full && !b'.complete then b'.finish true else b') =
      a.after lineIdle full column cells (decide (40 ≤ column)) false := by
  by_cases wraps : 40 ≤ column
  · simp [LineAsm.after, LineAsm.finish, wraps]
  · by_cases filled : full <;> simp [LineAsm.after, LineAsm.finish, wraps, filled, running]

theorem LineAsm.take_joined (kind : CodeKind) (head : Nat) :
    (if full && !(a.take kind head lineIdle).complete then (a.take kind head lineIdle).finish true
      else a.take kind head lineIdle) = a.joined lineIdle full kind head := by
  cases kind with
  | glyph _ | substitute => exact LineAsm.after_columns running lineIdle full (a.column + 1) (a.cells ++ [some head])
  | tab => exact LineAsm.after_columns running lineIdle full _ _
  | ignored => by_cases filled : full <;> simp [LineAsm.joined, LineAsm.after, LineAsm.take, LineAsm.finish, filled, running]
  | lineEnd => simp [LineAsm.joined, LineAsm.after, LineAsm.take, LineAsm.finish]

end

/-! ## A byte offered (R128) -/

section
variable {s : State} {b : Byte} {rest : Text}

theorem offerRefused_iff : offerRefused s = true ↔ s.pqu.asm.complete = true ∨ s.pqu.ring.free s.inboundSize = 0 ∨
    ∃ c todo, s.du.job c = some (.regions todo) := by
  unfold offerRefused
  rw [Bool.or_eq_true, Bool.or_eq_true, beq_iff_eq, srRunning_iff, or_assoc]

/-- The flow test reads nothing of the Directive Unit. -/
theorem flowTest_setDu (s : State) (d : Du) : flowTest (s.setDu d) = (flowTest s).setDu d := by
  rw [flowTest_eq (s.setDu d), flowTest_eq s,
    flowTest_control_congr (s := s) (t := s.setDu d) rfl rfl rfl rfl rfl]
  rfl

/-- The LINE context with its front byte taken, and the queue open. -/
def Du.heard (d : Du) (rest : Text) : Du := { d with input := rest, blocked := false }

/-- The Directive Unit with a byte at the end of those to write, which begin at this ring offset where it is the first. -/
def Du.toWrite (d : Du) (b : Byte) (head : Nat) : Du :=
  { d with unwritten := d.unwritten ++ [b], unwrittenAt := if d.unwritten = [] then head else d.unwrittenAt }

/-- `s` with the LINE END after a wrap dropped. -/
def State.wrapAbsorbed (s : State) : State := { s with pqu := { s.pqu with asm := { s.pqu.asm with justWrapped := false } } }

/-- `s` with a byte of station text in the ring, on the line and among the bytes to write, before the flow test. -/
def State.byteJoined (s : State) (b : Byte) : State :=
  let ring := s.pqu.ring.append s.inboundSize 1
  { s with
    pqu := { s.pqu with
      ring := ring
      asm := s.pqu.asm.joined s.work.lineIdle (ring.free s.inboundSize = 0) (kindOf s.hdu.codes b) s.pqu.ring.head }
    du := s.du.toWrite b s.pqu.ring.head }

/-- `s` with a byte of station text taken from the front of the queue. -/
def State.stationTaken (s : State) (b : Byte) (rest : Text) : State :=
  if s.pqu.asm.justWrapped = true ∧ kindOf s.hdu.codes b = .lineEnd then s.wrapAbsorbed.setDu (s.du.heard rest)
  else flowTest ((s.byteJoined b).setDu ((s.du.heard rest).toWrite b s.pqu.ring.head))

theorem running_of_heard (taken : offerRefused s = false) : s.pqu.asm.complete = false :=
  Bool.eq_false_iff.mpr fun complete => by simp [offerRefused_iff.mpr (.inl complete)] at taken

theorem offerByte_taken (taken : offerRefused s = false) : offerByte b s = some (
    if s.pqu.asm.justWrapped = true ∧ kindOf s.hdu.codes b = .lineEnd then s.wrapAbsorbed else flowTest (s.byteJoined b)) := by
  unfold offerByte
  rw [if_neg (by simp [taken])]
  dsimp only
  rw [LineAsm.take_joined (running_of_heard taken)]
  by_cases absorbed : s.pqu.asm.justWrapped = true ∧ kindOf s.hdu.codes b = .lineEnd
  · rw [if_pos absorbed, if_pos (by simp [absorbed])]
    rfl
  · rw [if_neg absorbed, if_neg (by simpa using absorbed)]
    rfl

/-! ## The front byte taken in IDLE (R168) -/

theorem takeIdleByte_introducer (introducer : b = s.work.introducer) : takeIdleByte b rest s = { s with du := { s.du with
    input := rest, blocked := false, line := { s.du.line with state := .collecting, collection := [], overlong := false } } } :=
  if_pos introducer

section
variable (plain : b ≠ s.work.introducer)
include plain

theorem takeIdleByte_terminator (terminator : b = s.work.terminator) :
    takeIdleByte b rest s = { s with du := { s.du with input := rest, blocked := false } } :=
  (if_neg plain).trans (if_pos terminator)

variable (text : b ≠ s.work.terminator)
include text

theorem takeIdleByte_refused (refused : offerRefused s = true) :
    takeIdleByte b rest s = { s with du := { s.du with blocked := true } } := by
  unfold takeIdleByte
  rw [if_neg plain, if_neg text, show offerByte b s = none from if_pos refused]
  rfl

theorem takeIdleByte_taken (taken : offerRefused s = false) : takeIdleByte b rest s = s.stationTaken b rest := by
  unfold takeIdleByte State.stationTaken
  rw [if_neg plain, if_neg text, offerByte_taken taken]
  by_cases absorbed : s.pqu.asm.justWrapped = true ∧ kindOf s.hdu.codes b = .lineEnd
  · rw [if_pos absorbed, if_pos absorbed]
    rfl
  · rw [if_neg absorbed, if_neg absorbed, flowTest_setDu, flowTest_eq]
    rfl

end

/-- LINE_INPUT_BYTE in IDLE takes the front byte. -/
theorem exec_lineInputByte_idle (awake : s.pm.power.awake = true) (runs : s.pm.restarting = false) (input : s.du.input = b :: rest)
    (heard : s.du.blocked = false) (idle : s.du.line.state = .idle) :
    exec .lineInputByte s = .next (finish (takeIdleByte b rest s)) := by
  refine guarded_eq (by simp [awake, runs, input, heard, idle]) ?_
  unfold lineInputByte
  rw [input, idle]

/-! ## A refused byte offered again (R128, R168) -/

theorem reoffer_stays
    (h : s.du.blocked = false ∨ s.du.line.state ≠ .idle ∨ s.pm.restarting = true ∨ offerRefused s = true) : reoffer s = s := by
  refine if_neg fun may => ?_
  simp only [Bool.and_eq_true, Bool.not_eq_true', beq_iff_eq] at may
  obtain ⟨⟨⟨waits, idle⟩, runs⟩, taken⟩ := may
  simp [waits, idle, runs, taken] at h

section
variable (waits : s.du.blocked = true) (idle : s.du.line.state = .idle) (runs : s.pm.restarting = false)
  (taken : offerRefused s = false)
include waits idle runs taken

theorem reoffer_offers : reoffer s = match s.du.input with
    | b :: rest => takeIdleByte b rest s
    | [] => { s with du := { s.du with blocked := false } } :=
  if_pos (by simp [waits, idle, runs, taken])

theorem reoffer_none_left (input : s.du.input = []) : reoffer s = { s with du := { s.du with blocked := false } } := by
  rw [reoffer_offers waits idle runs taken, input]

theorem reoffer_front (input : s.du.input = b :: rest) : reoffer s = takeIdleByte b rest s := by
  rw [reoffer_offers waits idle runs taken, input]

end

/-! ## INBOUND bursts (R133) -/

theorem offersText_iff (d : Du) (introducer : Byte) :
    d.offersText introducer = true ↔ d.line.state = .idle ∧ ∃ x xs, d.input = x :: xs ∧ x ≠ introducer := by
  unfold Du.offersText
  cases d.input <;> simp

theorem inboundBursts_rest
    (h : s.pqu.asm.complete = true ∨ ¬ (s.du.line.state = .idle ∧ ∃ x xs, s.du.input = x :: xs ∧ x ≠ s.work.introducer)) :
    inboundBursts s = (s.du.unwritten.length + 7) / 8 := by
  rw [← offersText_iff] at h
  exact if_pos (by simpa using h)

theorem inboundBursts_full (running : s.pqu.asm.complete = false)
    (more : s.du.line.state = .idle ∧ ∃ x xs, s.du.input = x :: xs ∧ x ≠ s.work.introducer) :
    inboundBursts s = s.du.unwritten.length / 8 := by
  rw [← offersText_iff] at more
  exact if_neg (by simp [running, more])

/-- An INBOUND burst at the front of the Directive Unit's order is placed with the bytes not written then. -/
theorem duKick_inbound {due : List DuWork} (free : s.jmc.busy .du = false) (front : s.du.due = .inbound :: due)
    (bytes : s.du.unwritten.take 8 ≠ []) : duKick s = { s with
      jmc := s.jmc.request .du
        ⟨true, .ring .inbound s.du.unwrittenAt, (s.du.unwritten.take 8).length, s.du.unwritten.take 8, .inboundText⟩
      du := { s.du with
        due := due, unwritten := s.du.unwritten.drop 8, inboundOut := true
        unwrittenAt := (s.du.unwrittenAt + (s.du.unwritten.take 8).length) % s.inboundSize } } := by
  unfold duKick duTurn
  rw [if_neg (by simp [free]), front]
  exact if_neg bytes

end

/-- Settles O44: a byte in IDLE by whether it is refused, the byte that waits by what it is, and the INBOUND bursts. -/
theorem stationText : Obligations.StationText := by
  refine ⟨fun s b rest awake runs input heard idle plain text => ?_, fun t => ?_⟩
  · have takes := exec_lineInputByte_idle awake runs input heard idle
    refine ⟨offerRefused_iff, fun refused => ?_, fun taken => ?_⟩
    · rw [takes, takeIdleByte_refused plain text refused]
    · rw [takes, takeIdleByte_taken plain text taken]
      rfl
  · refine ⟨reoffer_stays, fun waits idle runs taken => ⟨reoffer_none_left waits idle runs taken, fun x xs input => ?_⟩,
      fun data => rfl, inboundBursts_rest, inboundBursts_full, rfl, fun due => duKick_inbound⟩
    have front := reoffer_front waits idle runs taken input
    refine ⟨fun introducer => ?_, fun plain terminator => ?_, fun plain text => ?_⟩
    · rw [front, takeIdleByte_introducer introducer]
    · rw [front, takeIdleByte_terminator plain terminator]
    · rw [front, takeIdleByte_taken plain text taken]
      rfl

end Sys2Proof.Machine
end

