-- ==== Sys2Proof/Proofs/RowText.lean ====
section
/-! SUPPORT. A row's text and dots (R142–R145): the bursts that bring a line's text, the code of each column and what it shows, and the
build of a row from them. -/

namespace Sys2Proof.Machine

/-! ## Runs of ring bytes (R145) -/

/-- The ring offsets that runs read, in order. -/
def runOffsets (size : Nat) (runs : List (Nat × Nat)) : List Nat :=
  runs.flatMap fun (o, l) => (List.range l).map fun i => (o + i) % size

/-- The second run does not go on where the first, not full, ends. -/
def RunBroken (size : Nat) (x y : Nat × Nat) : Prop := x.2 = 8 ∨ (x.1 + x.2) % size ≠ y.1

/-- No run goes on where the one before it, not full, ends. -/
def RunsBroken (size : Nat) (runs : List (Nat × Nat)) : Prop :=
  ∀ before x y after, runs = before ++ x :: y :: after → RunBroken size x y

section
variable {size : Nat}

theorem runsBroken_nil : RunsBroken size [] := fun before _ _ _ split => by cases before <;> cases split

theorem runsBroken_one (x : Nat × Nat) : RunsBroken size [x] := fun before _ _ _ split => by
  rcases before with _ | ⟨_, _ | _⟩ <;> cases split

theorem runsBroken_cons {x y : Nat × Nat} {runs : List (Nat × Nat)} (ends : RunBroken size x y)
    (others : RunsBroken size (y :: runs)) : RunsBroken size (x :: y :: runs) := by
  intro before a b after split
  cases before with
  | nil =>
    cases split
    exact ends
  | cons z before =>
    injection split with _ split
    exact others before a b after split

/-- The run being gathered comes first. -/
theorem ringRunsFrom_head (start : Nat) {len : Nat} (gathered : len ≠ 0) (offsets : List Nat) :
    ∃ l runs, ringRunsFrom size start len offsets = (start, l) :: runs := by
  induction offsets generalizing len with
  | nil => exact ⟨len, [], if_neg gathered⟩
  | cons o rest ih =>
    unfold ringRunsFrom
    rw [if_neg gathered]
    split
    · exact ih (by omega)
    · exact ⟨len, _, rfl⟩

theorem runOffsets_ringRunsFrom (start len : Nat) {offsets : List Nat} (inside : ∀ o ∈ offsets, o < size) :
    runOffsets size (ringRunsFrom size start len offsets) =
      ((List.range len).map fun i => (start + i) % size) ++ offsets := by
  induction offsets generalizing start len with
  | nil =>
    unfold ringRunsFrom
    split
    · subst len; rfl
    · simp [runOffsets]
  | cons o rest ih =>
    obtain ⟨here, others⟩ := List.forall_mem_cons.mp inside
    have begins : runOffsets size (ringRunsFrom size o 1 rest) = o :: rest := by
      simp [ih o 1 others, Nat.mod_eq_of_lt here]
    unfold ringRunsFrom
    split
    · subst len; simpa using begins
    split
    · rename_i goesOn
      simp [ih start (len + 1) others, List.range_succ, goesOn.1]
    · rw [runOffsets, List.flatMap_cons]
      exact congrArg _ begins

theorem ringRunsFrom_lengths (start : Nat) {len : Nat} (short : len ≤ 8) (offsets : List Nat) :
    ∀ r ∈ ringRunsFrom size start len offsets, 1 ≤ r.2 ∧ r.2 ≤ 8 := by
  induction offsets generalizing start len with
  | nil =>
    unfold ringRunsFrom
    split
    · simp
    · simp only [List.mem_singleton, forall_eq]; omega
  | cons o rest ih =>
    unfold ringRunsFrom
    split
    · exact ih o (by omega)
    split
    · exact ih start (by omega)
    · exact List.forall_mem_cons.mpr ⟨by dsimp only; omega, ih o (by omega)⟩

theorem ringRunsFrom_broken (start : Nat) {len : Nat} (short : len ≤ 8) (offsets : List Nat) :
    RunsBroken size (ringRunsFrom size start len offsets) := by
  induction offsets generalizing start len with
  | nil =>
    unfold ringRunsFrom
    split
    · exact runsBroken_nil
    · exact runsBroken_one _
  | cons o rest ih =>
    unfold ringRunsFrom
    split
    · exact ih o (by omega)
    split
    · exact ih start (by omega)
    · rename_i ends
      obtain ⟨l, runs, next⟩ := ringRunsFrom_head (size := size) o Nat.one_ne_zero rest
      have others := ih o (len := 1) (by omega)
      rw [next] at others ⊢
      refine runsBroken_cons ?_ others
      by_cases goesOn : (start + len) % size = o
      · exact .inl (by dsimp only; omega)
      · exact .inr goesOn

/-- A span of a ring, 8 bytes at a time. -/
theorem spanRuns_eq (r : RingName) {start : Nat} (inside : start < size) (fuel : Nat) {n : Nat} (enough : n ≤ 8 * fuel) :
    spanRuns r start size fuel n =
      (List.range ((n + 7) / 8)).map fun i => (.ring r ((start + 8 * i) % size), min 8 (n - 8 * i)) := by
  induction fuel generalizing start n with
  | zero =>
    obtain rfl : n = 0 := by omega
    rfl
  | succ fuel ih =>
    unfold spanRuns
    split
    · subst n; rfl
    · have count : (n + 7) / 8 = (n - 8 + 7) / 8 + 1 := by omega
      rw [count, List.range_succ_eq_map, List.map_cons, List.map_map,
        ih (Nat.mod_lt _ (by omega)) (by omega)]
      congr 1
      · simp [Nat.mod_eq_of_lt inside]
      · refine List.map_congr_left fun i _ => ?_
        simp only [Function.comp_apply, Nat.mod_add_mod, Nat.succ_eq_add_one]
        rw [show start + 8 + 8 * i = start + 8 * (i + 1) by omega, Nat.sub_sub, show 8 + 8 * i = 8 * (i + 1) by omega]

end

/-- The runs of an inbound line: its cells' offsets in order, each run of 1 to 8 bytes and as long as it can be. -/
theorem textRuns_inbound {s : State} {cells : List (Option Nat)} (inside : ∀ o ∈ cells.filterMap id, o < s.inboundSize)
    (part : Bool) (start n : Nat) : ∃ runs : List (Nat × Nat),
      textRuns s (.inbound part start n cells) = runs.map (fun (o, l) => (.ring .inbound o, l)) ∧
      cells.filterMap id = runOffsets s.inboundSize runs ∧ (∀ r ∈ runs, 1 ≤ r.2 ∧ r.2 ≤ 8) ∧
      ∀ before x y after, runs = before ++ x :: y :: after → RunBroken s.inboundSize x y := by
  exact ⟨ringRunsFrom s.inboundSize 0 0 (cells.filterMap id), rfl, (runOffsets_ringRunsFrom 0 0 inside).symm,
    ringRunsFrom_lengths 0 (by omega) _, ringRunsFrom_broken 0 (by omega) _⟩

section
variable {s : State} {o n : Nat} (inside : o < s.spoolSize)
include inside

theorem textRuns_echoText (short : n ≤ 40) (m : Nat) : textRuns s (.echoText m o n) =
    (List.range ((n + 7) / 8)).map fun i => (.ring .spool ((o + 8 * i) % s.spoolSize), min 8 (n - 8 * i)) :=
  spanRuns_eq .spool inside 6 (n := n) (by omega)

/-- A field's label, in bursts of 8 and 4, comes before its value (log entry 46). -/
theorem textRuns_echoField (short : n ≤ 24) (m k f : Nat) :
    let label := s.work.map.form.base + (k - 1) * 256 + 14 + 14 * (f - 1)
    textRuns s (.echoField m k f o n) = [(.addr label, 8), (.addr (label + 8), 4)] ++
      (List.range ((n + 7) / 8)).map fun i => (.ring .spool ((o + 8 * i) % s.spoolSize), min 8 (n - 8 * i)) := by
  unfold textRuns
  dsimp only
  rw [spanRuns_eq .spool inside 6 (by omega)]
  rfl

end

/-! ## The codes of the columns (R144) -/

theorem cellCodes_get (cells : List (Option Nat)) (text : Text) (i : Nat) : (cellCodes cells text)[i]? =
    cells[i]?.map fun cell : Option Nat => cell.bind fun _ => text[((cells.take i).filterMap id).length]? := by
  induction cells generalizing text i with
  | nil => rfl
  | cons cell cells ih =>
    cases i with
    | zero => cases cell <;> cases text <;> rfl
    | succ i => cases cell <;> cases text <;> simp [cellCodes, ih]

theorem nameOf_eq (text : Text) : nameOf text = (text.take 12).takeWhile (· ≠ 0) := by
  unfold nameOf
  congr 1
  funext b
  exact Bool.eq_iff_iff.mpr (by simp)

section
variable {h : Hdu} {r i : Nat} {c : Byte}

theorem columnByte_glyph (kind : kindOf h.codes c = .glyph i) : columnByte h r (some c) =
    if i = 32 then (0, none) else if i < 128 then (Config.glyphRom i r, none)
    else if h.loaded.getLsbD (i - 128) = true then (0, some i) else (Config.glyphRom 127 r, none) := by
  unfold columnByte
  dsimp only
  rw [kind]
  rfl

theorem columnByte_substitute (kind : kindOf h.codes c = .substitute) :
    columnByte h r (some c) = (Config.glyphRom 127 r, none) := by
  unfold columnByte
  dsimp only
  rw [kind]

/-- LINE END, TAB and IGNORE show nothing. -/
theorem columnByte_blank (kind : kindOf h.codes c = .lineEnd ∨ kindOf h.codes c = .tab ∨ kindOf h.codes c = .ignored) :
    columnByte h r (some c) = (0, none) := by
  unfold columnByte
  dsimp only
  rcases kind with kind | kind | kind <;> rw [kind]

end

/-! ## The build of a row (R145, R146) -/

/-- What the 40 columns of a row show. -/
def rowColumns (s : State) (d : Descriptor) (row : Nat) (text : Text) : List (Byte × Option Nat) :=
  ((columnCodes s d text).take 40).map (columnByte s.hdu row)

/-- The build of a row with its text arrived and no overlay glyph read. -/
def textBuilt (s : State) (d : Descriptor) (row : Nat) (text : Text) : Build where
  row := row
  runs := []
  text := text
  texted := true
  glyphs := (rowColumns s d row text).zipIdx.filterMap fun (c, i) => c.2.map fun g => (i, glyphAddr s.work.map g row)
  cells := padTo 40 ((rowColumns s d row text).map Prod.fst)

/-- The head with this build, which stands in its buffer where no overlay glyph is left to read. -/
def Hdu.building (h : Hdu) (b : Build) : Hdu := if b.glyphs = [] then h.built b.row b.cells else { h with build := some b }

theorem setHdu_building {b : Build} (texted : b.texted = true) (s : State) :
    (if b.texted && b.glyphs == [] then s.setHdu (s.hdu.built b.row b.cells) else s.setHdu { s.hdu with build := some b }) =
      { s with hdu := s.hdu.building b } := by
  unfold Hdu.building
  by_cases whole : b.glyphs = []
  · rw [if_pos (by simp [texted, whole]), if_pos whole]; rfl
  · rw [if_neg (by simp [whole]), if_neg whole]; rfl

section
variable {s : State} {d : Descriptor} {rest : List Descriptor} {row : Nat} (list : s.pqu.list = d :: rest)
include list

theorem beginBuild_blank (blank : 12 ≤ row ∨ ∃ n, d = .feed n) :
    beginBuild row s = { s with hdu := s.hdu.built row noDots } := by
  unfold beginBuild
  rw [list]
  refine if_pos ?_
  rcases blank with low | ⟨n, rfl⟩
  · cases d <;> simp [low]
  · rfl

section
variable (inside : row < 12) (text : ∀ n, d ≠ .feed n)
include inside text

/-- A text row is built at once where it needs no burst. -/
theorem beginBuild_text : beginBuild row s =
    let b := if textRuns s d = [] then textBuilt s d row [] else ⟨row, textRuns s d, [], false, [], []⟩
    if b.texted && b.glyphs == [] then s.setHdu (s.hdu.built row b.cells) else s.setHdu { s.hdu with build := some b } := by
  unfold beginBuild
  rw [list]
  refine (if_neg ?_).trans ?_
  · cases d with
    | feed n => exact (text n rfl).elim
    | _ => simpa using inside
  · by_cases atOnce : textRuns s d = []
    · simp only [atOnce, if_true]
      rfl
    · simp only [atOnce, if_false]

theorem beginBuild_runs (needs : textRuns s d ≠ []) :
    beginBuild row s = { s with hdu := { s.hdu with build := some ⟨row, textRuns s d, [], false, [], []⟩ } } := by
  rw [beginBuild_text list inside text, if_neg needs]
  rfl

theorem beginBuild_atOnce (needs : textRuns s d = []) :
    beginBuild row s = { s with hdu := s.hdu.building (textBuilt s d row []) } := by
  rw [beginBuild_text list inside text, if_pos needs]
  exact setHdu_building rfl s

end

section
variable {b : Build} (build : s.hdu.build = some b) (data : Text)
include build

theorem rowTextRead_more {x y : Place × Nat} {ys : List (Place × Nat)} (runs : b.runs = x :: y :: ys) (waits : b.texted = false) :
    rowTextRead data s =
      { s with hdu := { s.hdu with build := some { b with runs := y :: ys, text := b.text ++ data } } } := by
  unfold rowTextRead
  rw [build, list]
  simp only [runs, List.drop_succ_cons, List.drop_zero, reduceCtorEq, if_false, waits, Bool.false_and, Bool.false_eq_true]
  rfl

theorem rowTextRead_last {x : Place × Nat} (runs : b.runs = [x]) :
    rowTextRead data s = { s with hdu := s.hdu.building (textBuilt s d b.row (b.text ++ data)) } := by
  unfold rowTextRead
  rw [build, list]
  simp only [runs, List.drop_succ_cons, List.drop_zero, if_true]
  exact setHdu_building (b := textBuilt s d b.row (b.text ++ data)) rfl s

end

end

theorem glyphRowRead_eq {s : State} {b : Build} {i a : Nat} {more : List (Nat × Nat)} (build : s.hdu.build = some b)
    (glyphs : b.glyphs = (i, a) :: more) (x : Byte) :
    glyphRowRead i [x] s = { s with hdu := s.hdu.building { b with glyphs := more, cells := b.cells.set i x } } := by
  have left : b.glyphs.drop 1 = more := by rw [glyphs]; rfl
  unfold glyphRowRead Hdu.building
  rw [build]
  dsimp only
  rw [left]
  split <;> rfl

end Sys2Proof.Machine
end

