-- ==== Sys2Proof/Proofs/RowPrinted.lean ====
section
/-! SUPPORT. A row from its start to its paper step (R146–R151, R158, R161–R163, R166): the head's sample and pause, the groups laid out
and begun, the phases' ends, and what a step's end does to the line in front. -/

namespace Sys2Proof.Machine

/-! ## What a finished line's release leaves alone (R138) -/

/-- The head and the line list. -/
def State.headAndList (s : State) : Hdu × List Descriptor := (s.hdu, s.pqu.list)

theorem headAndList_offerLines (fuel : Nat) (s : State) : (offerLines fuel s).headAndList = s.headAndList := by
  induction fuel generalizing s with
  | zero => rfl
  | succ fuel ih =>
    unfold offerLines
    split
    · split
      · rename_i text _ p placed
        refine (ih _).trans ?_
        obtain ⟨n, -, rfl⟩ := Option.map_eq_some_iff.mp placed
        rfl
      · rfl
    · split
      · rfl
      · exact ih _
    · rfl

theorem headAndList_flowTest (s : State) : (flowTest s).headAndList = s.headAndList := by
  rw [flowTest_eq]
  rfl

theorem headAndList_stationTaken (s : State) (b : Byte) (rest : Text) :
    (s.stationTaken b rest).headAndList = s.headAndList := by
  unfold State.stationTaken
  split
  · rfl
  · exact headAndList_flowTest _

theorem headAndList_takeIdleByte (b : Byte) (rest : Text) (s : State) :
    (takeIdleByte b rest s).headAndList = s.headAndList := by
  by_cases introducer : b = s.work.introducer
  · rw [takeIdleByte_introducer introducer]; rfl
  by_cases terminator : b = s.work.terminator
  · rw [takeIdleByte_terminator introducer terminator]; rfl
  cases refused : offerRefused s with
  | true => rw [takeIdleByte_refused introducer terminator refused]; rfl
  | false => rw [takeIdleByte_taken introducer terminator refused, headAndList_stationTaken]

theorem headAndList_reoffer (s : State) : (reoffer s).headAndList = s.headAndList := by
  unfold reoffer
  split
  · split
    · exact headAndList_takeIdleByte ..
    · rfl
  · rfl

theorem headAndList_countEcho (slot : Nat) (f : Nat → Nat) (s : State) : (countEcho slot f s).headAndList = s.headAndList := by
  unfold countEcho
  split <;> rfl

theorem headAndList_releaseLine (d : Descriptor) (s : State) : (releaseLine d s).headAndList = s.headAndList := by
  cases d with
  | inbound => exact (headAndList_reoffer _).trans (headAndList_flowTest _)
  | echoText => exact headAndList_countEcho ..
  | echoField slot => exact headAndList_countEcho slot (· - 1) s
  | notice => exact headAndList_offerLines ..
  | feed => rfl

section
variable {s : State} {d d' : Descriptor} {rest : List Descriptor}

/-- The front line leaves the list, and the head stands. -/
theorem headAndList_finishFront (front : s.pqu.list = d :: rest) : (finishFront s).hdu = s.hdu ∧ (finishFront s).pqu.list = rest := by
  rw [finishFront_cons front]
  exact Prod.ext_iff.mp (headAndList_releaseLine d (s.leaving rest))

/-- The ring after an inbound line's release, no byte waiting to be offered. -/
theorem ring_finishFront {part : Bool} {start n : Nat} {cells : List (Option Nat)}
    (front : s.pqu.list = .inbound part start n cells :: rest) (heard : s.du.blocked = false) :
    (finishFront s).pqu.ring = s.pqu.ring.release s.inboundSize n := by
  rw [finishFront_cons front]
  unfold releaseLine
  dsimp only
  rw [reoffer_none (by rw [blocked_flowTest]; exact heard), flowTest_eq]
  rfl

theorem finishFront_feed {n : Nat} (front : s.pqu.list = .feed n :: rest) : finishFront s = s.leaving rest :=
  finishFront_cons front

/-! ## A line finished (R138, R162, R163) -/

/-- The head with nothing of a line in hand. -/
def Hdu.lineLeft (h : Hdu) : Hdu :=
  { h with active := none, next := 0, nextDone := [], rowBuf := none, nextBuf := none, build := none, resume := none }

theorem Hdu.lineLeft_of_no_row {h : Hdu} (none' : h.active = none) : h.lineLeft =
    { h with next := 0, nextDone := [], rowBuf := none, nextBuf := none, build := none, resume := none } := by
  unfold Hdu.lineLeft
  rw [none']

/-- `s` with the front line gone from the head and the list. -/
def State.frontLeft (s : State) : State := finishFront (s.setHdu s.hdu.lineLeft)

theorem frontLeft_keeps (front : s.pqu.list = d :: rest) : s.frontLeft.hdu = s.hdu.lineLeft ∧ s.frontLeft.pqu.list = rest :=
  headAndList_finishFront (s := s.setHdu s.hdu.lineLeft) front

theorem frontLeft_feed {n : Nat} (front : s.pqu.list = .feed n :: rest) :
    s.frontLeft = (s.setHdu s.hdu.lineLeft).leaving rest := finishFront_feed front

theorem lineFinished_eq (s : State) : lineFinished s = match s.frontLeft.pqu.list with
    | [] => s.frontLeft.setHdu { s.frontLeft.hdu with head := .idle, pauseTimer := false }
    | d :: _ => if s.frontLeft.hdu.head = .paused
        then s.frontLeft.setHdu { s.frontLeft.hdu with resume := some (resumeAt d 0 []) } else s.frontLeft := rfl

theorem lineFinished_last (front : s.pqu.list = [d]) :
    lineFinished s = s.frontLeft.setHdu { s.hdu.lineLeft with head := .idle, pauseTimer := false } := by
  obtain ⟨hdu, list⟩ := frontLeft_keeps front
  rw [lineFinished_eq, list, hdu]

theorem lineFinished_printing (front : s.pqu.list = d :: d' :: rest) (printing : s.hdu.head = .printing) :
    lineFinished s = s.frontLeft := by
  obtain ⟨hdu, list⟩ := frontLeft_keeps front
  rw [lineFinished_eq, list, hdu]
  exact if_neg (by simp [Hdu.lineLeft, printing])

theorem lineFinished_paused (front : s.pqu.list = d :: d' :: rest) (paused : s.hdu.head = .paused) :
    lineFinished s = s.frontLeft.setHdu { s.hdu.lineLeft with resume := some (resumeAt d' 0 []) } := by
  obtain ⟨hdu, list⟩ := frontLeft_keeps front
  rw [lineFinished_eq, list, hdu]
  exact if_pos paused

theorem lineFinished_fed {n : Nat} (front : s.pqu.list = [.feed n]) :
    lineFinished s = (s.setHdu { s.hdu.lineLeft with head := .idle, pauseTimer := false }).leaving [] := by
  rw [lineFinished_last front, frontLeft_feed front]
  rfl

theorem lineFinished_fed_paused {n : Nat} (front : s.pqu.list = .feed n :: d :: rest) (paused : s.hdu.head = .paused) :
    lineFinished s = (s.setHdu { s.hdu.lineLeft with resume := some (resumeAt d 0 []) }).leaving (d :: rest) := by
  rw [lineFinished_paused front paused, frontLeft_feed front]
  rfl

end

/-! ## A paper-feed step ended (R146, R163, R166) -/

section
variable {s : State} {a : ActiveRow} {left : Nat}

theorem exec_feedStepEnd {celsius : Int} {e : State} (awake : s.pm.power.awake = true) (stepping : s.hdu.stepping = true)
    (effect : stepEnded { s with pins := { s.pins with thermistor := celsius } } = e) :
    exec (.feedStepEnd celsius) s = .next (finish e) :=
  guarded_eq (by simp [awake, stepping]) effect

/-- The head with the row in hand fed. -/
def Hdu.rowFed (h : Hdu) : Hdu := { h with stepping := false, prev := h.rowBuf.getD noDots }

section
variable (printing : s.hdu.head = .printing) (active : s.hdu.active = some a) (feeding : a.phase = .feeding)
include printing active feeding

theorem stepEnded_row : stepEnded s = if a.row + 1 < s.frontRows
    then s.setHdu { s.hdu.rowFed with
      active := none, next := a.row + 1, nextDone := [], rowBuf := s.hdu.nextBuf, nextBuf := none }
    else lineFinished (s.setHdu s.hdu.rowFed) := by
  unfold stepEnded
  dsimp only
  split
  case h_1 b _ active' =>
    obtain rfl : a = b := Option.some.inj (active.symm.trans active')
    exact if_pos feeding
  all_goals simp_all

theorem stepEnded_next (more : a.row + 1 < s.frontRows) : stepEnded s = s.setHdu { s.hdu.rowFed with
    active := none, next := a.row + 1, nextDone := [], rowBuf := s.hdu.nextBuf, nextBuf := none } :=
  (stepEnded_row printing active feeding).trans (if_pos more)

theorem stepEnded_lineEnd (last : s.frontRows ≤ a.row + 1) : stepEnded s = lineFinished (s.setHdu s.hdu.rowFed) :=
  (stepEnded_row printing active feeding).trans (if_neg (Nat.not_lt.mpr last))

end

/-- `s` with the paper at rest. -/
def State.stepStopped (s : State) : State := s.setHdu { s.hdu with stepping := false }

/-- A step that ends while PAUSED in a FEED counts one row (log entry 15). -/
theorem stepEnded_fed (paused : s.hdu.head = .paused) (resume : s.hdu.resume = some (.feed left)) : stepEnded s =
    if 1 < left then s.setHdu { s.hdu with stepping := false, resume := some (.feed (left - 1)) }
    else lineFinished s.stepStopped := by
  unfold stepEnded
  dsimp only
  split
  case h_3 n _ resume' =>
    obtain rfl : left = n := by simpa using resume.symm.trans resume'
    rfl
  all_goals simp_all

end

/-! ## A row's start (R146, R158, R159, R161) -/

section
variable {s : State} {d : Descriptor} {rest : List Descriptor} (list : s.pqu.list = d :: rest)
  (printing : s.hdu.head = .printing) (none' : s.hdu.active = none) (still : s.hdu.stepping = false) (cold : s.hdu.energised = [])
include list printing none' still cold

/-- The sample of a row start comes first, whatever cause then pauses the head (log entry 15). -/
theorem rowStart_pauses (cause : (s.hdu.sample s.pins.thermistor).anyCause = true) : rowStart s =
    pausedAt (resumeAt d s.hdu.next s.hdu.nextDone) (s.setHdu (s.hdu.sample s.pins.thermistor)) := by
  unfold rowStart
  rw [list]
  refine (if_pos ⟨printing, none', by simp [still], cold⟩).trans ?_
  exact (if_pos cause).trans (pauseHead_eq ..)

theorem rowStart_begins (cause : ¬ (s.hdu.sample s.pins.thermistor).anyCause = true) : rowStart s =
    s.setHdu { s.hdu.sample s.pins.thermistor with
      active := some ⟨s.hdu.next, tempBand s.pins.thermistor, .waiting, [], s.hdu.nextDone⟩, nextDone := [] } := by
  unfold rowStart
  rw [list]
  refine (if_pos ⟨printing, none', by simp [still], cold⟩).trans ?_
  exact if_neg cause

end

/-! ## Strobes (R147–R151) -/

section
variable {s : State} {a : ActiveRow}

theorem exec_warmPhaseEnd {t : Strobe} (energised : t ∈ s.hdu.energised) (warm : t.inWarm = true) (cold : t.hasCold = true) :
    exec (.warmPhaseEnd t.group) s = .next (finish { s with hdu := { s.hdu with
      energised := s.hdu.energised.map fun u => if u.group = t.group then { u with inWarm := false } else u } }) :=
  guarded_of (List.any_eq_true.mpr ⟨t, energised, by simp [warm, cold]⟩) _ s

theorem exec_strobeEnd {t : Strobe} (energised : t ∈ s.hdu.energised) (last : ¬ (t.inWarm = true ∧ t.hasCold = true)) :
    exec (.strobeEnd t.group) s = .next (finish { s with hdu := { s.hdu with
      energised := s.hdu.energised.filter fun u => u.group != t.group } }) := by
  have last' : (t.inWarm && t.hasCold) = false := Bool.eq_false_iff.mpr fun both => last (Bool.and_eq_true_iff.mp both)
  exact guarded_of (List.any_eq_true.mpr ⟨t, energised, by rw [last', beq_self_eq_true]; rfl⟩) _ s

theorem layOut_eq {p : Text} (active : s.hdu.active = some a) (built : s.hdu.rowBuf = some p) (waiting : a.phase = .waiting)
    (unloaded : s.hdu.loading = none) (printing : s.hdu.head = .printing) :
    layOut s = { s with hdu := { s.hdu with active := some { a with
      phase := .strobing, todo := (List.range' 1 8).filter fun g => hasStrobe s a p g && !a.begun.contains g } } } := by
  unfold layOut
  rw [active, built]
  exact if_pos ⟨waiting, unloaded, printing⟩

theorem newDots_eq (g : Nat) (pattern prev : Text) :
    newDots g pattern prev = List.zipWith (fun x y => x &&& ~~~y) (share g pattern) (share g prev) := by
  unfold newDots
  rw [List.zip_eq_zipWith, List.map_zipWith]

/-- A cold phase needs a new dot and time left after the warm one (R149). -/
theorem strobeOf_hasCold_iff (p : Text) (g : Nat) : (strobeOf s a p g).hasCold = true ↔
    (∃ x ∈ (strobeOf s a p g).new, x ≠ 0) ∧ (strobeOf s a p g).warm < (strobeOf s a p g).base := by
  unfold strobeOf
  simp only [Bool.and_eq_true, List.any_eq_true, bne_iff_ne, Nat.sub_ne_zero_iff_lt]

theorem hasStrobe_iff (p : Text) (g : Nat) : hasStrobe s a p g = true ↔
    (∃ x ∈ (strobeOf s a p g).share, x ≠ 0) ∧ ((strobeOf s a p g).inWarm = true ∨ (strobeOf s a p g).hasCold = true) := by
  unfold hasStrobe
  simp only [Bool.and_eq_true, Bool.or_eq_true, List.any_eq_true, bne_iff_ne]

section
variable {g : Nat} {todo : List Nat} (active : s.hdu.active = some a) (next : a.todo = g :: todo)
include active next

theorem startStrobes_begins (phase : a.phase = .strobing) (printing : s.hdu.head = .printing)
    (room : s.hdu.energised.length < s.hdu.limit) (n : Nat) :
    startStrobes (n + 1) s = startStrobes n { s with
      hdu := { s.hdu with
        energised := s.hdu.energised ++ [strobeOf s a (s.hdu.rowBuf.getD noDots) g]
        active := some { a with todo := todo, begun := a.begun ++ [g] } }
      ksu := { s.ksu with scan := s.ksu.scan.map fun c => { c with disturbed := true } } } := by
  rw [startStrobes, active]
  dsimp only
  rw [next]
  refine (if_pos ⟨phase, printing, room⟩).trans ?_
  unfold disturb
  rw [if_neg (by simp [State.setHdu])]
  rfl

theorem startStrobes_limited (full : s.hdu.limit ≤ s.hdu.energised.length) (n : Nat) : startStrobes (n + 1) s = s := by
  rw [startStrobes, active]
  dsimp only
  rw [next]
  exact if_neg fun ⟨_, _, room⟩ => Nat.not_lt.mpr full room

end

end

/-! ## The obligation -/

/-- Settles O45: the phases' and the step's ends, then the row's start, its text, its build and its strobes, each by its rule. -/
theorem rowPrinted : Obligations.RowPrinted := by
  intro s
  refine ⟨?_, fun celsius awake stepping => ?_, fun d rest list printing none' still cold => ?_, ⟨?_, ?_, ?_, fun n => ⟨rfl, rfl⟩⟩,
    fun text => ⟨?_, fun m o n => rfl, ?_, fun n => rfl, fun n => rfl⟩, fun d rest row list => ⟨?_, ?_, ?_⟩,
    fun d rest b data list build => ⟨?_, ?_, ?_⟩, fun row p => rfl,
    fun r c => ⟨rfl, fun i => columnByte_glyph, columnByte_substitute, columnByte_blank⟩, fun a p => layOut_eq, fun a p g => ?_,
    fun a g todo n active next phase printing => ⟨fun room => ?_, fun full => ?_⟩⟩
  · rintro g t energised rfl
    exact ⟨exec_warmPhaseEnd energised, exec_strobeEnd energised⟩
  · intro u
    have step : ∀ {e : State}, stepEnded u = e → exec (.feedStepEnd celsius) s = .next (finish e) := exec_feedStepEnd awake stepping
    refine ⟨fun a printing active feeding => ⟨fun more => ?_, fun d list last => ?_, fun d d' rest list last => ?_⟩,
      fun n left rest paused none' resume last list => ?_, fun left paused _ resume more => ?_⟩
    · exact step (stepEnded_next (s := u) printing active feeding more)
    · have line : stepEnded u = lineFinished (u.setHdu s.hdu.rowFed) :=
        stepEnded_lineEnd (s := u) printing active feeding (Nat.le_trans (Nat.le_of_eq (frontRows_eq (s := u) list)) last)
      have front : (u.setHdu s.hdu.rowFed).pqu.list = [d] := list
      refine ⟨_, step (line.trans (lineFinished_last front)), (frontLeft_keeps front).2, rfl, ?_, ?_⟩
      · rintro n rfl
        rw [frontLeft_feed front]
        exact ⟨rfl, rfl⟩
      · rintro part start n cells rfl heard
        exact ring_finishFront (s := (u.setHdu s.hdu.rowFed).setHdu _) front heard
    · have line : stepEnded u = lineFinished (u.setHdu s.hdu.rowFed) :=
        stepEnded_lineEnd (s := u) printing active feeding (Nat.le_trans (Nat.le_of_eq (frontRows_eq (s := u) list)) last)
      exact step (line.trans (lineFinished_printing (s := u.setHdu s.hdu.rowFed) list printing))
    · intro h
      have counted : stepEnded u = lineFinished u.stepStopped :=
        (stepEnded_fed (s := u) paused resume).trans (if_neg (Nat.not_lt.mpr last))
      have cleared : u.stepStopped.hdu.lineLeft = h := Hdu.lineLeft_of_no_row none'
      refine step (counted.trans ?_)
      cases rest with
      | nil =>
        rw [lineFinished_fed (s := u.stepStopped) list, cleared]
        rfl
      | cons d' rest =>
        rw [lineFinished_fed_paused (s := u.stepStopped) list paused, cleared]
        cases d' <;> rfl
    · exact step ((stepEnded_fed (s := u) paused resume).trans (if_pos more))
  · intro h cause
    have cause_iff : h.anyCause = true ↔ cause := anyCause_iff h
    by_cases c : cause
    · rw [rowStart_pauses list printing none' still cold (cause_iff.mpr c),
        ite_congr (propext (and_iff_right c)) (fun _ => rfl) (fun _ => rfl), if_pos c]
      cases d <;> rfl
    · rw [rowStart_begins list printing none' still cold (mt cause_iff.mp c), if_neg fun both => c both.1, if_neg c]
      rfl
  · exact fun part start n cells inside => textRuns_inbound inside part start n
  · exact fun m o n inside short => textRuns_echoText inside short m
  · exact fun m k f o n inside short => textRuns_echoField inside short m k f
  · exact fun part start n cells i => cellCodes_get cells text i
  · intro m k f o n
    rw [← nameOf_eq]
    rfl
  · exact beginBuild_blank list
  · exact beginBuild_runs list
  · exact beginBuild_atOnce list
  · exact fun x y ys => rowTextRead_more list build data
  · exact fun x => rowTextRead_last list build data
  · exact fun i a more x glyphs => glyphRowRead_eq build glyphs x
  · exact ⟨rfl, rfl, rfl, rfl, newDots_eq g p s.hdu.prev, bne_iff_ne, strobeOf_hasCold_iff p g, hasStrobe_iff p g, rfl⟩
  · exact startStrobes_begins active next phase printing room n
  · exact startStrobes_limited active next full n

end Sys2Proof.Machine
end

