-- ==== Sys2Proof/Proofs/PrintTables.lean ====
section
/-! SUPPORT. The strobe durations and the loads of the print tables (R143, R148, R152–R156): rounding, what a load applied changes, the
line boundary at which the waiting loads are applied, and an LG's writes. -/

namespace Sys2Proof.Machine

/-! ## Rounding (R148) -/

/-- A whole number of sixteenths rounds to within half of itself. -/
theorem roundSixteenths_nearest (n : Nat) : roundSixteenths n * 16 ≤ n + 8 ∧ n ≤ roundSixteenths n * 16 + 8 := by
  have parts : 16 * (n / 16) + n % 16 = n := Nat.div_add_mod n 16
  unfold roundSixteenths
  dsimp only
  split
  · omega
  split <;> omega

/-- An exact half goes to the even neighbour. -/
theorem roundSixteenths_half_even {n : Nat} (half : n % 16 = 8) : roundSixteenths n % 2 = 0 := by
  have rounds : roundSixteenths n = n / 16 + n / 16 % 2 := by simp [roundSixteenths, half]
  omega

/-- The density is its code less 4. -/
theorem effectiveBase_eq (w : Settings) (t : TempBand) (b : BatteryBand) :
    effectiveBase w t b = roundSixteenths (w.heat.getD (3 * t.row + b.column) 0 * (16 + w.density - 4)) := by
  have sixteenths : 16 + w.density - 4 = 12 + w.density := by omega
  rw [sixteenths]
  rfl

/-! ## Row 0 built again (R152) -/

/-- `s` with the rows built and the build in progress dropped, and the row in hand waiting for its build (log entry 55). -/
def State.rowsDropped (s : State) : State := { s with
  jmc := if s.hdu.build.isSome = true then s.jmc.abandon .hdu else s.jmc
  hdu := { s.hdu with
    build := none, rowBuf := none, nextBuf := none
    active := s.hdu.active.map fun a => { a with phase := .waiting, todo := [] } } }

theorem rebuild_eq (s : State) : rebuild s = s.rowsDropped := by
  unfold rebuild State.rowsDropped
  dsimp only
  split <;> rfl

/-! ## A load applied (R153–R156) -/

section
variable (c : Ctx) (s : State)

theorem applyLoad_codesDefault : applyLoad c .codesDefault s =
    ended c .done [] [] { s.rowsDropped with hdu := { s.rowsDropped.hdu with codes := defaultCodes } } := by
  unfold applyLoad
  rw [rebuild_eq]
  exact finishDirective_eq ..

theorem applyLoad_codes (first : Nat) (ks : List CodeKind) : applyLoad c (.codes first ks) s =
    ended c .done [] [] { s.rowsDropped with hdu := { s.rowsDropped.hdu with codes := putCodes s.hdu.codes first ks } } := by
  unfold applyLoad
  rw [rebuild_eq]
  exact finishDirective_eq ..

theorem applyLoad_heat (row h m l : Nat) : applyLoad c (.heat row h m l) s =
    ended c .done [] [] { s.rowsDropped with
      work := { s.work with heat := ((s.work.heat.set (3 * row) h).set (3 * row + 1) m).set (3 * row + 2) l } } := by
  unfold applyLoad
  rw [rebuild_eq]
  exact finishDirective_eq ..

theorem applyLoad_density (code : Nat) (warm : Option Nat) : applyLoad c (.density code warm) s =
    ended c .done [] [] { s.rowsDropped with
      work := { s.work with density := code, warm := warm.getD s.work.warm } } := by
  unfold applyLoad
  rw [rebuild_eq]
  exact finishDirective_eq ..

/-- An LG answers nothing yet: its writes begin. -/
theorem applyLoad_glyphs (first : Nat) (rows : Text) : applyLoad c (.glyphs first rows) s =
    { s.rowsDropped with hdu := { s.rowsDropped.hdu with
      loading := some ⟨c, first, rows.length / 12, writesAt (s.work.map.glyph.base + (first - 128) * 12) rows⟩ } } := by
  unfold applyLoad glyphAddr
  rw [rebuild_eq]
  simp only [Nat.add_zero]
  rfl

end

/-! ## The code table after an LC (R143, R153) -/

/-- A directive's end leaves the head. -/
theorem hdu_ended (c : Ctx) (o : Outcome) (data : Text) (lines : List AnswerLine) (s : State) :
    (ended c o data lines s).hdu = s.hdu := by
  cases c with
  | line => rfl
  | service => exact congrArg Prod.fst (headAndList_offerLines 20 _)

theorem codes_applyLoad (c : Ctx) (first : Nat) (ks : List CodeKind) (s : State) :
    (applyLoad c (.codes first ks) s).hdu.codes = putCodes s.hdu.codes first ks := by
  rw [applyLoad_codes, hdu_ended]

/-- The entries put stand from `first` on, and every other entry as it was. -/
theorem putCodes_get {codes : List CodeKind} {first : Nat} {ks : List CodeKind} (inside : first + ks.length ≤ codes.length) (i : Nat) :
    (putCodes codes first ks)[i]? = if first ≤ i ∧ i < first + ks.length then ks[i - first]? else codes[i]? := by
  induction ks generalizing codes first with
  | nil => exact (if_neg (by rw [List.length_nil]; omega)).symm
  | cons k ks ih =>
    rw [List.length_cons] at inside ⊢
    have rest := ih (codes := codes.set first k) (first := first + 1) (by rw [List.length_set]; omega)
    rw [putCodes, rest]
    rcases Nat.lt_trichotomy i first with before | here | after
    · rw [if_neg (by omega), if_neg (by omega), List.getElem?_set_ne (by omega)]
    · subst here
      rw [if_neg (by omega), if_pos (by omega), List.getElem?_set_self (by omega), Nat.sub_self, List.getElem?_cons_zero]
    · have place : i - first = i - (first + 1) + 1 := by omega
      rw [List.getElem?_set_ne (by omega), place, List.getElem?_cons_succ]
      exact ite_congr (propext ⟨fun _ => by omega, fun _ => by omega⟩) (fun _ => rfl) (fun _ => rfl)

/-! ## The line boundary (R152) -/

section
variable {s : State}

theorem atBoundary_empty (list : s.pqu.list = []) : atBoundary s = true := by
  unfold atBoundary
  rw [list]

theorem atBoundary_idle (idle : s.hdu.head = .idle) : atBoundary s = true := by
  unfold atBoundary
  split
  · rfl
  · rw [idle]

section
variable {d : Descriptor} {rest : List Descriptor} (list : s.pqu.list = d :: rest)
include list

/-- A row 0 without strobe stands at the boundary till its paper step (log entry 40). -/
theorem atBoundary_row_iff {a : ActiveRow} (printing : s.hdu.head = .printing) (active : s.hdu.active = some a) :
    atBoundary s = true ↔ a.row = 0 ∧ a.begun = [] ∧ a.phase ≠ .feeding := by
  unfold atBoundary
  rw [list]
  dsimp only
  rw [printing, active]
  simp only [Bool.and_eq_true, beq_iff_eq, bne_iff_ne, and_assoc]

theorem atBoundary_between_iff (printing : s.hdu.head = .printing) (none' : s.hdu.active = none) :
    atBoundary s = true ↔ s.hdu.next = 0 ∧ s.hdu.nextDone = [] ∧ s.hdu.stepping = false := by
  unfold atBoundary
  rw [list]
  dsimp only
  rw [printing, none']
  simp only [Bool.and_eq_true, beq_iff_eq, Bool.not_eq_true', and_assoc]

/-- PAUSED with groups of row 0 done is no boundary (log entry 40). -/
theorem atBoundary_paused_iff (paused : s.hdu.head = .paused) :
    atBoundary s = true ↔ s.hdu.resume = some (resumeAt d 0 []) := by
  unfold atBoundary
  rw [list]
  dsimp only
  rw [paused]
  exact beq_iff_eq

end

/-! ## The waiting loads (R152) -/

section
variable {c : Ctx} {l : Load} {rest : List (Ctx × Load)} (front : s.hdu.loads = (c, l) :: rest) (k : Nat)
include front

theorem applyLoads_front : applyLoads (k + 1) s = if s.hdu.loading = none ∧ atBoundary s = true
    then applyLoads k (applyLoad c l { s with hdu := { s.hdu with loads := rest } }) else s := by
  rw [applyLoads, front]
  rfl

theorem applyLoads_applies (unloaded : s.hdu.loading = none) (boundary : atBoundary s = true) :
    applyLoads (k + 1) s = applyLoads k (applyLoad c l { s with hdu := { s.hdu with loads := rest } }) :=
  (applyLoads_front front k).trans (if_pos ⟨unloaded, boundary⟩)

theorem applyLoads_waits (waits : s.hdu.loading.isSome = true ∨ atBoundary s = false) : applyLoads (k + 1) s = s := by
  refine (applyLoads_front front k).trans (if_neg fun ⟨unloaded, boundary⟩ => ?_)
  rcases waits with loading | elsewhere
  · rw [unloaded] at loading
    cases loading
  · rw [boundary] at elsewhere
    cases elsewhere

end

/-! ## An LG's writes (R154) -/

section
variable {g : GlyphLoad} (loading : s.hdu.loading = some g)
include loading

theorem glyphsWritten_more {x y : Nat × Text} {ys : List (Nat × Text)} (todo : g.todo = x :: y :: ys) :
    glyphsWritten s = { s with hdu := { s.hdu with loading := some { g with todo := y :: ys } } } := by
  unfold glyphsWritten
  rw [loading]
  dsimp only
  rw [todo]
  rfl

theorem glyphsWritten_last {x : Nat × Text} (todo : g.todo = [x]) : glyphsWritten s = ended g.ctx .done [] [] { s with
    hdu := { s.hdu with loading := none, loaded := s.hdu.loaded ||| glyphFlags g.first g.count }
    spu := s.spu.dueItem .header } := by
  unfold glyphsWritten
  rw [loading]
  dsimp only
  rw [todo]
  exact finishDirective_eq ..

end

end

/-- The flags of `k` glyphs from index `g` on, flag 0 that of index 128. -/
theorem glyphFlags_bit {g : Nat} (overlay : 128 ≤ g) (k : Nat) {i : Nat} (flag : i < 64) :
    (glyphFlags g k).getLsbD i = true ↔ g ≤ i + 128 ∧ i + 128 < g + k := by
  induction k with
  | zero =>
    have clear : (glyphFlags g 0).getLsbD i = false := BitVec.getLsbD_zero
    rw [clear]
    simp only [Bool.false_eq_true, false_iff]
    omega
  | succ n ih =>
    have one : ((1#64) <<< (g - 128 + n)).getLsbD i = true ↔ i = g - 128 + n := by
      simp only [BitVec.getLsbD_shiftLeft, BitVec.getLsbD_one, flag, decide_true, Bool.true_and, Bool.and_eq_true,
        Bool.not_eq_true', decide_eq_false_iff_not, decide_eq_true_eq]
      omega
    rw [glyphFlags, BitVec.getLsbD_or, Bool.or_eq_true, ih, one]
    omega

/-- Settles O46: the durations, each load applied, the code table after an LC, the boundary by the head's state, and an LG's writes. -/
theorem heatAndPrintTables : Obligations.HeatAndPrintTables := by
  intro w n t b on
  refine ⟨⟨(roundSixteenths_nearest n).1, (roundSixteenths_nearest n).2, roundSixteenths_half_even⟩, effectiveBase_eq w t b, rfl,
    rfl, rfl, rfl, rfl, rfl, rfl, rfl, rfl, fun s first row h m l code warm rows ks c => ?_,
    fun s c first i ks whole inside _ => ?_, fun s c l rest k front => ⟨applyLoads_applies front k, applyLoads_waits front k⟩,
    fun s => ⟨fun h => h.elim atBoundary_empty atBoundary_idle, fun d rest list => ?_⟩,
    fun s g loading => ⟨fun x y ys => glyphsWritten_more loading, fun x => glyphsWritten_last loading⟩,
    fun g k i overlay => glyphFlags_bit overlay k⟩
  · exact ⟨applyLoad_codesDefault c s, applyLoad_codes c s first ks, applyLoad_heat c s row h m l,
      applyLoad_density c s code warm, applyLoad_glyphs c s first rows⟩
  · rw [codes_applyLoad]
    exact ⟨rfl, putCodes_get (by rw [whole]; exact inside) i⟩
  · refine ⟨fun a => atBoundary_row_iff list, atBoundary_between_iff list, fun paused => ?_⟩
    rw [atBoundary_paused_iff list paused, resumeAt_eq]
    cases d <;> rfl

end Sys2Proof.Machine
end

