-- ==== Sys2Proof/Proofs/LineText.lean ====
section
/-! SUPPORT. A directive's text over the line (R168–R171): what the grammar's reading of it gives, and what a byte does in
COLLECTING. -/

namespace Sys2Proof.Machine

/-! ## A directive read (R170) -/

/-- A letter read as its capital is read so again. -/
theorem upper_upper (b : Byte) : upper (upper b) = upper b := by
  by_cases small : 0x61 ≤ b.toNat ∧ b.toNat ≤ 0x7A
  · have capital : (b - 0x20).toNat + 0x20 = b.toNat := by
      rw [BitVec.toNat_sub]
      simp only [BitVec.reduceToNat]
      omega
    have once : upper b = b - 0x20 := if_pos small
    rw [once]
    exact if_neg (by omega)
  · have once : upper b = b := if_neg small
    rw [once, once]

theorem asRead_asRead (args : List Text) : asRead (asRead args) = asRead args := by
  unfold asRead
  simp only [List.map_map, Function.comp_def, upper_upper]

/-- The arguments of a directive's text stand as the directive reads them, in the form check 1 asks for. -/
theorem parseDirective_args {t : Text} {d : Dir} {args : List Text} (read : parseDirective t = .directive d args) :
    asRead args = args ∧ argsOk d args = true := by
  unfold parseDirective at read
  split at read
  case h_2 => cases read
  case h_1 a b x y rest =>
    cases cut : splitArgs rest with
    | none => simp [cut] at read
    | some given =>
      cases named : Dir.ofLetters [upper a, upper b] with
      | none =>
        simp only [cut, named] at read
        split at read <;> cases read
      | some e =>
        simp only [cut, named] at read
        split at read
        · cases read
        split at read
        · rename_i ok
          cases read
          exact ⟨asRead_asRead given, ok⟩
        · cases read

/-! ## The end of a text (R169–R171) -/

section
variable {s : State} {b : Byte} {rest t : Text} {tag : Nat} {head : Text}

theorem handReport_room (room : s.pe.reports.length < 4) (tag : Nat) (o : Outcome) (data : Text) :
    handReport tag o data s = { s with pe := { s.pe with reports := s.pe.reports ++ [⟨tag, o.code :: data, 0⟩] } } :=
  if_pos room

/-- A refusal over the line: its report, and the context IDLE under the text's tag. -/
theorem answer_line (room : s.pe.reports.length < 4) (o : Outcome) : answer o .line (occupy .line tag head s) = { s with
    pe := { s.pe with reports := s.pe.reports ++ [⟨tag, [o.code], 0⟩] }
    du := { s.du with line := ⟨.idle, [], false, tag, none, false⟩ } } := by
  have reported : ¬ ((occupy .line tag head s).du.line.orphan = true ∨ 4 ≤ (occupy .line tag head s).pe.reports.length) := by
    rw [pe_occupy]
    rintro (orphan | full)
    · cases orphan
    · exact Nat.not_le.mpr room full
  unfold answer
  rw [finishDirective_eq]
  unfold ended
  dsimp only
  rw [if_neg reported]
  rfl

theorem beginText_line_refused {o : Outcome} (room : s.pe.reports.length < 4) (read : parseDirective t = .refused o) :
    beginText .line t s = { s with
      pe := { s.pe with reports := s.pe.reports ++ [⟨tagOf t, [o.code], 0⟩] }
      du := { s.du with line := ⟨.idle, [], false, tagOf t, none, false⟩ } } := by
  unfold beginText
  rw [read]
  exact answer_line room o

/-- `s` with the LINE context in IDLE after a text of this tag. -/
def State.lineIdled (s : State) (tag : Nat) : State :=
  { s with du := { s.du with line := ⟨.idle, [], false, tag, none, false⟩ } }

theorem ctxFree_lineIdled (awake : s.pm.power.awake = true) (runs : s.pm.restarting = false)
    (session : s.clu.line = .ready ∨ s.clu.line = .fade) (room : s.pe.reports.length < 4) (tag : Nat) :
    ctxFree .line (s.lineIdled tag) = true := by
  have inSession : s.clu.line.inSession = true := by rcases session with h | h <;> rw [h] <;> rfl
  simp [ctxFree, State.lineIdled, awake, runs, inSession, room]

/-- A text that spells a directive is that directive's command on the context gone IDLE. -/
theorem beginText_line_directive {d : Dir} {args : List Text} (read : parseDirective t = .directive d args)
    (free : ctxFree .line (s.lineIdled (tagOf t)) = true) :
    .next (finish (beginText .line t s)) = exec (d.command .line (tagOf t) args) (s.lineIdled (tagOf t)) := by
  obtain ⟨same, ok⟩ := parseDirective_args read
  rw [exec_command_free free, same]
  unfold beginText
  rw [read]
  dsimp only
  rw [if_pos ok]
  rfl

/-! ## A byte in COLLECTING (R169) -/

/-- LINE_INPUT_BYTE in COLLECTING takes the front byte. -/
theorem exec_lineInputByte_collecting (awake : s.pm.power.awake = true) (runs : s.pm.restarting = false)
    (input : s.du.input = b :: rest) (heard : s.du.blocked = false) (collecting : s.du.line.state = .collecting) :
    exec .lineInputByte s = .next (finish (collectByte b rest s)) := by
  refine guarded_eq (by simp [awake, runs, input, heard, collecting]) ?_
  unfold lineInputByte
  rw [input, collecting]

/-- `s` with the front byte of the line input queue taken, and the LINE context as this. -/
def State.lineTaken (s : State) (rest : Text) (l : LineContext) : State := { s with du := { s.du with input := rest, line := l } }

section
variable (plain : b ≠ s.work.introducer) (text : b ≠ s.work.terminator)
include plain text

theorem collectByte_joins (short : s.du.line.collection.length < 120) :
    collectByte b rest s = s.lineTaken rest { s.du.line with collection := s.du.line.collection ++ [b] } :=
  (if_neg text).trans ((if_neg plain).trans (if_pos short))

theorem collectByte_overlong (full : 120 ≤ s.du.line.collection.length) :
    collectByte b rest s = s.lineTaken rest { s.du.line with overlong := true } :=
  (if_neg text).trans ((if_neg plain).trans (if_neg (Nat.not_lt.mpr full)))

end

section
variable (terminator : b = s.work.terminator) (room : s.pe.reports.length < 4)
include terminator room

theorem collectByte_tooLong (overlong : s.du.line.overlong = true) : collectByte b rest s = { s with
    pe := { s.pe with reports := s.pe.reports ++ [⟨tagOf s.du.line.collection, [Outcome.tooLong.code], 0⟩] }
    du := { s.du with input := rest, line := ⟨.idle, [], false, tagOf s.du.line.collection, none, false⟩ } } :=
  (if_pos terminator).trans ((if_neg (Nat.not_le.mpr room)).trans ((if_pos overlong).trans
    (answer_line (s := s.lineTaken rest s.du.line) room .tooLong)))

theorem collectByte_text (whole : s.du.line.overlong = false) :
    collectByte b rest s = beginText .line s.du.line.collection (s.lineTaken rest s.du.line) :=
  (if_pos terminator).trans ((if_neg (Nat.not_le.mpr room)).trans (if_neg (by simp [whole])))

end

/-- An introducer ends the text in hand, and another begins. -/
theorem collectByte_again (introducer : b = s.work.introducer) (text : b ≠ s.work.terminator) (room : s.pe.reports.length < 4) :
    collectByte b rest s = { s with
      pe := { s.pe with reports := s.pe.reports ++ [⟨tagOf s.du.line.collection,
        [if s.du.line.overlong = true then Outcome.tooLong.code else Outcome.malformed.code], 0⟩] }
      du := { s.du with input := rest, line := { s.du.line with collection := [], overlong := false } } } := by
  have took : collectByte b rest s =
      handReport (tagOf s.du.line.collection) (if s.du.line.overlong = true then .tooLong else .malformed) []
        (s.lineTaken rest { s.du.line with collection := [], overlong := false }) :=
    (if_neg text).trans ((if_pos introducer).trans (if_neg (Nat.not_le.mpr room)))
  rw [took, handReport_room (by exact room)]
  cases s.du.line.overlong <;> rfl

/-- With the report queue full, the byte that would end the text stays. -/
theorem collectByte_stays (ends : b = s.work.terminator ∨ b = s.work.introducer) (full : 4 ≤ s.pe.reports.length) :
    collectByte b rest s = s := by
  by_cases terminator : b = s.work.terminator
  · exact (if_pos terminator).trans (if_pos full)
  · exact (if_neg terminator).trans ((if_pos (ends.resolve_left terminator)).trans (if_pos full))

end

/-- Settles O43: IDLE by the byte, COLLECTING by the byte, the room for a report and what the text in hand spells. -/
theorem lineBytes : Obligations.LineBytes := by
  intro s b rest awake runs input heard
  have idles := exec_lineInputByte_idle awake runs input heard
  have collects := exec_lineInputByte_collecting awake runs input heard
  refine ⟨fun idle introducer => ?_, fun idle plain terminator => ?_, fun collecting plain text short => ?_,
    fun collecting plain text full => ?_, fun collecting terminator room overlong => ?_,
    fun collecting terminator room whole => ⟨fun o read => ?_, fun d args read session => ?_⟩,
    fun collecting introducer text room => ?_, fun collecting ends full => ?_⟩
  · simp only [idles idle, takeIdleByte_introducer introducer, heard]
  · simp only [idles idle, takeIdleByte_terminator plain terminator, heard]
  · rw [collects collecting, collectByte_joins plain text short]
    rfl
  · rw [collects collecting, collectByte_overlong plain text full]
    rfl
  · rw [collects collecting, collectByte_tooLong terminator room overlong]
  · rw [collects collecting, collectByte_text terminator room whole,
      beginText_line_refused (s := s.lineTaken rest s.du.line) room read]
    rfl
  · rw [collects collecting, collectByte_text terminator room whole]
    exact beginText_line_directive (s := s.lineTaken rest s.du.line) read (ctxFree_lineIdled awake runs session room _)
  · rw [collects collecting, collectByte_again introducer text room]
  · rw [collects collecting, collectByte_stays ends full]

end Sys2Proof.Machine
end

