-- ==== Sys2Proof/Proofs/Status.lean ====
section
/-! SUPPORT. QS (R176, R177): the values it reports, which the context it begins in does not change, and the counters it clears. -/

namespace Sys2Proof.Machine

/-! ## The data of QS (Table 12.4) -/

/-- The OUTSTANDING slots, counted one by one. -/
theorem outstanding_length (p : Pe) :
    p.outstanding.length = boolCode (p.slot .a).isOutstanding + boolCode (p.slot .b).isOutstanding := by
  have counted : p.outstanding.length =
      boolCode (p.slot p.older).isOutstanding + boolCode (p.slot p.older.other).isOutstanding := by
    unfold Pe.outstanding Pe.byAge
    cases first : (p.slot p.older).isOutstanding <;> cases second : (p.slot p.older.other).isOutstanding <;>
      simp [boolCode, first, second]
  rw [counted]
  cases p.older with
  | a => rfl
  | b => exact Nat.add_comm ..

/-- The data after the thirteen counters. -/
theorem qsData_drop_counters (s : State) : (qsData s).drop 13 =
    [s.clu.line.code, s.clu.lastEnd.code, boolCode s.pe.held, boolCode s.pe.stationHold,
      boolCode (s.pe.slot .a).isOutstanding + boolCode (s.pe.slot .b).isOutstanding, s.pe.reports.length,
      s.pqu.notices.countP (fun n => n.status != .free), s.hdu.head.code, s.hdu.causeCode].map byteOf ++
    BitVec.ofInt 8 s.hdu.reading ::
    [s.hdu.band.code, boolCode s.hdu.resumeAtZero, s.pm.band.code, s.kcu.state.code, boolCode s.kcu.lock].map byteOf ++
    (EntryState.all.map fun st => byteOf (s.spu.countIn st)) ++
    byteOf s.pqu.list.length :: s.pqu.list.map fun d => byteOf d.streamCode := by
  rw [← outstanding_length]
  rfl

/-! ## The rule -/

section
variable {d : Dir} {c : Ctx} {tag : Nat} {s : State} {x : Text} {n : Nat}

theorem qsData_begun : qsData (begun d c tag s) = qsData s := by
  unfold qsData counters
  simp only [pe_begun, spu_begun, clu_begun, kcu_begun, ksu_begun, pqu_begun, hdu_begun, pm_begun]

theorem qsLines_begun : qsLines (begun d c tag s) = qsLines s := by
  unfold qsLines counters
  simp only [pe_begun, spu_begun, clu_begun, kcu_begun, ksu_begun, pqu_begun, hdu_begun, pm_begun]

theorem clearCounters_begun : clearCounters (begun d c tag s) = begun d c tag (clearCounters s) := clearCounters_occupy ..

section
variable (may : admits .qs c s = true)
include may

theorem ruleQs_begun_none : ruleQs c [] (begun .qs c tag s) =
    answered .qs c tag .done (qsData s) ((qsLines s).map .text) s := by
  simp only [ruleQs, Bool.false_eq_true, if_false, qsData_begun, qsLines_begun, finish_begun may]

theorem ruleQs_begun_zero (zero : decimal x = some 0) : ruleQs c [x] (begun .qs c tag s) =
    answered .qs c tag .done (qsData s) ((qsLines s).map .text) s := by
  simp only [ruleQs, zero, Bool.false_eq_true, if_false, qsData_begun, qsLines_begun, finish_begun may]

/-- QS 1 reports the counters as they stood, and clears them. -/
theorem ruleQs_begun_one (one : decimal x = some 1) : ruleQs c [x] (begun .qs c tag s) =
    answered .qs c tag .done (qsData s) ((qsLines s).map .text) (clearCounters s) := by
  have room : c = .line → (clearCounters s).pe.reports.length < 4 := fun line => by
    rw [clearCounters_eq]
    exact room_of_ctxFree (line ▸ ctxFree_of_admits may)
  simp only [ruleQs, one, if_true, qsData_begun, qsLines_begun, clearCounters_begun]
  exact finishDirective_occupy room

theorem ruleQs_begun_range (number : decimal x = some n) (above : 1 < n) :
    ruleQs c [x] (begun .qs c tag s) = answered .qs c tag .range [] [] s := by
  obtain ⟨m, rfl⟩ : ∃ m, n = m + 2 := ⟨n - 2, by omega⟩
  simp only [ruleQs, number, answer_begun may]

end

end

/-- Settles O52: QS as its rule answers on the state in which its context executes, which shows the same values, then the data and
their codes. -/
theorem statusReported : Obligations.StatusReported := by
  intro c tag args s may
  refine ⟨fun plain => ?_, fun x n read number above => ?_, fun x read one => ?_, rfl, ?_, rfl, rfl, rfl, rfl, rfl, rfl⟩
  · rcases plain with read | ⟨x, read, zero⟩
    · exact exec_numbers (d := .qs) (l := []) may read rfl (ruleQs_begun_none may)
    · exact exec_numbers (d := .qs) (l := [0]) may read (by simp [decimals, zero]) (ruleQs_begun_zero may zero)
  · exact exec_numbers (d := .qs) (l := [n]) may read (by simp [decimals, number]) (ruleQs_begun_range may number above)
  · rw [← clearCounters_eq]
    exact exec_numbers (d := .qs) (l := [1]) may read (by simp [decimals, one]) (ruleQs_begun_one may one)
  · have kinds : (s.pqu.list.map fun d => byteOf d.streamCode) = s.pqu.list.map fun d => match d with
        | .inbound .. => 0
        | .echoText .. => 1
        | .echoField .. => 1
        | .notice _ => 2
        | .feed _ => 3 := List.map_congr_left fun d _ => by cases d <;> rfl
    have row : boolCode s.hdu.resumeAtZero = match s.hdu.resume with
        | some (.text 0 _) => 1
        | _ => 0 := by
      unfold Hdu.resumeAtZero
      rcases s.hdu.resume with _ | ⟨_ | _, _⟩ | _ <;> rfl
    rw [qsData_drop_counters, kinds, row]
    rfl

end Sys2Proof.Machine
end

