-- ==== Sys2Proof/Proofs/Steps.lean ====
section
/-! SUPPORT. A step by the shape of the queue of commands (log entry 1). -/

namespace Sys2Proof.Machine

variable {s : State}

/-- On an empty queue the block idles. -/
theorem step_of_pending_nil (empty : s.pending = []) : step s = .next s := by
  simp only [step, empty]

/-- The command at the queue's front runs on the state that keeps the queue's rest, and nothing else of the state changes before. -/
theorem step_of_pending_cons {c : Instr} {rest : List Instr} (front : s.pending = c :: rest) :
    step s = exec c (s.setPending rest) := by
  simp only [step, front]

/-- Settles O1: a step by the two shapes of the queue; putting the rest in the queue is the record update the statement writes
out. -/
theorem stepRunsFront : Obligations.StepRunsFront := by
  refine ⟨fun c rest s front => ?_, fun s empty => ?_⟩
  · calc
      step s = exec c (s.setPending rest) := step_of_pending_cons front
      _ = exec c { s with pending := rest } := rfl
  · exact step_of_pending_nil empty

end Sys2Proof.Machine
end
